-- ==== Sys2Proof/Word.lean ====
section
/-! DEFINITION. The plain value types of the hardware (00_scope.md R10, R11): bytes, 32-bit words, and the narrow
unsigned fields of packets and registers. Nothing in this hardware is signed. -/

namespace Sys2Proof

/-- An 8-bit byte of the wire or of a buffer (R62). -/
abbrev Byte := BitVec 8

/-- A 32-bit register value or command word (R64, R110). -/
abbrev Word := BitVec 32

/-- A sequence or acknowledgement number, modulo 32 (R6, R97). -/
abbrev SeqNum := BitVec 5

/-- A channel number, 0 to 7 (R98). -/
abbrev Channel := BitVec 3

/-- A packet-size class `k`; the packet size is `2^k` bytes (R24). -/
abbrev SizeClass := BitVec 4

end Sys2Proof
end

