-- ==== Sys2Proof/Config.lean ====
section
/-! DEFINITION. What is fixed for this hardware (00_scope.md R6: the implementation parameters), the reset values of
the configuration registers (10_state.md R35), and the free values the spec leaves open (U7, U8). -/

namespace Sys2Proof.Config

/-- `LEAD_IN` (R6, R92): the first byte of every packet. -/
def leadIn : Byte := 0x07

/-- `CHDRLEN` (R6, R90). -/
def headerLen : Nat := 6

/-- `CTRLLEN` (R6, R90). -/
def trailerLen : Nat := 4

/-- `WIN_MAX` (R6, R180). -/
def winMax : Nat := 16

/-- `K_MIN` (R6). -/
def kMin : Nat := 5

/-- `K_MAX` (R6). -/
def kMax : Nat := 10

/-- `SLOT_BYTES` (R6): payload bytes of one slot, `2^K_MAX`. -/
def slotBytes : Nat := 1024

/-- `NSLOT` (R6): slots of the send-buffer pool and entries of the reorder buffer. -/
def nSlot : Nat := 32

/-- The `ID` register's constant (R1, R35). -/
def idValue : Word := 0x02040007

/-- Reset value of `CFG0` (R35, R44): `WIN_REQ = 16`, `K_REQ = 10`, `DUPACK_NAK = 0`, `RESEND_AHEAD = 1`. -/
def cfg0Reset : Word := 0x00020A10

/-- Reset value of `CFG1` (R35, R44): `MAX_RETRIES = 10`, `TIMEOUT = 10`. -/
def cfg1Reset : Word := 0x000A000A

/-- Reset value of `CFG2` (R35, R44): `ERR_LIMIT = 100`, `NEG_ERR_LIMIT = 10`, `DECAY_K = 10`. -/
def cfg2Reset : Word := 0x0A0A0064

/-- First offset of the buffer window `BUFWIN` (R60, R68). -/
def bufWinBase : Nat := 0x8000

/-- FREE VALUE (R40, R44, R67, U7; log 3). What the byte at an address of the `SLOT` data memory holds after the reset
number `epoch` if nothing has written it since: "unspecified". It has no body, so nothing can be proved of it. -/
opaque freeSlotByte (epoch addr : Nat) : Byte

/-- FREE VALUE (R41, R44, U8; log 3). The same for the `REORD` data memory. -/
opaque freeReordByte (epoch addr : Nat) : Byte

end Sys2Proof.Config
end

