-- ==== Sys2Proof/Syntax.lean ====
section
/-! DEFINITION. The two encoded instruction sets of the block as one inductive (30_encoding.md): the five packets it
receives from the wire (R93, R104) and the six commands its host gives it (R110, R111). One constructor per row of
spec/opcode_table.json. -/

namespace Sys2Proof

/-- The type of a packet (R93). Types 5, 6 and 7 are reserved and have no constructor (U1). -/
inductive PktType where
  | data
  | sync
  | ack
  | nak
  | close
deriving DecidableEq, Repr

/-- The header fields every packet carries besides its type, length and check byte (R91, R92). Which of them mean
something depends on the type (R94, R98); the others are "sent as 0, ignored on receipt" (U2). -/
structure Hdr where
  /-- `SEQ`, R92, R96, R97. -/
  seq : SeqNum
  /-- `LCH`, R92, R98. -/
  lch : Channel
  /-- `ACK`, R92, R99. -/
  ack : SeqNum
  /-- `RCH`, R92, R98. -/
  rch : Channel
  /-- `F`, R94: `EOM` in DATA, `REPLY` in SYNC. -/
  f : Bool
deriving DecidableEq, Repr

/-- An instruction: a packet accepted from the wire, or a command word of the host. -/
inductive Instr where
  /-- DATA packet (R232): a numbered payload of 0 to 1024 bytes. -/
  | data (h : Hdr) (payload : List Byte)
  /-- SYNC packet (R237): the peer's window `win` and packet-size class `k` (R103). -/
  | sync (h : Hdr) (win k : Byte)
  /-- ACK packet (R235). -/
  | ack (h : Hdr)
  /-- NAK packet (R236): `SEQ` is the missing packet (R96). -/
  | nak (h : Hdr)
  /-- CLOSE packet (R241). -/
  | close (h : Hdr)
  /-- START command (R203); `role` is `FLAG`: true for caller. -/
  | start (role : Bool)
  /-- GET_BUF command (R204). -/
  | getBuf
  /-- SEND_DATA command (R205). -/
  | sendData (eom : Bool) (lch rch : Channel) (len : BitVec 12)
  /-- WAIT command (R206). -/
  | wait
  /-- SHUTDOWN command (R207). -/
  | shutdown
  /-- FILE command (R208); `flag` is 1 where a file transfer begins. -/
  | file (flag : Bool) (lch rch : Channel)
deriving DecidableEq, Repr

end Sys2Proof
end

