-- ==== Sys2Proof/Decode.lean ====
section
/-! DEFINITION. The codec: the CRC-32 of the trailer (40_codec.md R133), the packet image (R131, R135), the decoder's
reading of the head of the receive buffer (R137, R138, R140: garbage, incomplete, `MalformedHeader`,
`ChecksumMismatch` or a packet), the command words (30_encoding.md R110 to R112), the encoder, and the reading of a
word of spec/opcode_table.json. -/

namespace Sys2Proof

/-! ### The checksum -/

/-- One round of the bit-reflected division of R133. -/
def crcBit (c : Word) : Word :=
  if c.getLsbD 0 then (c >>> 1) ^^^ 0xEDB88320#32 else c >>> 1

/-- `n` rounds of `crcBit`. -/
def crcBits : Nat → Word → Word
  | 0, c => c
  | n + 1, c => crcBits n (crcBit c)

/-- The CRC register after one more byte (R133). -/
def crcByte (c : Word) (b : Byte) : Word :=
  crcBits 8 (c ^^^ b.setWidth 32)

/-- `k c`, with the word `c` brought to a numeral first, so that the kernel never carries a long chain of rounds
(`withNumeral_eq`). -/
def withNumeral {α : Type} (c : Word) (k : Word → α) : α :=
  match c.toNat with
  | 0 => k 0
  | n + 1 => k (BitVec.ofNat 32 (n + 1))

/-- The CRC register after the bytes, one after the other (R133; `crcFold_eq_foldl`). -/
def crcFold : List Byte → Word → Word
  | [], c => c
  | b :: rest, c => withNumeral (crcByte c b) fun d => crcFold rest d

/-- `CRC32(bytes)` (R133): initial value and final exclusive or `0xFFFFFFFF`. -/
def crc32 (bytes : List Byte) : Word :=
  crcFold bytes 0xFFFFFFFF#32 ^^^ 0xFFFFFFFF#32

/-- The four trailer bytes of a CRC value, most significant first (R134). -/
def trailerBytes (c : Word) : List Byte :=
  [c.extractLsb' 24 8, c.extractLsb' 16 8, c.extractLsb' 8 8, c.extractLsb' 0 8]

/-! ### Packet headers -/

/-- The `TYPE` code of a packet type (R93). -/
def PktType.code : PktType → BitVec 3
  | .data => 0
  | .sync => 1
  | .ack => 2
  | .nak => 3
  | .close => 4

/-- The packet type of a `TYPE` code; 5, 6 and 7 are reserved (R93, R105). -/
def PktType.ofCode (c : BitVec 3) : Option PktType :=
  match c.toNat with
  | 0 => some .data
  | 1 => some .sync
  | 2 => some .ack
  | 3 => some .nak
  | 4 => some .close
  | _ => none

/-- The six bytes of a header (R91), `b0` first on the wire. -/
structure RawHeader where
  b0 : Byte
  b1 : Byte
  b2 : Byte
  b3 : Byte
  b4 : Byte
  b5 : Byte
deriving DecidableEq, Repr

/-- The header's bytes in wire order (R91). -/
def RawHeader.bytes (h : RawHeader) : List Byte :=
  [h.b0, h.b1, h.b2, h.b3, h.b4, h.b5]

/-- The check byte the other five bytes call for (R101). -/
def RawHeader.xchk (h : RawHeader) : Byte :=
  h.b0 ^^^ h.b1 ^^^ h.b2 ^^^ h.b3 ^^^ h.b4

/-- The header with its check byte set right (R101). -/
def RawHeader.sealed (h : RawHeader) : RawHeader :=
  { h with b5 := h.xchk }

/-- One bit as a bit-vector. -/
def bit1 (b : Bool) : BitVec 1 := BitVec.ofBool b

/-- `encode_header` (R131). -/
def encodeHeader (ty : PktType) (h : Hdr) (len : BitVec 12) : RawHeader :=
  RawHeader.sealed
    { b0 := Config.leadIn
      b1 := h.seq ++ h.lch
      b2 := h.ack ++ h.rch
      b3 := ty.code ++ bit1 h.f ++ len.extractLsb' 8 4
      b4 := len.extractLsb' 0 8
      b5 := 0 }

/-- Header parse (R137): the fields of the header. -/
def RawHeader.fields (h : RawHeader) : Hdr :=
  { seq := h.b1.extractLsb' 3 5
    lch := h.b1.extractLsb' 0 3
    ack := h.b2.extractLsb' 3 5
    rch := h.b2.extractLsb' 0 3
    f := h.b3.getLsbD 4 }

/-- Header parse (R137): `type`, where it is not a reserved code. -/
def RawHeader.pktType (h : RawHeader) : Option PktType :=
  PktType.ofCode (h.b3.extractLsb' 5 3)

/-- Header parse (R137): `len`, split over bytes 3 and 4, high part first. -/
def RawHeader.len (h : RawHeader) : BitVec 12 :=
  h.b3.extractLsb' 0 4 ++ h.b4

/-- The length a packet of this type may have (R95, R138); `maxLen` is `2^ACCEPT_K`. -/
def lenOk (maxLen : Nat) (ty : PktType) (len : Nat) : Bool :=
  match ty with
  | .data => decide (len ≤ maxLen)
  | .sync => decide (len = 2)
  | .ack => decide (len = 0)
  | .nak => decide (len = 0)
  | .close => decide (len = 0)

/-- `hdr_ok` (R138). -/
def RawHeader.ok (maxLen : Nat) (h : RawHeader) : Bool :=
  decide (h.b0 = Config.leadIn) && decide (h.b5 = h.xchk) &&
    match h.pktType with
    | none => false
    | some ty => lenOk maxLen ty h.len.toNat

/-- The bytes the trailer covers (R102, R132): `b2`, `b3`, `b4`, then the payload. -/
def coveredBytes (h : RawHeader) (payload : List Byte) : List Byte :=
  h.b2 :: h.b3 :: h.b4 :: payload

/-! ### Packet images -/

/-- `encode` (R135): header, payload, trailer. -/
def encodePacket (ty : PktType) (h : Hdr) (payload : List Byte) : List Byte :=
  let raw := encodeHeader ty h (BitVec.ofNat 12 payload.length)
  raw.bytes ++ payload ++ trailerBytes (crc32 (coveredBytes raw payload))

/-- What the decoder finds at the head of the receive buffer (R105, R140). -/
inductive FrameResult where
  /-- The buffer is empty, or holds less than one whole candidate packet: wait for more bytes. -/
  | incomplete
  /-- The first byte is not the lead-in: it is skipped (R140). -/
  | garbage
  /-- `hdr_ok` is false: `MalformedHeader` (R105, R138). -/
  | malformedHeader
  /-- The trailer is not the CRC of the covered bytes: `ChecksumMismatch` (R105). -/
  | checksumMismatch
  /-- A packet, and the bytes behind it. -/
  | packet (i : Instr) (rest : List Byte)
deriving DecidableEq, Repr

/-- The packet of a type with its fields and payload. A SYNC has exactly two payload bytes (R103). -/
def packetOf (ty : PktType) (h : Hdr) (payload : List Byte) : Option Instr :=
  match ty with
  | .data => some (.data h payload)
  | .sync =>
    match payload with
    | [win, k] => some (.sync h win k)
    | _ => none
  | .ack => some (.ack h)
  | .nak => some (.nak h)
  | .close => some (.close h)

/-- A candidate packet whose header is complete: `hdr_ok`, then the length, then the CRC (R140, R305 (b)). -/
def decodeBody (maxLen : Nat) (raw : RawHeader) (body : List Byte) : FrameResult :=
  if raw.ok maxLen then
    let n := raw.len.toNat
    if body.length < n + Config.trailerLen then .incomplete
    else
      let payload := body.take n
      if (body.drop n).take Config.trailerLen = trailerBytes (crc32 (coveredBytes raw payload)) then
        match raw.pktType with
        | none => .malformedHeader
        | some ty =>
          match packetOf ty raw.fields payload with
          | none => .malformedHeader
          | some i => .packet i (body.drop (n + Config.trailerLen))
      else .checksumMismatch
  else .malformedHeader

/-- One look of the decoder at the head of the buffer (R140). `maxLen` is `2^ACCEPT_K`. -/
def decodeFrame (maxLen : Nat) (buf : List Byte) : FrameResult :=
  match buf with
  | b0 :: b1 :: b2 :: b3 :: b4 :: b5 :: body =>
    if b0 = Config.leadIn then decodeBody maxLen ⟨b0, b1, b2, b3, b4, b5⟩ body else .garbage
  | b0 :: _ => if b0 = Config.leadIn then .incomplete else .garbage
  | [] => .incomplete

/-! ### Command words -/

/-- Why a command word is no operation (R112). -/
inductive CmdError where
  /-- `OP` is `0x00` or `0x07` to `0xFF`: answered `BAD_OP`. -/
  | reservedOp
  /-- A bit that must be 0 for the operation is 1: answered `BAD_ARG`. -/
  | mustBeZero
deriving DecidableEq, Repr

/-- `OP`, bits 7..0 of a command word (R110). -/
def cmdOp (w : Word) : BitVec 8 := w.extractLsb' 0 8

/-- `FLAG`, bit 8 (R110). -/
def cmdFlag (w : Word) : Bool := w.getLsbD 8

/-- `LCH`, bits 11..9 (R110). -/
def cmdLch (w : Word) : Channel := w.extractLsb' 9 3

/-- `RCH`, bits 14..12 (R110). -/
def cmdRch (w : Word) : Channel := w.extractLsb' 12 3

/-- `LEN`, bits 27..16 (R110). -/
def cmdLen (w : Word) : BitVec 12 := w.extractLsb' 16 12

/-- The operation `i` if `(w & mask) = match`, else the word breaks a must-be-0 bit (R111, R112). -/
def cmdRow (mask pattern w : Word) (i : Instr) : Except CmdError Instr :=
  if w &&& mask = pattern then .ok i else .error .mustBeZero

/-- The operation a command word stands for (R111), or why it stands for none (R112). -/
def decodeCommand (w : Word) : Except CmdError Instr :=
  match (cmdOp w).toNat with
  | 1 => cmdRow 0xFFFFFEFF 0x00000001 w (.start (cmdFlag w))
  | 2 => cmdRow 0xFFFFFFFF 0x00000002 w .getBuf
  | 3 => cmdRow 0xF00080FF 0x00000003 w (.sendData (cmdFlag w) (cmdLch w) (cmdRch w) (cmdLen w))
  | 4 => cmdRow 0xFFFFFFFF 0x00000004 w .wait
  | 5 => cmdRow 0xFFFFFFFF 0x00000005 w .shutdown
  | 6 => cmdRow 0xFFFF80FF 0x00000006 w (.file (cmdFlag w) (cmdLch w) (cmdRch w))
  | _ => .error .reservedOp

/-- A command word from its fields, bits 31 to 0 in order (R110). -/
def commandWord (len : BitVec 12) (rch lch : Channel) (flag : Bool) (op : BitVec 8) : Word :=
  (0#4 ++ len ++ 0#1 ++ rch ++ lch ++ bit1 flag ++ op : BitVec (4 + 12 + 1 + 3 + 3 + 1 + 8))

/-! ### The encoder and the whole decoder -/

/-- An instruction as the hardware sees it: the bytes of a packet on the wire, or a command word. -/
inductive Image where
  | packet (bytes : List Byte)
  | command (w : Word)
deriving DecidableEq, Repr

/-- The packet image or command word of an instruction (R110, R111, R135). -/
def encode : Instr → Image
  | .data h payload => .packet (encodePacket .data h payload)
  | .sync h win k => .packet (encodePacket .sync h [win, k])
  | .ack h => .packet (encodePacket .ack h [])
  | .nak h => .packet (encodePacket .nak h [])
  | .close h => .packet (encodePacket .close h [])
  | .start role => .command (commandWord 0 0 0 role 1)
  | .getBuf => .command (commandWord 0 0 0 false 2)
  | .sendData eom lch rch len => .command (commandWord len rch lch eom 3)
  | .wait => .command (commandWord 0 0 0 false 4)
  | .shutdown => .command (commandWord 0 0 0 false 5)
  | .file flag lch rch => .command (commandWord 0 rch lch flag 6)

/-- Why an image is no instruction, by name. -/
inductive DecodeError where
  /-- No lead-in at the head (R105). -/
  | noLeadIn
  /-- Fewer bytes than one packet. -/
  | incomplete
  /-- `MalformedHeader` (R105). -/
  | malformedHeader
  /-- `ChecksumMismatch` (R105). -/
  | checksumMismatch
  /-- Bytes behind the packet: more than one packet image. -/
  | trailingBytes
  /-- `BAD_OP` (R112). -/
  | reservedOp
  /-- `BAD_ARG` (R112). -/
  | mustBeZero
deriving DecidableEq, Repr

/-- Decode one whole image; a DATA packet may be up to `maxLen` bytes (R95). -/
def decode (maxLen : Nat) : Image → Except DecodeError Instr
  | .packet bytes =>
    match decodeFrame maxLen bytes with
    | .incomplete => .error .incomplete
    | .garbage => .error .noLeadIn
    | .malformedHeader => .error .malformedHeader
    | .checksumMismatch => .error .checksumMismatch
    | .packet i rest => if rest = [] then .ok i else .error .trailingBytes
  | .command w =>
    match decodeCommand w with
    | .ok i => .ok i
    | .error .reservedOp => .error .reservedOp
    | .error .mustBeZero => .error .mustBeZero

/-! ### Words of spec/opcode_table.json -/

/-- The header whose 48 bits the table numbers with `b0` in bits 47..40 (R91, R104). -/
def headerOfTableWord (w : Nat) : RawHeader :=
  let v := BitVec.ofNat 48 w
  { b0 := v.extractLsb' 40 8
    b1 := v.extractLsb' 32 8
    b2 := v.extractLsb' 24 8
    b3 := v.extractLsb' 16 8
    b4 := v.extractLsb' 8 8
    b5 := v.extractLsb' 0 8 }

/-- The packet on the wire that a 48-bit row of the table stands for (DESIGN CHOICE, log 9). The table fixes neither the
check byte nor the payload nor the trailer; the payload is zeros, and `XCHK` and the trailer, which carry no information
of their own (R101, R102), are what the other bits call for. -/
def frameOfTableWord (w : Nat) : List Byte :=
  let raw := (headerOfTableWord w).sealed
  let payload := List.replicate raw.len.toNat 0
  raw.bytes ++ payload ++ trailerBytes (crc32 (coveredBytes raw payload))

/-- The image of a table word of 48 bits (a packet) or 32 bits (a command). -/
def imageOfTableWord (nbits w : Nat) : Option Image :=
  match nbits with
  | 48 => some (.packet (frameOfTableWord w))
  | 32 => some (.command (BitVec.ofNat 32 w))
  | _ => none

/-- The instruction the decoder reads from a table word, none where it refuses. -/
def decodeTableWord (nbits w : Nat) : Option Instr :=
  match imageOfTableWord nbits w with
  | none => none
  | some img =>
    match decode Config.slotBytes img with
    | .ok i => some i
    | .error _ => none

end Sys2Proof
end

