-- ==== Sys2Proof/Machine/State.lean ====
section
/-! DEFINITION. Every piece of state the spec gives one PXE instance (10_state.md R20), as plain data, with its reset
values (R44), and the reasons a step of the model can stop. -/

namespace Sys2Proof.Machine

open Sys2Proof

/-- The control-position register `PSTATE` (R28). The codes 6 and 7 are never taken (U6) and have no constructor. -/
inductive PState where
  | unstarted
  | negotiating
  | ready
  | closing
  | closed
  | failed
deriving DecidableEq, Repr

/-- `PEND` (R30): the pending blocking command. -/
inductive Pend where
  | none
  | start
  | sendData
  | wait
deriving DecidableEq, Repr

/-- `FAIL_CAUSE` (R30, R301). The codes 5 to 255 are never produced (U6) and have no constructor. -/
inductive FailCause where
  | none
  | retryExhausted
  | errLimit
  | ioError
  | negErrLimit
deriving DecidableEq, Repr

/-- The window register file (R22): eight 5-bit registers, each a sequence number mod 32. -/
structure WindowRegs where
  /-- `x[0]` `NEXT_SEQ`. -/
  nextSeq : SeqNum
  /-- `x[1]` `LAST_ACKED`. -/
  lastAcked : SeqNum
  /-- `x[2]` `LAST_RECV`. -/
  lastRecv : SeqNum
  /-- `x[3]` `LAST_ACK_SENT`. -/
  lastAckSent : SeqNum
  /-- `x[4]` `NEXT_RETX`. -/
  nextRetx : SeqNum
  /-- `x[5]` `CAUTION_SEQ`. -/
  cautionSeq : SeqNum
  /-- `x[6]` `NAKED_SEQ`. -/
  nakedSeq : SeqNum
  /-- `x[7]` `BUF_SLOT`. -/
  bufSlot : SeqNum
deriving DecidableEq, Repr

/-- The negotiated-size registers (R24). -/
structure SizeRegs where
  /-- `LWIN`. -/
  lwin : BitVec 5
  /-- `RWIN`. -/
  rwin : BitVec 5
  /-- `LPKT_K`. -/
  lpktK : SizeClass
  /-- `RPKT_K`. -/
  rpktK : SizeClass
  /-- `ACCEPT_K`. -/
  acceptK : SizeClass
  /-- `NEG_PKT_K`. -/
  negPktK : SizeClass
deriving DecidableEq, Repr

/-- The status flags (R31), one bit each. -/
structure StatusFlags where
  /-- `ROLE`. -/
  role : Bool
  /-- `CLOSING_F`. -/
  closingF : Bool
  /-- `BUF_OWNED`. -/
  bufOwned : Bool
  /-- `CAUTIOUS`. -/
  cautious : Bool
  /-- `REJ_SEEN`. -/
  rejSeen : Bool
  /-- `ACK_PENDING`. -/
  ackPending : Bool
  /-- `NAKED_VALID`. -/
  nakedValid : Bool
  /-- `SENT_SYNC`. -/
  sentSync : Bool
  /-- `GOT_SYNC`. -/
  gotSync : Bool
  /-- `EOM_SEEN`. -/
  eomSeen : Bool
  /-- `CFGERR` (sticky). -/
  cfgErr : Bool
  /-- `BUFVIOL` (sticky). -/
  bufViol : Bool
deriving DecidableEq, Repr

/-- The session counters (R32). -/
structure Counters where
  /-- `ERRCNT`. -/
  errcnt : BitVec 16
  /-- `GOODCNT`. -/
  goodcnt : BitVec 8
  /-- `RETRY`. -/
  retry : BitVec 8
  /-- `GARBAGE`. -/
  garbage : BitVec 32
deriving DecidableEq, Repr

/-- The statistics counters (R33). -/
structure Stats where
  /-- `STAT_TX`. -/
  tx : BitVec 32
  /-- `STAT_RETX`. -/
  retx : BitVec 32
  /-- `STAT_RX`. -/
  rx : BitVec 32
  /-- `STAT_HDRERR`. -/
  hdrerr : BitVec 32
  /-- `STAT_CRCERR`. -/
  crcerr : BitVec 32
  /-- `STAT_TIMEOUT`. -/
  timeout : BitVec 32
deriving DecidableEq, Repr

/-- The configuration registers (R35 to R38), each the whole 32-bit word the host wrote. -/
structure ConfigRegs where
  /-- `CFG0`. -/
  cfg0 : Word
  /-- `CFG1`. -/
  cfg1 : Word
  /-- `CFG2`. -/
  cfg2 : Word
deriving DecidableEq, Repr

/-- One slot of the send-buffer pool (R40), less its data bytes, which stand in `State.slotMem`. -/
structure SlotRec where
  /-- `INUSE`. -/
  inuse : Bool
  /-- `LCH`. -/
  lch : Channel
  /-- `RCH`. -/
  rch : Channel
  /-- `EOM`. -/
  eom : Bool
  /-- `LEN`, 0 to 1024. -/
  len : BitVec 11
deriving DecidableEq, Repr

/-- One entry of the Receive Reorder Buffer (R41), less its data bytes, which stand in `State.reordMem`. -/
structure ReordRec where
  /-- `VALID`. -/
  valid : Bool
  /-- `LCH`. -/
  lch : Channel
  /-- `RCH`. -/
  rch : Channel
  /-- `EOM`. -/
  eom : Bool
  /-- `LEN`, 0 to 1024. -/
  len : BitVec 11
deriving DecidableEq, Repr

/-- A byte-addressed memory space (R60): the bytes written since reset, addresses strictly rising. An unlisted address
has no value of its own. -/
abbrev Memory := List Host.Cell

/-- The input events (R8). Offsets are relative to the block's base address (R68, log 13). -/
inductive InEvent where
  /-- The reset line (R340). -/
  | reset
  /-- `CsrWrite(addr, value)` (R35, R39). -/
  | csrWrite (addr : Nat) (value : Word)
  /-- `CsrRead(addr)` (R35). -/
  | csrRead (addr : Nat)
  /-- `BufWrite(addr, byte)` (R66). -/
  | bufWrite (addr : Nat) (value : Byte)
  /-- `Cmd(word)` (R110, R201). -/
  | cmd (word : Word)
  /-- `RxBytes(chunk)` (R77). -/
  | rxBytes (chunk : List Byte)
  /-- `RxTimeout` (R78, R175). -/
  | rxTimeout
  /-- `RxError` (R79). -/
  | rxError
deriving DecidableEq, Repr

/-- The events notified to the host (R303), each with its argument. -/
inductive HostEvent where
  /-- Code 1 `WINDOW_ACKED`: the new `LAST_ACKED` (R166). -/
  | windowAcked (seq : SeqNum)
  /-- Code 2 `PEER_CLOSED` (R241). -/
  | peerClosed
  /-- Code 3 `FAILED`: the fatal cause (R320). -/
  | failed (cause : FailCause)
  /-- Code 4 `FELLBACK`: the new `LPKT_K` (R312). -/
  | fellBack (k : SizeClass)
deriving DecidableEq, Repr

/-- The output events (R8). -/
inductive OutEvent where
  /-- `Tx(bytes)`: one whole packet handed to the byte stream (R72, R75). -/
  | tx (bytes : List Byte)
  /-- `Deliver(lch, rch, eom, payload)` (R80, R233). -/
  | deliver (lch rch : Channel) (eom : Bool) (payload : List Byte)
  /-- `Evt(code, arg)` (R303). -/
  | evt (e : HostEvent)
  /-- `Rsp(word)` (R113). -/
  | rsp (word : Word)
  /-- `CsrData(value)` (R35). -/
  | csrData (value : Word)
deriving DecidableEq, Repr

/-- The state of one PXE instance (R20), with the model's own three last fields (logs 1, 2 and 5). -/
structure State where
  /-- The window register file (R22). -/
  win : WindowRegs
  /-- The negotiated-size registers (R24). -/
  sizes : SizeRegs
  /-- `PSTATE` (R28). -/
  pstate : PState
  /-- `PEND` (R30). -/
  pend : Pend
  /-- `FAIL_CAUSE` (R30). -/
  failCause : FailCause
  /-- The flags (R31). -/
  flags : StatusFlags
  /-- The session counters (R32). -/
  counters : Counters
  /-- The statistics counters (R33). -/
  stats : Stats
  /-- The configuration registers (R36 to R38). -/
  cfg : ConfigRegs
  /-- The send-buffer pool `SLOT` (R40), indexed by sequence number. -/
  slots : Vector SlotRec 32
  /-- The Receive Reorder Buffer `REORD` (R41), indexed by sequence number. -/
  reord : Vector ReordRec 32
  /-- `SLOT[q].DATA[i]` at address `1024*q + i` (R60). -/
  slotMem : Memory
  /-- `REORD[q].DATA[i]` at address `1024*q + i` (R60). -/
  reordMem : Memory
  /-- The receive byte buffer `RXBUF`, oldest byte first (R42). -/
  rxbuf : List Byte
  /-- MODEL'S OWN (log 1): the input events still to come, next first (R8, R9). -/
  inputs : List InEvent
  /-- MODEL'S OWN (log 2): every output event emitted so far, oldest first (R15). -/
  out : List OutEvent
  /-- MODEL'S OWN (log 5): how many resets there have been; only the free bytes of Config depend on it. -/
  resetEpoch : Nat
deriving DecidableEq, Repr

/-- Why a step stops with a fault: never. What the spec calls fatal is the state `FAILED` (R320), and no access of the
block faults (R35, R63, R66), so there is no constructor. -/
inductive Fault where
deriving DecidableEq, Repr

/-- Why a step is refused. -/
inductive Refusal where
  /-- An instruction without a meaning, by its mnemonic. Raised by no arm of `exec`. Safe. -/
  | notModelled (mnemonic : String)
  /-- `RxBytes`, `RxTimeout` or `RxError` while no receive request is open. Raised by the event's handler: "the step
  relation has no such step" (R76, U13). Safe: the environment cannot cause it. -/
  | noReceiveRequest
  /-- `RxBytes` with no byte. Raised by the event's handler: the byte stream presents it as `RxTimeout` (U14). Safe:
  the environment cannot cause it. -/
  | emptyChunk
deriving DecidableEq, Repr

/-- A send slot after reset: free (R44). The other fields are unspecified; 0 is a DESIGN CHOICE (log 4). -/
def SlotRec.reset : SlotRec :=
  { inuse := false, lch := 0, rch := 0, eom := false, len := 0 }

/-- A reorder entry after reset: empty (R44). The other fields are unspecified; 0 is a DESIGN CHOICE (log 4). -/
def ReordRec.reset : ReordRec :=
  { valid := false, lch := 0, rch := 0, eom := false, len := 0 }

/-- The machine right after reset (R44, R341). -/
def State.reset : State :=
  { win :=
      { nextSeq := 1, lastAcked := 0, lastRecv := 0, lastAckSent := 0
        nextRetx := 1, cautionSeq := 0, nakedSeq := 0, bufSlot := 0 }
    sizes := { lwin := 0, rwin := 0, lpktK := 0, rpktK := 0, acceptK := 0, negPktK := 0 }
    pstate := .unstarted
    pend := .none
    failCause := .none
    flags :=
      { role := false, closingF := false, bufOwned := false, cautious := false
        rejSeen := false, ackPending := false, nakedValid := false, sentSync := false
        gotSync := false, eomSeen := false, cfgErr := false, bufViol := false }
    counters := { errcnt := 0, goodcnt := 0, retry := 0, garbage := 0 }
    stats := { tx := 0, retx := 0, rx := 0, hdrerr := 0, crcerr := 0, timeout := 0 }
    cfg := { cfg0 := Config.cfg0Reset, cfg1 := Config.cfg1Reset, cfg2 := Config.cfg2Reset }
    slots := Vector.replicate 32 SlotRec.reset
    reord := Vector.replicate 32 ReordRec.reset
    slotMem := []
    reordMem := []
    rxbuf := []
    inputs := []
    out := []
    resetEpoch := 0 }

end Sys2Proof.Machine
end

