-- ==== Sys2Proof/Machine/Memory.lean ====
section
/-! DEFINITION. Reading and writing the byte-addressed spaces `SLOT` and `REORD` (20_memory.md R60): a list of cells in
canonical form, addresses strictly rising. An unlisted address has no value of its own (log 3), so no entry can repeat
what an unlisted address reads as. -/

namespace Sys2Proof.Machine

/-- The byte written at an address since reset, none where nothing was written. -/
def Memory.find : Memory → Nat → Option Byte
  | [], _ => none
  | (x, b) :: rest, a => if a = x then some b else Memory.find rest a

/-- Write one byte, keeping the addresses strictly rising. -/
def Memory.write : Memory → Nat → Byte → Memory
  | [], a, b => [(a, b)]
  | (x, c) :: rest, a, b =>
    if a < x then (a, b) :: (x, c) :: rest
    else if a = x then (a, b) :: rest
    else (x, c) :: Memory.write rest a b

/-- `MemWrite(space, addr, n, v)` (R11): the bytes `v`, lowest address first. -/
def Memory.writeBytes : Memory → Nat → List Byte → Memory
  | m, _, [] => m
  | m, a, b :: bs => Memory.writeBytes (m.write a b) (a + 1) bs

/-- The canonical form: every address lies above `lo` and below the one that follows. -/
def Memory.rising (lo : Nat) : Memory → Bool
  | [] => true
  | (x, _) :: rest => decide (lo ≤ x) && Memory.rising (x + 1) rest

/-- The memory is in canonical form: addresses strictly rising. -/
def Memory.wf (m : Memory) : Bool := Memory.rising 0 m

/-- Every listed address lies in the 32 KiB of the space (R60, R270). -/
def Memory.inSpace (m : Memory) : Bool :=
  m.all fun c => decide (c.1 < Config.nSlot * Config.slotBytes)

/-- The address of byte `i` of record `q` in its space (R60). -/
def recordAddr (q : SeqNum) (i : Nat) : Nat := Config.slotBytes * q.toNat + i

end Sys2Proof.Machine
end

