-- ==== Sys2Proof/Machine/Operands.lean ====
section
/-! DEFINITION. What instructions read: the fields of the configuration registers (10_state.md R36 to R38), the records
and bytes of the two buffer pools (R40, R41, R60), the codes of states, commands, causes and statuses, and the response
word (30_encoding.md R113). -/

namespace Sys2Proof.Machine

open Sys2Proof

/-! ### Configuration fields -/

/-- `CFG0.WIN_REQ` (R36). -/
def ConfigRegs.winReq (c : ConfigRegs) : BitVec 5 := c.cfg0.extractLsb' 0 5

/-- `CFG0.K_REQ` (R36). -/
def ConfigRegs.kReq (c : ConfigRegs) : SizeClass := c.cfg0.extractLsb' 8 4

/-- `CFG0.DUPACK_NAK` (R36). -/
def ConfigRegs.dupackNak (c : ConfigRegs) : Bool := c.cfg0.getLsbD 16

/-- `CFG0.RESEND_AHEAD` (R36). -/
def ConfigRegs.resendAhead (c : ConfigRegs) : BitVec 2 := c.cfg0.extractLsb' 17 2

/-- `CFG1.MAX_RETRIES` (R37). -/
def ConfigRegs.maxRetries (c : ConfigRegs) : BitVec 8 := c.cfg1.extractLsb' 0 8

/-- `CFG1.TIMEOUT` (R37). -/
def ConfigRegs.timeout (c : ConfigRegs) : BitVec 16 := c.cfg1.extractLsb' 16 16

/-- `CFG2.ERR_LIMIT` (R38). -/
def ConfigRegs.errLimit (c : ConfigRegs) : BitVec 16 := c.cfg2.extractLsb' 0 16

/-- `CFG2.NEG_ERR_LIMIT` (R38). -/
def ConfigRegs.negErrLimit (c : ConfigRegs) : BitVec 8 := c.cfg2.extractLsb' 16 8

/-- `CFG2.DECAY_K` (R38). -/
def ConfigRegs.decayK (c : ConfigRegs) : BitVec 8 := c.cfg2.extractLsb' 24 8

/-! ### Codes -/

/-- The value of `PSTATE` (R28). -/
def PState.code : PState → BitVec 3
  | .unstarted => 0
  | .negotiating => 1
  | .ready => 2
  | .closing => 3
  | .closed => 4
  | .failed => 5

/-- The value of `PEND` (R30). -/
def Pend.code : Pend → BitVec 2
  | .none => 0
  | .start => 1
  | .sendData => 2
  | .wait => 3

/-- `OP[3:0]` of the command that is pending, as its response echoes it (R113, R111). -/
def Pend.op : Pend → BitVec 4
  | .none => 0
  | .start => 1
  | .sendData => 3
  | .wait => 4

/-- The value of `FAIL_CAUSE` (R301). -/
def FailCause.code : FailCause → BitVec 8
  | .none => 0
  | .retryExhausted => 1
  | .errLimit => 2
  | .ioError => 3
  | .negErrLimit => 4

/-- The numeric code of a host event (R303). -/
def HostEvent.code : HostEvent → Nat
  | .windowAcked _ => 1
  | .peerClosed => 2
  | .failed _ => 3
  | .fellBack _ => 4

/-- The numeric argument of a host event (R303). -/
def HostEvent.arg : HostEvent → Nat
  | .windowAcked seq => seq.toNat
  | .peerClosed => 0
  | .failed cause => cause.code.toNat
  | .fellBack k => k.toNat

/-- The status of a response (R114). The codes 7 to 15 are never produced (U6). -/
inductive Status where
  | ok
  | badState
  | badArg
  | busy
  | failed
  | peerClosed
  | badOp
deriving DecidableEq, Repr

/-- The code of a status (R114). -/
def Status.code : Status → BitVec 4
  | .ok => 0
  | .badState => 1
  | .badArg => 2
  | .busy => 3
  | .failed => 4
  | .peerClosed => 5
  | .badOp => 6

/-- The response word (R113): `OPECHO`, `SIZE`, three zero bits, `VAL`, `K`, `STATUS`. -/
def rspWord (op : BitVec 4) (st : Status) (size : BitVec 12) (val : BitVec 5) (k : BitVec 4) : Word :=
  (op ++ size ++ 0#3 ++ val ++ k ++ st.code : BitVec (4 + 12 + 3 + 5 + 4 + 4))

/-- The packet size of a size class: `2^k` bytes (R24). -/
def classSize (k : SizeClass) : Nat := 2 ^ k.toNat

/-- The smaller of two size classes (R237, R312). -/
def classMin (a b : SizeClass) : SizeClass := if a ≤ b then a else b

/-! ### Records -/

/-- The entry of a 32-entry pool that a sequence number names (R61). -/
def entryAt {α : Type} (v : Vector α 32) (q : SeqNum) : α := v[q.toNat]'q.isLt

/-- The pool with the entry of a sequence number replaced. -/
def setEntry {α : Type} (v : Vector α 32) (q : SeqNum) (x : α) : Vector α 32 := v.set q.toNat x q.isLt

/-- `SLOT[q]` (R40). -/
def State.slot (s : State) (q : SeqNum) : SlotRec := entryAt s.slots q

/-- `REORD[q]` (R41). -/
def State.reordAt (s : State) (q : SeqNum) : ReordRec := entryAt s.reord q

/-- One byte of the `SLOT` data memory; a byte nothing has written since reset is a free value (R67, U7, log 3). -/
def State.slotByte (s : State) (a : Nat) : Byte :=
  (s.slotMem.find a).getD (Config.freeSlotByte s.resetEpoch a)

/-- One byte of the `REORD` data memory; a byte nothing has written since reset is a free value (U8, log 3). -/
def State.reordByte (s : State) (a : Nat) : Byte :=
  (s.reordMem.find a).getD (Config.freeReordByte s.resetEpoch a)

/-- `SLOT[q].DATA[0 .. SLOT[q].LEN-1]` (R60, R267). -/
def State.slotPayload (s : State) (q : SeqNum) : List Byte :=
  (List.range (s.slot q).len.toNat).map fun i => s.slotByte (recordAddr q i)

/-- `REORD[q].DATA[0 .. REORD[q].LEN-1]` (R60, R234). -/
def State.reordPayload (s : State) (q : SeqNum) : List Byte :=
  (List.range (s.reordAt q).len.toNat).map fun i => s.reordByte (recordAddr q i)

/-- Some `REORD[q].VALID = 1`: a gap exists (R14, R264). -/
def State.gap (s : State) : Bool := s.reord.toList.any fun e => e.valid

end Sys2Proof.Machine
end

