-- ==== Sys2Proof/Machine/Flags.lean ====
section
/-! DEFINITION. The conditions the block computes from its registers: sequence arithmetic (41_window.md R160 to R164),
the transmission conditions (R171, R172), the explicit-ACK condition (43_packet_rx.md R243), the states in which the
decoder and the byte stream run (R76, R77), the legality of configuration values (10_state.md R36 to R39), and the
saturating increment of the counters (R32, R33). -/

namespace Sys2Proof.Machine

open Sys2Proof

/-- `dist(a, b) = (a - b) mod 32` (R160). -/
def dist (a b : SeqNum) : SeqNum := a - b

/-- `succ(a)` (R11). -/
def seqSucc (a : SeqNum) : SeqNum := a + 1

/-- `pred(a)` (R11). -/
def seqPred (a : SeqNum) : SeqNum := a - 1

/-- `outstanding` (R162). -/
def WindowRegs.outstanding (w : WindowRegs) : SeqNum := dist (seqPred w.nextSeq) w.lastAcked

/-- `can_send` (R163). -/
def State.canSend (s : State) : Bool := decide (dist s.win.nextSeq s.win.lastAcked ≤ s.sizes.rwin)

/-- `tx_allowed(q)` (R171). -/
def State.txAllowed (s : State) (q : SeqNum) : Bool :=
  !s.flags.cautious || decide ((dist q s.win.cautionSeq).toNat ≤ s.cfg.resendAhead.toNat)

/-- `send_ready` (R172). -/
def State.sendReady (s : State) : Bool :=
  s.canSend && decide (s.win.nextRetx = s.win.nextSeq) && s.txAllowed s.win.nextSeq

/-- Half of the advertised window, at least 1, has been received and not acknowledged (R232, R243 (b)). -/
def State.ackDue (s : State) : Bool :=
  decide (max 1 (s.sizes.lwin.toNat / 2) ≤ (dist s.win.lastRecv s.win.lastAckSent).toNat)

/-- The decoder runs: `PSTATE` is `NEGOTIATING` or `READY` (R77, R140). -/
def State.decoderOn (s : State) : Bool :=
  match s.pstate with
  | .negotiating => true
  | .ready => true
  | .unstarted => false
  | .closing => false
  | .closed => false
  | .failed => false

/-- The open receive request at the byte stream, with its timeout: exactly while `PEND != NONE` (R43 (c), R76). -/
def State.receiveRequest (s : State) : Option (BitVec 16) :=
  match s.pend with
  | .none => none
  | .start => some s.cfg.timeout
  | .sendData => some s.cfg.timeout
  | .wait => some s.cfg.timeout

/-- The largest DATA payload the receiver takes: `2^ACCEPT_K` (R95). -/
def State.maxLen (s : State) : Nat := classSize s.sizes.acceptK

/-- Increment, stopping at all ones (R32, R33). -/
def satInc {n : Nat} (x : BitVec n) : BitVec n := if x = BitVec.allOnes n then x else x + 1

/-- Every field of a `CFG0` value is legal and every reserved bit 0 (R36). -/
def cfg0Legal (v : Word) : Bool :=
  let winReq := (v.extractLsb' 0 5).toNat
  let kReq := (v.extractLsb' 8 4).toNat
  let ahead := (v.extractLsb' 17 2).toNat
  decide (1 ≤ winReq ∧ winReq ≤ Config.winMax) && decide (Config.kMin ≤ kReq ∧ kReq ≤ Config.kMax) &&
    decide (1 ≤ ahead ∧ ahead ≤ 2) &&
    decide (v.extractLsb' 5 3 = 0 ∧ v.extractLsb' 12 4 = 0 ∧ v.extractLsb' 19 13 = 0)

/-- Every field of a `CFG1` value is legal and every reserved bit 0 (R37). -/
def cfg1Legal (v : Word) : Bool :=
  decide (v.extractLsb' 0 8 ≠ 0) && decide (v.extractLsb' 16 16 ≠ 0) && decide (v.extractLsb' 8 8 = 0)

/-- Every field of a `CFG2` value is legal (R38). -/
def cfg2Legal (v : Word) : Bool :=
  decide (v.extractLsb' 0 16 ≠ 0) && decide (v.extractLsb' 16 8 ≠ 0) && decide (v.extractLsb' 24 8 ≠ 0)

end Sys2Proof.Machine
end

