-- ==== Sys2Proof/Machine/Ops.lean ====
section
/-! DEFINITION. The shared operations: emitting, the one transmit path (44_arbiter.md R260 to R267), entering `FAILED`
(60_exceptions.md R320: taking an exception) and the reset that alone leaves it (R321, R340), error accounting (R310 to
R313), responses (30_encoding.md R113), and the completion check (42_host_ops.md R210). -/

namespace Sys2Proof.Machine

open Sys2Proof

/-- The result of one step of this machine. -/
abbrev Result := Host.Outcome State Fault Refusal

/-- Go on with the next state; a stop stays a stop. -/
def andThen (o : Result) (f : State → Result) : Result :=
  match o with
  | .next s => f s
  | .fault r => .fault r
  | .refused r => .refused r

/-- `emit E` (R11). -/
def emit (e : OutEvent) (s : State) : State := { s with out := s.out ++ [e] }

/-! ### Responses -/

/-- Answer the command with operation code `op` by a status alone (R113). -/
def respond (op : BitVec 4) (st : Status) (s : State) : State :=
  emit (.rsp (rspWord op st 0 0 0)) s

/-- End the pending command, if there is one, with a status (R211, R241, R320). -/
def endPending (st : Status) (s : State) : State :=
  match s.pend with
  | .none => s
  | .start => { respond Pend.start.op st s with pend := .none }
  | .sendData => { respond Pend.sendData.op st s with pend := .none }
  | .wait => { respond Pend.wait.op st s with pend := .none }

/-! ### Taking an exception, and the way back -/

/-- `raise Fatal(cause)` (R320): `PSTATE` becomes `FAILED`, the first cause is kept, the borrow ends, the host is told,
the pending command is answered `FAILED`. Nothing is saved and nothing is transmitted. -/
def raiseFatal (cause : FailCause) (s : State) : State :=
  endPending .failed
    (emit (.evt (.failed cause))
      { s with
        pstate := .failed
        failCause := if s.failCause = .none then cause else s.failCause
        flags := { s.flags with bufOwned := false } })

/-- The reset (R340), the only way out of `FAILED` (R321): every piece of the block's state takes its reset value, a
pending command is dropped without a response. What the environment still holds is untouched, and the unspecified bytes
are new ones (log 5). -/
def resetBlock (s : State) : State :=
  { State.reset with inputs := s.inputs, out := s.out, resetEpoch := s.resetEpoch + 1 }

/-! ### The transmit path -/

/-- `transmit` (R261). A SYNC carries `ACK = 0`; every other packet carries `LAST_RECV` and so discharges a pending
explicit ACK. -/
def transmit (ty : PktType) (seq : SeqNum) (lch rch : Channel) (f : Bool) (payload : List Byte) (s : State) : State :=
  let ack : SeqNum := if ty = .sync then 0 else s.win.lastRecv
  emit (.tx (encodePacket ty { seq := seq, lch := lch, ack := ack, rch := rch, f := f } payload))
    { s with
      win := { s.win with lastAckSent := if ty = .sync then s.win.lastAckSent else s.win.lastRecv }
      flags := { s.flags with ackPending := if ty = .sync then s.flags.ackPending else false }
      stats := { s.stats with tx := satInc s.stats.tx } }

/-- `transmit SYNC(F, win = LWIN, k = LPKT_K)` (R262). -/
def transmitSync (reply : Bool) (s : State) : State :=
  transmit .sync 0 0 0 reply [s.sizes.lwin.setWidth 8, s.sizes.lpktK.setWidth 8]
    { s with flags := { s.flags with sentSync := true } }

/-- `transmit ACK` (R261). -/
def transmitAck (s : State) : State := transmit .ack 0 0 0 false [] s

/-- `transmit NAK(M)` (R261). -/
def transmitNak (m : SeqNum) (s : State) : State := transmit .nak m 0 0 false [] s

/-- `transmit CLOSE` (R261). -/
def transmitClose (s : State) : State := transmit .close 0 0 0 false [] s

/-- `transmit DATA(q, again)` (R267): header, ack and CRC are built afresh from `SLOT[q]` (R136). -/
def transmitData (q : SeqNum) (again : Bool) (s : State) : State :=
  transmit .data q (s.slot q).lch (s.slot q).rch (s.slot q).eom (s.slotPayload q)
    { s with stats := { s.stats with retx := if again then satInc s.stats.retx else s.stats.retx } }

/-- New-data transmission (R266): the only place `NEXT_SEQ` changes. -/
def transmitNew (s : State) : State :=
  let t := transmitData s.win.nextSeq false s
  { t with win := { t.win with nextSeq := seqSucc t.win.nextSeq, nextRetx := seqSucc t.win.nextSeq } }

/-- Handshake completion (R29, R238): `READY` in the step in which a SYNC has been both sent and accepted. DEDUCED (log
21): it is looked at wherever one of the two flags is set in `NEGOTIATING`: in `handle_sync` (R237), and where a timeout
(R175) or a fallback (R312) transmits a SYNC. -/
def finishHandshake (s : State) : State :=
  if s.pstate = .negotiating ∧ s.flags.sentSync ∧ s.flags.gotSync then
    { s with pstate := .ready, counters := { s.counters with retry := 0 } }
  else s

/-- The SYNC request that a timeout or a fallback transmits in `NEGOTIATING` (R175, R312), after which the handshake may
be complete (R29, R238; log 21). -/
def requestSync (s : State) : State := finishHandshake (transmitSync false s)

/-! ### Error accounting -/

/-- The two kinds of discard-class exceptions (R302, R310). -/
inductive ErrKind where
  | hdrerr
  | crcerr
deriving DecidableEq, Repr

/-- `fallback_or_fail` (R312). -/
def fallbackOrFail (s : State) : State :=
  if Config.kMin < s.sizes.lpktK.toNat then
    let k := s.sizes.lpktK - 1
    requestSync
      (emit (.evt (.fellBack k))
        { s with
          sizes :=
            { s.sizes with
              lpktK := k
              negPktK := if s.flags.gotSync then classMin k s.sizes.rpktK else s.sizes.negPktK }
          counters := { s.counters with errcnt := 0 } })
  else raiseFatal .negErrLimit s

/-- The counting lines of `count_error` (R310), both counters saturating. -/
def tallyError (kind : ErrKind) (s : State) : State :=
  { s with
    stats :=
      match kind with
      | .hdrerr => { s.stats with hdrerr := satInc s.stats.hdrerr }
      | .crcerr => { s.stats with crcerr := satInc s.stats.crcerr }
    counters := { s.counters with errcnt := satInc s.counters.errcnt } }

/-- `count_error(kind)` (R310): the handler of every discard-class exception. -/
def countError (kind : ErrKind) (s : State) : State :=
  let t := tallyError kind s
  match t.pstate with
  | .negotiating => if t.cfg.negErrLimit.toNat ≤ t.counters.errcnt.toNat then fallbackOrFail t else t
  | .ready => if t.cfg.errLimit ≤ t.counters.errcnt then raiseFatal .errLimit t else t
  | .unstarted => t
  | .closing => t
  | .closed => t
  | .failed => t

/-- `good_packet()` (R313): count the packet; every `DECAY_K`-th one forgives an error. -/
def goodPacket (s : State) : State :=
  let g := s.counters.goodcnt + 1
  { s with
    stats := { s.stats with rx := satInc s.stats.rx }
    counters :=
      if s.cfg.decayK ≤ g then
        { s.counters with
          goodcnt := 0
          errcnt := if s.counters.errcnt = 0 then 0 else s.counters.errcnt - 1 }
      else { s.counters with goodcnt := g } }

/-- `drop1()` (R139). -/
def drop1 (s : State) : State :=
  { s with
    rxbuf := s.rxbuf.tail
    counters := { s.counters with garbage := satInc s.counters.garbage } }

/-! ### Delivery and completion -/

/-- `deliver` (R233). -/
def deliver (lch rch : Channel) (eom : Bool) (payload : List Byte) (s : State) : State :=
  emit (.deliver lch rch eom payload)
    { s with flags := { s.flags with eomSeen := s.flags.eomSeen || eom } }

/-- The completion check (R210): at most one branch fires. -/
def completionCheck (s : State) : State :=
  match s.pend with
  | .start =>
    if s.pstate = .ready then
      { emit (.rsp (rspWord Pend.start.op .ok 0 s.sizes.rwin s.sizes.negPktK)) s with pend := .none }
    else s
  | .wait =>
    if s.flags.eomSeen then { respond Pend.wait.op .ok s with pend := .none } else s
  | .sendData =>
    if s.pstate = .ready ∧ s.sendReady then
      { respond Pend.sendData.op .ok (transmitNew s) with pend := .none }
    else s
  | .none => s

end Sys2Proof.Machine
end

