-- ==== Sys2Proof/Machine/Csr.lean ====
section
/-! DEFINITION. The host's register and buffer accesses: the register map (10_state.md R35), the write rule of the
configuration registers (R39), `CTRL` (R35, R340), and `BufWrite` (20_memory.md R66). No access faults (R63, U7a). -/

namespace Sys2Proof.Machine

open Sys2Proof

/-- `STATUS` (R35). -/
def State.statusWord (s : State) : Word :=
  (0#14 ++ s.pend.code ++ 0#1 ++ bit1 s.flags.bufViol ++ bit1 s.flags.cfgErr ++ bit1 s.flags.eomSeen ++
    bit1 s.flags.gotSync ++ bit1 s.flags.sentSync ++ bit1 s.flags.nakedValid ++ bit1 s.flags.ackPending ++
    bit1 s.flags.rejSeen ++ bit1 s.flags.cautious ++ bit1 s.flags.bufOwned ++ bit1 s.flags.closingF ++
    bit1 s.flags.role ++ s.pstate.code :
    BitVec (14 + 2 + 1 + 1 + 1 + 1 + 1 + 1 + 1 + 1 + 1 + 1 + 1 + 1 + 1 + 3))

/-- Four 5-bit registers, one per byte, as `WIN0` and `WIN1` show them (R35). -/
def packSeqs (r3 r2 r1 r0 : SeqNum) : Word :=
  (0#3 ++ r3 ++ 0#3 ++ r2 ++ 0#3 ++ r1 ++ 0#3 ++ r0 : BitVec (3 + 5 + 3 + 5 + 3 + 5 + 3 + 5))

/-- `NEG` (R35). -/
def State.negWord (s : State) : Word :=
  (s.sizes.acceptK ++ s.sizes.negPktK ++ s.sizes.rpktK ++ s.sizes.lpktK ++ 0#3 ++ s.sizes.rwin ++ 0#3 ++ s.sizes.lwin :
    BitVec (4 + 4 + 4 + 4 + 3 + 5 + 3 + 5))

/-- `CNT` (R35). -/
def State.cntWord (s : State) : Word :=
  (s.counters.retry ++ s.counters.goodcnt ++ s.counters.errcnt : BitVec (8 + 8 + 16))

/-- Bit `q` is 1 where the `q`-th of the flags is (R35: `SLOT_INUSE`, `REORD_VALID`). -/
def bitMap : List Bool → Nat
  | [] => 0
  | b :: rest => b.toNat + 2 * bitMap rest

/-- `csr[A]` (R35): what a read of an offset gives; 0 for every offset that is not in the map. -/
def State.csrValue (s : State) (addr : Nat) : Word :=
  match addr with
  | 0x00 => Config.idValue
  | 0x08 => s.cfg.cfg0
  | 0x0C => s.cfg.cfg1
  | 0x10 => s.cfg.cfg2
  | 0x14 => s.statusWord
  | 0x18 => s.failCause.code.setWidth 32
  | 0x1C => packSeqs s.win.lastAckSent s.win.lastRecv s.win.lastAcked s.win.nextSeq
  | 0x20 => packSeqs s.win.bufSlot s.win.nakedSeq s.win.cautionSeq s.win.nextRetx
  | 0x24 => s.negWord
  | 0x28 => s.cntWord
  | 0x2C => s.counters.garbage
  | 0x30 => s.stats.tx
  | 0x34 => s.stats.retx
  | 0x38 => s.stats.rx
  | 0x3C => s.stats.hdrerr
  | 0x40 => s.stats.crcerr
  | 0x44 => s.stats.timeout
  | 0x48 => BitVec.ofNat 32 (bitMap (s.slots.toList.map fun e => e.inuse))
  | 0x4C => BitVec.ofNat 32 (bitMap (s.reord.toList.map fun e => e.valid))
  | _ => 0

/-- `CsrRead(addr)` (R35): no side effect. -/
def csrRead (addr : Nat) (s : State) : State := emit (.csrData (s.csrValue addr)) s

/-- A refused configuration write (R39). -/
def refuseConfig (s : State) : State := { s with flags := { s.flags with cfgErr := true } }

/-- A configuration write: accepted only in `UNSTARTED` and with legal fields, else refused (R39). -/
def writeConfig (legal : Bool) (cfg : ConfigRegs) (s : State) : State :=
  if s.pstate = .unstarted ∧ legal then { s with cfg := cfg } else refuseConfig s

/-- A write of `CTRL` (R35): `SOFT_RESET` wins over `CLR_STICKY`; other bits are ignored. -/
def writeCtrl (v : Word) (s : State) : State :=
  if v.getLsbD 0 then resetBlock s
  else if v.getLsbD 1 then { s with flags := { s.flags with cfgErr := false, bufViol := false } }
  else s

/-- `CsrWrite(addr, value)` (R35, R39). A write of a read-only or unmapped offset is ignored. -/
def csrWrite (addr : Nat) (v : Word) (s : State) : State :=
  match addr with
  | 0x04 => writeCtrl v s
  | 0x08 => writeConfig (cfg0Legal v) { s.cfg with cfg0 := v } s
  | 0x0C => writeConfig (cfg1Legal v) { s.cfg with cfg1 := v } s
  | 0x10 => writeConfig (cfg2Legal v) { s.cfg with cfg2 := v } s
  | _ => s

/-- The offset lies in the window of the lent slot (R66). -/
def State.lentOffset (s : State) (addr : Nat) : Bool :=
  s.flags.bufOwned &&
    decide (Config.bufWinBase + recordAddr s.win.bufSlot 0 ≤ addr ∧
      addr ≤ Config.bufWinBase + recordAddr s.win.bufSlot 1023)

/-- `BufWrite(addr, b)` (R66): into the lent slot, else refused with `BUFVIOL`. -/
def bufWrite (addr : Nat) (b : Byte) (s : State) : State :=
  if s.lentOffset addr then { s with slotMem := s.slotMem.write (addr - Config.bufWinBase) b }
  else { s with flags := { s.flags with bufViol := true } }

end Sys2Proof.Machine
end

