-- ==== Sys2Proof/Machine/Commands.lean ====
section
/-! DEFINITION. The meanings of the six host commands (42_host_ops.md R200 to R208), each behind the checks of
30_encoding.md R115: `BUSY` while a command is pending, `BAD_STATE` where `PSTATE` does not allow it. -/

namespace Sys2Proof.Machine

open Sys2Proof

/-- The checks (1) and (4) of R115, then the operation. -/
def command (op : BitVec 4) (allowed : PState → Bool) (run : State → State) (s : State) : State :=
  if s.pend ≠ .none then respond op .busy s
  else if allowed s.pstate then run s
  else respond op .badState s

/-- `START` (R203): the transmission is the caller's. -/
def startOp (role : Bool) (s : State) : State :=
  let t :=
    { s with
      flags := { s.flags with role := role }
      sizes :=
        { s.sizes with lwin := s.cfg.winReq, lpktK := s.cfg.kReq, acceptK := s.cfg.kReq }
      pstate := .negotiating
      counters := { s.counters with retry := 0 }
      pend := .start }
  if role then transmitSync false t else t

/-- START (R203). -/
def execStart (role : Bool) (s : State) : Result :=
  .next (command 1 (fun p => decide (p = .unstarted)) (startOp role) s)

/-- `GET_BUF` (R204): lends `SLOT[NEXT_SEQ]`. -/
def getBufOp (s : State) : State :=
  emit (.rsp (rspWord 2 .ok (BitVec.ofNat 12 (classSize s.sizes.negPktK)) s.win.nextSeq 0))
    { s with
      flags := { s.flags with bufOwned := true }
      win := { s.win with bufSlot := s.win.nextSeq } }

/-- GET_BUF (R204). -/
def execGetBuf (s : State) : Result :=
  .next (command 2 (fun p => decide (p = .ready)) getBufOp s)

/-- The registers an accepted `SEND_DATA` writes (R205). The slot's bytes are what `BufWrite` put there. -/
def fillSlot (eom : Bool) (lch rch : Channel) (len : BitVec 12) (s : State) : State :=
  { s with
    slots :=
      setEntry s.slots s.win.nextSeq { inuse := true, lch := lch, rch := rch, eom := eom, len := len.setWidth 11 }
    flags := { s.flags with bufOwned := false }
    counters := { s.counters with retry := 0 }
    pend := .sendData }

/-- `SEND_DATA` (R205): check (5) of R115, then the slot, then the completion check. -/
def sendDataOp (eom : Bool) (lch rch : Channel) (len : BitVec 12) (s : State) : State :=
  if s.flags.bufOwned = false ∨ classSize s.sizes.negPktK < len.toNat then respond 3 .badArg s
  else completionCheck (fillSlot eom lch rch len s)

/-- SEND_DATA (R205). -/
def execSendData (eom : Bool) (lch rch : Channel) (len : BitVec 12) (s : State) : Result :=
  .next (command 3 (fun p => decide (p = .ready)) (sendDataOp eom lch rch len) s)

/-- `WAIT` (R206). -/
def waitOp (s : State) : State :=
  { s with
    flags := { s.flags with eomSeen := false }
    counters := { s.counters with retry := 0 }
    pend := .wait }

/-- WAIT (R206). -/
def execWait (s : State) : Result :=
  .next (command 4 (fun p => decide (p = .ready)) waitOp s)

/-- The buffers `SHUTDOWN` releases (R207). -/
def releaseBuffers (s : State) : State :=
  { s with
    slots := s.slots.map fun e => { e with inuse := false }
    reord := s.reord.map fun e => { e with valid := false }
    rxbuf := []
    flags := { s.flags with bufOwned := false } }

/-- `SHUTDOWN` (R207): two CLOSE packets, buffers released, `CLOSED`. -/
def shutdownOp (s : State) : State :=
  let t := { s with pstate := .closing, flags := { s.flags with closingF := true } }
  respond 5 .ok { releaseBuffers (transmitClose (transmitClose t)) with pstate := .closed }

/-- SHUTDOWN (R207). -/
def execShutdown (s : State) : Result :=
  .next (command 5 (fun p => decide (p = .ready ∨ p = .closing)) shutdownOp s)

/-- FILE (R208): changes no state and answers `OK` in `READY`; its arguments are ignored. -/
def execFile (_flag : Bool) (_lch _rch : Channel) (s : State) : Result :=
  .next (command 6 (fun p => decide (p = .ready)) (respond 6 .ok) s)

/-- The answer to a word that is no operation (R112, R115): `BUSY` comes first; nothing else changes. -/
def illegalCommand (w : Word) (e : CmdError) (s : State) : State :=
  let op := w.extractLsb' 0 4
  if s.pend ≠ .none then respond op .busy s
  else
    match e with
    | .reservedOp => respond op .badOp s
    | .mustBeZero => respond op .badArg s

end Sys2Proof.Machine
end

