-- ==== Sys2Proof/Machine/Window.lean ====
section
/-! DEFINITION. The window engine and the arbiter's service step as procedures over the registers: `on_ack`,
`on_reject` (41_window.md R165, R169), `on_data` and `drain` (43_packet_rx.md R232, R234), `pump_retx`, `gap_nak` and
`service` (44_arbiter.md R263 to R268). None of the `on_` procedures transmits (R179). -/

namespace Sys2Proof.Machine

open Sys2Proof

/-- Release the `d` slots after `LAST_ACKED` (R165): those `q` with `1 <= dist(q, LAST_ACKED) <= d`. -/
def releaseSlots (lastAcked d : SeqNum) (slots : Vector SlotRec 32) : Vector SlotRec 32 :=
  Vector.ofFn fun i : Fin 32 =>
    let e := slots[i.val]
    let n := dist (BitVec.ofFin i) lastAcked
    if n ≠ 0 ∧ n ≤ d then { e with inuse := false } else e

/-- The ack value `a` names an outstanding packet: `1 <= dist(a, LAST_ACKED) <= outstanding` (R165). -/
def WindowRegs.ackValid (w : WindowRegs) (a : SeqNum) : Bool :=
  decide (dist a w.lastAcked ≠ 0) && decide (dist a w.lastAcked ≤ w.outstanding)

/-- `WINDOW_ACKED` is due: the advance to `a` passes through 0 (R166). -/
def rotationEvent (a : SeqNum) (s : State) : State :=
  if a < s.win.lastAcked then emit (.evt (.windowAcked a)) s else s

/-- The register updates of an ack that advances (R165). -/
def advanceAcked (a : SeqNum) (s : State) : State :=
  let d := dist a s.win.lastAcked
  { s with
    slots := releaseSlots s.win.lastAcked d s.slots
    win :=
      { s.win with
        lastAcked := a
        nextRetx := if dist s.win.nextRetx s.win.lastAcked ≤ d then seqSucc a else s.win.nextRetx }
    flags :=
      { s.flags with
        rejSeen := false
        cautious := s.flags.cautious && !decide (dist s.win.cautionSeq s.win.lastAcked ≤ d) }
    counters := { s.counters with retry := 0 } }

/-- `on_ack(a)` (R165): whether it advanced, and the state after it. -/
def onAck (a : SeqNum) (s : State) : Bool × State :=
  if s.win.ackValid a then (true, advanceAcked a (rotationEvent a s)) else (false, s)

/-- The retransmit point of a reject: `M = succ(rs)` (R169). -/
def markReject (m : SeqNum) (s : State) : State :=
  { s with
    win := { s.win with nextRetx := m, cautionSeq := m }
    flags := { s.flags with cautious := true, rejSeen := true } }

/-- `on_reject(rs)` (R169). -/
def onReject (rs : SeqNum) (s : State) : State :=
  if s.win.outstanding < dist rs s.win.lastAcked then s
  else
    let t := if dist rs s.win.lastAcked = 0 then s else (onAck rs s).2
    if t.win.outstanding = 0 then t else markReject (seqSucc rs) t

/-- One round of `drain` (R234): deliver `REORD[q]` and free it. -/
def drainOne (q : SeqNum) (s : State) : State :=
  let e := s.reordAt q
  let t := deliver e.lch e.rch e.eom (s.reordPayload q) s
  { t with
    reord := setEntry t.reord q { e with valid := false }
    win := { t.win with lastRecv := q } }

/-- `drain()` (R234). Each round clears one of 32 `VALID` bits, so 32 rounds are all there can be. -/
def drain : Nat → State → State
  | 0, s => s
  | n + 1, s =>
    if (s.reordAt (seqSucc s.win.lastRecv)).valid then drain n (drainOne (seqSucc s.win.lastRecv) s) else s

/-- The packet with the expected number (R232, `d = 1`). -/
def onDataExpected (seq : SeqNum) (lch rch : Channel) (eom : Bool) (payload : List Byte) (s : State) : State :=
  let t := deliver lch rch eom payload s
  drain 32
    { t with
      win := { t.win with lastRecv := seq }
      flags := { t.flags with nakedValid := false }
      counters := { t.counters with retry := 0 } }

/-- A packet ahead of the expected one, inside the receive window (R232, `2 <= d <= LWIN`). -/
def onDataAhead (seq : SeqNum) (lch rch : Channel) (eom : Bool) (payload : List Byte) (s : State) : State :=
  { s with
    reord :=
      setEntry s.reord seq
        { valid := true, lch := lch, rch := rch, eom := eom, len := BitVec.ofNat 11 payload.length }
    reordMem := s.reordMem.writeBytes (recordAddr seq 0) payload }

/-- An explicit ACK is owed (R232, R243). -/
def oweAck (s : State) : State := { s with flags := { s.flags with ackPending := true } }

/-- `on_data` (R232). -/
def onData (seq : SeqNum) (lch rch : Channel) (eom : Bool) (payload : List Byte) (s : State) : State :=
  let d := dist seq s.win.lastRecv
  let t :=
    if d = 1 then onDataExpected seq lch rch eom payload s
    else if 2 ≤ d ∧ d ≤ s.sizes.lwin then onDataAhead seq lch rch eom payload s
    else oweAck s
  if t.ackDue then oweAck t else t

/-- One round of `pump_retx` (R268). -/
def pumpOne (s : State) : State :=
  let t := transmitData s.win.nextRetx true s
  { t with win := { t.win with nextRetx := seqSucc t.win.nextRetx } }

/-- `pump_retx()` (R268). Each round moves `NEXT_RETX` one nearer to `NEXT_SEQ`, so 32 rounds are all there can be. -/
def pumpRetx : Nat → State → State
  | 0, s => s
  | n + 1, s =>
    if s.win.nextRetx ≠ s.win.nextSeq ∧ s.txAllowed s.win.nextRetx then pumpRetx n (pumpOne s) else s

/-- `gap_nak()` (R264). -/
def gapNak (s : State) : State :=
  let m := seqSucc s.win.lastRecv
  if s.gap ∧ ¬(s.flags.nakedValid ∧ s.win.nakedSeq = m) then
    let t := transmitNak m s
    { t with flags := { t.flags with nakedValid := true }, win := { t.win with nakedSeq := m } }
  else s

/-- The explicit ACK of `service` (R265). -/
def explicitAck (s : State) : State := if s.flags.ackPending then transmitAck s else s

/-- `service()` (R263): retransmissions, then a gap NAK, then an explicit ACK. -/
def service (s : State) : State := explicitAck (gapNak (pumpRetx 32 s))

end Sys2Proof.Machine
end

