-- ==== Sys2Proof/Machine/Packets.lean ====
section
/-! DEFINITION. The meanings of the five packets (43_packet_rx.md): `process_packet` (R230) with the handling of each
type. A packet reaches these meanings only after the decoder has checked its header and its CRC. -/

namespace Sys2Proof.Machine

open Sys2Proof

/-- `service()` if `PSTATE` is still `READY` (R230). -/
def serviceIfReady (s : State) : State := if s.pstate = .ready then service s else s

/-- `process_packet` of a non-SYNC packet (R230, R231): count it; in `NEGOTIATING` that is all (R242); in `READY` apply
its `ACK` field, then its own handling, then `service`. Where the decoder is off the packet's bytes are discarded
uncounted (R77, log 7). -/
def acceptNumbered (ack : SeqNum) (own : Bool → State → State) (s : State) : State :=
  match s.pstate with
  | .negotiating => goodPacket s
  | .ready =>
    let r := onAck ack (goodPacket s)
    serviceIfReady (own r.1 r.2)
  | .unstarted => s
  | .closing => s
  | .closed => s
  | .failed => s

/-- DATA (R232). -/
def execData (h : Hdr) (payload : List Byte) (s : State) : Result :=
  .next (acceptNumbered h.ack (fun _ t => onData h.seq h.lch h.rch h.f payload t) s)

/-- `ack_packet` (R235): the duplicate-ACK heuristic (R173). -/
def ackPacket (ack : SeqNum) (advanced : Bool) (s : State) : State :=
  if s.cfg.dupackNak ∧ advanced = false ∧ ack = s.win.lastAcked ∧ s.win.outstanding ≠ 0 ∧ s.flags.rejSeen = false then
    onReject s.win.lastAcked s
  else s

/-- ACK (R235): `SEQ`, `LCH`, `RCH` and `F` are ignored. -/
def execAck (h : Hdr) (s : State) : Result :=
  .next (acceptNumbered h.ack (fun advanced t => ackPacket h.ack advanced t) s)

/-- NAK (R236): `SEQ` names the missing packet; `LCH`, `RCH` and `F` are ignored. -/
def execNak (h : Hdr) (s : State) : Result :=
  .next (acceptNumbered h.ack (fun _ t => onReject (seqPred h.seq) t) s)

/-- The sizes an accepted SYNC settles (R237): clamped to 16 and to 10, the packet size the smaller of the two. -/
def settleSizes (win k : Byte) (s : State) : State :=
  let rpktK : SizeClass := BitVec.ofNat 4 (min k.toNat Config.kMax)
  { s with
    sizes :=
      { s.sizes with
        rwin := BitVec.ofNat 5 (min win.toNat Config.winMax)
        rpktK := rpktK
        negPktK := classMin s.sizes.lpktK rpktK }
    flags := { s.flags with gotSync := true } }

/-- `handle_sync` (R237). -/
def handleSync (f : Bool) (win k : Byte) (s : State) : State :=
  if win = 0 ∨ k.toNat < Config.kMin then countError .hdrerr s
  else
    let t := settleSizes win k s
    finishHandshake (if f then t else transmitSync true t)

/-- `process_packet` of a SYNC (R230, R237, R239): its `ACK` field is ignored. -/
def acceptSync (f : Bool) (win k : Byte) (s : State) : State :=
  match s.pstate with
  | .negotiating => handleSync f win k (goodPacket s)
  | .ready => serviceIfReady (handleSync f win k (goodPacket s))
  | .unstarted => s
  | .closing => s
  | .closed => s
  | .failed => s

/-- SYNC (R237): `SEQ`, `LCH`, `ACK` and `RCH` are ignored. -/
def execSync (h : Hdr) (win k : Byte) (s : State) : Result :=
  .next (acceptSync h.f win k s)

/-- `peer_close` (R241). -/
def peerClose (s : State) : State :=
  endPending .peerClosed
    (emit (.evt .peerClosed) { s with pstate := .closing, flags := { s.flags with closingF := true } })

/-- CLOSE (R241): no `service` follows, since `PSTATE` is then `CLOSING`. -/
def execClose (h : Hdr) (s : State) : Result :=
  .next (acceptNumbered h.ack (fun _ t => peerClose t) s)

end Sys2Proof.Machine
end

