-- ==== Sys2Proof/Machine/Dispatch.lean ====
section
/-! DEFINITION. One arm per instruction of spec/opcode_table.json. -/

namespace Sys2Proof.Machine

open Sys2Proof

def exec (i : Instr) (s : State) : Host.Outcome State Fault Refusal :=
  match i with
  | .data h payload => Sys2Proof.Machine.execData h payload s
  | .sync h win k => Sys2Proof.Machine.execSync h win k s
  | .ack h => Sys2Proof.Machine.execAck h s
  | .nak h => Sys2Proof.Machine.execNak h s
  | .close h => Sys2Proof.Machine.execClose h s
  | .start role => Sys2Proof.Machine.execStart role s
  | .getBuf => Sys2Proof.Machine.execGetBuf s
  | .sendData eom lch rch len => Sys2Proof.Machine.execSendData eom lch rch len s
  | .wait => Sys2Proof.Machine.execWait s
  | .shutdown => Sys2Proof.Machine.execShutdown s
  | .file flag lch rch => Sys2Proof.Machine.execFile flag lch rch s

end Sys2Proof.Machine
end

