-- ==== Sys2Proof/Machine/Receive.lean ====
section
/-! DEFINITION. The receive side: the decoder loop (40_codec.md R140) and the three answers of the byte stream,
`RxBytes` (20_memory.md R77), `RxTimeout` (41_window.md R175) and `RxError` (R79). -/

namespace Sys2Proof.Machine

open Sys2Proof

/-- `decode_loop()` (R140), at most `n` rounds. A packet found at the head of `RXBUF` is removed and executed. -/
def decodeRounds : Nat → State → Result
  | 0, s => .next s
  | n + 1, s =>
    if s.decoderOn then
      match decodeFrame s.maxLen s.rxbuf with
      | .incomplete => .next s
      | .garbage => decodeRounds n (drop1 s)
      | .malformedHeader => decodeRounds n (countError .hdrerr (drop1 s))
      | .checksumMismatch => decodeRounds n (countError .crcerr (drop1 s))
      | .packet i rest => andThen (exec i { s with rxbuf := rest }) (decodeRounds n)
    else .next s

/-- `decode_loop()` (R140). Every round that goes on takes at least one byte from `RXBUF`, so one round more than it
holds bytes is enough (log 15). -/
def decodeLoop (s : State) : Result := decodeRounds (s.rxbuf.length + 1) s

/-- The bytes of a chunk, one by one (R77): once the decoder is off the rest is discarded, uncounted. -/
def feed : List Byte → State → Result
  | [], s => .next s
  | b :: rest, s =>
    if s.decoderOn then andThen (decodeLoop { s with rxbuf := s.rxbuf ++ [b] }) (feed rest) else .next s

/-- `RxBytes(chunk)` (R77): the chunk, then the completion check. It has no step where no receive request is open (U13)
or where the chunk is empty (U14). -/
def rxBytes (chunk : List Byte) (s : State) : Result :=
  if s.receiveRequest.isNone then .refused .noReceiveRequest
  else if chunk.isEmpty then .refused .emptyChunk
  else andThen (feed chunk s) fun t => .next (completionCheck t)

/-- The flush of a timeout (R175): a partial candidate packet gives up its lead-in, the rest is rescanned. -/
def flush (s : State) : Result := if s.rxbuf.isEmpty then .next s else decodeLoop (drop1 s)

/-- What a timeout transmits (R175), by the state the flush left. -/
def timeoutResend (s : State) : State :=
  match s.pstate with
  | .negotiating => requestSync s
  | .ready =>
    if s.win.outstanding ≠ 0 then transmitData (seqSucc s.win.lastAcked) true s
    else transmitNak (seqSucc s.win.lastRecv) s
  | .unstarted => s
  | .closing => s
  | .closed => s
  | .failed => s

/-- The counting lines of a timeout (R175). -/
def countTimeout (s : State) : State :=
  { s with
    stats := { s.stats with timeout := satInc s.stats.timeout }
    counters := { s.counters with retry := s.counters.retry + 1 } }

/-- A gap NAK may be repeated (R175, R264). -/
def rearmNak (s : State) : State := { s with flags := { s.flags with nakedValid := false } }

/-- The lines of R175 after the flush. `NAKED_VALID` is cleared whatever the flush led to (log 12); the completion check
is not run in a step that ended in `FAILED` (R210). -/
def afterFlush (s : State) : State :=
  let t := timeoutResend (rearmNak s)
  if t.pstate = .failed then t else completionCheck t

/-- `RxTimeout` (R175). DEDUCED (log 20): R31's "every `RxTimeout`" clears `NAKED_VALID` is read as the clear in R175's
procedure, which the timeout that exhausts the retry budget returns before (R305, R320). -/
def rxTimeout (s : State) : Result :=
  if s.receiveRequest.isNone then .refused .noReceiveRequest
  else
    let t := countTimeout s
    if t.cfg.maxRetries ≤ t.counters.retry then .next (raiseFatal .retryExhausted t)
    else andThen (flush t) fun u => .next (afterFlush u)

/-- `RxError` (R79). -/
def rxError (s : State) : Result :=
  if s.receiveRequest.isNone then .refused .noReceiveRequest else .next (raiseFatal .ioError s)

/-- `Cmd(word)` (R201): the operation the word stands for, or the answer to an illegal word. -/
def runCommand (w : Word) (s : State) : Result :=
  match decodeCommand w with
  | .ok i => exec i s
  | .error e => .next (illegalCommand w e s)

end Sys2Proof.Machine
end

