-- ==== Sys2Proof/Machine/Events.lean ====
section
/-! DEFINITION. The step for each input event (00_scope.md R8). -/

namespace Sys2Proof.Machine

open Sys2Proof

/-- One input event, handled whole (R8, R64). -/
def handle (e : InEvent) (s : State) : Result :=
  match e with
  | .reset => .next (resetBlock s)
  | .csrWrite addr value => .next (csrWrite addr value s)
  | .csrRead addr => .next (csrRead addr s)
  | .bufWrite addr value => .next (bufWrite addr value s)
  | .cmd word => runCommand word s
  | .rxBytes chunk => rxBytes chunk s
  | .rxTimeout => rxTimeout s
  | .rxError => rxError s

/-- Take the next input event and handle it. With none to come the block is idle and nothing changes (R209, log 1). -/
def nextEvent (s : State) : Result :=
  match s.inputs with
  | [] => .next s
  | e :: rest => handle e { s with inputs := rest }

/-- Make ready for the packet of a table word to be the next thing decoded (log 8): its image is the next chunk,
`RXBUF` is empty, the decoder is on, a receive request is open, and `ACCEPT_K` admits its length. -/
def placePacket (w : Nat) (s : State) : State :=
  { s with
    inputs := .rxBytes (frameOfTableWord w) :: s.inputs
    rxbuf := []
    pstate := if s.decoderOn then s.pstate else .ready
    pend := if s.pend = .none then .wait else s.pend
    sizes :=
      { s.sizes with
        acceptK := if (headerOfTableWord w).len.toNat ≤ s.maxLen then s.sizes.acceptK else 10 } }

/-- Make ready for the command of a table word to be the next input event (log 8). -/
def placeCommand (w : Nat) (s : State) : State :=
  { s with inputs := .cmd (BitVec.ofNat 32 w) :: s.inputs }

/-- The instruction of a table word stored where the next step takes its instruction from. -/
def placeTableWord (nbits w : Nat) (s : State) : State :=
  match nbits with
  | 48 => placePacket w s
  | _ => placeCommand w s

end Sys2Proof.Machine
end

