-- ==== Sys2Proof/Machine/SendCmd.lean ====
section
/-! DEFINITION. The pseudo-operation `SEND_CMD(text, lch, rch)` (30_encoding.md R116): it has no operation code; it is
the sequence of input events by which the host sends a string. "The expansion is exactly what the host would write by
hand; the block cannot tell them apart". -/

namespace Sys2Proof.Machine

open Sys2Proof

/-- `n = max(1, ceil(L / P))` (R116). -/
def sendCmdCount (p len : Nat) : Nat := max 1 ((len + p - 1) / p)

/-- The pieces of a string without its terminator (R116): `text[i*P .. min(L, (i+1)*P) - 1]`. -/
def sendCmdPieces (p : Nat) (text : List Byte) : List (List Byte) :=
  (List.range (sendCmdCount p text.length)).map fun i => (text.drop (i * p)).take p

/-- The `BufWrite`s of one piece into slot `q` (R116). -/
def pieceWrites (q : SeqNum) (piece : List Byte) : List InEvent :=
  piece.zipIdx.map fun bj => .bufWrite (Config.bufWinBase + Config.slotBytes * q.toNat + bj.2) bj.1

/-- The host's events for one piece: `GET_BUF` (answered with slot `q`), the bytes, `SEND_DATA` (R116). -/
def pieceEvents (q : SeqNum) (lch rch : Channel) (eom : Bool) (piece : List Byte) : List InEvent :=
  .cmd (commandWord 0 0 0 false 2) :: pieceWrites q piece ++
    [.cmd (commandWord (BitVec.ofNat 12 piece.length) rch lch eom 3)]

/-- The host's events for a string (R116), where `GET_BUF` first lends slot `q` and then, as each `SEND_DATA` has
completed before the next `GET_BUF`, the slots after it. The byte stream's answers to a blocked `SEND_DATA` are the
environment's and stand between (log 18). -/
def sendCmdEvents (q : SeqNum) (p : Nat) (lch rch : Channel) (text : List Byte) : List InEvent :=
  (sendCmdPieces p text).zipIdx.flatMap fun ci =>
    pieceEvents (q + BitVec.ofNat 5 ci.2) lch rch (decide (ci.2 + 1 = sendCmdCount p text.length)) ci.1

end Sys2Proof.Machine
end

