-- ==== Sys2Proof/WellFormed.lean ====
section
/-! DEFINITION. Which instructions have an encoding. Every field is as wide as the header or command word makes it, so
the one check left is the length of a DATA payload: 0 to 1024 bytes (30_encoding.md R90, R95). -/

namespace Sys2Proof

/-- An instruction that some packet or command word encodes (R90, R95, R110). -/
def Instr.wellFormed : Instr → Bool
  | .data _ payload => decide (payload.length ≤ Config.slotBytes)
  | .sync _ _ _ => true
  | .ack _ => true
  | .nak _ => true
  | .close _ => true
  | .start _ => true
  | .getBuf => true
  | .sendData _ _ _ _ => true
  | .wait => true
  | .shutdown => true
  | .file _ _ _ => true

end Sys2Proof
end

