-- ==== Sys2Proof/Safety.lean ====
section
/-! DEFINITION. What claims about the machine speak of: the packet images it transmits, the deliveries and
transmissions of an output list (00_scope.md R15), the moves of `PSTATE` (10_state.md R29), and the invariants of the
machine (R23, R30, R31, R39, R42, R202, R204). -/

namespace Sys2Proof.Machine

open Sys2Proof

/-! ### Packet images -/

/-- The image of DATA packet `q` as a transmission in state `s` builds it (R136). -/
def State.dataImage (s : State) (q : SeqNum) : List Byte :=
  encodePacket .data
    { seq := q, lch := (s.slot q).lch, ack := s.win.lastRecv, rch := (s.slot q).rch, f := (s.slot q).eom }
    (s.slotPayload q)

/-- The image of a control packet that carries `SEQ` and `ACK` (R106, R261). -/
def controlImage (ty : PktType) (seq ack : SeqNum) : List Byte :=
  encodePacket ty { seq := seq, lch := 0, ack := ack, rch := 0, f := false } []

/-- The image of this side's SYNC (R103, R262). -/
def State.syncImage (s : State) (reply : Bool) : List Byte :=
  encodePacket .sync { seq := 0, lch := 0, ack := 0, rch := 0, f := reply }
    [s.sizes.lwin.setWidth 8, s.sizes.lpktK.setWidth 8]

/-- The packet image of R91 to R102 and R135 in byte arithmetic: the lead-in, `SEQ` with `LCH`, `ACK` with `RCH`, the type
code with `F` and the high part of `LEN`, its low part, the check byte, the payload, and the CRC of `b2`, `b3`, `b4` and the
payload, most significant byte first. -/
def wireImage (code : Nat) (h : Hdr) (payload : List Byte) : List Byte :=
  let b1 : Byte := BitVec.ofNat 8 (h.seq.toNat * 8 + h.lch.toNat)
  let b2 : Byte := BitVec.ofNat 8 (h.ack.toNat * 8 + h.rch.toNat)
  let b3 : Byte := BitVec.ofNat 8 (code * 32 + h.f.toNat * 16 + payload.length / 256)
  let b4 : Byte := BitVec.ofNat 8 payload.length
  let c := (crc32 (b2 :: b3 :: b4 :: payload)).toNat
  [0x07, b1, b2, b3, b4, 0x07 ^^^ b1 ^^^ b2 ^^^ b3 ^^^ b4] ++ payload ++
    [BitVec.ofNat 8 (c / 16777216), BitVec.ofNat 8 (c / 65536), BitVec.ofNat 8 (c / 256), BitVec.ofNat 8 c]

/-- The command word of R110 and R111 in arithmetic, from the operation code and the fields `FLAG`, `LCH`, `RCH`, `LEN`. -/
def fieldWord (op : Nat) (flag : Bool) (lch rch : Channel) (len : Nat) : Word :=
  BitVec.ofNat 32 (op + 256 * flag.toNat + 512 * lch.toNat + 4096 * rch.toNat + 65536 * len)

/-- The packet a timeout transmits (R175): the SYNC request in `NEGOTIATING`, else the oldest unacknowledged packet, or
with nothing outstanding the NAK for the next expected one. -/
def State.timeoutImage (s : State) : List Byte :=
  if s.pstate = .negotiating then s.syncImage false
  else if s.win.outstanding ≠ 0 then s.dataImage (s.win.lastAcked + 1)
  else controlImage .nak (s.win.lastRecv + 1) s.win.lastRecv

/-- The instruction is a packet of the wire. -/
def isPacket : Instr → Bool
  | .data _ _ => true
  | .sync _ _ _ => true
  | .ack _ => true
  | .nak _ => true
  | .close _ => true
  | .start _ => false
  | .getBuf => false
  | .sendData _ _ _ _ => false
  | .wait => false
  | .shutdown => false
  | .file _ _ _ => false

/-- A DATA payload is no longer than the receiver takes (R95). -/
def fits (maxLen : Nat) : Instr → Bool
  | .data _ payload => decide (payload.length ≤ maxLen)
  | .sync _ _ _ => true
  | .ack _ => true
  | .nak _ => true
  | .close _ => true
  | .start _ => true
  | .getBuf => true
  | .sendData _ _ _ _ => true
  | .wait => true
  | .shutdown => true
  | .file _ _ _ => true

/-- A SYNC whose arguments are refused: `win = 0` or `k < 5` (R105, R237). -/
def refusedSync : Instr → Bool
  | .sync _ win k => decide (win = 0 ∨ k.toNat < 5)
  | .data _ _ => false
  | .ack _ => false
  | .nak _ => false
  | .close _ => false
  | .start _ => false
  | .getBuf => false
  | .sendData _ _ _ _ => false
  | .wait => false
  | .shutdown => false
  | .file _ _ _ => false

/-- The bytes with bit `j` of byte `k` inverted. -/
def flipBit (bytes : List Byte) (k j : Nat) : List Byte :=
  bytes.modify k fun b => b ^^^ (1#8 <<< j)

/-! ### Commands -/

/-- The operation code a response echoes, `OP[3:0]` (R111, R113); 0 for a packet. -/
def commandOp : Instr → BitVec 4
  | .start _ => 1
  | .getBuf => 2
  | .sendData _ _ _ _ => 3
  | .wait => 4
  | .shutdown => 5
  | .file _ _ _ => 6
  | .data _ _ => 0
  | .sync _ _ _ => 0
  | .ack _ => 0
  | .nak _ => 0
  | .close _ => 0

/-- The states in which a command is performed (the table of R202). -/
def commandAllowed : Instr → PState → Bool
  | .start _, p => decide (p = .unstarted)
  | .getBuf, p => decide (p = .ready)
  | .sendData _ _ _ _, p => decide (p = .ready)
  | .wait, p => decide (p = .ready)
  | .shutdown, p => decide (p = .ready) || decide (p = .closing)
  | .file _ _ _, p => decide (p = .ready)
  | .data _ _, _ => false
  | .sync _ _ _, _ => false
  | .ack _, _ => false
  | .nak _, _ => false
  | .close _, _ => false

/-- The state with one more output event. -/
def State.emitted (s : State) (e : OutEvent) : State := { s with out := s.out ++ [e] }

/-- `n` timeouts in a row (R177). -/
def timeouts : Nat → State → Result
  | 0, s => .next s
  | n + 1, s => andThen (handle .rxTimeout s) (timeouts n)

/-! ### What an output list holds -/

/-- The payloads delivered, in order, with their channels and `eom` (R80). -/
def deliveries : List OutEvent → List (Channel × Channel × Bool × List Byte)
  | [] => []
  | .deliver lch rch eom payload :: rest => (lch, rch, eom, payload) :: deliveries rest
  | .tx _ :: rest => deliveries rest
  | .evt _ :: rest => deliveries rest
  | .rsp _ :: rest => deliveries rest
  | .csrData _ :: rest => deliveries rest

/-- The packets transmitted, in order (R72). -/
def transmissions : List OutEvent → List (List Byte)
  | [] => []
  | .tx bytes :: rest => bytes :: transmissions rest
  | .deliver _ _ _ _ :: rest => transmissions rest
  | .evt _ :: rest => transmissions rest
  | .rsp _ :: rest => transmissions rest
  | .csrData _ :: rest => transmissions rest

/-! ### Frames -/

/-- Every byte of both buffer memories reads as before. -/
def SameBytes (s t : State) : Prop :=
  (∀ a, t.slotByte a = s.slotByte a) ∧ (∀ a, t.reordByte a = s.reordByte a)

/-- What no packet and no command writes: configuration, the sticky flags, the reset count, the inputs to come. -/
def SameHostSide (s t : State) : Prop :=
  t.cfg = s.cfg ∧ t.flags.cfgErr = s.flags.cfgErr ∧ t.flags.bufViol = s.flags.bufViol ∧
    t.resetEpoch = s.resetEpoch ∧ t.inputs = s.inputs

/-! ### Outstanding packets -/

/-- DATA packet `q` is outstanding: `1 <= dist(q, LAST_ACKED) <= outstanding` (R162). -/
abbrev WindowRegs.isOutstanding (w : WindowRegs) (q : SeqNum) : Prop :=
  dist q w.lastAcked ≠ 0 ∧ dist q w.lastAcked ≤ w.outstanding

/-- What the ack value `a` does to state `s`, with result `u` (R165, R166): where it names an outstanding packet, exactly
the slots after `LAST_ACKED` up to it lose `INUSE`, `LAST_ACKED` moves to it, a retransmit point at or before it moves past
it, `REJ_SEEN` is cleared, `CAUTIOUS` ends if it covers `CAUTION_SEQ`, `RETRY` is 0 and a passage through 0 is notified;
else it does nothing. -/
def AckApplied (a : SeqNum) (s u : State) : Prop :=
  (s.win.isOutstanding a →
    (∀ q, u.slot q =
      if dist q s.win.lastAcked ≠ 0 ∧ dist q s.win.lastAcked ≤ dist a s.win.lastAcked then
        { s.slot q with inuse := false }
      else s.slot q) ∧
    u =
      { s with
        slots := u.slots
        win :=
          { s.win with
            lastAcked := a
            nextRetx :=
              if dist s.win.nextRetx s.win.lastAcked ≤ dist a s.win.lastAcked then a + 1 else s.win.nextRetx }
        flags :=
          { s.flags with
            rejSeen := false
            cautious :=
              s.flags.cautious && decide (dist a s.win.lastAcked < dist s.win.cautionSeq s.win.lastAcked) }
        counters := { s.counters with retry := 0 }
        out := s.out ++ if a.toNat < s.win.lastAcked.toNat then [.evt (.windowAcked a)] else [] }) ∧
  (¬s.win.isOutstanding a → u = s)

/-- Nothing but the packet at hand calls for a transmission: no retransmission is queued, no gap is open, no ACK is owed
(R263, R265, R268). -/
def State.quiet (s : State) : Prop :=
  s.win.nextRetx = s.win.nextSeq ∧ (∀ q, (s.reordAt q).valid = false) ∧ s.flags.ackPending = false

/-- The packet after `LAST_RECV` has been asked for (R264): `NAKED_VALID = 1` and `NAKED_SEQ` names it. -/
abbrev State.gapAsked (s : State) : Prop := s.flags.nakedValid = true ∧ s.win.nakedSeq = s.win.lastRecv + 1

/-- At least `max(1, LWIN / 2)` packets up to `q` are unacknowledged (R243 (b)). -/
abbrev State.ackDueAt (s : State) (q : SeqNum) : Prop :=
  max 1 (s.sizes.lwin.toNat / 2) ≤ (dist q s.win.lastAckSent).toNat

/-- `n` increments of a statistics counter (R33). -/
def satAdd : Nat → BitVec 32 → BitVec 32
  | 0, x => x
  | n + 1, x => satAdd n (satInc x)

/-! ### Moves of PSTATE -/

/-- What one step may do to `PSTATE` (R29): the moves of the list, and the paths of them that one chunk can make. -/
def moveAllowed : PState → PState → Bool
  | .unstarted, .unstarted => true
  | .unstarted, .negotiating => true
  | .negotiating, .negotiating => true
  | .negotiating, .ready => true
  | .negotiating, .closing => true
  | .negotiating, .failed => true
  | .ready, .ready => true
  | .ready, .closing => true
  | .ready, .closed => true
  | .ready, .failed => true
  | .closing, .closing => true
  | .closing, .closed => true
  | .closed, .closed => true
  | .failed, .failed => true
  | _, _ => false

/-- The event is a reset: the reset line, or `CTRL.SOFT_RESET` (R340). -/
def isReset : InEvent → Bool
  | .reset => true
  | .csrWrite addr value => decide (addr = 0x04) && value.getLsbD 0
  | .csrRead _ => false
  | .bufWrite _ _ => false
  | .cmd _ => false
  | .rxBytes _ => false
  | .rxTimeout => false
  | .rxError => false

/-! ### Invariants -/

/-- `PEND` and `PSTATE` agree (R30, R202, R210): a blocking command is pending only in `NEGOTIATING` or `READY`, and in
`NEGOTIATING` it is `START`. -/
def ControlInv (s : State) : Prop :=
  (s.pend = .start ↔ s.pstate = .negotiating) ∧ (s.pend = .wait ∨ s.pend = .sendData → s.pstate = .ready)

/-- The handshake (R29, R238): until a SYNC has been both sent and accepted the block is not `READY`, and then it is no
longer `NEGOTIATING` (log 21); before START neither has happened. -/
def HandshakeInv (s : State) : Prop :=
  (s.pstate = .unstarted → s.flags.sentSync = false ∧ s.flags.gotSync = false) ∧
    (s.pstate = .negotiating → ¬(s.flags.sentSync = true ∧ s.flags.gotSync = true)) ∧
    (s.pstate = .ready → s.flags.sentSync = true ∧ s.flags.gotSync = true)

/-- Before the handshake is done the window registers and the pools are as reset left them (R44, R242). -/
def FreshInv (s : State) : Prop :=
  (s.pstate = .unstarted ∨ s.pstate = .negotiating →
    s.win = State.reset.win ∧ s.flags.bufOwned = false ∧ s.flags.ackPending = false ∧
      (∀ q, (s.slot q).inuse = false) ∧ (∀ q, (s.reordAt q).valid = false)) ∧
  (s.pstate = .unstarted → s.rxbuf = [] ∧ s.counters = State.reset.counters)

/-- The send window (R23 (a), (b)). -/
def WindowInv (s : State) : Prop :=
  s.win.outstanding ≤ 16 ∧ s.sizes.rwin ≤ 16 ∧
    dist s.win.nextRetx s.win.lastAcked ≠ 0 ∧
    (dist s.win.nextRetx s.win.lastAcked).toNat ≤ s.win.outstanding.toNat + 1

/-- The slots in use (R23 (c)), with the packet of a `SEND_DATA` that pends, or that ended untransmitted (R211, log 11).
`SHUTDOWN` releases all of them (R207). -/
def SlotInv (s : State) : Prop :=
  (s.pend = .sendData → (s.slot s.win.nextSeq).inuse = true) ∧
  (s.pstate ≠ .closed → ∀ q, s.win.isOutstanding q → (s.slot q).inuse = true) ∧
  (∀ q, (s.slot q).inuse = true →
    s.win.isOutstanding q ∨
      (q = s.win.nextSeq ∧ (s.pend = .sendData ∨ s.pstate = .closing ∨ s.pstate = .failed)))

/-- The borrow (R204): the lent slot is the next one, and it is lent only in `READY` or `CLOSING`, outside a pending
`SEND_DATA`. -/
def BorrowInv (s : State) : Prop :=
  s.flags.bufOwned = true →
    s.win.bufSlot = s.win.nextSeq ∧ (s.pstate = .ready ∨ s.pstate = .closing) ∧ s.pend ≠ .sendData

/-- The reorder buffer (R23 (d)). -/
def ReordInv (s : State) : Prop :=
  ∀ q, (s.reordAt q).valid = true → 2 ≤ dist q s.win.lastRecv ∧ dist q s.win.lastRecv ≤ s.sizes.lwin

/-- Acknowledgements owed (R23 (e), R31, R243): between steps none is pending and less than half the window, or less
than one packet, is unacknowledged. -/
def AckInv (s : State) : Prop :=
  s.flags.ackPending = false ∧
    (dist s.win.lastRecv s.win.lastAckSent).toNat < max 1 (s.sizes.lwin.toNat / 2)

/-- The configuration registers hold legal values (R39), and so do the sizes taken from them (R24). -/
def SizeInv (s : State) : Prop :=
  cfg0Legal s.cfg.cfg0 = true ∧ cfg1Legal s.cfg.cfg1 = true ∧ cfg2Legal s.cfg.cfg2 = true ∧
    s.sizes.lwin ≤ 16 ∧ s.sizes.lpktK ≤ 10 ∧ s.sizes.acceptK ≤ 10 ∧ s.sizes.negPktK ≤ 10 ∧
    (s.pstate ≠ .unstarted → 1 ≤ s.sizes.lwin ∧ 5 ≤ s.sizes.acceptK)

/-- Every stored length fits a slot (R40, R41). -/
def LengthInv (s : State) : Prop :=
  (∀ q, (s.slot q).len.toNat ≤ Config.slotBytes) ∧ (∀ q, (s.reordAt q).len.toNat ≤ Config.slotBytes)

/-- The receive byte buffer while the decoder runs (R42): empty, or an incomplete candidate packet. -/
def RxInv (s : State) : Prop :=
  s.pstate = .negotiating ∨ s.pstate = .ready →
    s.rxbuf = [] ∨
      (s.rxbuf.head? = some Config.leadIn ∧
        s.rxbuf.length < Config.headerLen + 2 ^ s.sizes.acceptK.toNat + Config.trailerLen)

/-- The counters stay below the limits that end the connection (R311, R313, R177). -/
def CounterInv (s : State) : Prop :=
  s.counters.goodcnt < s.cfg.decayK ∧
    (s.pstate = .negotiating ∨ s.pstate = .ready → s.counters.retry < s.cfg.maxRetries) ∧
    (s.pstate = .negotiating → s.counters.errcnt.toNat < s.cfg.negErrLimit.toNat)

/-- Both buffer memories are in canonical form and inside their space (R60). -/
def MemoryInv (s : State) : Prop :=
  s.slotMem.wf = true ∧ s.reordMem.wf = true ∧ s.slotMem.inSpace = true ∧ s.reordMem.inSpace = true

/-- The invariant of the machine. -/
structure Inv (s : State) : Prop where
  control : ControlInv s
  handshake : HandshakeInv s
  fresh : FreshInv s
  window : WindowInv s
  slot : SlotInv s
  borrow : BorrowInv s
  reord : ReordInv s
  ack : AckInv s
  size : SizeInv s
  length : LengthInv s
  rx : RxInv s
  counter : CounterInv s
  memory : MemoryInv s

end Sys2Proof.Machine
end

