-- ==== Sys2Proof/Certificates/Slice0/Obligations.lean ====
section
/-! DEFINITION. The statements about the machine. Rules `R<n>` are those of spec/; where a statement rests on a choice
of the model its docstring names the log entry. -/

open Sys2Proof Sys2Proof.Machine

/-! ### Sequence arithmetic -/

/-- The distance (R160), and its law (R161): the two distances add to 32 for `a ≠ b`, and to 0 for `a = b` (C5). -/
def Obligations.DistancesAddToModulus : Prop :=
  ∀ a b : SeqNum,
    (dist a b).toNat = (a.toNat + 32 - b.toNat) % 32 ∧
    (a ≠ b → (dist a b).toNat + (dist b a).toNat = 32) ∧
    (a = b → (dist a b).toNat + (dist b a).toNat = 0)

/-- `outstanding = (NEXT_SEQ - 1 - LAST_ACKED) mod 32` (R162); `can_send` (R163), with the rule's own premise
`outstanding <= 16`; `tx_allowed` (R171) and `send_ready` (R172) in the registers they read, in every state. -/
def Obligations.CanSendExactlyBelowWindow : Prop :=
  (∀ w : WindowRegs, w.outstanding.toNat = (w.nextSeq.toNat + 63 - w.lastAcked.toNat) % 32) ∧
  (∀ s : State, s.win.outstanding.toNat ≤ 16 →
    (s.canSend = true ↔ (dist s.win.nextSeq s.win.lastAcked).toNat ≤ s.sizes.rwin.toNat) ∧
    (dist s.win.nextSeq s.win.lastAcked).toNat = s.win.outstanding.toNat + 1 ∧
    (s.canSend = true ↔ s.win.outstanding.toNat < s.sizes.rwin.toNat)) ∧
  (∀ (s : State) (q : SeqNum),
    s.txAllowed q = true ↔
      s.flags.cautious = false ∨ (dist q s.win.cautionSeq).toNat ≤ (s.cfg.cfg0.extractLsb' 17 2).toNat) ∧
  (∀ s : State,
    s.sendReady = true ↔
      (dist s.win.nextSeq s.win.lastAcked).toNat ≤ s.sizes.rwin.toNat ∧ s.win.nextRetx = s.win.nextSeq ∧
        (s.flags.cautious = false ∨
          (dist s.win.nextSeq s.win.cautionSeq).toNat ≤ (s.cfg.cfg0.extractLsb' 17 2).toNat))

/-! ### Codec -/

/-- Decoding what the encoder writes gives the instruction back, for every well-formed instruction, every operand at
every value (R110, R111, R131, R135, R137, R138, R143). -/
def Obligations.DecodeOfEncodeIsTheInstruction : Prop :=
  ∀ i : Instr, i.wellFormed = true → decode Config.slotBytes (encode i) = .ok i

/-- A packet image at the head of the stream is that packet, whatever follows it; a proper part of it is waited for
(R135, R140). The images are those of R91 to R102 byte by byte, with the type codes of R93 and the SYNC payload of R103.
-/
def Obligations.PacketImageHeadsTheStream : Prop :=
  (∀ (maxLen : Nat) (i : Instr) (bytes : List Byte),
    i.wellFormed = true → fits maxLen i = true → encode i = .packet bytes →
    (∀ rest, decodeFrame maxLen (bytes ++ rest) = .packet i rest) ∧
    (∀ n, n < bytes.length → decodeFrame maxLen (bytes.take n) = .incomplete)) ∧
  (∀ (h : Hdr) (payload : List Byte) (win k : Byte),
    (payload.length ≤ 1024 → encode (.data h payload) = .packet (wireImage 0 h payload)) ∧
    encode (.sync h win k) = .packet (wireImage 1 h [win, k]) ∧
    encode (.ack h) = .packet (wireImage 2 h []) ∧
    encode (.nak h) = .packet (wireImage 3 h []) ∧
    encode (.close h) = .packet (wireImage 4 h []))

/-- Words written out in R118 and R119 decode to the instructions they stand for; the CRC has its check value (R133). -/
def Obligations.WrittenWordsDecode : Prop :=
  decode 1024 (.packet [0x07, 0x08, 0x00, 0x10, 0x02, 0x1D, 0x68, 0x69, 0x0C, 0xF5, 0x4C, 0xBF]) =
      .ok (.data { seq := 1, lch := 0, ack := 0, rch := 0, f := true } [0x68, 0x69]) ∧
    decode 1024 (.packet [0x07, 0x00, 0x00, 0x30, 0x02, 0x35, 0x04, 0x06, 0xB8, 0x82, 0xBB, 0xE3]) =
      .ok (.sync { seq := 0, lch := 0, ack := 0, rch := 0, f := true } 4 6) ∧
    decode 1024 (.packet [0x07, 0x30, 0x28, 0x60, 0x00, 0x7F, 0xAC, 0xE2, 0xA5, 0xED]) =
      .ok (.nak { seq := 6, lch := 0, ack := 5, rch := 0, f := false }) ∧
    decode 1024 (.command 0x00202203) = .ok (.sendData false 1 2 32) ∧
    decode 1024 (.command 0x00002306) = .ok (.file true 1 2) ∧
    crc32 [0x31, 0x32, 0x33, 0x34, 0x35, 0x36, 0x37, 0x38, 0x39] = 0xCBF43926

/-- The check byte (R101): it is the exclusive or of the other five; in a header that has it right the six bytes XOR to
0; inverting one bit of any of the six makes the sum non-zero. -/
def Obligations.CheckByteDetectsOneFlip : Prop :=
  ∀ h : RawHeader,
    h.xchk = h.b0 ^^^ h.b1 ^^^ h.b2 ^^^ h.b3 ^^^ h.b4 ∧
    (h.b5 = h.xchk →
      h.bytes.foldl (· ^^^ ·) 0 = 0 ∧
      ∀ k j, k < 6 → j < 8 → (flipBit h.bytes k j).foldl (· ^^^ ·) 0 ≠ 0)

/-- `hdr_ok` (R138), its conditions read off the six bytes by R137's own arithmetic: `type = h[3] >> 5`,
`len = ((h[3] & 0x0F) << 8) | h[4]`. -/
def Obligations.HeaderOkConditions : Prop :=
  ∀ (maxLen : Nat) (h : RawHeader),
    h.ok maxLen = true ↔
      h.b0 = 0x07 ∧ h.b5 = h.b0 ^^^ h.b1 ^^^ h.b2 ^^^ h.b3 ^^^ h.b4 ∧
      h.b3.toNat / 32 ≤ 4 ∧
      (2 ≤ h.b3.toNat / 32 → h.b3.toNat % 16 * 256 + h.b4.toNat = 0) ∧
      (h.b3.toNat / 32 = 1 → h.b3.toNat % 16 * 256 + h.b4.toNat = 2) ∧
      (h.b3.toNat / 32 = 0 → h.b3.toNat % 16 * 256 + h.b4.toNat ≤ maxLen)

/-- Inverting any one bit of a transmitted packet is always detected (R144): in the lead-in the byte is garbage, in the
other header bytes the header is malformed, in the payload or the trailer the checksum differs. -/
def Obligations.EverySingleFlipIsDetected : Prop :=
  ∀ (maxLen : Nat) (i : Instr) (bytes rest : List Byte) (k j : Nat),
    i.wellFormed = true → fits maxLen i = true → encode i = .packet bytes → k < bytes.length → j < 8 →
    decodeFrame maxLen (flipBit bytes k j ++ rest) =
      if k = 0 then .garbage else if k < 6 then .malformedHeader else .checksumMismatch

/-- A command word decodes to an instruction exactly where it is that instruction's word, and is a reserved operation
exactly where its `OP` is 0 or at least 7 (R110, R111, R112); those words are made of the operation code and the fields
at the bits of R110. -/
def Obligations.CommandWordsHaveOneMeaning : Prop :=
  (∀ w : Word,
    (∀ i, decodeCommand w = .ok i ↔ encode i = .command w) ∧
    (decodeCommand w = .error .reservedOp ↔ w.toNat % 256 = 0 ∨ 7 ≤ w.toNat % 256)) ∧
  (∀ (flag : Bool) (lch rch : Channel) (len : BitVec 12),
    encode (.start flag) = .command (fieldWord 1 flag 0 0 0) ∧
    encode .getBuf = .command (fieldWord 2 false 0 0 0) ∧
    encode (.sendData flag lch rch len) = .command (fieldWord 3 flag lch rch len.toNat) ∧
    encode .wait = .command (fieldWord 4 false 0 0 0) ∧
    encode .shutdown = .command (fieldWord 5 false 0 0 0) ∧
    encode (.file flag lch rch) = .command (fieldWord 6 flag lch rch 0))

/-- `SEND_CMD` (R116): the pieces are the text, each is at most one packet, all but the last are full, and there are
`max(1, ceil(L / P))` of them; the host's events are, for each piece, GET_BUF, one `BufWrite` for each byte into the
slot lent, and SEND_DATA with its length, `FLAG` set on the last piece alone (the slot numbers are given ahead, log 18).
-/
def Obligations.SendCmdSplitsTheText : Prop :=
  ∀ (p : Nat) (text : List Byte), 0 < p →
    (sendCmdPieces p text).flatten = text ∧
    (∀ c ∈ sendCmdPieces p text, c.length ≤ p) ∧
    (∀ c ∈ (sendCmdPieces p text).dropLast, c.length = p) ∧
    (sendCmdPieces p text).length = max 1 ((text.length + p - 1) / p) ∧
    (p ≤ 1024 →
      ∀ (q : SeqNum) (lch rch : Channel),
        sendCmdEvents q p lch rch text =
          (sendCmdPieces p text).zipIdx.flatMap fun (c, i) =>
            .cmd 2 ::
              (c.zipIdx.map fun (b, j) => .bufWrite (0x8000 + 1024 * (q + BitVec.ofNat 5 i).toNat + j) b) ++
              [.cmd (fieldWord 3 (decide (i + 1 = (sendCmdPieces p text).length)) lch rch c.length)])

/-! ### Steps -/

/-- A step runs the decoded instruction (R8, R77, R140, R201): it handles the next input event, whatever that is, and
with none to come leaves the state as it is (R209; the list of inputs is the model's, log 1); a command word that
decodes to `i` makes the step `exec i`; a packet at the head of `RXBUF` makes the decoder's round `exec i` on the state
without it, and then the decoder goes on; a chunk is fed byte by byte and the completion check closes the step. What
that check does (R210): it answers a START that has reached `READY` with `K = NEG_PKT_K` and `VAL = RWIN`, a WAIT that
has seen an end of message, transmits and answers a SEND_DATA that had blocked, and else does nothing. -/
def Obligations.StepRunsTheDecodedInstruction : Prop :=
  (∀ (s : State) (e : InEvent) (rest : List InEvent),
    s.inputs = e :: rest → step s = handle e { s with inputs := rest }) ∧
  (∀ s : State, s.inputs = [] → step s = .next s) ∧
  (∀ (s : State) (w : Word) (rest : List InEvent) (i : Instr),
    s.inputs = .cmd w :: rest → decodeCommand w = .ok i → step s = exec i { s with inputs := rest }) ∧
  (∀ (s : State) (n : Nat) (i : Instr) (rest : List Byte),
    s.pstate = .negotiating ∨ s.pstate = .ready →
    decodeFrame (2 ^ s.sizes.acceptK.toNat) s.rxbuf = .packet i rest →
    decodeRounds (n + 1) s = andThen (exec i { s with rxbuf := rest }) (decodeRounds n)) ∧
  (∀ (s : State) (b : Byte) (chunk : List Byte) (rest : List InEvent),
    s.inputs = .rxBytes (b :: chunk) :: rest → s.pend ≠ .none →
    step s = andThen (feed (b :: chunk) { s with inputs := rest }) fun t => .next (completionCheck t)) ∧
  (∀ s : State, s.pend = .start → s.pstate = .ready →
    completionCheck s =
      { s with pend := .none, out := s.out ++ [.rsp (rspWord 1 .ok 0 s.sizes.rwin s.sizes.negPktK)] }) ∧
  (∀ s : State, s.pend = .wait → s.flags.eomSeen = true →
    completionCheck s = { s with pend := .none, out := s.out ++ [.rsp (rspWord 4 .ok 0 0 0)] }) ∧
  (∀ s : State, s.pend = .sendData → s.pstate = .ready → s.sendReady = true →
    completionCheck s =
      { s with
        pend := .none
        win :=
          { s.win with
            nextSeq := s.win.nextSeq + 1, nextRetx := s.win.nextSeq + 1, lastAckSent := s.win.lastRecv }
        flags := { s.flags with ackPending := false }
        stats := { s.stats with tx := satInc s.stats.tx }
        out := s.out ++ [.tx (s.dataImage s.win.nextSeq), .rsp (rspWord 3 .ok 0 0 0)] }) ∧
  (∀ s : State,
    ¬(s.pend = .start ∧ s.pstate = .ready) → ¬(s.pend = .wait ∧ s.flags.eomSeen = true) →
    ¬(s.pend = .sendData ∧ s.pstate = .ready ∧ s.sendReady = true) → completionCheck s = s)

/-- The stream round trip (R143, R77): a chunk that is one packet's image, of a payload of at most `2^ACCEPT_K` bytes
(R95, R138), given to a block in `NEGOTIATING` or `READY` with empty `RXBUF`, runs exactly that packet and then the
completion check (`StepRunsTheDecodedInstruction` says what it does); `RXBUF` is empty again, nothing is added to
`GARBAGE`, and no error is counted but the one a refused SYNC counts itself (R237). -/
def Obligations.OnePacketChunkRunsThatPacket : Prop :=
  ∀ (s : State) (i : Instr) (bytes : List Byte) (rest : List InEvent),
    i.wellFormed = true → fits (2 ^ s.sizes.acceptK.toNat) i = true → encode i = .packet bytes →
    s.pstate = .negotiating ∨ s.pstate = .ready → s.rxbuf = [] → s.pend ≠ .none → s.inputs = .rxBytes bytes :: rest →
    ∃ t, exec i { s with inputs := rest } = .next t ∧ step s = .next (completionCheck t) ∧
      t.rxbuf = [] ∧ t.counters.garbage = s.counters.garbage ∧
      (refusedSync i = false → t.stats.hdrerr = s.stats.hdrerr ∧ t.stats.crcerr = s.stats.crcerr)

/-- The processing of a chunk (R77, R140). How the byte stream cuts the bytes makes no difference (D50). In
`NEGOTIATING` and `READY` each byte is appended to `RXBUF` and the decoder loop is run; in any other state, as after a
CLOSE or a failure inside the chunk (R241, R320), the rest is discarded, uncounted. The loop is as many rounds as it
takes: the model's bound of one more than `RXBUF` has bytes is met by any larger number (log 15). A round ends it where
the candidate is incomplete or the state is none of the two; `StepRunsTheDecodedInstruction` and
`BadCandidatesLoseOneByte` say what the others do. -/
def Obligations.ChunkingDoesNotMatter : Prop :=
  (∀ (xs ys : List Byte) (s : State), feed (xs ++ ys) s = andThen (feed xs s) (feed ys)) ∧
  (∀ (s : State) (f : State → Result), andThen (.next s) f = f s) ∧
  (∀ s : State, feed [] s = .next s) ∧
  (∀ (b : Byte) (rest : List Byte) (s : State), s.pstate = .negotiating ∨ s.pstate = .ready →
    feed (b :: rest) s = andThen (decodeLoop { s with rxbuf := s.rxbuf ++ [b] }) (feed rest)) ∧
  (∀ (chunk : List Byte) (s : State), s.pstate ≠ .negotiating → s.pstate ≠ .ready → feed chunk s = .next s) ∧
  (∀ (n : Nat) (s : State), s.rxbuf.length < n → decodeLoop s = decodeRounds n s) ∧
  (∀ (n : Nat) (s : State), decodeFrame (2 ^ s.sizes.acceptK.toNat) s.rxbuf = .incomplete →
    decodeRounds n s = .next s) ∧
  (∀ (n : Nat) (s : State), s.pstate ≠ .negotiating → s.pstate ≠ .ready → decodeRounds n s = .next s)

/-- What the decoder does with bytes that are no packet (R105, R139, R140): garbage drops one byte and counts no error;
a bad header or trailer drops one byte, counts one `GARBAGE` and runs the error accounting. Which bytes these are (R105,
R140, R305 (b)): less than a header, or a good header with less than its payload and trailer behind it, is incomplete; a
header is looked at before the trailer, and the trailer is the CRC of `b2`, `b3`, `b4` and the payload. -/
def Obligations.BadCandidatesLoseOneByte : Prop :=
  (∀ (s : State) (n : Nat) (b : Byte) (rest : List Byte),
    s.pstate = .negotiating ∨ s.pstate = .ready → s.rxbuf = b :: rest →
    (b ≠ 0x07 →
      decodeRounds (n + 1) s =
        decodeRounds n
          { s with
            rxbuf := rest
            counters := { s.counters with garbage := satInc s.counters.garbage } }) ∧
    (decodeFrame (2 ^ s.sizes.acceptK.toNat) (b :: rest) = .malformedHeader →
      decodeRounds (n + 1) s =
        decodeRounds n
          (countError .hdrerr
            { s with
              rxbuf := rest
              counters := { s.counters with garbage := satInc s.counters.garbage } })) ∧
    (decodeFrame (2 ^ s.sizes.acceptK.toNat) (b :: rest) = .checksumMismatch →
      decodeRounds (n + 1) s =
        decodeRounds n
          (countError .crcerr
            { s with
              rxbuf := rest
              counters := { s.counters with garbage := satInc s.counters.garbage } }))) ∧
  (∀ (maxLen : Nat) (b : Byte) (rest : List Byte),
    decodeFrame maxLen [] = .incomplete ∧ (b ≠ 0x07 → decodeFrame maxLen (b :: rest) = .garbage) ∧
    (rest.length < 5 → decodeFrame maxLen (0x07 :: rest) = .incomplete)) ∧
  (∀ (maxLen : Nat) (h : RawHeader) (body : List Byte), h.b0 = 0x07 →
    (h.ok maxLen = false → decodeFrame maxLen (h.bytes ++ body) = .malformedHeader) ∧
    (∀ len : Nat, len = h.b3.toNat % 16 * 256 + h.b4.toNat → h.ok maxLen = true →
      (body.length < len + 4 → decodeFrame maxLen (h.bytes ++ body) = .incomplete) ∧
      (∀ (payload trailer rest : List Byte), payload.length = len → trailer.length = 4 →
        body = payload ++ trailer ++ rest →
        (decodeFrame maxLen (h.bytes ++ body) = .checksumMismatch ↔
          trailer.foldl (fun a t => a * 256 + t.toNat) 0 ≠ (crc32 (h.b2 :: h.b3 :: h.b4 :: payload)).toNat))))

/-- Every instruction answers a next state in every state, and a step stops only where the spec says there is no step
(R76, U13, U14): a byte-stream event with no receive request open, or an empty chunk. A request is open exactly while a
command is pending, with the timeout of `CFG1[31:16]` (R43, R76). -/
def Obligations.StepsStopOnlyOnImpossibleEvents : Prop :=
  (∀ (i : Instr) (s : State), ∃ t, exec i s = .next t) ∧
  (∀ s : State,
    (∃ t, step s = .next t) ∨
    (s.pend = .none ∧ step s = .refused .noReceiveRequest ∧
      ((∃ c rest, s.inputs = .rxBytes c :: rest) ∨ (∃ rest, s.inputs = .rxTimeout :: rest) ∨
        (∃ rest, s.inputs = .rxError :: rest))) ∨
    (step s = .refused .emptyChunk ∧ ∃ rest, s.inputs = .rxBytes [] :: rest)) ∧
  (∀ s : State, s.receiveRequest = if s.pend = .none then none else some (s.cfg.cfg1.extractLsb' 16 16))

/-! ### Host commands -/

/-- Checks (1) and (4) of R115 on every command, by the table of R202: `BUSY` while a command is pending, else
`BAD_STATE` where the state does not allow it; nothing else changes. What is in a response word, of these and of every
other answer: the fields of R113 with the codes of R114; the operation echoed is `OP[3:0]` of the command's word, which
for the three blocking commands the pending register remembers (R111). -/
def Obligations.RefusedCommandsChangeNothing : Prop :=
  (∀ (i : Instr) (s : State), isPacket i = false →
    (s.pend ≠ .none → exec i s = .next (s.emitted (.rsp (rspWord (commandOp i) .busy 0 0 0)))) ∧
    (s.pend = .none → commandAllowed i s.pstate = false →
      exec i s = .next (s.emitted (.rsp (rspWord (commandOp i) .badState 0 0 0))))) ∧
  (∀ (op : BitVec 4) (st : Status) (size : BitVec 12) (val : BitVec 5) (k : BitVec 4),
    (rspWord op st size val k).extractLsb' 0 4 = st.code ∧ (rspWord op st size val k).extractLsb' 4 4 = k ∧
      (rspWord op st size val k).extractLsb' 8 5 = val ∧ (rspWord op st size val k).extractLsb' 13 3 = 0 ∧
      (rspWord op st size val k).extractLsb' 16 12 = size ∧ (rspWord op st size val k).extractLsb' 28 4 = op) ∧
  (Status.ok.code = 0 ∧ Status.badState.code = 1 ∧ Status.badArg.code = 2 ∧ Status.busy.code = 3 ∧
    Status.failed.code = 4 ∧ Status.peerClosed.code = 5 ∧ Status.badOp.code = 6) ∧
  (∀ (i : Instr) (w : Word), encode i = .command w → commandOp i = w.extractLsb' 0 4) ∧
  (Pend.start.op = 1 ∧ Pend.sendData.op = 3 ∧ Pend.wait.op = 4)

/-- Illegal command words (R112) with no command pending: a reserved `OP` is answered `BAD_OP`; a defined `OP` with a 1
in a bit that must be 0 is answered `BAD_ARG`; nothing else changes. While a command is pending both are `BUSY` (R115).
-/
def Obligations.IllegalWordsAreAnswered : Prop :=
  ∀ (s : State) (w : Word),
    (s.pend = .none → w.toNat % 256 = 0 ∨ 7 ≤ w.toNat % 256 →
      handle (.cmd w) s = .next (s.emitted (.rsp (rspWord (w.extractLsb' 0 4) .badOp 0 0 0)))) ∧
    (s.pend = .none → 1 ≤ w.toNat % 256 ∧ w.toNat % 256 ≤ 6 → (∀ i, encode i ≠ .command w) →
      handle (.cmd w) s = .next (s.emitted (.rsp (rspWord (w.extractLsb' 0 4) .badArg 0 0 0)))) ∧
    (s.pend ≠ .none → (∀ i, encode i ≠ .command w) →
      handle (.cmd w) s = .next (s.emitted (.rsp (rspWord (w.extractLsb' 0 4) .busy 0 0 0))))

/-- START (R203) in `UNSTARTED`: the whole next state, for caller and callee. -/
def Obligations.StartBeginsNegotiation : Prop :=
  ∀ (role : Bool) (s : State), s.pend = .none → s.pstate = .unstarted →
    exec (.start role) s =
      .next
        { s with
          flags := { s.flags with role := role, sentSync := s.flags.sentSync || role }
          sizes :=
            { s.sizes with
              lwin := s.cfg.cfg0.extractLsb' 0 5
              lpktK := s.cfg.cfg0.extractLsb' 8 4
              acceptK := s.cfg.cfg0.extractLsb' 8 4 }
          pstate := .negotiating
          counters := { s.counters with retry := 0 }
          pend := .start
          stats := { s.stats with tx := if role then satInc s.stats.tx else s.stats.tx }
          out :=
            s.out ++
              if role then
                [.tx (encodePacket .sync { seq := 0, lch := 0, ack := 0, rch := 0, f := false }
                  [(s.cfg.cfg0.extractLsb' 0 5).setWidth 8, (s.cfg.cfg0.extractLsb' 8 4).setWidth 8])]
              else [] }

/-- GET_BUF (R204) in `READY`: the whole next state; the response carries the slot and `2^NEG_PKT_K`. -/
def Obligations.GetBufLendsTheNextSlot : Prop :=
  ∀ s : State, s.pend = .none → s.pstate = .ready →
    exec .getBuf s =
      .next
        { s with
          flags := { s.flags with bufOwned := true }
          win := { s.win with bufSlot := s.win.nextSeq }
          out := s.out ++ [.rsp (rspWord 2 .ok (BitVec.ofNat 12 (2 ^ s.sizes.negPktK.toNat)) s.win.nextSeq 0)] }

/-- SEND_DATA (R205, R210, R266) in `READY` with a borrow, a legal length and `send_ready`: the packet goes out in the
same step, carrying `LAST_RECV`, and the command is answered. `NEG_PKT_K <= 10` rules out states no run reaches. -/
def Obligations.SendDataTransmitsWhenReady : Prop :=
  ∀ (eom : Bool) (lch rch : Channel) (len : BitVec 12) (s : State),
    s.pend = .none → s.pstate = .ready → s.flags.bufOwned = true →
    s.sizes.negPktK ≤ 10 → len.toNat ≤ 2 ^ s.sizes.negPktK.toNat → s.sendReady = true →
    exec (.sendData eom lch rch len) s =
      .next
        { s with
          slots :=
            setEntry s.slots s.win.nextSeq { inuse := true, lch := lch, rch := rch, eom := eom, len := len.setWidth 11 }
          flags := { s.flags with bufOwned := false, ackPending := false }
          counters := { s.counters with retry := 0 }
          win :=
            { s.win with
              nextSeq := s.win.nextSeq + 1, nextRetx := s.win.nextSeq + 1, lastAckSent := s.win.lastRecv }
          stats := { s.stats with tx := satInc s.stats.tx }
          out :=
            s.out ++
              [.tx (encodePacket .data { seq := s.win.nextSeq, lch := lch, ack := s.win.lastRecv, rch := rch, f := eom }
                ((List.range len.toNat).map fun i => s.slotByte (1024 * s.win.nextSeq.toNat + i))),
               .rsp (rspWord 3 .ok 0 0 0)] }

/-- SEND_DATA (R205) where `send_ready` does not hold: it stays pending, nothing is transmitted and nothing answered. -/
def Obligations.SendDataPendsWhenNotReady : Prop :=
  ∀ (eom : Bool) (lch rch : Channel) (len : BitVec 12) (s : State),
    s.pend = .none → s.pstate = .ready → s.flags.bufOwned = true →
    len.toNat ≤ 2 ^ s.sizes.negPktK.toNat → s.sendReady = false →
    exec (.sendData eom lch rch len) s =
      .next
        { s with
          slots :=
            setEntry s.slots s.win.nextSeq { inuse := true, lch := lch, rch := rch, eom := eom, len := len.setWidth 11 }
          flags := { s.flags with bufOwned := false }
          counters := { s.counters with retry := 0 }
          pend := .sendData }

/-- SEND_DATA (R205) without a borrow or with too long a payload is answered `BAD_ARG` and changes nothing. -/
def Obligations.SendDataNeedsBorrowAndLength : Prop :=
  ∀ (eom : Bool) (lch rch : Channel) (len : BitVec 12) (s : State),
    s.pend = .none → s.pstate = .ready →
    s.flags.bufOwned = false ∨ 2 ^ s.sizes.negPktK.toNat < len.toNat →
    exec (.sendData eom lch rch len) s = .next (s.emitted (.rsp (rspWord 3 .badArg 0 0 0)))

/-- WAIT (R206) in `READY`: the whole next state. -/
def Obligations.WaitBecomesPending : Prop :=
  ∀ s : State, s.pend = .none → s.pstate = .ready →
    exec .wait s =
      .next
        { s with
          flags := { s.flags with eomSeen := false }
          counters := { s.counters with retry := 0 }
          pend := .wait }

/-- SHUTDOWN (R207) in `READY` or `CLOSING`: two identical CLOSE packets, every buffer released, `CLOSED`, answered
`OK`; lengths, channels and bytes of the slots, and every register, counter and statistic else keep their values. -/
def Obligations.ShutdownSendsCloseTwice : Prop :=
  ∀ s : State, s.pend = .none → s.pstate = .ready ∨ s.pstate = .closing →
    ∃ t, exec .shutdown s = .next t ∧
      t.pstate = .closed ∧ t.pend = .none ∧ t.rxbuf = [] ∧
      t.out =
        s.out ++
          [.tx (controlImage .close 0 s.win.lastRecv), .tx (controlImage .close 0 s.win.lastRecv),
           .rsp (rspWord 5 .ok 0 0 0)] ∧
      (∀ q, t.slot q = { s.slot q with inuse := false }) ∧
      (∀ q, t.reordAt q = { s.reordAt q with valid := false }) ∧
      t.flags = { s.flags with closingF := true, bufOwned := false, ackPending := false } ∧
      t.win = { s.win with lastAckSent := s.win.lastRecv } ∧
      t.stats = { s.stats with tx := satInc (satInc s.stats.tx) } ∧
      t.sizes = s.sizes ∧ t.counters = s.counters ∧ t.failCause = s.failCause ∧ SameBytes s t ∧ SameHostSide s t

/-- FILE (R208) in `READY` changes no state and answers `OK`, whatever its arguments. -/
def Obligations.FileAnswersOk : Prop :=
  ∀ (flag : Bool) (lch rch : Channel) (s : State), s.pend = .none → s.pstate = .ready →
    exec (.file flag lch rch) s = .next (s.emitted (.rsp (rspWord 6 .ok 0 0 0)))

/-! ### Received packets -/

/-- In `NEGOTIATING` every packet that is not a SYNC is counted as a good packet and otherwise discarded (R242): no ack
processing, no delivery, no service. -/
def Obligations.NegotiatingDiscardsNonSync : Prop :=
  ∀ (i : Instr) (s : State), s.pstate = .negotiating → isPacket i = true →
    (∀ h w k, i ≠ .sync h w k) →
    exec i s = .next (goodPacket s)

/-- `good_packet()` (R313): the whole next state. The packet is counted; every `DECAY_K`-th takes one error off, not
below 0. The statistics counters stop at their largest value (R33). -/
def Obligations.GoodPacketsForgiveErrors : Prop :=
  (∀ (n : Nat) (x : BitVec n), (satInc x).toNat = min (x.toNat + 1) (2 ^ n - 1)) ∧
  (∀ s : State,
    (s.cfg.decayK.toNat ≤ (s.counters.goodcnt + 1).toNat →
      goodPacket s =
        { s with
          stats := { s.stats with rx := satInc s.stats.rx }
          counters :=
            { s.counters with goodcnt := 0, errcnt := BitVec.ofNat 16 (s.counters.errcnt.toNat - 1) } }) ∧
    ((s.counters.goodcnt + 1).toNat < s.cfg.decayK.toNat →
      goodPacket s =
        { s with
          stats := { s.stats with rx := satInc s.stats.rx }
          counters := { s.counters with goodcnt := s.counters.goodcnt + 1 } }))

/-- What no accepted packet changes (R230 to R243): the host's side, `RXBUF`, every send-buffer byte, `NEXT_SEQ`,
`BUF_SLOT`, `LWIN`, `ACCEPT_K`, `ROLE`, `GARBAGE`; the reorder buffer's bytes change only where a DATA packet ahead of
the expected one is stored (R232): from its entry's first byte, as many as its payload has; only DATA writes the reorder
records and `LAST_RECV`, only SYNC the negotiated sizes and the failure cause. -/
def Obligations.PacketsKeepTheRest : Prop :=
  ∀ (i : Instr) (s t : State), isPacket i = true → exec i s = .next t →
    SameHostSide s t ∧ t.rxbuf = s.rxbuf ∧ (∀ a, t.slotByte a = s.slotByte a) ∧
    t.win.nextSeq = s.win.nextSeq ∧ t.win.bufSlot = s.win.bufSlot ∧
    t.sizes.lwin = s.sizes.lwin ∧ t.sizes.acceptK = s.sizes.acceptK ∧
    t.flags.role = s.flags.role ∧ t.counters.garbage = s.counters.garbage ∧
    t.stats.crcerr = s.stats.crcerr ∧ t.stats.timeout = s.stats.timeout ∧
    (∀ a,
      (∀ h p, i = .data h p → s.pstate = .ready → 2 ≤ dist h.seq s.win.lastRecv →
        dist h.seq s.win.lastRecv ≤ s.sizes.lwin →
        ¬(recordAddr h.seq 0 ≤ a ∧ a < recordAddr h.seq 0 + p.length)) →
      t.reordByte a = s.reordByte a) ∧
    ((∀ h p, i ≠ .data h p) →
      t.reord = s.reord ∧ t.win.lastRecv = s.win.lastRecv ∧ t.flags.eomSeen = s.flags.eomSeen) ∧
    ((∀ h w k, i ≠ .sync h w k) →
      t.sizes = s.sizes ∧ t.failCause = s.failCause ∧ t.flags.bufOwned = s.flags.bufOwned ∧
      t.flags.sentSync = s.flags.sentSync ∧ t.flags.gotSync = s.flags.gotSync)

/-- The expected DATA packet (R231 to R234, R243, R264, R265), no retransmission queued and no ACK owed: first its ack
is applied, as an ACK's is (R165, R166, `AckApplied`), then it is delivered and after it, in order, the `n` packets that
were waiting behind it, up to the next gap; their entries are freed, `LAST_RECV` moves to the last of them, `EOM_SEEN`
takes every end of message among them. If packets still wait behind a further gap one NAK asks for the packet missing
there, else an ACK follows exactly if half the window is now unacknowledged. `outstanding <= 16` rules out states no run
reaches (R23 (a)), and so does the end of the packets waiting before all 32 (R23 (d)). -/
def Obligations.ExpectedDataIsDelivered : Prop :=
  ∀ (h : Hdr) (payload : List Byte) (s : State) (n : Nat) (last : SeqNum) (asks : Bool),
    s.pstate = .ready → s.win.nextRetx = s.win.nextSeq → s.flags.ackPending = false → s.win.outstanding ≤ 16 →
    h.seq = s.win.lastRecv + 1 → n < 32 →
    (∀ i, i < n → (s.reordAt (h.seq + 1 + BitVec.ofNat 5 i)).valid = true) →
    (s.reordAt (h.seq + 1 + BitVec.ofNat 5 n)).valid = false →
    last = h.seq + BitVec.ofNat 5 n →
    (asks = true ↔
      ∃ q, (s.reordAt q).valid = true ∧ ¬(1 ≤ (dist q h.seq).toNat ∧ (dist q h.seq).toNat ≤ n)) →
    ∃ u t, AckApplied h.ack s u ∧ exec (.data h payload) s = .next t ∧
      (∀ q, t.reordAt q =
        if 1 ≤ (dist q h.seq).toNat ∧ (dist q h.seq).toNat ≤ n then { s.reordAt q with valid := false }
        else s.reordAt q) ∧
      t =
        { u with
          reord := t.reord
          win :=
            { u.win with
              lastRecv := last
              lastAckSent := if asks = true ∨ s.ackDueAt last then last else s.win.lastAckSent
              nakedSeq := if asks = true then last + 1 else s.win.nakedSeq }
          flags :=
            { u.flags with
              eomSeen :=
                s.flags.eomSeen || h.f ||
                  (List.range n).any fun i => (s.reordAt (h.seq + 1 + BitVec.ofNat 5 i)).eom
              nakedValid := asks }
          counters := { (goodPacket s).counters with retry := 0 }
          stats :=
            { s.stats with
              rx := satInc s.stats.rx
              tx := if asks = true ∨ s.ackDueAt last then satInc s.stats.tx else s.stats.tx }
          out :=
            u.out ++ .deliver h.lch h.rch h.f payload ::
              ((List.range n).map fun i =>
                .deliver (s.reordAt (h.seq + 1 + BitVec.ofNat 5 i)).lch
                  (s.reordAt (h.seq + 1 + BitVec.ofNat 5 i)).rch (s.reordAt (h.seq + 1 + BitVec.ofNat 5 i)).eom
                  (s.reordPayload (h.seq + 1 + BitVec.ofNat 5 i))) ++
              (if asks = true then [.tx (controlImage .nak (last + 1) last)]
              else if s.ackDueAt last then [.tx (controlImage .ack 0 last)]
              else []) }

/-- A DATA packet ahead of the expected one, inside the receive window (R231, R232, R264), no retransmission queued and
no ACK owed: its ack is applied (`AckApplied`), it is stored whole and nothing is delivered. Where the missing packet
has not been asked for, one NAK for it goes out, whether the gap was open before or opens now; where it has been, no
second NAK does, and only an ACK if half the window is unacknowledged (which no run reaches here, R243). `outstanding <=
16` rules out states no run reaches either (R23 (a)). -/
def Obligations.AheadDataIsBuffered : Prop :=
  ∀ (h : Hdr) (payload : List Byte) (s : State),
    s.pstate = .ready → s.win.nextRetx = s.win.nextSeq → s.flags.ackPending = false → s.win.outstanding ≤ 16 →
    payload.length ≤ 1024 → 2 ≤ dist h.seq s.win.lastRecv → dist h.seq s.win.lastRecv ≤ s.sizes.lwin →
    ∃ u t, AckApplied h.ack s u ∧ exec (.data h payload) s = .next t ∧
      t.reordAt h.seq =
        { valid := true, lch := h.lch, rch := h.rch, eom := h.f, len := BitVec.ofNat 11 payload.length } ∧
      t.reordPayload h.seq = payload ∧
      (∀ q, q ≠ h.seq → t.reordAt q = s.reordAt q) ∧
      (∀ a, ¬(recordAddr h.seq 0 ≤ a ∧ a < recordAddr h.seq 0 + payload.length) →
        t.reordByte a = s.reordByte a) ∧
      (∀ a, t.slotByte a = s.slotByte a) ∧
      (¬s.gapAsked →
        t.out = u.out ++ [.tx (controlImage .nak (s.win.lastRecv + 1) s.win.lastRecv)] ∧
        t.win = { u.win with lastAckSent := s.win.lastRecv, nakedSeq := s.win.lastRecv + 1 } ∧
        t.flags = { u.flags with nakedValid := true } ∧
        t.stats = { s.stats with rx := satInc s.stats.rx, tx := satInc s.stats.tx }) ∧
      (s.gapAsked → ¬s.ackDueAt s.win.lastRecv →
        t.out = u.out ∧ t.win = u.win ∧ t.flags = u.flags ∧ t.stats = { s.stats with rx := satInc s.stats.rx }) ∧
      (s.gapAsked → s.ackDueAt s.win.lastRecv →
        t.out = u.out ++ [.tx (controlImage .ack 0 s.win.lastRecv)] ∧
        t.win = { u.win with lastAckSent := s.win.lastRecv } ∧ t.flags = u.flags ∧
        t.stats = { s.stats with rx := satInc s.stats.rx, tx := satInc s.stats.tx }) ∧
      t.counters = { (goodPacket s).counters with retry := u.counters.retry } ∧
      t.sizes = s.sizes ∧ t.pstate = s.pstate ∧ t.pend = s.pend ∧ t.failCause = s.failCause ∧ t.slots = u.slots ∧
      t.rxbuf = s.rxbuf ∧ SameHostSide s t

/-- A DATA packet that is not new (R231, R232, R243 (a)) where nothing else is to be sent: its ack is applied
(`AckApplied`), it is not delivered, not stored, and the peer is told where this side is. `outstanding <= 16` rules out
states no run reaches (R23 (a)). -/
def Obligations.OldDataIsOnlyAcknowledged : Prop :=
  ∀ (h : Hdr) (payload : List Byte) (s : State),
    s.pstate = .ready → s.quiet → s.win.outstanding ≤ 16 →
    dist h.seq s.win.lastRecv ≠ 1 →
    dist h.seq s.win.lastRecv = 0 ∨ s.sizes.lwin < dist h.seq s.win.lastRecv →
    ∃ u, AckApplied h.ack s u ∧
      exec (.data h payload) s =
        .next
          { u with
            win := { u.win with lastAckSent := s.win.lastRecv }
            counters := { (goodPacket s).counters with retry := u.counters.retry }
            stats := { s.stats with rx := satInc s.stats.rx, tx := satInc s.stats.tx }
            out := u.out ++ [.tx (controlImage .ack 0 s.win.lastRecv)] }

/-- Out-of-order arrivals (R244): with `LWIN >= 3` the packets `N+2`, `N+1`, `N` are delivered in the order `N`, `N+1`,
`N+2`, none of them before `N` has arrived; `LAST_RECV` is then `N+2`, their entries are free, no gap is asked for, the
retry budget is restored and `EOM_SEEN` takes each end of message (R233, R234). With `LWIN < 3` the packet `N+2` is
dropped. -/
def Obligations.OutOfOrderArrivalsAreDeliveredInOrder : Prop :=
  ∀ (h0 h1 h2 : Hdr) (p0 p1 p2 : List Byte) (s : State),
    s.pstate = .ready → (∀ q, (s.reordAt q).valid = false) →
    h0.seq = s.win.lastRecv + 1 → h1.seq = s.win.lastRecv + 2 → h2.seq = s.win.lastRecv + 3 →
    p0.length ≤ 1024 → p1.length ≤ 1024 → p2.length ≤ 1024 →
    (3 ≤ s.sizes.lwin →
      ∃ s2 s1 s0,
        exec (.data h2 p2) s = .next s2 ∧ deliveries s2.out = deliveries s.out ∧
        exec (.data h1 p1) s2 = .next s1 ∧ deliveries s1.out = deliveries s.out ∧
        exec (.data h0 p0) s1 = .next s0 ∧
        deliveries s0.out =
          deliveries s.out ++
            [(h0.lch, h0.rch, h0.f, p0), (h1.lch, h1.rch, h1.f, p1), (h2.lch, h2.rch, h2.f, p2)] ∧
        s0.win.lastRecv = h2.seq ∧ (∀ q, (s0.reordAt q).valid = false) ∧
        s0.flags.eomSeen = (s.flags.eomSeen || h0.f || h1.f || h2.f) ∧ s0.flags.nakedValid = false ∧
        s0.counters.retry = 0) ∧
    (s.sizes.lwin < 3 →
      ∃ s2, exec (.data h2 p2) s = .next s2 ∧ deliveries s2.out = deliveries s.out ∧ s2.reord = s.reord ∧
        s2.win.lastRecv = s.win.lastRecv)

/-- An ACK for an outstanding packet (R165, R166, R235), no ACK owed: it is applied (`AckApplied`: exactly the slots up
to it are released, `LAST_ACKED` moves to it, the retry budget is restored, the rotation is notified if it passes
through 0), and then `service` runs (R263, R268, R264): what is still queued for retransmission goes out again in order,
all of it where cautious mode is off or ends with this ack (R170), else up to `RESEND_AHEAD` past `CAUTION_SEQ`; and a
gap not yet asked for is asked for. -/
def Obligations.AckReleasesAcknowledgedSlots : Prop :=
  ∀ (h : Hdr) (s : State),
    s.pstate = .ready → s.flags.ackPending = false → s.win.isOutstanding h.ack →
    ∃ u, AckApplied h.ack s u ∧
      ∀ (m : Nat) (asks : Bool),
        m =
          (if u.flags.cautious = true then
            min (dist s.win.nextSeq u.win.nextRetx).toNat
              (s.cfg.resendAhead.toNat + 1 - (dist u.win.nextRetx s.win.cautionSeq).toNat)
          else (dist s.win.nextSeq u.win.nextRetx).toNat) →
        (asks = true ↔ (∃ q, (s.reordAt q).valid = true) ∧ ¬s.gapAsked) →
        exec (.ack h) s =
          .next
            { u with
              win :=
                { u.win with
                  nextRetx := u.win.nextRetx + BitVec.ofNat 5 m
                  lastAckSent := if m ≠ 0 ∨ asks = true then s.win.lastRecv else s.win.lastAckSent
                  nakedSeq := if asks = true then s.win.lastRecv + 1 else s.win.nakedSeq }
              flags := { u.flags with nakedValid := s.flags.nakedValid || asks }
              counters := { (goodPacket s).counters with retry := 0 }
              stats :=
                { s.stats with
                  rx := satInc s.stats.rx
                  tx := satAdd (m + asks.toNat) s.stats.tx
                  retx := satAdd m s.stats.retx }
              out :=
                u.out ++ ((List.range m).map fun i => .tx (s.dataImage (u.win.nextRetx + BitVec.ofNat 5 i))) ++
                  if asks = true then [.tx (controlImage .nak (s.win.lastRecv + 1) s.win.lastRecv)] else [] }

/-- Idempotence (R167): after `on_ack(a)` has advanced, a second one returns false with no state change; and a repeated
ACK packet, in whatever mode, neither moves `LAST_ACKED` nor releases a slot. -/
def Obligations.RepeatedAckReleasesNothing : Prop :=
  (∀ (a : SeqNum) (s : State), (onAck a s).1 = true → onAck a (onAck a s).2 = (false, (onAck a s).2)) ∧
  (∀ (h : Hdr) (s t : State), s.pstate = .ready → exec (.ack h) s = .next t →
    ∃ u, exec (.ack h) t = .next u ∧ u.win.lastAcked = t.win.lastAcked ∧ u.slots = t.slots)

/-- An ack that acknowledges nothing is ignored (R165, R235, U25), unless the duplicate-ACK heuristic takes it for a
reject (R173): where nothing else is to be sent, only the good-packet counters change. -/
def Obligations.AckOfNothingOutstandingIsIgnored : Prop :=
  ∀ (h : Hdr) (s : State),
    s.pstate = .ready → s.quiet → ¬s.win.isOutstanding h.ack →
    ¬(s.cfg.dupackNak = true ∧ h.ack = s.win.lastAcked ∧ s.win.outstanding ≠ 0 ∧ s.flags.rejSeen = false) →
    exec (.ack h) s = .next (goodPacket s)

/-- NAK (R169, R171, R236, R268), its own ack acknowledging nothing. It names packet `SEQ = LAST_ACKED + 1 + d` as
missing: the `d` packets before it are acknowledged (R165, R166), it and at most `RESEND_AHEAD` after it are transmitted
again, in order, each with the current `LAST_RECV`, and cautious mode begins at it; with `d` equal to `outstanding` it
asks for a packet never sent and is an ack only; beyond that, or with nothing outstanding, it is ignored. A NAK whose
ack is `pred(SEQ)`, as a PXE sends it, has the same effect as one whose ack repeats `LAST_ACKED`. -/
def Obligations.NakResendsFromTheMissingPacket : Prop :=
  (∀ (h : Hdr) (s : State) (d : SeqNum) (m : Nat),
    s.pstate = .ready → (∀ q, (s.reordAt q).valid = false) → s.flags.ackPending = false →
    ¬s.win.isOutstanding h.ack → d = dist (h.seq - 1) s.win.lastAcked → d < s.win.outstanding → s.win.outstanding ≤ 16 →
    m = min (s.win.outstanding.toNat - d.toNat) (s.cfg.resendAhead.toNat + 1) →
    ∃ t, exec (.nak h) s = .next t ∧
      (∀ q, t.slot q =
        if dist q s.win.lastAcked ≠ 0 ∧ dist q s.win.lastAcked ≤ d then { s.slot q with inuse := false }
        else s.slot q) ∧
      t =
        { s with
          slots := t.slots
          win :=
            { s.win with
              lastAcked := h.seq - 1
              nextRetx := h.seq + BitVec.ofNat 5 m, cautionSeq := h.seq, lastAckSent := s.win.lastRecv }
          flags := { s.flags with cautious := true, rejSeen := true }
          counters := { (goodPacket s).counters with retry := if d = 0 then s.counters.retry else 0 }
          stats :=
            { s.stats with
              rx := satInc s.stats.rx, tx := satAdd m s.stats.tx, retx := satAdd m s.stats.retx }
          out :=
            s.out ++
              (if d ≠ 0 ∧ (h.seq - 1).toNat < s.win.lastAcked.toNat then [.evt (.windowAcked (h.seq - 1))] else []) ++
              (List.range m).map fun i => .tx (s.dataImage (h.seq + BitVec.ofNat 5 i)) }) ∧
  (∀ (h : Hdr) (s : State),
    s.pstate = .ready → ¬s.win.isOutstanding h.ack → s.win.outstanding ≠ 0 →
    dist (h.seq - 1) s.win.lastAcked = s.win.outstanding →
    exec (.nak h) s = exec (.ack { h with ack := h.seq - 1 }) s) ∧
  (∀ (h : Hdr) (s : State),
    s.pstate = .ready → s.quiet → ¬s.win.isOutstanding h.ack →
    s.win.outstanding = 0 ∨ s.win.outstanding < dist (h.seq - 1) s.win.lastAcked →
    exec (.nak h) s = .next (goodPacket s)) ∧
  (∀ (h : Hdr) (s : State),
    s.pstate = .ready → h.ack = h.seq - 1 →
    exec (.nak h) s = exec (.nak { h with ack := s.win.lastAcked }) s)

/-- The duplicate-ACK heuristic (R173, R235): in compatibility mode an ACK packet that repeats `LAST_ACKED` with packets
outstanding and no reject seen acts exactly as a NAK for the oldest of them with the same ack. -/
def Obligations.DuplicateAckActsAsNak : Prop :=
  ∀ (h : Hdr) (s : State),
    s.pstate = .ready → h.ack = s.win.lastAcked →
    s.cfg.dupackNak = true → s.flags.rejSeen = false → s.win.outstanding ≠ 0 →
    exec (.ack h) s = exec (.nak { h with seq := s.win.lastAcked + 1 }) s

/-- A SYNC in `NEGOTIATING` (R237, R238): the sizes are clamped and combined, a request is answered, and the block is
`READY` once a SYNC has been both sent and accepted. A SYNC with `win = 0` or `k < 5` is refused: counted as a good
packet and as an error (log 19), with no other effect below the error limit. -/
def Obligations.SyncFinishesTheHandshake : Prop :=
  (∀ (h : Hdr) (win k : Byte) (s : State),
    s.pstate = .negotiating → win ≠ 0 → 5 ≤ k.toNat →
    exec (.sync h win k) s =
      .next
        { s with
          sizes :=
            { s.sizes with
              rwin := BitVec.ofNat 5 (min win.toNat 16)
              rpktK := BitVec.ofNat 4 (min k.toNat 10)
              negPktK := BitVec.ofNat 4 (min s.sizes.lpktK.toNat (min k.toNat 10)) }
          flags := { s.flags with gotSync := true, sentSync := s.flags.sentSync || !h.f }
          pstate := if s.flags.sentSync || !h.f then .ready else .negotiating
          counters :=
            { (goodPacket s).counters with
              retry := if s.flags.sentSync || !h.f then 0 else s.counters.retry }
          stats :=
            { s.stats with
              rx := satInc s.stats.rx
              tx := if h.f then s.stats.tx else satInc s.stats.tx }
          out := s.out ++ if h.f then [] else [.tx (s.syncImage true)] }) ∧
  (∀ (h : Hdr) (win k : Byte) (s : State),
    s.pstate = .negotiating → win = 0 ∨ k.toNat < 5 →
    exec (.sync h win k) s = .next (countError .hdrerr (goodPacket s)) ∧
    ((goodPacket s).counters.errcnt.toNat + 1 < s.cfg.negErrLimit.toNat →
      exec (.sync h win k) s =
        .next
          { s with
            counters := { (goodPacket s).counters with errcnt := (goodPacket s).counters.errcnt + 1 }
            stats := { s.stats with rx := satInc s.stats.rx, hdrerr := satInc s.stats.hdrerr } }))

/-- A SYNC in `READY` (R237, R239) where nothing else is to be sent: it updates the sizes, is answered if it asks, and
resets nothing. A refused one (`win = 0` or `k < 5`) is counted as a good packet and as an error (log 19), with no other
effect below the error limit. -/
def Obligations.SyncInReadyResetsNothing : Prop :=
  (∀ (h : Hdr) (win k : Byte) (s : State),
    s.pstate = .ready → s.quiet → win ≠ 0 → 5 ≤ k.toNat →
    exec (.sync h win k) s =
      .next
        { s with
          sizes :=
            { s.sizes with
              rwin := BitVec.ofNat 5 (min win.toNat 16)
              rpktK := BitVec.ofNat 4 (min k.toNat 10)
              negPktK := BitVec.ofNat 4 (min s.sizes.lpktK.toNat (min k.toNat 10)) }
          flags := { s.flags with gotSync := true, sentSync := s.flags.sentSync || !h.f }
          counters := (goodPacket s).counters
          stats :=
            { s.stats with
              rx := satInc s.stats.rx
              tx := if h.f then s.stats.tx else satInc s.stats.tx }
          out := s.out ++ if h.f then [] else [.tx (s.syncImage true)] }) ∧
  (∀ (h : Hdr) (win k : Byte) (s : State),
    s.pstate = .ready → s.quiet → win = 0 ∨ k.toNat < 5 →
    exec (.sync h win k) s = .next (countError .hdrerr (goodPacket s)) ∧
    ((goodPacket s).counters.errcnt.toNat + 1 < s.cfg.errLimit.toNat →
      exec (.sync h win k) s =
        .next
          { s with
            counters := { (goodPacket s).counters with errcnt := (goodPacket s).counters.errcnt + 1 }
            stats := { s.stats with rx := satInc s.stats.rx, hdrerr := satInc s.stats.hdrerr } }))

/-- CLOSE in `READY` (R231, R241): its ack is honoured as an ACK's is (R165, R166), `PSTATE` becomes `CLOSING`, the host
is told, a pending command ends with `PEER_CLOSED`, nothing is transmitted and no other buffer is released. -/
def Obligations.PeerCloseEndsThePendingCommand : Prop :=
  ∀ (h : Hdr) (s : State), s.pstate = .ready →
    ∃ t, exec (.close h) s = .next t ∧
      t.pstate = .closing ∧ t.pend = .none ∧
      (∀ q, t.slot q =
        if s.win.isOutstanding h.ack ∧ dist q s.win.lastAcked ≠ 0 ∧
            dist q s.win.lastAcked ≤ dist h.ack s.win.lastAcked then
          { s.slot q with inuse := false }
        else s.slot q) ∧
      (s.win.isOutstanding h.ack →
        t.win =
          { s.win with
            lastAcked := h.ack
            nextRetx :=
              if dist s.win.nextRetx s.win.lastAcked ≤ dist h.ack s.win.lastAcked then h.ack + 1
              else s.win.nextRetx } ∧
        t.flags =
          { s.flags with
            closingF := true
            rejSeen := false
            cautious :=
              s.flags.cautious &&
                decide (dist h.ack s.win.lastAcked < dist s.win.cautionSeq s.win.lastAcked) } ∧
        t.counters = { (goodPacket s).counters with retry := 0 }) ∧
      (¬s.win.isOutstanding h.ack →
        t.win = s.win ∧ t.flags = { s.flags with closingF := true } ∧ t.counters = (goodPacket s).counters) ∧
      t.out =
        s.out ++
          (if s.win.isOutstanding h.ack ∧ h.ack.toNat < s.win.lastAcked.toNat then [.evt (.windowAcked h.ack)] else []) ++
          [.evt .peerClosed] ++
          (if s.pend = .none then [] else [.rsp (rspWord s.pend.op .peerClosed 0 0 0)]) ∧
      t.stats = { s.stats with rx := satInc s.stats.rx } ∧
      t.sizes = s.sizes ∧ t.failCause = s.failCause ∧ t.reord = s.reord ∧ SameBytes s t ∧ t.rxbuf = s.rxbuf ∧
      SameHostSide s t

/-! ### Errors, failure, timeouts -/

/-- `raise Fatal(cause)` (R320): the whole next state. -/
def Obligations.FatalEntry : Prop :=
  ∀ (cause : FailCause) (s : State),
    raiseFatal cause s =
      { s with
        pstate := .failed
        failCause := if s.failCause = .none then cause else s.failCause
        flags := { s.flags with bufOwned := false }
        pend := .none
        out :=
          s.out ++ .evt (.failed cause) ::
            if s.pend = .none then [] else [.rsp (rspWord s.pend.op .failed 0 0 0)] }

/-- Error accounting (R310, R311): every error adds one to the statistic of its kind and to `ERRCNT`, both saturating,
and changes nothing else; in `READY`, at `ERR_LIMIT`, the connection then fails with that cause, below it nothing more
happens; outside `NEGOTIATING` and `READY` nothing more happens either. -/
def Obligations.ErrorLimitEndsTheConnection : Prop :=
  (∀ s : State,
    tallyError .hdrerr s =
      { s with
        stats := { s.stats with hdrerr := BitVec.ofNat 32 (min (s.stats.hdrerr.toNat + 1) 0xFFFFFFFF) }
        counters := { s.counters with errcnt := BitVec.ofNat 16 (min (s.counters.errcnt.toNat + 1) 65535) } } ∧
    tallyError .crcerr s =
      { s with
        stats := { s.stats with crcerr := BitVec.ofNat 32 (min (s.stats.crcerr.toNat + 1) 0xFFFFFFFF) }
        counters := { s.counters with errcnt := BitVec.ofNat 16 (min (s.counters.errcnt.toNat + 1) 65535) } }) ∧
  (∀ (kind : ErrKind) (s : State), s.pstate = .ready →
    (s.cfg.errLimit.toNat ≤ min (s.counters.errcnt.toNat + 1) 65535 →
      countError kind s = raiseFatal .errLimit (tallyError kind s)) ∧
    (min (s.counters.errcnt.toNat + 1) 65535 < s.cfg.errLimit.toNat →
      countError kind s = tallyError kind s)) ∧
  (∀ (kind : ErrKind) (s : State), s.pstate ≠ .negotiating → s.pstate ≠ .ready →
    countError kind s = tallyError kind s)

/-- Errors in `NEGOTIATING` (R310, R312). Below `NEG_ERR_LIMIT` an error is only counted. At it the advertised packet
size is halved, the agreed size follows it where a SYNC was accepted, `ERRCNT` starts again, the host is told and the
smaller size is advertised at once: the whole next state, in which the block is `READY` where a SYNC was accepted
before, since now one has been sent too (R29, R238, log 21); at the smallest size the connection fails instead. -/
def Obligations.FallbackHalvesThePacketSize : Prop :=
  ∀ (kind : ErrKind) (s : State), s.pstate = .negotiating →
    (s.counters.errcnt.toNat + 1 < s.cfg.negErrLimit.toNat → countError kind s = tallyError kind s) ∧
    (s.cfg.negErrLimit.toNat ≤ s.counters.errcnt.toNat + 1 → 5 < s.sizes.lpktK.toNat →
      countError kind s =
        { s with
          sizes :=
            { s.sizes with
              lpktK := s.sizes.lpktK - 1
              negPktK :=
                if s.flags.gotSync then BitVec.ofNat 4 (min (s.sizes.lpktK.toNat - 1) s.sizes.rpktK.toNat)
                else s.sizes.negPktK }
          pstate := if s.flags.gotSync then .ready else .negotiating
          counters := { s.counters with errcnt := 0, retry := if s.flags.gotSync then 0 else s.counters.retry }
          flags := { s.flags with sentSync := true }
          stats := { (tallyError kind s).stats with tx := satInc s.stats.tx }
          out :=
            s.out ++
              [.evt (.fellBack (s.sizes.lpktK - 1)),
               .tx (encodePacket .sync { seq := 0, lch := 0, ack := 0, rch := 0, f := false }
                 [s.sizes.lwin.setWidth 8, (s.sizes.lpktK - 1).setWidth 8])] }) ∧
    (s.cfg.negErrLimit.toNat ≤ s.counters.errcnt.toNat + 1 → s.sizes.lpktK.toNat ≤ 5 →
      countError kind s = raiseFatal .negErrLimit (tallyError kind s))

/-- There is no way out of `FAILED` but a reset (R321): every other event of the host leaves `PSTATE` and the cause and
transmits nothing, and the byte stream can give none. -/
def Obligations.OnlyResetLeavesFailed : Prop :=
  ∀ (e : InEvent) (s : State), s.pstate = .failed → s.pend = .none →
    (isReset e = true → ∃ t, handle e s = .next t ∧ t.pstate = .unstarted ∧ t.failCause = .none) ∧
    (isReset e = false →
      (∃ t, handle e s = .next t ∧ t.pstate = .failed ∧ t.pend = .none ∧ t.failCause = s.failCause ∧
        transmissions t.out = transmissions s.out) ∨
      (((∃ chunk, e = .rxBytes chunk) ∨ e = .rxTimeout ∨ e = .rxError) ∧
        handle e s = .refused .noReceiveRequest))

/-- `RxError` is fatal (R79): cause `IO_ERROR`, the pending command answered, nothing transmitted; with no receive
request open there is no such step (R76, U13), which the model refuses by name: its own choice (log 6). -/
def Obligations.ByteStreamErrorIsFatal : Prop :=
  ∀ s : State,
    (s.pend ≠ .none → handle .rxError s = .next (raiseFatal .ioError s)) ∧
    (s.pend = .none → handle .rxError s = .refused .noReceiveRequest)

/-- `RxTimeout` (R174, R175). (1) While a WAIT is pending in `READY` with an empty `RXBUF` and retries left: the oldest
unacknowledged packet goes out again with the current ack, counted once in `STAT_RETX` (log 10), or, with nothing
outstanding, a NAK for the next expected packet: the whole next state. (2) While a START is pending in `NEGOTIATING`:
this side's SYNC request; where a SYNC was accepted before, the handshake is then complete and START is answered (R29,
R238, log 21). (3) The general form: counted; at `MAX_RETRIES` fatal at once (`NAKED_VALID` keeps its value, R305, R320,
log 20); else a partial candidate gives up its lead-in and the rest is decoded, and then come the
lines after the flush. (4) Those lines, by the state the flush left (logs 12, 21). -/
def Obligations.TimeoutResendsTheOldest : Prop :=
  (∀ s : State,
    s.pend = .wait → s.pstate = .ready → s.rxbuf = [] → s.flags.eomSeen = false →
    (s.counters.retry + 1).toNat < s.cfg.maxRetries.toNat →
    (s.win.outstanding ≠ 0 →
      handle .rxTimeout s =
        .next
          { s with
            stats :=
              { s.stats with
                timeout := satInc s.stats.timeout, retx := satInc s.stats.retx, tx := satInc s.stats.tx }
            counters := { s.counters with retry := s.counters.retry + 1 }
            flags := { s.flags with nakedValid := false, ackPending := false }
            win := { s.win with lastAckSent := s.win.lastRecv }
            out := s.out ++ [.tx (s.dataImage (s.win.lastAcked + 1))] }) ∧
    (s.win.outstanding = 0 →
      handle .rxTimeout s =
        .next
          { s with
            stats := { s.stats with timeout := satInc s.stats.timeout, tx := satInc s.stats.tx }
            counters := { s.counters with retry := s.counters.retry + 1 }
            flags := { s.flags with nakedValid := false, ackPending := false }
            win := { s.win with lastAckSent := s.win.lastRecv }
            out := s.out ++ [.tx (controlImage .nak (s.win.lastRecv + 1) s.win.lastRecv)] })) ∧
  (∀ s : State,
    s.pend = .start → s.pstate = .negotiating → s.rxbuf = [] →
    (s.counters.retry + 1).toNat < s.cfg.maxRetries.toNat →
    (s.flags.gotSync = false →
      handle .rxTimeout s =
        .next
          { s with
            stats := { s.stats with timeout := satInc s.stats.timeout, tx := satInc s.stats.tx }
            counters := { s.counters with retry := s.counters.retry + 1 }
            flags := { s.flags with nakedValid := false, sentSync := true }
            out := s.out ++ [.tx (s.syncImage false)] }) ∧
    (s.flags.gotSync = true →
      handle .rxTimeout s =
        .next
          { s with
            pstate := .ready
            pend := .none
            stats := { s.stats with timeout := satInc s.stats.timeout, tx := satInc s.stats.tx }
            counters := { s.counters with retry := 0 }
            flags := { s.flags with nakedValid := false, sentSync := true }
            out := s.out ++ [.tx (s.syncImage false), .rsp (rspWord 1 .ok 0 s.sizes.rwin s.sizes.negPktK)] })) ∧
  (∀ s c : State,
    s.pend ≠ .none →
    c = { s with
          stats := { s.stats with timeout := satInc s.stats.timeout }
          counters := { s.counters with retry := s.counters.retry + 1 } } →
    (s.cfg.maxRetries.toNat ≤ (s.counters.retry + 1).toNat →
      handle .rxTimeout s = .next (raiseFatal .retryExhausted c)) ∧
    ((s.counters.retry + 1).toNat < s.cfg.maxRetries.toNat →
      (s.rxbuf = [] → handle .rxTimeout s = .next (afterFlush c)) ∧
      (∀ b rest, s.rxbuf = b :: rest →
        handle .rxTimeout s =
          andThen
            (decodeLoop
              { c with
                rxbuf := rest
                counters := { c.counters with garbage := satInc s.counters.garbage } })
            fun u => .next (afterFlush u)))) ∧
  (∀ u : State,
    (u.pstate = .negotiating →
      afterFlush u =
        completionCheck
          { u with
            pstate := if u.flags.gotSync then .ready else .negotiating
            counters := { u.counters with retry := if u.flags.gotSync then 0 else u.counters.retry }
            flags := { u.flags with nakedValid := false, sentSync := true }
            stats := { u.stats with tx := satInc u.stats.tx }
            out := u.out ++ [.tx (u.syncImage false)] }) ∧
    (u.pstate = .ready → u.win.outstanding ≠ 0 →
      afterFlush u =
        completionCheck
          { u with
            flags := { u.flags with nakedValid := false, ackPending := false }
            win := { u.win with lastAckSent := u.win.lastRecv }
            stats := { u.stats with tx := satInc u.stats.tx, retx := satInc u.stats.retx }
            out := u.out ++ [.tx (u.dataImage (u.win.lastAcked + 1))] }) ∧
    (u.pstate = .ready → u.win.outstanding = 0 →
      afterFlush u =
        completionCheck
          { u with
            flags := { u.flags with nakedValid := false, ackPending := false }
            win := { u.win with lastAckSent := u.win.lastRecv }
            stats := { u.stats with tx := satInc u.stats.tx }
            out := u.out ++ [.tx (controlImage .nak (u.win.lastRecv + 1) u.win.lastRecv)] }) ∧
    (u.pstate = .failed → afterFlush u = { u with flags := { u.flags with nakedValid := false } }) ∧
    (u.pstate = .unstarted ∨ u.pstate = .closing ∨ u.pstate = .closed →
      afterFlush u = completionCheck { u with flags := { u.flags with nakedValid := false } }))

/-- Total silence (R177): with `RETRY = 0` at the start of a wait and no partial packet in `RXBUF`, the first
`MAX_RETRIES - 1` timeouts each transmit the same one packet (the SYNC request, the oldest unacknowledged packet, or the
NAK for the next expected one) and leave the command pending and `PSTATE` as it was, and the `MAX_RETRIES`-th fails the
connection and transmits nothing. A START waits here with no SYNC accepted: where one was, the first timeout ends the
wait (`TimeoutResendsTheOldest`, log 21). -/
def Obligations.SilenceFailsAfterMaxRetries : Prop :=
  ∀ s : State,
    s.rxbuf = [] → s.counters.retry = 0 → s.cfg.maxRetries ≠ 0 →
    (s.pend = .wait ∧ s.pstate = .ready ∧ s.flags.eomSeen = false) ∨
      (s.pend = .sendData ∧ s.pstate = .ready ∧ s.sendReady = false) ∨
      (s.pend = .start ∧ s.pstate = .negotiating ∧ s.flags.gotSync = false) →
    (∀ n, n < s.cfg.maxRetries.toNat →
      ∃ t, timeouts n s = .next t ∧ t.pend = s.pend ∧ t.pstate = s.pstate ∧ t.counters.retry.toNat = n ∧
        transmissions t.out = transmissions s.out ++ List.replicate n s.timeoutImage) ∧
    (∃ t, timeouts s.cfg.maxRetries.toNat s = .next t ∧ t.pstate = .failed ∧ t.pend = .none ∧
      (s.failCause = .none → t.failCause = .retryExhausted) ∧
      transmissions t.out =
        transmissions s.out ++ List.replicate (s.cfg.maxRetries.toNat - 1) s.timeoutImage ∧
      ∃ before, t.out = before ++ [.evt (.failed .retryExhausted), .rsp (rspWord s.pend.op .failed 0 0 0)])

/-! ### Registers, buffers, reset -/

/-- What reset leaves (R44): every value the rule lists. -/
def Obligations.ResetLeavesTheListedValues : Prop :=
  State.reset.pstate = .unstarted ∧ State.reset.pend = .none ∧ State.reset.failCause.code = 0 ∧
    State.reset.win =
      { nextSeq := 1, lastAcked := 0, lastRecv := 0, lastAckSent := 0
        nextRetx := 1, cautionSeq := 0, nakedSeq := 0, bufSlot := 0 } ∧
    State.reset.sizes = { lwin := 0, rwin := 0, lpktK := 0, rpktK := 0, acceptK := 0, negPktK := 0 } ∧
    State.reset.flags =
      { role := false, closingF := false, bufOwned := false, cautious := false, rejSeen := false, ackPending := false
        nakedValid := false, sentSync := false, gotSync := false, eomSeen := false, cfgErr := false, bufViol := false } ∧
    State.reset.counters = { errcnt := 0, goodcnt := 0, retry := 0, garbage := 0 } ∧
    State.reset.stats = { tx := 0, retx := 0, rx := 0, hdrerr := 0, crcerr := 0, timeout := 0 } ∧
    State.reset.cfg = { cfg0 := 0x00020A10, cfg1 := 0x000A000A, cfg2 := 0x0A0A0064 } ∧
    (∀ q, (State.reset.slot q).inuse = false) ∧ (∀ q, (State.reset.reordAt q).valid = false) ∧
    State.reset.rxbuf = []

/-- The reset line and `CTRL.SOFT_RESET` do the same, in any state (R340): the reset state, no output event, a pending
command dropped without a response. The environment's queue and the outputs so far are the model's own (logs 1, 2), the
reset count too (log 5). -/
def Obligations.BothResetsDoTheSame : Prop :=
  ∀ (e : InEvent) (s : State), isReset e = true →
    handle e s =
      .next { State.reset with inputs := s.inputs, out := s.out, resetEpoch := s.resetEpoch + 1 }

/-- Register writes. Configuration (R39), with the legal ranges of R36 to R38: accepted, replacing the whole register,
exactly in `UNSTARTED` with every field in range and every reserved bit 0; else the register keeps its value and
`CFGERR` is set. `CTRL` (R35) without `SOFT_RESET`: `CLR_STICKY` clears `CFGERR` and `BUFVIOL`, other bits do nothing. A
write to any other offset, read-only, unmapped or unaligned, is ignored (R35, R63, R68). The fields the block reads are
at the bits of R36 to R38. -/
def Obligations.ConfigurationWriteRule : Prop :=
  (∀ (addr : Nat) (v : Word) (s : State), addr = 0x08 ∨ addr = 0x0C ∨ addr = 0x10 →
    ∃ t, handle (.csrWrite addr v) s = .next t ∧
      (s.pstate = .unstarted ∧
          (addr = 0x08 →
            1 ≤ v.toNat % 32 ∧ v.toNat % 32 ≤ 16 ∧ 5 ≤ v.toNat / 256 % 16 ∧ v.toNat / 256 % 16 ≤ 10 ∧
            1 ≤ v.toNat / 131072 % 4 ∧ v.toNat / 131072 % 4 ≤ 2 ∧
            v.toNat / 32 % 8 = 0 ∧ v.toNat / 4096 % 16 = 0 ∧ v.toNat / 524288 = 0) ∧
          (addr = 0x0C → v.toNat % 256 ≠ 0 ∧ v.toNat / 65536 ≠ 0 ∧ v.toNat / 256 % 256 = 0) ∧
          (addr = 0x10 → v.toNat % 65536 ≠ 0 ∧ v.toNat / 65536 % 256 ≠ 0 ∧ v.toNat / 16777216 ≠ 0) →
        t = { s with
              cfg :=
                { cfg0 := if addr = 0x08 then v else s.cfg.cfg0
                  cfg1 := if addr = 0x0C then v else s.cfg.cfg1
                  cfg2 := if addr = 0x10 then v else s.cfg.cfg2 } }) ∧
      (¬(s.pstate = .unstarted ∧
          (addr = 0x08 →
            1 ≤ v.toNat % 32 ∧ v.toNat % 32 ≤ 16 ∧ 5 ≤ v.toNat / 256 % 16 ∧ v.toNat / 256 % 16 ≤ 10 ∧
            1 ≤ v.toNat / 131072 % 4 ∧ v.toNat / 131072 % 4 ≤ 2 ∧
            v.toNat / 32 % 8 = 0 ∧ v.toNat / 4096 % 16 = 0 ∧ v.toNat / 524288 = 0) ∧
          (addr = 0x0C → v.toNat % 256 ≠ 0 ∧ v.toNat / 65536 ≠ 0 ∧ v.toNat / 256 % 256 = 0) ∧
          (addr = 0x10 → v.toNat % 65536 ≠ 0 ∧ v.toNat / 65536 % 256 ≠ 0 ∧ v.toNat / 16777216 ≠ 0)) →
        t = { s with flags := { s.flags with cfgErr := true } })) ∧
  (∀ (v : Word) (s : State), v.getLsbD 0 = false →
    handle (.csrWrite 0x04 v) s =
      .next
        (if v.getLsbD 1 then { s with flags := { s.flags with cfgErr := false, bufViol := false } } else s)) ∧
  (∀ (addr : Nat) (v : Word) (s : State), addr ≠ 0x04 → addr ≠ 0x08 → addr ≠ 0x0C → addr ≠ 0x10 →
    handle (.csrWrite addr v) s = .next s) ∧
  (∀ c : ConfigRegs,
    c.winReq = c.cfg0.extractLsb' 0 5 ∧ c.kReq = c.cfg0.extractLsb' 8 4 ∧ c.dupackNak = c.cfg0.getLsbD 16 ∧
      c.resendAhead = c.cfg0.extractLsb' 17 2 ∧ c.maxRetries = c.cfg1.extractLsb' 0 8 ∧
      c.timeout = c.cfg1.extractLsb' 16 16 ∧ c.errLimit = c.cfg2.extractLsb' 0 16 ∧
      c.negErrLimit = c.cfg2.extractLsb' 16 8 ∧ c.decayK = c.cfg2.extractLsb' 24 8)

/-- A register read changes nothing and gives the value of the offset; `ID` is the constant, `CFG0` to `CFG2`, `GARBAGE`
and the statistics are the registers whole; the other views show the registers at the bits of R35, `STATUS`,
`FAILCAUSE`, `WIN0`, `WIN1`, `NEG`, `CNT` and the two maps of the pools, and every bit not listed there is 0; what is
not in the map reads 0 (R63, R68). The numbers these views show for the states, the pending commands and the causes
(R28, R30, R301), and the codes and arguments of the host's events (R303). -/
def Obligations.StatusViewsShowTheRegisters : Prop :=
  (PState.unstarted.code = 0 ∧ PState.negotiating.code = 1 ∧ PState.ready.code = 2 ∧ PState.closing.code = 3 ∧
    PState.closed.code = 4 ∧ PState.failed.code = 5) ∧
  (Pend.none.code = 0 ∧ Pend.start.code = 1 ∧ Pend.sendData.code = 2 ∧ Pend.wait.code = 3) ∧
  (FailCause.none.code = 0 ∧ FailCause.retryExhausted.code = 1 ∧ FailCause.errLimit.code = 2 ∧
    FailCause.ioError.code = 3 ∧ FailCause.negErrLimit.code = 4) ∧
  (∀ (a : SeqNum) (cause : FailCause) (k : SizeClass),
    ((HostEvent.windowAcked a).code = 1 ∧ (HostEvent.windowAcked a).arg = a.toNat) ∧
      (HostEvent.peerClosed.code = 2 ∧ HostEvent.peerClosed.arg = 0) ∧
      ((HostEvent.failed cause).code = 3 ∧ (HostEvent.failed cause).arg = cause.code.toNat) ∧
      ((HostEvent.fellBack k).code = 4 ∧ (HostEvent.fellBack k).arg = k.toNat)) ∧
  ∀ s : State,
    (∀ addr, handle (.csrRead addr) s = .next (s.emitted (.csrData (s.csrValue addr)))) ∧
    (∀ addr, addr % 4 ≠ 0 ∨ 0x4C < addr ∨ addr = 0x04 → s.csrValue addr = 0) ∧
    (s.csrValue 0x00 = 0x02040007 ∧ s.csrValue 0x08 = s.cfg.cfg0 ∧ s.csrValue 0x0C = s.cfg.cfg1 ∧
      s.csrValue 0x10 = s.cfg.cfg2 ∧ s.csrValue 0x2C = s.counters.garbage ∧ s.csrValue 0x30 = s.stats.tx ∧
      s.csrValue 0x34 = s.stats.retx ∧ s.csrValue 0x38 = s.stats.rx ∧ s.csrValue 0x3C = s.stats.hdrerr ∧
      s.csrValue 0x40 = s.stats.crcerr ∧ s.csrValue 0x44 = s.stats.timeout) ∧
    ((s.csrValue 0x14).getLsbD 15 = false ∧ (s.csrValue 0x14).extractLsb' 18 14 = 0 ∧
      (s.csrValue 0x18).extractLsb' 8 24 = 0 ∧
      (∀ b, b < 4 → (s.csrValue 0x1C).extractLsb' (8 * b + 5) 3 = 0 ∧ (s.csrValue 0x20).extractLsb' (8 * b + 5) 3 = 0) ∧
      (∀ b, b < 2 → (s.csrValue 0x24).extractLsb' (8 * b + 5) 3 = 0)) ∧
    (s.csrValue 0x14).extractLsb' 0 3 = s.pstate.code ∧
    ((s.csrValue 0x14).getLsbD 3 = s.flags.role ∧ (s.csrValue 0x14).getLsbD 4 = s.flags.closingF ∧
      (s.csrValue 0x14).getLsbD 5 = s.flags.bufOwned ∧ (s.csrValue 0x14).getLsbD 6 = s.flags.cautious ∧
      (s.csrValue 0x14).getLsbD 7 = s.flags.rejSeen ∧ (s.csrValue 0x14).getLsbD 8 = s.flags.ackPending ∧
      (s.csrValue 0x14).getLsbD 9 = s.flags.nakedValid ∧ (s.csrValue 0x14).getLsbD 10 = s.flags.sentSync ∧
      (s.csrValue 0x14).getLsbD 11 = s.flags.gotSync ∧ (s.csrValue 0x14).getLsbD 12 = s.flags.eomSeen ∧
      (s.csrValue 0x14).getLsbD 13 = s.flags.cfgErr ∧ (s.csrValue 0x14).getLsbD 14 = s.flags.bufViol) ∧
    (s.csrValue 0x14).extractLsb' 16 2 = s.pend.code ∧
    (s.csrValue 0x18).extractLsb' 0 8 = s.failCause.code ∧
    ((s.csrValue 0x1C).extractLsb' 0 5 = s.win.nextSeq ∧ (s.csrValue 0x1C).extractLsb' 8 5 = s.win.lastAcked ∧
      (s.csrValue 0x1C).extractLsb' 16 5 = s.win.lastRecv ∧ (s.csrValue 0x1C).extractLsb' 24 5 = s.win.lastAckSent) ∧
    ((s.csrValue 0x20).extractLsb' 0 5 = s.win.nextRetx ∧ (s.csrValue 0x20).extractLsb' 8 5 = s.win.cautionSeq ∧
      (s.csrValue 0x20).extractLsb' 16 5 = s.win.nakedSeq ∧ (s.csrValue 0x20).extractLsb' 24 5 = s.win.bufSlot) ∧
    ((s.csrValue 0x24).extractLsb' 0 5 = s.sizes.lwin ∧ (s.csrValue 0x24).extractLsb' 8 5 = s.sizes.rwin ∧
      (s.csrValue 0x24).extractLsb' 16 4 = s.sizes.lpktK ∧ (s.csrValue 0x24).extractLsb' 20 4 = s.sizes.rpktK ∧
      (s.csrValue 0x24).extractLsb' 24 4 = s.sizes.negPktK ∧ (s.csrValue 0x24).extractLsb' 28 4 = s.sizes.acceptK) ∧
    ((s.csrValue 0x28).extractLsb' 0 16 = s.counters.errcnt ∧ (s.csrValue 0x28).extractLsb' 16 8 = s.counters.goodcnt ∧
      (s.csrValue 0x28).extractLsb' 24 8 = s.counters.retry) ∧
    (∀ q : SeqNum, (s.csrValue 0x48).getLsbD q.toNat = (s.slot q).inuse) ∧
    (∀ q : SeqNum, (s.csrValue 0x4C).getLsbD q.toNat = (s.reordAt q).valid)

/-- `BufWrite` (R66): inside the lent slot exactly the addressed byte changes; anywhere else no memory changes and
`BUFVIOL` is set. Whether a command is pending plays no part. -/
def Obligations.BufferWritesOnlyTheLentSlot : Prop :=
  ∀ (addr : Nat) (b : Byte) (s : State),
    ((s.flags.bufOwned = true ∧ 0x8000 + 1024 * s.win.bufSlot.toNat ≤ addr ∧
        addr ≤ 0x8000 + 1024 * s.win.bufSlot.toNat + 1023) →
      ∃ t, handle (.bufWrite addr b) s = .next t ∧
        t.slotByte (addr - 0x8000) = b ∧
        (∀ a, a ≠ addr - 0x8000 → t.slotByte a = s.slotByte a) ∧
        t = { s with slotMem := t.slotMem }) ∧
    (¬(s.flags.bufOwned = true ∧ 0x8000 + 1024 * s.win.bufSlot.toNat ≤ addr ∧
        addr ≤ 0x8000 + 1024 * s.win.bufSlot.toNat + 1023) →
      handle (.bufWrite addr b) s = .next { s with flags := { s.flags with bufViol := true } })

/-! ### The whole machine -/

/-- The invariant holds at reset. -/
def Obligations.InvariantHoldsAtReset : Prop := Inv State.reset

/-- Every step keeps the invariant (R23, R29, R30, R39, R42, R202, R204, R210): the handshake (log 21), the send window
and the slots in use, the reorder buffer, the acknowledgements owed, the borrow, the legal configuration, the receive
buffer, the counters, and the canonical form of both memories. -/
def Obligations.EveryStepKeepsTheInvariant : Prop :=
  ∀ s t : State, Inv s → step s = .next t → Inv t

/-- Every step, from whatever state, keeps both buffer memories in canonical form. -/
def Obligations.EveryStepKeepsMemoryCanonical : Prop :=
  ∀ s t : State, s.slotMem.wf = true → s.reordMem.wf = true → step s = .next t →
    t.slotMem.wf = true ∧ t.reordMem.wf = true

/-- `PSTATE` moves only as R29 lists, and only a reset leads back to `UNSTARTED`. -/
def Obligations.StateMovesAreTheListedOnes : Prop :=
  ∀ (e : InEvent) (s t : State), ControlInv s → handle e s = .next t →
    (isReset e = true → t.pstate = .unstarted) ∧
    (isReset e = false → moveAllowed s.pstate t.pstate = true)

/-- `LAST_ACKED` never moves backwards and never passes `pred(NEXT_SEQ)` (R71): what one event acknowledges was
outstanding before it. -/
def Obligations.LastAckedNeverMovesBack : Prop :=
  ∀ (e : InEvent) (s t : State), isReset e = false → handle e s = .next t →
    dist t.win.lastAcked s.win.lastAcked ≤ s.win.outstanding

/-- `NEXT_SEQ` changes only by a new-data transmission (R266, R210): by one, at most once in an event, in the event
whose last outputs are the DATA packet with the old `NEXT_SEQ` and the `OK` answer of the `SEND_DATA`; `NEXT_RETX` moves
with it. -/
def Obligations.NextSeqChangesOnlyByNewData : Prop :=
  ∀ (e : InEvent) (s t : State), isReset e = false → handle e s = .next t →
    t.win.nextSeq ≠ s.win.nextSeq →
    t.win.nextSeq = s.win.nextSeq + 1 ∧ t.win.nextRetx = t.win.nextSeq ∧ t.pend = .none ∧
      ∃ mid, t.out = s.out ++ mid ++ [.tx (t.dataImage s.win.nextSeq), .rsp (rspWord 3 .ok 0 0 0)]

/-- A slot cannot change between its first transmission and its release (R74): while packet `q` stays outstanding every
event but a reset leaves its payload, channels and `eom`, so every retransmission carries the same: the image of `q` is
built from the record and the bytes of slot `q`, with the current `LAST_RECV` (R60, R136). -/
def Obligations.OutstandingPacketsAreImmutable : Prop :=
  (∀ (s : State) (q : SeqNum),
    s.slotPayload q = (List.range (s.slot q).len.toNat).map fun i => s.slotByte (1024 * q.toNat + i)) ∧
  ∀ (e : InEvent) (s t : State) (q : SeqNum), Inv s → isReset e = false → handle e s = .next t →
    s.win.isOutstanding q → t.win.isOutstanding q →
    t.slotPayload q = s.slotPayload q ∧ (t.slot q).lch = (s.slot q).lch ∧ (t.slot q).rch = (s.slot q).rch ∧
      (t.slot q).eom = (s.slot q).eom

/-- The block emits no malformed packet (R106): whatever a step transmits decodes to a packet. -/
def Obligations.EveryTransmissionDecodes : Prop :=
  ∀ s t : State, Inv s → step s = .next t →
    ∃ new, t.out = s.out ++ new ∧
      ∀ bytes ∈ transmissions new, ∃ i, decode Config.slotBytes (.packet bytes) = .ok i ∧ isPacket i = true
end

