-- ==== Sys2Proof/Laws/Codec.lean ====
section
/-! SUPPORT. The codec: the CRC as a fold, and the shape of packet images. -/

namespace Sys2Proof

open Sys2Proof

theorem withNumeral_eq {α : Type} (c : Word) (k : Word → α) : withNumeral c k = k c := by
  unfold withNumeral
  split
  · rename_i h; rw [show c = 0 from BitVec.eq_of_toNat_eq (by simpa using h)]
  · rename_i n h
    rw [show n + 1 = c.toNat from h.symm, BitVec.ofNat_toNat, BitVec.setWidth_eq]

/-- The CRC register runs over the bytes one after the other (R133). -/
theorem crcFold_eq_foldl (bytes : List Byte) (c : Word) : crcFold bytes c = bytes.foldl crcByte c := by
  induction bytes generalizing c with
  | nil => rfl
  | cons b rest ih => rw [crcFold, withNumeral_eq, ih, List.foldl_cons]

theorem crcFold_append (xs ys : List Byte) (c : Word) : crcFold (xs ++ ys) c = crcFold ys (crcFold xs c) := by
  simp only [crcFold_eq_foldl, List.foldl_append]

@[simp] theorem trailerBytes_length (c : Word) : (trailerBytes c).length = 4 := rfl

@[simp] theorem RawHeader.bytes_length (h : RawHeader) : h.bytes.length = 6 := rfl

theorem encodePacket_head (ty : PktType) (h : Hdr) (payload : List Byte) :
    (encodePacket ty h payload).head? = some 0x07 := rfl

theorem encodePacket_length (ty : PktType) (h : Hdr) (payload : List Byte) :
    (encodePacket ty h payload).length = 6 + payload.length + 4 := by
  simp [encodePacket]
  omega

/-- A sealed header has the check byte its other bytes call for (R101). -/
theorem RawHeader.sealed_b5 (h : RawHeader) : h.sealed.b5 = h.sealed.xchk := rfl

theorem extract_high (x : BitVec 5) (y : BitVec 3) : (x ++ y).extractLsb' 3 5 = x := by
  ext i hi
  simp only [BitVec.getElem_extractLsb', BitVec.getLsbD_append]
  rw [if_neg (by omega), show 3 + i - 3 = i by omega, BitVec.getLsbD_eq_getElem hi]

theorem extract_low (x : BitVec 5) (y : BitVec 3) : (x ++ y).extractLsb' 0 3 = y := by
  ext i hi
  simp only [BitVec.getElem_extractLsb', BitVec.getLsbD_append]
  rw [if_pos (by omega), show 0 + i = i by omega, BitVec.getLsbD_eq_getElem hi]

/-- The header the encoder writes has its fields at the places the decoder reads them from (R131, R137). -/
theorem encodeHeader_fields (ty : PktType) (h : Hdr) (len : BitVec 12) : (encodeHeader ty h len).fields = h := by
  obtain ⟨seq, lch, ack, rch, f⟩ := h
  have hf : (ty.code ++ bit1 f ++ len.extractLsb' 8 4).getLsbD 4 = f := by
    simp only [BitVec.getLsbD_append]
    cases f <;> rfl
  show Hdr.mk ((seq ++ lch).extractLsb' 3 5) ((seq ++ lch).extractLsb' 0 3) ((ack ++ rch).extractLsb' 3 5)
    ((ack ++ rch).extractLsb' 0 3) ((ty.code ++ bit1 f ++ len.extractLsb' 8 4).getLsbD 4) = _
  rw [extract_high, extract_low, extract_high, extract_low, hf]

end Sys2Proof
end

