-- ==== Sys2Proof/Laws/Memory.lean ====
section
/-! SUPPORT. The laws of the byte-addressed spaces: a read after a write, and the canonical form that every memory
operation keeps. -/

namespace Sys2Proof.Machine

open Sys2Proof

@[simp] theorem Memory.find_nil (a : Nat) : Memory.find [] a = none := rfl

theorem Memory.find_cons (x : Nat) (c : Byte) (m : Memory) (a : Nat) :
    Memory.find ((x, c) :: m) a = if a = x then some c else Memory.find m a := rfl

/-- A read after a write to the same address gives the byte written. -/
@[simp] theorem Memory.find_write_same (m : Memory) (a : Nat) (b : Byte) : (m.write a b).find a = some b := by
  induction m with
  | nil => simp [Memory.write, Memory.find]
  | cons c m ih =>
    obtain ⟨x, c⟩ := c
    unfold Memory.write
    split
    · simp [Memory.find]
    · split
      · simp [Memory.find]
      · simp [Memory.find, *]

/-- A write leaves every other address alone. -/
theorem Memory.find_write_other (m : Memory) {a a' : Nat} (b : Byte) (h : a' ≠ a) :
    (m.write a b).find a' = m.find a' := by
  induction m with
  | nil => simp [Memory.write, Memory.find, h]
  | cons c m ih =>
    obtain ⟨x, c⟩ := c
    unfold Memory.write
    split
    · simp [Memory.find, h]
    · split
      · rename_i hx; subst hx; simp [Memory.find, h]
      · simp [Memory.find, ih]

/-- Bytes outside the written range read as before. -/
theorem Memory.find_writeBytes_outside (m : Memory) (a : Nat) (bs : List Byte) {a' : Nat}
    (h : ¬(a ≤ a' ∧ a' < a + bs.length)) : (m.writeBytes a bs).find a' = m.find a' := by
  induction bs generalizing m a with
  | nil => rfl
  | cons b bs ih =>
    simp only [List.length_cons] at h
    rw [Memory.writeBytes, ih _ _ (by omega), Memory.find_write_other _ _ (by omega)]

/-- Byte `i` of the written range reads as the byte written there. -/
theorem Memory.find_writeBytes_inside (m : Memory) (a : Nat) (bs : List Byte) (i : Nat) (h : i < bs.length) :
    (m.writeBytes a bs).find (a + i) = some bs[i] := by
  induction bs generalizing m a i with
  | nil => simp at h
  | cons b bs ih =>
    rw [Memory.writeBytes]
    cases i with
    | zero => rw [Memory.find_writeBytes_outside _ _ _ (by omega)]; simp
    | succ i =>
      have := ih (m.write a b) (a + 1) i (by simpa using h)
      rw [show a + (i + 1) = a + 1 + i by omega, this]; simp

theorem Memory.rising_mono {lo lo' : Nat} (m : Memory) (h : lo' ≤ lo) (hm : m.rising lo = true) :
    m.rising lo' = true := by
  cases m with
  | nil => rfl
  | cons c m =>
    obtain ⟨x, c⟩ := c
    simp only [Memory.rising, Bool.and_eq_true, decide_eq_true_eq] at hm ⊢
    exact ⟨by omega, hm.2⟩

theorem Memory.rising_write {lo : Nat} (m : Memory) {a : Nat} (b : Byte) (ha : lo ≤ a) (hm : m.rising lo = true) :
    (m.write a b).rising lo = true := by
  induction m generalizing lo with
  | nil => simp [Memory.write, Memory.rising, ha]
  | cons c m ih =>
    obtain ⟨x, c⟩ := c
    simp only [Memory.rising, Bool.and_eq_true, decide_eq_true_eq] at hm
    unfold Memory.write
    split
    · simp only [Memory.rising, Bool.and_eq_true, decide_eq_true_eq]
      exact ⟨ha, by omega, hm.2⟩
    · split
      · rename_i hx; subst hx
        simp only [Memory.rising, Bool.and_eq_true, decide_eq_true_eq]
        exact ⟨ha, hm.2⟩
      · simp only [Memory.rising, Bool.and_eq_true, decide_eq_true_eq]
        exact ⟨hm.1, ih (by omega) hm.2⟩

/-- A write keeps the canonical form. -/
theorem Memory.wf_write (m : Memory) (a : Nat) (b : Byte) (hm : m.wf = true) : (m.write a b).wf = true :=
  Memory.rising_write m b (Nat.zero_le a) hm

/-- Writing several bytes keeps the canonical form. -/
theorem Memory.wf_writeBytes (m : Memory) (a : Nat) (bs : List Byte) (hm : m.wf = true) :
    (m.writeBytes a bs).wf = true := by
  induction bs generalizing m a with
  | nil => exact hm
  | cons b bs ih => exact ih _ _ (Memory.wf_write m a b hm)

/-- Below its lowest address a canonical memory lists nothing. -/
theorem Memory.find_below {lo : Nat} (m : Memory) (hm : m.rising lo = true) {a : Nat} (ha : a < lo) :
    m.find a = none := by
  induction m generalizing lo with
  | nil => rfl
  | cons c m ih =>
    obtain ⟨x, c⟩ := c
    simp only [Memory.rising, Bool.and_eq_true, decide_eq_true_eq] at hm
    rw [Memory.find_cons, if_neg (by omega), ih hm.2 (by omega)]

theorem Memory.inSpace_write (m : Memory) (a : Nat) (b : Byte) (ha : a < 32768) (hm : m.inSpace = true) :
    (m.write a b).inSpace = true := by
  have hk : ∀ x : Nat, x < Config.nSlot * Config.slotBytes ↔ x < 32768 := fun x => Iff.rfl
  unfold Memory.inSpace at *
  induction m with
  | nil => simp [Memory.write, hk, ha]
  | cons c m ih =>
    obtain ⟨x, c⟩ := c
    simp only [List.all_cons, Bool.and_eq_true, decide_eq_true_eq, hk] at hm
    unfold Memory.write
    split
    · simp only [List.all_cons, Bool.and_eq_true, decide_eq_true_eq, hk]; exact ⟨ha, hm.1, hm.2⟩
    · split
      · simp only [List.all_cons, Bool.and_eq_true, decide_eq_true_eq, hk]; exact ⟨ha, hm.2⟩
      · simp only [List.all_cons, Bool.and_eq_true, decide_eq_true_eq, hk]; exact ⟨hm.1, ih hm.2⟩

theorem Memory.inSpace_writeBytes (m : Memory) (a : Nat) (bs : List Byte) (ha : a + bs.length ≤ 32768)
    (hm : m.inSpace = true) : (m.writeBytes a bs).inSpace = true := by
  induction bs generalizing m a with
  | nil => exact hm
  | cons b bs ih =>
    simp only [List.length_cons] at ha
    exact ih _ _ (by omega) (Memory.inSpace_write m a b (by omega) hm)

/-- The memories of the reset state have the canonical form. -/
theorem State.reset_memories_wf : State.reset.slotMem.wf = true ∧ State.reset.reordMem.wf = true := ⟨rfl, rfl⟩

/-- A record's bytes lie in the space. -/
theorem recordAddr_lt (q : SeqNum) (i : Nat) (h : i < 1024) : recordAddr q i < 32768 := by
  have := q.isLt
  unfold recordAddr Config.slotBytes
  omega

/-- Different bytes of the pool have different addresses. -/
theorem recordAddr_inj {q q' : SeqNum} {i i' : Nat} (h : i < 1024) (h' : i' < 1024)
    (he : recordAddr q i = recordAddr q' i') : q = q' ∧ i = i' := by
  unfold recordAddr Config.slotBytes at he
  have : q.toNat = q'.toNat := by omega
  exact ⟨BitVec.eq_of_toNat_eq this, by omega⟩

end Sys2Proof.Machine
end

