-- ==== Sys2Proof/Laws/Seq.lean ====
section
/-! SUPPORT. Sequence arithmetic (41_window.md R160 to R164), the entries of the two pools, and the saturating
increment. -/

namespace Sys2Proof.Machine

open Sys2Proof

@[simp] theorem dist_self (a : SeqNum) : dist a a = 0 := by simp [dist]

@[simp] theorem dist_succ (a : SeqNum) : dist (seqSucc a) a = 1 := by simp [dist, seqSucc]

@[simp] theorem seqPred_succ (a : SeqNum) : seqPred (seqSucc a) = a := by simp [seqPred, seqSucc]

@[simp] theorem seqSucc_pred (a : SeqNum) : seqSucc (seqPred a) = a := by simp [seqPred, seqSucc]

theorem dist_eq_zero {a b : SeqNum} : dist a b = 0 ↔ a = b := by unfold dist; exact sub_eq_zero

/-- Distances chain modulo 32. -/
theorem dist_add (a b c : SeqNum) : dist a b + dist b c = dist a c := by unfold dist; exact sub_add_sub_cancel a b c

theorem dist_succ_left (a b : SeqNum) : dist (seqSucc a) b = dist a b + 1 := by
  unfold dist seqSucc; exact add_sub_right_comm a 1 b

/-- `outstanding` counts from `LAST_ACKED` to just below `NEXT_SEQ` (R162). -/
theorem WindowRegs.outstanding_add_one (w : WindowRegs) : w.outstanding + 1 = dist w.nextSeq w.lastAcked := by
  unfold WindowRegs.outstanding
  rw [← dist_succ_left, seqSucc_pred]

@[simp] theorem entryAt_setEntry_same {α : Type} (v : Vector α 32) (q : SeqNum) (x : α) :
    entryAt (setEntry v q x) q = x := by
  simp [entryAt, setEntry]

theorem entryAt_setEntry_other {α : Type} (v : Vector α 32) {q q' : SeqNum} (x : α) (h : q' ≠ q) :
    entryAt (setEntry v q x) q' = entryAt v q' := by
  have : q.toNat ≠ q'.toNat := fun e => h (BitVec.eq_of_toNat_eq e.symm)
  simp [entryAt, setEntry, Vector.getElem_set_ne, this]

@[simp] theorem entryAt_map {α : Type} (f : α → α) (v : Vector α 32) (q : SeqNum) :
    entryAt (v.map f) q = f (entryAt v q) := by
  simp [entryAt]

@[simp] theorem entryAt_replicate {α : Type} (x : α) (q : SeqNum) : entryAt (Vector.replicate 32 x) q = x := by
  simp [entryAt]

/-- The released slots (R165): those up to `d` after `LAST_ACKED`, which keep everything but `INUSE`. -/
theorem entryAt_releaseSlots (la d : SeqNum) (v : Vector SlotRec 32) (q : SeqNum) :
    entryAt (releaseSlots la d v) q =
      if dist q la ≠ 0 ∧ dist q la ≤ d then { entryAt v q with inuse := false } else entryAt v q := by
  simp [entryAt, releaseSlots]

/-- A gap is an entry of the reorder buffer that is valid (R264). -/
theorem State.gap_eq_true (s : State) : s.gap = true ↔ ∃ q, (s.reordAt q).valid = true := by
  unfold State.gap State.reordAt entryAt
  rw [List.any_eq_true]
  constructor
  · rintro ⟨e, he, hv⟩
    obtain ⟨i, hi, rfl⟩ := List.mem_iff_getElem.mp he
    have hi' : i < 32 := by simpa using hi
    refine ⟨BitVec.ofNat 5 i, ?_⟩
    simpa [Nat.mod_eq_of_lt hi'] using hv
  · rintro ⟨q, hq⟩
    exact ⟨_, by simp, hq⟩

theorem State.gap_eq_false (s : State) : s.gap = false ↔ ∀ q, (s.reordAt q).valid = false := by
  have := s.gap_eq_true
  constructor
  · intro h q
    cases hv : (s.reordAt q).valid with
    | false => rfl
    | true => rw [h] at this; exact absurd (this.mpr ⟨q, hv⟩) (by simp)
  · intro h
    cases hg : s.gap with
    | false => rfl
    | true => obtain ⟨q, hq⟩ := this.mp hg; rw [h q] at hq; exact absurd hq (by simp)

/-- A saturating increment adds one below the top and stays at it (R32, R33). -/
theorem satInc_toNat {n : Nat} (x : BitVec n) : (satInc x).toNat = min (x.toNat + 1) (2 ^ n - 1) := by
  have hx := x.isLt
  unfold satInc
  split
  · rename_i h
    subst h
    simp
  · rename_i h
    have hne : x.toNat ≠ 2 ^ n - 1 := by
      intro e
      apply h
      apply BitVec.eq_of_toNat_eq
      rw [e, BitVec.toNat_allOnes]
    rw [BitVec.toNat_add]
    have h1 : (1 : BitVec n).toNat = 1 % 2 ^ n := BitVec.toNat_ofNat 1 n
    have hn : 1 < 2 ^ n := by omega
    rw [h1, Nat.mod_eq_of_lt hn, Nat.mod_eq_of_lt (by omega)]
    omega

end Sys2Proof.Machine
end

