-- ==== Sys2Proof/Laws/State.lean ====
section
/-! SUPPORT. One lemma per field of the state for every operation that updates it: what the field is after it. True by
unfolding, so that no later proof unfolds a record update. -/

namespace Sys2Proof.Machine

open Sys2Proof

/-! `emit` -/
@[simp] theorem emit_win (e : OutEvent) (s : State) : (emit e s).win = s.win := rfl
@[simp] theorem emit_sizes (e : OutEvent) (s : State) : (emit e s).sizes = s.sizes := rfl
@[simp] theorem emit_pstate (e : OutEvent) (s : State) : (emit e s).pstate = s.pstate := rfl
@[simp] theorem emit_pend (e : OutEvent) (s : State) : (emit e s).pend = s.pend := rfl
@[simp] theorem emit_failCause (e : OutEvent) (s : State) : (emit e s).failCause = s.failCause := rfl
@[simp] theorem emit_flags (e : OutEvent) (s : State) : (emit e s).flags = s.flags := rfl
@[simp] theorem emit_counters (e : OutEvent) (s : State) : (emit e s).counters = s.counters := rfl
@[simp] theorem emit_stats (e : OutEvent) (s : State) : (emit e s).stats = s.stats := rfl
@[simp] theorem emit_cfg (e : OutEvent) (s : State) : (emit e s).cfg = s.cfg := rfl
@[simp] theorem emit_slots (e : OutEvent) (s : State) : (emit e s).slots = s.slots := rfl
@[simp] theorem emit_reord (e : OutEvent) (s : State) : (emit e s).reord = s.reord := rfl
@[simp] theorem emit_slotMem (e : OutEvent) (s : State) : (emit e s).slotMem = s.slotMem := rfl
@[simp] theorem emit_reordMem (e : OutEvent) (s : State) : (emit e s).reordMem = s.reordMem := rfl
@[simp] theorem emit_rxbuf (e : OutEvent) (s : State) : (emit e s).rxbuf = s.rxbuf := rfl
@[simp] theorem emit_inputs (e : OutEvent) (s : State) : (emit e s).inputs = s.inputs := rfl
@[simp] theorem emit_out (e : OutEvent) (s : State) : (emit e s).out = s.out ++ [e] := rfl
@[simp] theorem emit_resetEpoch (e : OutEvent) (s : State) : (emit e s).resetEpoch = s.resetEpoch := rfl

/-! `respond` -/
@[simp] theorem respond_win (op : BitVec 4) (st : Status) (s : State) : (respond op st s).win = s.win := rfl
@[simp] theorem respond_sizes (op : BitVec 4) (st : Status) (s : State) : (respond op st s).sizes = s.sizes := rfl
@[simp] theorem respond_pstate (op : BitVec 4) (st : Status) (s : State) : (respond op st s).pstate = s.pstate := rfl
@[simp] theorem respond_pend (op : BitVec 4) (st : Status) (s : State) : (respond op st s).pend = s.pend := rfl
@[simp] theorem respond_failCause (op : BitVec 4) (st : Status) (s : State) :
    (respond op st s).failCause = s.failCause := rfl
@[simp] theorem respond_flags (op : BitVec 4) (st : Status) (s : State) : (respond op st s).flags = s.flags := rfl
@[simp] theorem respond_counters (op : BitVec 4) (st : Status) (s : State) :
    (respond op st s).counters = s.counters := rfl
@[simp] theorem respond_stats (op : BitVec 4) (st : Status) (s : State) : (respond op st s).stats = s.stats := rfl
@[simp] theorem respond_cfg (op : BitVec 4) (st : Status) (s : State) : (respond op st s).cfg = s.cfg := rfl
@[simp] theorem respond_slots (op : BitVec 4) (st : Status) (s : State) : (respond op st s).slots = s.slots := rfl
@[simp] theorem respond_reord (op : BitVec 4) (st : Status) (s : State) : (respond op st s).reord = s.reord := rfl
@[simp] theorem respond_slotMem (op : BitVec 4) (st : Status) (s : State) :
    (respond op st s).slotMem = s.slotMem := rfl
@[simp] theorem respond_reordMem (op : BitVec 4) (st : Status) (s : State) :
    (respond op st s).reordMem = s.reordMem := rfl
@[simp] theorem respond_rxbuf (op : BitVec 4) (st : Status) (s : State) : (respond op st s).rxbuf = s.rxbuf := rfl
@[simp] theorem respond_inputs (op : BitVec 4) (st : Status) (s : State) : (respond op st s).inputs = s.inputs := rfl
@[simp] theorem respond_out (op : BitVec 4) (st : Status) (s : State) :
    (respond op st s).out = s.out ++ [.rsp (rspWord op st 0 0 0)] := rfl
@[simp] theorem respond_resetEpoch (op : BitVec 4) (st : Status) (s : State) :
    (respond op st s).resetEpoch = s.resetEpoch := rfl

/-! `endPending` -/
@[simp] theorem endPending_win (st : Status) (s : State) :
    (endPending st s).win = s.win := by unfold endPending; split <;> rfl
@[simp] theorem endPending_sizes (st : Status) (s : State) :
    (endPending st s).sizes = s.sizes := by unfold endPending; split <;> rfl
@[simp] theorem endPending_pstate (st : Status) (s : State) :
    (endPending st s).pstate = s.pstate := by unfold endPending; split <;> rfl
@[simp] theorem endPending_pend (st : Status) (s : State) :
    (endPending st s).pend = .none := by unfold endPending; split <;> first | assumption | rfl
@[simp] theorem endPending_failCause (st : Status) (s : State) :
    (endPending st s).failCause = s.failCause := by unfold endPending; split <;> rfl
@[simp] theorem endPending_flags (st : Status) (s : State) :
    (endPending st s).flags = s.flags := by unfold endPending; split <;> rfl
@[simp] theorem endPending_counters (st : Status) (s : State) :
    (endPending st s).counters = s.counters := by unfold endPending; split <;> rfl
@[simp] theorem endPending_stats (st : Status) (s : State) :
    (endPending st s).stats = s.stats := by unfold endPending; split <;> rfl
@[simp] theorem endPending_cfg (st : Status) (s : State) :
    (endPending st s).cfg = s.cfg := by unfold endPending; split <;> rfl
@[simp] theorem endPending_slots (st : Status) (s : State) :
    (endPending st s).slots = s.slots := by unfold endPending; split <;> rfl
@[simp] theorem endPending_reord (st : Status) (s : State) :
    (endPending st s).reord = s.reord := by unfold endPending; split <;> rfl
@[simp] theorem endPending_slotMem (st : Status) (s : State) :
    (endPending st s).slotMem = s.slotMem := by unfold endPending; split <;> rfl
@[simp] theorem endPending_reordMem (st : Status) (s : State) :
    (endPending st s).reordMem = s.reordMem := by unfold endPending; split <;> rfl
@[simp] theorem endPending_rxbuf (st : Status) (s : State) :
    (endPending st s).rxbuf = s.rxbuf := by unfold endPending; split <;> rfl
@[simp] theorem endPending_inputs (st : Status) (s : State) :
    (endPending st s).inputs = s.inputs := by unfold endPending; split <;> rfl
@[simp] theorem endPending_resetEpoch (st : Status) (s : State) :
    (endPending st s).resetEpoch = s.resetEpoch := by unfold endPending; split <;> rfl

/-! `raiseFatal` -/
@[simp] theorem raiseFatal_win (c : FailCause) (s : State) : (raiseFatal c s).win = s.win := by simp [raiseFatal]
@[simp] theorem raiseFatal_sizes (c : FailCause) (s : State) :
    (raiseFatal c s).sizes = s.sizes := by simp [raiseFatal]
@[simp] theorem raiseFatal_pstate (c : FailCause) (s : State) :
    (raiseFatal c s).pstate = .failed := by simp [raiseFatal]
@[simp] theorem raiseFatal_pend (c : FailCause) (s : State) : (raiseFatal c s).pend = .none := by simp [raiseFatal]
@[simp] theorem raiseFatal_failCause (c : FailCause) (s : State) :
    (raiseFatal c s).failCause = if s.failCause = .none then c else s.failCause := by simp [raiseFatal]
@[simp] theorem raiseFatal_flags (c : FailCause) (s : State) :
    (raiseFatal c s).flags = { s.flags with bufOwned := false } := by simp [raiseFatal]
@[simp] theorem raiseFatal_counters (c : FailCause) (s : State) :
    (raiseFatal c s).counters = s.counters := by simp [raiseFatal]
@[simp] theorem raiseFatal_stats (c : FailCause) (s : State) :
    (raiseFatal c s).stats = s.stats := by simp [raiseFatal]
@[simp] theorem raiseFatal_cfg (c : FailCause) (s : State) : (raiseFatal c s).cfg = s.cfg := by simp [raiseFatal]
@[simp] theorem raiseFatal_slots (c : FailCause) (s : State) :
    (raiseFatal c s).slots = s.slots := by simp [raiseFatal]
@[simp] theorem raiseFatal_reord (c : FailCause) (s : State) :
    (raiseFatal c s).reord = s.reord := by simp [raiseFatal]
@[simp] theorem raiseFatal_slotMem (c : FailCause) (s : State) :
    (raiseFatal c s).slotMem = s.slotMem := by simp [raiseFatal]
@[simp] theorem raiseFatal_reordMem (c : FailCause) (s : State) :
    (raiseFatal c s).reordMem = s.reordMem := by simp [raiseFatal]
@[simp] theorem raiseFatal_rxbuf (c : FailCause) (s : State) :
    (raiseFatal c s).rxbuf = s.rxbuf := by simp [raiseFatal]
@[simp] theorem raiseFatal_inputs (c : FailCause) (s : State) :
    (raiseFatal c s).inputs = s.inputs := by simp [raiseFatal]
@[simp] theorem raiseFatal_resetEpoch (c : FailCause) (s : State) :
    (raiseFatal c s).resetEpoch = s.resetEpoch := by simp [raiseFatal]

/-! `transmit` -/
@[simp] theorem transmit_win (ty : PktType) (q : SeqNum) (lch rch : Channel) (f : Bool) (p : List Byte) (s : State) :
    (transmit ty q lch rch f p s).win = { s.win with lastAckSent := if ty = .sync then s.win.lastAckSent else s.win.lastRecv } := rfl
@[simp] theorem transmit_sizes (ty : PktType) (q : SeqNum) (lch rch : Channel) (f : Bool) (p : List Byte) (s : State) :
    (transmit ty q lch rch f p s).sizes = s.sizes := rfl
@[simp] theorem transmit_pstate (ty : PktType) (q : SeqNum) (lch rch : Channel) (f : Bool) (p : List Byte) (s : State) :
    (transmit ty q lch rch f p s).pstate = s.pstate := rfl
@[simp] theorem transmit_pend (ty : PktType) (q : SeqNum) (lch rch : Channel) (f : Bool) (p : List Byte) (s : State) :
    (transmit ty q lch rch f p s).pend = s.pend := rfl
@[simp] theorem transmit_failCause (ty : PktType) (q : SeqNum) (lch rch : Channel) (f : Bool) (p : List Byte) (s : State) :
    (transmit ty q lch rch f p s).failCause = s.failCause := rfl
@[simp] theorem transmit_flags (ty : PktType) (q : SeqNum) (lch rch : Channel) (f : Bool) (p : List Byte) (s : State) :
    (transmit ty q lch rch f p s).flags = { s.flags with ackPending := if ty = .sync then s.flags.ackPending else false } := rfl
@[simp] theorem transmit_counters (ty : PktType) (q : SeqNum) (lch rch : Channel) (f : Bool) (p : List Byte) (s : State) :
    (transmit ty q lch rch f p s).counters = s.counters := rfl
@[simp] theorem transmit_stats (ty : PktType) (q : SeqNum) (lch rch : Channel) (f : Bool) (p : List Byte) (s : State) :
    (transmit ty q lch rch f p s).stats = { s.stats with tx := satInc s.stats.tx } := rfl
@[simp] theorem transmit_cfg (ty : PktType) (q : SeqNum) (lch rch : Channel) (f : Bool) (p : List Byte) (s : State) :
    (transmit ty q lch rch f p s).cfg = s.cfg := rfl
@[simp] theorem transmit_slots (ty : PktType) (q : SeqNum) (lch rch : Channel) (f : Bool) (p : List Byte) (s : State) :
    (transmit ty q lch rch f p s).slots = s.slots := rfl
@[simp] theorem transmit_reord (ty : PktType) (q : SeqNum) (lch rch : Channel) (f : Bool) (p : List Byte) (s : State) :
    (transmit ty q lch rch f p s).reord = s.reord := rfl
@[simp] theorem transmit_slotMem (ty : PktType) (q : SeqNum) (lch rch : Channel) (f : Bool) (p : List Byte) (s : State) :
    (transmit ty q lch rch f p s).slotMem = s.slotMem := rfl
@[simp] theorem transmit_reordMem (ty : PktType) (q : SeqNum) (lch rch : Channel) (f : Bool) (p : List Byte) (s : State) :
    (transmit ty q lch rch f p s).reordMem = s.reordMem := rfl
@[simp] theorem transmit_rxbuf (ty : PktType) (q : SeqNum) (lch rch : Channel) (f : Bool) (p : List Byte) (s : State) :
    (transmit ty q lch rch f p s).rxbuf = s.rxbuf := rfl
@[simp] theorem transmit_inputs (ty : PktType) (q : SeqNum) (lch rch : Channel) (f : Bool) (p : List Byte) (s : State) :
    (transmit ty q lch rch f p s).inputs = s.inputs := rfl
@[simp] theorem transmit_resetEpoch (ty : PktType) (q : SeqNum) (lch rch : Channel) (f : Bool) (p : List Byte) (s : State) :
    (transmit ty q lch rch f p s).resetEpoch = s.resetEpoch := rfl

/-! `transmitSync` -/
@[simp] theorem transmitSync_win (reply : Bool) (s : State) : (transmitSync reply s).win = s.win := rfl
@[simp] theorem transmitSync_sizes (reply : Bool) (s : State) : (transmitSync reply s).sizes = s.sizes := rfl
@[simp] theorem transmitSync_pstate (reply : Bool) (s : State) : (transmitSync reply s).pstate = s.pstate := rfl
@[simp] theorem transmitSync_pend (reply : Bool) (s : State) : (transmitSync reply s).pend = s.pend := rfl
@[simp] theorem transmitSync_failCause (reply : Bool) (s : State) :
    (transmitSync reply s).failCause = s.failCause := rfl
@[simp] theorem transmitSync_flags (reply : Bool) (s : State) :
    (transmitSync reply s).flags = { s.flags with sentSync := true } := rfl
@[simp] theorem transmitSync_counters (reply : Bool) (s : State) : (transmitSync reply s).counters = s.counters := rfl
@[simp] theorem transmitSync_stats (reply : Bool) (s : State) :
    (transmitSync reply s).stats = { s.stats with tx := satInc s.stats.tx } := rfl
@[simp] theorem transmitSync_cfg (reply : Bool) (s : State) : (transmitSync reply s).cfg = s.cfg := rfl
@[simp] theorem transmitSync_slots (reply : Bool) (s : State) : (transmitSync reply s).slots = s.slots := rfl
@[simp] theorem transmitSync_reord (reply : Bool) (s : State) : (transmitSync reply s).reord = s.reord := rfl
@[simp] theorem transmitSync_slotMem (reply : Bool) (s : State) : (transmitSync reply s).slotMem = s.slotMem := rfl
@[simp] theorem transmitSync_reordMem (reply : Bool) (s : State) : (transmitSync reply s).reordMem = s.reordMem := rfl
@[simp] theorem transmitSync_rxbuf (reply : Bool) (s : State) : (transmitSync reply s).rxbuf = s.rxbuf := rfl
@[simp] theorem transmitSync_inputs (reply : Bool) (s : State) : (transmitSync reply s).inputs = s.inputs := rfl
@[simp] theorem transmitSync_out (reply : Bool) (s : State) :
    (transmitSync reply s).out = s.out ++ [.tx (s.syncImage reply)] := rfl
@[simp] theorem transmitSync_resetEpoch (reply : Bool) (s : State) :
    (transmitSync reply s).resetEpoch = s.resetEpoch := rfl

/-! `transmitAck` -/
@[simp] theorem transmitAck_win (s : State) :
    (transmitAck s).win = { s.win with lastAckSent := s.win.lastRecv } := rfl
@[simp] theorem transmitAck_sizes (s : State) : (transmitAck s).sizes = s.sizes := rfl
@[simp] theorem transmitAck_pstate (s : State) : (transmitAck s).pstate = s.pstate := rfl
@[simp] theorem transmitAck_pend (s : State) : (transmitAck s).pend = s.pend := rfl
@[simp] theorem transmitAck_failCause (s : State) : (transmitAck s).failCause = s.failCause := rfl
@[simp] theorem transmitAck_flags (s : State) : (transmitAck s).flags = { s.flags with ackPending := false } := rfl
@[simp] theorem transmitAck_counters (s : State) : (transmitAck s).counters = s.counters := rfl
@[simp] theorem transmitAck_stats (s : State) :
    (transmitAck s).stats = { s.stats with tx := satInc s.stats.tx } := rfl
@[simp] theorem transmitAck_cfg (s : State) : (transmitAck s).cfg = s.cfg := rfl
@[simp] theorem transmitAck_slots (s : State) : (transmitAck s).slots = s.slots := rfl
@[simp] theorem transmitAck_reord (s : State) : (transmitAck s).reord = s.reord := rfl
@[simp] theorem transmitAck_slotMem (s : State) : (transmitAck s).slotMem = s.slotMem := rfl
@[simp] theorem transmitAck_reordMem (s : State) : (transmitAck s).reordMem = s.reordMem := rfl
@[simp] theorem transmitAck_rxbuf (s : State) : (transmitAck s).rxbuf = s.rxbuf := rfl
@[simp] theorem transmitAck_inputs (s : State) : (transmitAck s).inputs = s.inputs := rfl
@[simp] theorem transmitAck_out (s : State) :
    (transmitAck s).out = s.out ++ [.tx (controlImage .ack 0 s.win.lastRecv)] := rfl
@[simp] theorem transmitAck_resetEpoch (s : State) : (transmitAck s).resetEpoch = s.resetEpoch := rfl

/-! `transmitNak` -/
@[simp] theorem transmitNak_win (m : SeqNum) (s : State) :
    (transmitNak m s).win = { s.win with lastAckSent := s.win.lastRecv } := rfl
@[simp] theorem transmitNak_sizes (m : SeqNum) (s : State) : (transmitNak m s).sizes = s.sizes := rfl
@[simp] theorem transmitNak_pstate (m : SeqNum) (s : State) : (transmitNak m s).pstate = s.pstate := rfl
@[simp] theorem transmitNak_pend (m : SeqNum) (s : State) : (transmitNak m s).pend = s.pend := rfl
@[simp] theorem transmitNak_failCause (m : SeqNum) (s : State) : (transmitNak m s).failCause = s.failCause := rfl
@[simp] theorem transmitNak_flags (m : SeqNum) (s : State) :
    (transmitNak m s).flags = { s.flags with ackPending := false } := rfl
@[simp] theorem transmitNak_counters (m : SeqNum) (s : State) : (transmitNak m s).counters = s.counters := rfl
@[simp] theorem transmitNak_stats (m : SeqNum) (s : State) :
    (transmitNak m s).stats = { s.stats with tx := satInc s.stats.tx } := rfl
@[simp] theorem transmitNak_cfg (m : SeqNum) (s : State) : (transmitNak m s).cfg = s.cfg := rfl
@[simp] theorem transmitNak_slots (m : SeqNum) (s : State) : (transmitNak m s).slots = s.slots := rfl
@[simp] theorem transmitNak_reord (m : SeqNum) (s : State) : (transmitNak m s).reord = s.reord := rfl
@[simp] theorem transmitNak_slotMem (m : SeqNum) (s : State) : (transmitNak m s).slotMem = s.slotMem := rfl
@[simp] theorem transmitNak_reordMem (m : SeqNum) (s : State) : (transmitNak m s).reordMem = s.reordMem := rfl
@[simp] theorem transmitNak_rxbuf (m : SeqNum) (s : State) : (transmitNak m s).rxbuf = s.rxbuf := rfl
@[simp] theorem transmitNak_inputs (m : SeqNum) (s : State) : (transmitNak m s).inputs = s.inputs := rfl
@[simp] theorem transmitNak_out (m : SeqNum) (s : State) :
    (transmitNak m s).out = s.out ++ [.tx (controlImage .nak m s.win.lastRecv)] := rfl
@[simp] theorem transmitNak_resetEpoch (m : SeqNum) (s : State) : (transmitNak m s).resetEpoch = s.resetEpoch := rfl

/-! `transmitClose` -/
@[simp] theorem transmitClose_win (s : State) :
    (transmitClose s).win = { s.win with lastAckSent := s.win.lastRecv } := rfl
@[simp] theorem transmitClose_sizes (s : State) : (transmitClose s).sizes = s.sizes := rfl
@[simp] theorem transmitClose_pstate (s : State) : (transmitClose s).pstate = s.pstate := rfl
@[simp] theorem transmitClose_pend (s : State) : (transmitClose s).pend = s.pend := rfl
@[simp] theorem transmitClose_failCause (s : State) : (transmitClose s).failCause = s.failCause := rfl
@[simp] theorem transmitClose_flags (s : State) :
    (transmitClose s).flags = { s.flags with ackPending := false } := rfl
@[simp] theorem transmitClose_counters (s : State) : (transmitClose s).counters = s.counters := rfl
@[simp] theorem transmitClose_stats (s : State) :
    (transmitClose s).stats = { s.stats with tx := satInc s.stats.tx } := rfl
@[simp] theorem transmitClose_cfg (s : State) : (transmitClose s).cfg = s.cfg := rfl
@[simp] theorem transmitClose_slots (s : State) : (transmitClose s).slots = s.slots := rfl
@[simp] theorem transmitClose_reord (s : State) : (transmitClose s).reord = s.reord := rfl
@[simp] theorem transmitClose_slotMem (s : State) : (transmitClose s).slotMem = s.slotMem := rfl
@[simp] theorem transmitClose_reordMem (s : State) : (transmitClose s).reordMem = s.reordMem := rfl
@[simp] theorem transmitClose_rxbuf (s : State) : (transmitClose s).rxbuf = s.rxbuf := rfl
@[simp] theorem transmitClose_inputs (s : State) : (transmitClose s).inputs = s.inputs := rfl
@[simp] theorem transmitClose_out (s : State) :
    (transmitClose s).out = s.out ++ [.tx (controlImage .close 0 s.win.lastRecv)] := rfl
@[simp] theorem transmitClose_resetEpoch (s : State) : (transmitClose s).resetEpoch = s.resetEpoch := rfl

/-! `transmitData` -/
@[simp] theorem transmitData_win (q : SeqNum) (again : Bool) (s : State) :
    (transmitData q again s).win = { s.win with lastAckSent := s.win.lastRecv } := rfl
@[simp] theorem transmitData_sizes (q : SeqNum) (again : Bool) (s : State) :
    (transmitData q again s).sizes = s.sizes := rfl
@[simp] theorem transmitData_pstate (q : SeqNum) (again : Bool) (s : State) :
    (transmitData q again s).pstate = s.pstate := rfl
@[simp] theorem transmitData_pend (q : SeqNum) (again : Bool) (s : State) :
    (transmitData q again s).pend = s.pend := rfl
@[simp] theorem transmitData_failCause (q : SeqNum) (again : Bool) (s : State) :
    (transmitData q again s).failCause = s.failCause := rfl
@[simp] theorem transmitData_flags (q : SeqNum) (again : Bool) (s : State) :
    (transmitData q again s).flags = { s.flags with ackPending := false } := rfl
@[simp] theorem transmitData_counters (q : SeqNum) (again : Bool) (s : State) :
    (transmitData q again s).counters = s.counters := rfl
@[simp] theorem transmitData_stats (q : SeqNum) (again : Bool) (s : State) :
    (transmitData q again s).stats = { s.stats with tx := satInc s.stats.tx, retx := if again then satInc s.stats.retx else s.stats.retx } := rfl
@[simp] theorem transmitData_cfg (q : SeqNum) (again : Bool) (s : State) : (transmitData q again s).cfg = s.cfg := rfl
@[simp] theorem transmitData_slots (q : SeqNum) (again : Bool) (s : State) :
    (transmitData q again s).slots = s.slots := rfl
@[simp] theorem transmitData_reord (q : SeqNum) (again : Bool) (s : State) :
    (transmitData q again s).reord = s.reord := rfl
@[simp] theorem transmitData_slotMem (q : SeqNum) (again : Bool) (s : State) :
    (transmitData q again s).slotMem = s.slotMem := rfl
@[simp] theorem transmitData_reordMem (q : SeqNum) (again : Bool) (s : State) :
    (transmitData q again s).reordMem = s.reordMem := rfl
@[simp] theorem transmitData_rxbuf (q : SeqNum) (again : Bool) (s : State) :
    (transmitData q again s).rxbuf = s.rxbuf := rfl
@[simp] theorem transmitData_inputs (q : SeqNum) (again : Bool) (s : State) :
    (transmitData q again s).inputs = s.inputs := rfl
@[simp] theorem transmitData_out (q : SeqNum) (again : Bool) (s : State) :
    (transmitData q again s).out = s.out ++ [.tx (s.dataImage q)] := rfl
@[simp] theorem transmitData_resetEpoch (q : SeqNum) (again : Bool) (s : State) :
    (transmitData q again s).resetEpoch = s.resetEpoch := rfl

/-! `transmitNew` -/
@[simp] theorem transmitNew_win (s : State) :
    (transmitNew s).win = { s.win with nextSeq := seqSucc s.win.nextSeq, nextRetx := seqSucc s.win.nextSeq, lastAckSent := s.win.lastRecv } := rfl
@[simp] theorem transmitNew_sizes (s : State) : (transmitNew s).sizes = s.sizes := rfl
@[simp] theorem transmitNew_pstate (s : State) : (transmitNew s).pstate = s.pstate := rfl
@[simp] theorem transmitNew_pend (s : State) : (transmitNew s).pend = s.pend := rfl
@[simp] theorem transmitNew_failCause (s : State) : (transmitNew s).failCause = s.failCause := rfl
@[simp] theorem transmitNew_flags (s : State) : (transmitNew s).flags = { s.flags with ackPending := false } := rfl
@[simp] theorem transmitNew_counters (s : State) : (transmitNew s).counters = s.counters := rfl
@[simp] theorem transmitNew_stats (s : State) :
    (transmitNew s).stats = { s.stats with tx := satInc s.stats.tx } := rfl
@[simp] theorem transmitNew_cfg (s : State) : (transmitNew s).cfg = s.cfg := rfl
@[simp] theorem transmitNew_slots (s : State) : (transmitNew s).slots = s.slots := rfl
@[simp] theorem transmitNew_reord (s : State) : (transmitNew s).reord = s.reord := rfl
@[simp] theorem transmitNew_slotMem (s : State) : (transmitNew s).slotMem = s.slotMem := rfl
@[simp] theorem transmitNew_reordMem (s : State) : (transmitNew s).reordMem = s.reordMem := rfl
@[simp] theorem transmitNew_rxbuf (s : State) : (transmitNew s).rxbuf = s.rxbuf := rfl
@[simp] theorem transmitNew_inputs (s : State) : (transmitNew s).inputs = s.inputs := rfl
@[simp] theorem transmitNew_out (s : State) : (transmitNew s).out = s.out ++ [.tx (s.dataImage s.win.nextSeq)] := rfl
@[simp] theorem transmitNew_resetEpoch (s : State) : (transmitNew s).resetEpoch = s.resetEpoch := rfl

/-! `tallyError` -/
@[simp] theorem tallyError_win (kind : ErrKind) (s : State) : (tallyError kind s).win = s.win := rfl
@[simp] theorem tallyError_sizes (kind : ErrKind) (s : State) : (tallyError kind s).sizes = s.sizes := rfl
@[simp] theorem tallyError_pstate (kind : ErrKind) (s : State) : (tallyError kind s).pstate = s.pstate := rfl
@[simp] theorem tallyError_pend (kind : ErrKind) (s : State) : (tallyError kind s).pend = s.pend := rfl
@[simp] theorem tallyError_failCause (kind : ErrKind) (s : State) : (tallyError kind s).failCause = s.failCause := rfl
@[simp] theorem tallyError_flags (kind : ErrKind) (s : State) : (tallyError kind s).flags = s.flags := rfl
@[simp] theorem tallyError_counters (kind : ErrKind) (s : State) :
    (tallyError kind s).counters = { s.counters with errcnt := satInc s.counters.errcnt } := rfl
@[simp] theorem tallyError_cfg (kind : ErrKind) (s : State) : (tallyError kind s).cfg = s.cfg := rfl
@[simp] theorem tallyError_slots (kind : ErrKind) (s : State) : (tallyError kind s).slots = s.slots := rfl
@[simp] theorem tallyError_reord (kind : ErrKind) (s : State) : (tallyError kind s).reord = s.reord := rfl
@[simp] theorem tallyError_slotMem (kind : ErrKind) (s : State) : (tallyError kind s).slotMem = s.slotMem := rfl
@[simp] theorem tallyError_reordMem (kind : ErrKind) (s : State) : (tallyError kind s).reordMem = s.reordMem := rfl
@[simp] theorem tallyError_rxbuf (kind : ErrKind) (s : State) : (tallyError kind s).rxbuf = s.rxbuf := rfl
@[simp] theorem tallyError_inputs (kind : ErrKind) (s : State) : (tallyError kind s).inputs = s.inputs := rfl
@[simp] theorem tallyError_out (kind : ErrKind) (s : State) : (tallyError kind s).out = s.out := rfl
@[simp] theorem tallyError_resetEpoch (kind : ErrKind) (s : State) :
    (tallyError kind s).resetEpoch = s.resetEpoch := rfl

/-! `goodPacket` -/
@[simp] theorem goodPacket_win (s : State) : (goodPacket s).win = s.win := rfl
@[simp] theorem goodPacket_sizes (s : State) : (goodPacket s).sizes = s.sizes := rfl
@[simp] theorem goodPacket_pstate (s : State) : (goodPacket s).pstate = s.pstate := rfl
@[simp] theorem goodPacket_pend (s : State) : (goodPacket s).pend = s.pend := rfl
@[simp] theorem goodPacket_failCause (s : State) : (goodPacket s).failCause = s.failCause := rfl
@[simp] theorem goodPacket_flags (s : State) : (goodPacket s).flags = s.flags := rfl
@[simp] theorem goodPacket_cfg (s : State) : (goodPacket s).cfg = s.cfg := rfl
@[simp] theorem goodPacket_slots (s : State) : (goodPacket s).slots = s.slots := rfl
@[simp] theorem goodPacket_reord (s : State) : (goodPacket s).reord = s.reord := rfl
@[simp] theorem goodPacket_slotMem (s : State) : (goodPacket s).slotMem = s.slotMem := rfl
@[simp] theorem goodPacket_reordMem (s : State) : (goodPacket s).reordMem = s.reordMem := rfl
@[simp] theorem goodPacket_rxbuf (s : State) : (goodPacket s).rxbuf = s.rxbuf := rfl
@[simp] theorem goodPacket_inputs (s : State) : (goodPacket s).inputs = s.inputs := rfl
@[simp] theorem goodPacket_out (s : State) : (goodPacket s).out = s.out := rfl
@[simp] theorem goodPacket_resetEpoch (s : State) : (goodPacket s).resetEpoch = s.resetEpoch := rfl

/-! `drop1` -/
@[simp] theorem drop1_win (s : State) : (drop1 s).win = s.win := rfl
@[simp] theorem drop1_sizes (s : State) : (drop1 s).sizes = s.sizes := rfl
@[simp] theorem drop1_pstate (s : State) : (drop1 s).pstate = s.pstate := rfl
@[simp] theorem drop1_pend (s : State) : (drop1 s).pend = s.pend := rfl
@[simp] theorem drop1_failCause (s : State) : (drop1 s).failCause = s.failCause := rfl
@[simp] theorem drop1_flags (s : State) : (drop1 s).flags = s.flags := rfl
@[simp] theorem drop1_counters (s : State) :
    (drop1 s).counters = { s.counters with garbage := satInc s.counters.garbage } := rfl
@[simp] theorem drop1_stats (s : State) : (drop1 s).stats = s.stats := rfl
@[simp] theorem drop1_cfg (s : State) : (drop1 s).cfg = s.cfg := rfl
@[simp] theorem drop1_slots (s : State) : (drop1 s).slots = s.slots := rfl
@[simp] theorem drop1_reord (s : State) : (drop1 s).reord = s.reord := rfl
@[simp] theorem drop1_slotMem (s : State) : (drop1 s).slotMem = s.slotMem := rfl
@[simp] theorem drop1_reordMem (s : State) : (drop1 s).reordMem = s.reordMem := rfl
@[simp] theorem drop1_rxbuf (s : State) : (drop1 s).rxbuf = s.rxbuf.tail := rfl
@[simp] theorem drop1_inputs (s : State) : (drop1 s).inputs = s.inputs := rfl
@[simp] theorem drop1_out (s : State) : (drop1 s).out = s.out := rfl
@[simp] theorem drop1_resetEpoch (s : State) : (drop1 s).resetEpoch = s.resetEpoch := rfl

/-! `deliver` -/
@[simp] theorem deliver_win (lch rch : Channel) (eom : Bool) (p : List Byte) (s : State) :
    (deliver lch rch eom p s).win = s.win := rfl
@[simp] theorem deliver_sizes (lch rch : Channel) (eom : Bool) (p : List Byte) (s : State) :
    (deliver lch rch eom p s).sizes = s.sizes := rfl
@[simp] theorem deliver_pstate (lch rch : Channel) (eom : Bool) (p : List Byte) (s : State) :
    (deliver lch rch eom p s).pstate = s.pstate := rfl
@[simp] theorem deliver_pend (lch rch : Channel) (eom : Bool) (p : List Byte) (s : State) :
    (deliver lch rch eom p s).pend = s.pend := rfl
@[simp] theorem deliver_failCause (lch rch : Channel) (eom : Bool) (p : List Byte) (s : State) :
    (deliver lch rch eom p s).failCause = s.failCause := rfl
@[simp] theorem deliver_flags (lch rch : Channel) (eom : Bool) (p : List Byte) (s : State) :
    (deliver lch rch eom p s).flags = { s.flags with eomSeen := s.flags.eomSeen || eom } := rfl
@[simp] theorem deliver_counters (lch rch : Channel) (eom : Bool) (p : List Byte) (s : State) :
    (deliver lch rch eom p s).counters = s.counters := rfl
@[simp] theorem deliver_stats (lch rch : Channel) (eom : Bool) (p : List Byte) (s : State) :
    (deliver lch rch eom p s).stats = s.stats := rfl
@[simp] theorem deliver_cfg (lch rch : Channel) (eom : Bool) (p : List Byte) (s : State) :
    (deliver lch rch eom p s).cfg = s.cfg := rfl
@[simp] theorem deliver_slots (lch rch : Channel) (eom : Bool) (p : List Byte) (s : State) :
    (deliver lch rch eom p s).slots = s.slots := rfl
@[simp] theorem deliver_reord (lch rch : Channel) (eom : Bool) (p : List Byte) (s : State) :
    (deliver lch rch eom p s).reord = s.reord := rfl
@[simp] theorem deliver_slotMem (lch rch : Channel) (eom : Bool) (p : List Byte) (s : State) :
    (deliver lch rch eom p s).slotMem = s.slotMem := rfl
@[simp] theorem deliver_reordMem (lch rch : Channel) (eom : Bool) (p : List Byte) (s : State) :
    (deliver lch rch eom p s).reordMem = s.reordMem := rfl
@[simp] theorem deliver_rxbuf (lch rch : Channel) (eom : Bool) (p : List Byte) (s : State) :
    (deliver lch rch eom p s).rxbuf = s.rxbuf := rfl
@[simp] theorem deliver_inputs (lch rch : Channel) (eom : Bool) (p : List Byte) (s : State) :
    (deliver lch rch eom p s).inputs = s.inputs := rfl
@[simp] theorem deliver_out (lch rch : Channel) (eom : Bool) (p : List Byte) (s : State) :
    (deliver lch rch eom p s).out = s.out ++ [.deliver lch rch eom p] := rfl
@[simp] theorem deliver_resetEpoch (lch rch : Channel) (eom : Bool) (p : List Byte) (s : State) :
    (deliver lch rch eom p s).resetEpoch = s.resetEpoch := rfl

/-! `rotationEvent` -/
@[simp] theorem rotationEvent_win (a : SeqNum) (s : State) :
    (rotationEvent a s).win = s.win := by unfold rotationEvent; split <;> rfl
@[simp] theorem rotationEvent_sizes (a : SeqNum) (s : State) :
    (rotationEvent a s).sizes = s.sizes := by unfold rotationEvent; split <;> rfl
@[simp] theorem rotationEvent_pstate (a : SeqNum) (s : State) :
    (rotationEvent a s).pstate = s.pstate := by unfold rotationEvent; split <;> rfl
@[simp] theorem rotationEvent_pend (a : SeqNum) (s : State) :
    (rotationEvent a s).pend = s.pend := by unfold rotationEvent; split <;> rfl
@[simp] theorem rotationEvent_failCause (a : SeqNum) (s : State) :
    (rotationEvent a s).failCause = s.failCause := by unfold rotationEvent; split <;> rfl
@[simp] theorem rotationEvent_flags (a : SeqNum) (s : State) :
    (rotationEvent a s).flags = s.flags := by unfold rotationEvent; split <;> rfl
@[simp] theorem rotationEvent_counters (a : SeqNum) (s : State) :
    (rotationEvent a s).counters = s.counters := by unfold rotationEvent; split <;> rfl
@[simp] theorem rotationEvent_stats (a : SeqNum) (s : State) :
    (rotationEvent a s).stats = s.stats := by unfold rotationEvent; split <;> rfl
@[simp] theorem rotationEvent_cfg (a : SeqNum) (s : State) :
    (rotationEvent a s).cfg = s.cfg := by unfold rotationEvent; split <;> rfl
@[simp] theorem rotationEvent_slots (a : SeqNum) (s : State) :
    (rotationEvent a s).slots = s.slots := by unfold rotationEvent; split <;> rfl
@[simp] theorem rotationEvent_reord (a : SeqNum) (s : State) :
    (rotationEvent a s).reord = s.reord := by unfold rotationEvent; split <;> rfl
@[simp] theorem rotationEvent_slotMem (a : SeqNum) (s : State) :
    (rotationEvent a s).slotMem = s.slotMem := by unfold rotationEvent; split <;> rfl
@[simp] theorem rotationEvent_reordMem (a : SeqNum) (s : State) :
    (rotationEvent a s).reordMem = s.reordMem := by unfold rotationEvent; split <;> rfl
@[simp] theorem rotationEvent_rxbuf (a : SeqNum) (s : State) :
    (rotationEvent a s).rxbuf = s.rxbuf := by unfold rotationEvent; split <;> rfl
@[simp] theorem rotationEvent_inputs (a : SeqNum) (s : State) :
    (rotationEvent a s).inputs = s.inputs := by unfold rotationEvent; split <;> rfl
@[simp] theorem rotationEvent_out (a : SeqNum) (s : State) :
    (rotationEvent a s).out = if a < s.win.lastAcked then s.out ++ [.evt (.windowAcked a)] else s.out := by unfold rotationEvent; split <;> rfl
@[simp] theorem rotationEvent_resetEpoch (a : SeqNum) (s : State) :
    (rotationEvent a s).resetEpoch = s.resetEpoch := by unfold rotationEvent; split <;> rfl

/-! `advanceAcked` -/
@[simp] theorem advanceAcked_sizes (a : SeqNum) (s : State) : (advanceAcked a s).sizes = s.sizes := rfl
@[simp] theorem advanceAcked_pstate (a : SeqNum) (s : State) : (advanceAcked a s).pstate = s.pstate := rfl
@[simp] theorem advanceAcked_pend (a : SeqNum) (s : State) : (advanceAcked a s).pend = s.pend := rfl
@[simp] theorem advanceAcked_failCause (a : SeqNum) (s : State) : (advanceAcked a s).failCause = s.failCause := rfl
@[simp] theorem advanceAcked_counters (a : SeqNum) (s : State) :
    (advanceAcked a s).counters = { s.counters with retry := 0 } := rfl
@[simp] theorem advanceAcked_stats (a : SeqNum) (s : State) : (advanceAcked a s).stats = s.stats := rfl
@[simp] theorem advanceAcked_cfg (a : SeqNum) (s : State) : (advanceAcked a s).cfg = s.cfg := rfl
@[simp] theorem advanceAcked_slots (a : SeqNum) (s : State) :
    (advanceAcked a s).slots = releaseSlots s.win.lastAcked (dist a s.win.lastAcked) s.slots := rfl
@[simp] theorem advanceAcked_reord (a : SeqNum) (s : State) : (advanceAcked a s).reord = s.reord := rfl
@[simp] theorem advanceAcked_slotMem (a : SeqNum) (s : State) : (advanceAcked a s).slotMem = s.slotMem := rfl
@[simp] theorem advanceAcked_reordMem (a : SeqNum) (s : State) : (advanceAcked a s).reordMem = s.reordMem := rfl
@[simp] theorem advanceAcked_rxbuf (a : SeqNum) (s : State) : (advanceAcked a s).rxbuf = s.rxbuf := rfl
@[simp] theorem advanceAcked_inputs (a : SeqNum) (s : State) : (advanceAcked a s).inputs = s.inputs := rfl
@[simp] theorem advanceAcked_out (a : SeqNum) (s : State) : (advanceAcked a s).out = s.out := rfl
@[simp] theorem advanceAcked_resetEpoch (a : SeqNum) (s : State) : (advanceAcked a s).resetEpoch = s.resetEpoch := rfl

/-! `markReject` -/
@[simp] theorem markReject_win (m : SeqNum) (s : State) :
    (markReject m s).win = { s.win with nextRetx := m, cautionSeq := m } := rfl
@[simp] theorem markReject_sizes (m : SeqNum) (s : State) : (markReject m s).sizes = s.sizes := rfl
@[simp] theorem markReject_pstate (m : SeqNum) (s : State) : (markReject m s).pstate = s.pstate := rfl
@[simp] theorem markReject_pend (m : SeqNum) (s : State) : (markReject m s).pend = s.pend := rfl
@[simp] theorem markReject_failCause (m : SeqNum) (s : State) : (markReject m s).failCause = s.failCause := rfl
@[simp] theorem markReject_flags (m : SeqNum) (s : State) :
    (markReject m s).flags = { s.flags with cautious := true, rejSeen := true } := rfl
@[simp] theorem markReject_counters (m : SeqNum) (s : State) : (markReject m s).counters = s.counters := rfl
@[simp] theorem markReject_stats (m : SeqNum) (s : State) : (markReject m s).stats = s.stats := rfl
@[simp] theorem markReject_cfg (m : SeqNum) (s : State) : (markReject m s).cfg = s.cfg := rfl
@[simp] theorem markReject_slots (m : SeqNum) (s : State) : (markReject m s).slots = s.slots := rfl
@[simp] theorem markReject_reord (m : SeqNum) (s : State) : (markReject m s).reord = s.reord := rfl
@[simp] theorem markReject_slotMem (m : SeqNum) (s : State) : (markReject m s).slotMem = s.slotMem := rfl
@[simp] theorem markReject_reordMem (m : SeqNum) (s : State) : (markReject m s).reordMem = s.reordMem := rfl
@[simp] theorem markReject_rxbuf (m : SeqNum) (s : State) : (markReject m s).rxbuf = s.rxbuf := rfl
@[simp] theorem markReject_inputs (m : SeqNum) (s : State) : (markReject m s).inputs = s.inputs := rfl
@[simp] theorem markReject_out (m : SeqNum) (s : State) : (markReject m s).out = s.out := rfl
@[simp] theorem markReject_resetEpoch (m : SeqNum) (s : State) : (markReject m s).resetEpoch = s.resetEpoch := rfl

/-! `drainOne` -/
@[simp] theorem drainOne_win (q : SeqNum) (s : State) : (drainOne q s).win = { s.win with lastRecv := q } := rfl
@[simp] theorem drainOne_sizes (q : SeqNum) (s : State) : (drainOne q s).sizes = s.sizes := rfl
@[simp] theorem drainOne_pstate (q : SeqNum) (s : State) : (drainOne q s).pstate = s.pstate := rfl
@[simp] theorem drainOne_pend (q : SeqNum) (s : State) : (drainOne q s).pend = s.pend := rfl
@[simp] theorem drainOne_failCause (q : SeqNum) (s : State) : (drainOne q s).failCause = s.failCause := rfl
@[simp] theorem drainOne_flags (q : SeqNum) (s : State) :
    (drainOne q s).flags = { s.flags with eomSeen := s.flags.eomSeen || (s.reordAt q).eom } := rfl
@[simp] theorem drainOne_counters (q : SeqNum) (s : State) : (drainOne q s).counters = s.counters := rfl
@[simp] theorem drainOne_stats (q : SeqNum) (s : State) : (drainOne q s).stats = s.stats := rfl
@[simp] theorem drainOne_cfg (q : SeqNum) (s : State) : (drainOne q s).cfg = s.cfg := rfl
@[simp] theorem drainOne_slots (q : SeqNum) (s : State) : (drainOne q s).slots = s.slots := rfl
@[simp] theorem drainOne_reord (q : SeqNum) (s : State) :
    (drainOne q s).reord = setEntry s.reord q { s.reordAt q with valid := false } := rfl
@[simp] theorem drainOne_slotMem (q : SeqNum) (s : State) : (drainOne q s).slotMem = s.slotMem := rfl
@[simp] theorem drainOne_reordMem (q : SeqNum) (s : State) : (drainOne q s).reordMem = s.reordMem := rfl
@[simp] theorem drainOne_rxbuf (q : SeqNum) (s : State) : (drainOne q s).rxbuf = s.rxbuf := rfl
@[simp] theorem drainOne_inputs (q : SeqNum) (s : State) : (drainOne q s).inputs = s.inputs := rfl
@[simp] theorem drainOne_out (q : SeqNum) (s : State) :
    (drainOne q s).out = s.out ++ [.deliver (s.reordAt q).lch (s.reordAt q).rch (s.reordAt q).eom (s.reordPayload q)] := rfl
@[simp] theorem drainOne_resetEpoch (q : SeqNum) (s : State) : (drainOne q s).resetEpoch = s.resetEpoch := rfl

/-! `onDataAhead` -/
@[simp] theorem onDataAhead_win (q : SeqNum) (lch rch : Channel) (eom : Bool) (p : List Byte) (s : State) :
    (onDataAhead q lch rch eom p s).win = s.win := rfl
@[simp] theorem onDataAhead_sizes (q : SeqNum) (lch rch : Channel) (eom : Bool) (p : List Byte) (s : State) :
    (onDataAhead q lch rch eom p s).sizes = s.sizes := rfl
@[simp] theorem onDataAhead_pstate (q : SeqNum) (lch rch : Channel) (eom : Bool) (p : List Byte) (s : State) :
    (onDataAhead q lch rch eom p s).pstate = s.pstate := rfl
@[simp] theorem onDataAhead_pend (q : SeqNum) (lch rch : Channel) (eom : Bool) (p : List Byte) (s : State) :
    (onDataAhead q lch rch eom p s).pend = s.pend := rfl
@[simp] theorem onDataAhead_failCause (q : SeqNum) (lch rch : Channel) (eom : Bool) (p : List Byte) (s : State) :
    (onDataAhead q lch rch eom p s).failCause = s.failCause := rfl
@[simp] theorem onDataAhead_flags (q : SeqNum) (lch rch : Channel) (eom : Bool) (p : List Byte) (s : State) :
    (onDataAhead q lch rch eom p s).flags = s.flags := rfl
@[simp] theorem onDataAhead_counters (q : SeqNum) (lch rch : Channel) (eom : Bool) (p : List Byte) (s : State) :
    (onDataAhead q lch rch eom p s).counters = s.counters := rfl
@[simp] theorem onDataAhead_stats (q : SeqNum) (lch rch : Channel) (eom : Bool) (p : List Byte) (s : State) :
    (onDataAhead q lch rch eom p s).stats = s.stats := rfl
@[simp] theorem onDataAhead_cfg (q : SeqNum) (lch rch : Channel) (eom : Bool) (p : List Byte) (s : State) :
    (onDataAhead q lch rch eom p s).cfg = s.cfg := rfl
@[simp] theorem onDataAhead_slots (q : SeqNum) (lch rch : Channel) (eom : Bool) (p : List Byte) (s : State) :
    (onDataAhead q lch rch eom p s).slots = s.slots := rfl
@[simp] theorem onDataAhead_reord (q : SeqNum) (lch rch : Channel) (eom : Bool) (p : List Byte) (s : State) :
    (onDataAhead q lch rch eom p s).reord = setEntry s.reord q { valid := true, lch := lch, rch := rch, eom := eom, len := BitVec.ofNat 11 p.length } := rfl
@[simp] theorem onDataAhead_slotMem (q : SeqNum) (lch rch : Channel) (eom : Bool) (p : List Byte) (s : State) :
    (onDataAhead q lch rch eom p s).slotMem = s.slotMem := rfl
@[simp] theorem onDataAhead_reordMem (q : SeqNum) (lch rch : Channel) (eom : Bool) (p : List Byte) (s : State) :
    (onDataAhead q lch rch eom p s).reordMem = s.reordMem.writeBytes (recordAddr q 0) p := rfl
@[simp] theorem onDataAhead_rxbuf (q : SeqNum) (lch rch : Channel) (eom : Bool) (p : List Byte) (s : State) :
    (onDataAhead q lch rch eom p s).rxbuf = s.rxbuf := rfl
@[simp] theorem onDataAhead_inputs (q : SeqNum) (lch rch : Channel) (eom : Bool) (p : List Byte) (s : State) :
    (onDataAhead q lch rch eom p s).inputs = s.inputs := rfl
@[simp] theorem onDataAhead_out (q : SeqNum) (lch rch : Channel) (eom : Bool) (p : List Byte) (s : State) :
    (onDataAhead q lch rch eom p s).out = s.out := rfl
@[simp] theorem onDataAhead_resetEpoch (q : SeqNum) (lch rch : Channel) (eom : Bool) (p : List Byte) (s : State) :
    (onDataAhead q lch rch eom p s).resetEpoch = s.resetEpoch := rfl

/-! `oweAck` -/
@[simp] theorem oweAck_win (s : State) : (oweAck s).win = s.win := rfl
@[simp] theorem oweAck_sizes (s : State) : (oweAck s).sizes = s.sizes := rfl
@[simp] theorem oweAck_pstate (s : State) : (oweAck s).pstate = s.pstate := rfl
@[simp] theorem oweAck_pend (s : State) : (oweAck s).pend = s.pend := rfl
@[simp] theorem oweAck_failCause (s : State) : (oweAck s).failCause = s.failCause := rfl
@[simp] theorem oweAck_flags (s : State) : (oweAck s).flags = { s.flags with ackPending := true } := rfl
@[simp] theorem oweAck_counters (s : State) : (oweAck s).counters = s.counters := rfl
@[simp] theorem oweAck_stats (s : State) : (oweAck s).stats = s.stats := rfl
@[simp] theorem oweAck_cfg (s : State) : (oweAck s).cfg = s.cfg := rfl
@[simp] theorem oweAck_slots (s : State) : (oweAck s).slots = s.slots := rfl
@[simp] theorem oweAck_reord (s : State) : (oweAck s).reord = s.reord := rfl
@[simp] theorem oweAck_slotMem (s : State) : (oweAck s).slotMem = s.slotMem := rfl
@[simp] theorem oweAck_reordMem (s : State) : (oweAck s).reordMem = s.reordMem := rfl
@[simp] theorem oweAck_rxbuf (s : State) : (oweAck s).rxbuf = s.rxbuf := rfl
@[simp] theorem oweAck_inputs (s : State) : (oweAck s).inputs = s.inputs := rfl
@[simp] theorem oweAck_out (s : State) : (oweAck s).out = s.out := rfl
@[simp] theorem oweAck_resetEpoch (s : State) : (oweAck s).resetEpoch = s.resetEpoch := rfl

/-! `pumpOne` -/
@[simp] theorem pumpOne_win (s : State) :
    (pumpOne s).win = { s.win with nextRetx := seqSucc s.win.nextRetx, lastAckSent := s.win.lastRecv } := rfl
@[simp] theorem pumpOne_sizes (s : State) : (pumpOne s).sizes = s.sizes := rfl
@[simp] theorem pumpOne_pstate (s : State) : (pumpOne s).pstate = s.pstate := rfl
@[simp] theorem pumpOne_pend (s : State) : (pumpOne s).pend = s.pend := rfl
@[simp] theorem pumpOne_failCause (s : State) : (pumpOne s).failCause = s.failCause := rfl
@[simp] theorem pumpOne_flags (s : State) : (pumpOne s).flags = { s.flags with ackPending := false } := rfl
@[simp] theorem pumpOne_counters (s : State) : (pumpOne s).counters = s.counters := rfl
@[simp] theorem pumpOne_stats (s : State) :
    (pumpOne s).stats = { s.stats with tx := satInc s.stats.tx, retx := satInc s.stats.retx } := rfl
@[simp] theorem pumpOne_cfg (s : State) : (pumpOne s).cfg = s.cfg := rfl
@[simp] theorem pumpOne_slots (s : State) : (pumpOne s).slots = s.slots := rfl
@[simp] theorem pumpOne_reord (s : State) : (pumpOne s).reord = s.reord := rfl
@[simp] theorem pumpOne_slotMem (s : State) : (pumpOne s).slotMem = s.slotMem := rfl
@[simp] theorem pumpOne_reordMem (s : State) : (pumpOne s).reordMem = s.reordMem := rfl
@[simp] theorem pumpOne_rxbuf (s : State) : (pumpOne s).rxbuf = s.rxbuf := rfl
@[simp] theorem pumpOne_inputs (s : State) : (pumpOne s).inputs = s.inputs := rfl
@[simp] theorem pumpOne_out (s : State) : (pumpOne s).out = s.out ++ [.tx (s.dataImage s.win.nextRetx)] := rfl
@[simp] theorem pumpOne_resetEpoch (s : State) : (pumpOne s).resetEpoch = s.resetEpoch := rfl

/-! `explicitAck` -/
@[simp] theorem explicitAck_sizes (s : State) :
    (explicitAck s).sizes = s.sizes := by unfold explicitAck; split <;> rfl
@[simp] theorem explicitAck_pstate (s : State) :
    (explicitAck s).pstate = s.pstate := by unfold explicitAck; split <;> rfl
@[simp] theorem explicitAck_pend (s : State) : (explicitAck s).pend = s.pend := by unfold explicitAck; split <;> rfl
@[simp] theorem explicitAck_failCause (s : State) :
    (explicitAck s).failCause = s.failCause := by unfold explicitAck; split <;> rfl
@[simp] theorem explicitAck_counters (s : State) :
    (explicitAck s).counters = s.counters := by unfold explicitAck; split <;> rfl
@[simp] theorem explicitAck_cfg (s : State) : (explicitAck s).cfg = s.cfg := by unfold explicitAck; split <;> rfl
@[simp] theorem explicitAck_slots (s : State) :
    (explicitAck s).slots = s.slots := by unfold explicitAck; split <;> rfl
@[simp] theorem explicitAck_reord (s : State) :
    (explicitAck s).reord = s.reord := by unfold explicitAck; split <;> rfl
@[simp] theorem explicitAck_slotMem (s : State) :
    (explicitAck s).slotMem = s.slotMem := by unfold explicitAck; split <;> rfl
@[simp] theorem explicitAck_reordMem (s : State) :
    (explicitAck s).reordMem = s.reordMem := by unfold explicitAck; split <;> rfl
@[simp] theorem explicitAck_rxbuf (s : State) :
    (explicitAck s).rxbuf = s.rxbuf := by unfold explicitAck; split <;> rfl
@[simp] theorem explicitAck_inputs (s : State) :
    (explicitAck s).inputs = s.inputs := by unfold explicitAck; split <;> rfl
@[simp] theorem explicitAck_resetEpoch (s : State) :
    (explicitAck s).resetEpoch = s.resetEpoch := by unfold explicitAck; split <;> rfl

/-! `gapNak` -/
@[simp] theorem gapNak_sizes (s : State) : (gapNak s).sizes = s.sizes := by unfold gapNak; dsimp only; split <;> rfl
@[simp] theorem gapNak_pstate (s : State) :
    (gapNak s).pstate = s.pstate := by unfold gapNak; dsimp only; split <;> rfl
@[simp] theorem gapNak_pend (s : State) : (gapNak s).pend = s.pend := by unfold gapNak; dsimp only; split <;> rfl
@[simp] theorem gapNak_failCause (s : State) :
    (gapNak s).failCause = s.failCause := by unfold gapNak; dsimp only; split <;> rfl
@[simp] theorem gapNak_counters (s : State) :
    (gapNak s).counters = s.counters := by unfold gapNak; dsimp only; split <;> rfl
@[simp] theorem gapNak_cfg (s : State) : (gapNak s).cfg = s.cfg := by unfold gapNak; dsimp only; split <;> rfl
@[simp] theorem gapNak_slots (s : State) : (gapNak s).slots = s.slots := by unfold gapNak; dsimp only; split <;> rfl
@[simp] theorem gapNak_reord (s : State) : (gapNak s).reord = s.reord := by unfold gapNak; dsimp only; split <;> rfl
@[simp] theorem gapNak_slotMem (s : State) :
    (gapNak s).slotMem = s.slotMem := by unfold gapNak; dsimp only; split <;> rfl
@[simp] theorem gapNak_reordMem (s : State) :
    (gapNak s).reordMem = s.reordMem := by unfold gapNak; dsimp only; split <;> rfl
@[simp] theorem gapNak_rxbuf (s : State) : (gapNak s).rxbuf = s.rxbuf := by unfold gapNak; dsimp only; split <;> rfl
@[simp] theorem gapNak_inputs (s : State) :
    (gapNak s).inputs = s.inputs := by unfold gapNak; dsimp only; split <;> rfl
@[simp] theorem gapNak_resetEpoch (s : State) :
    (gapNak s).resetEpoch = s.resetEpoch := by unfold gapNak; dsimp only; split <;> rfl

/-! `settleSizes` -/
@[simp] theorem settleSizes_win (win k : Byte) (s : State) : (settleSizes win k s).win = s.win := rfl
@[simp] theorem settleSizes_pstate (win k : Byte) (s : State) : (settleSizes win k s).pstate = s.pstate := rfl
@[simp] theorem settleSizes_pend (win k : Byte) (s : State) : (settleSizes win k s).pend = s.pend := rfl
@[simp] theorem settleSizes_failCause (win k : Byte) (s : State) :
    (settleSizes win k s).failCause = s.failCause := rfl
@[simp] theorem settleSizes_flags (win k : Byte) (s : State) :
    (settleSizes win k s).flags = { s.flags with gotSync := true } := rfl
@[simp] theorem settleSizes_counters (win k : Byte) (s : State) : (settleSizes win k s).counters = s.counters := rfl
@[simp] theorem settleSizes_stats (win k : Byte) (s : State) : (settleSizes win k s).stats = s.stats := rfl
@[simp] theorem settleSizes_cfg (win k : Byte) (s : State) : (settleSizes win k s).cfg = s.cfg := rfl
@[simp] theorem settleSizes_slots (win k : Byte) (s : State) : (settleSizes win k s).slots = s.slots := rfl
@[simp] theorem settleSizes_reord (win k : Byte) (s : State) : (settleSizes win k s).reord = s.reord := rfl
@[simp] theorem settleSizes_slotMem (win k : Byte) (s : State) : (settleSizes win k s).slotMem = s.slotMem := rfl
@[simp] theorem settleSizes_reordMem (win k : Byte) (s : State) : (settleSizes win k s).reordMem = s.reordMem := rfl
@[simp] theorem settleSizes_rxbuf (win k : Byte) (s : State) : (settleSizes win k s).rxbuf = s.rxbuf := rfl
@[simp] theorem settleSizes_inputs (win k : Byte) (s : State) : (settleSizes win k s).inputs = s.inputs := rfl
@[simp] theorem settleSizes_out (win k : Byte) (s : State) : (settleSizes win k s).out = s.out := rfl
@[simp] theorem settleSizes_resetEpoch (win k : Byte) (s : State) :
    (settleSizes win k s).resetEpoch = s.resetEpoch := rfl

/-! `finishHandshake` -/
@[simp] theorem finishHandshake_win (s : State) :
    (finishHandshake s).win = s.win := by unfold finishHandshake; split <;> rfl
@[simp] theorem finishHandshake_sizes (s : State) :
    (finishHandshake s).sizes = s.sizes := by unfold finishHandshake; split <;> rfl
@[simp] theorem finishHandshake_pend (s : State) :
    (finishHandshake s).pend = s.pend := by unfold finishHandshake; split <;> rfl
@[simp] theorem finishHandshake_failCause (s : State) :
    (finishHandshake s).failCause = s.failCause := by unfold finishHandshake; split <;> rfl
@[simp] theorem finishHandshake_flags (s : State) :
    (finishHandshake s).flags = s.flags := by unfold finishHandshake; split <;> rfl
@[simp] theorem finishHandshake_stats (s : State) :
    (finishHandshake s).stats = s.stats := by unfold finishHandshake; split <;> rfl
@[simp] theorem finishHandshake_cfg (s : State) :
    (finishHandshake s).cfg = s.cfg := by unfold finishHandshake; split <;> rfl
@[simp] theorem finishHandshake_slots (s : State) :
    (finishHandshake s).slots = s.slots := by unfold finishHandshake; split <;> rfl
@[simp] theorem finishHandshake_reord (s : State) :
    (finishHandshake s).reord = s.reord := by unfold finishHandshake; split <;> rfl
@[simp] theorem finishHandshake_slotMem (s : State) :
    (finishHandshake s).slotMem = s.slotMem := by unfold finishHandshake; split <;> rfl
@[simp] theorem finishHandshake_reordMem (s : State) :
    (finishHandshake s).reordMem = s.reordMem := by unfold finishHandshake; split <;> rfl
@[simp] theorem finishHandshake_rxbuf (s : State) :
    (finishHandshake s).rxbuf = s.rxbuf := by unfold finishHandshake; split <;> rfl
@[simp] theorem finishHandshake_inputs (s : State) :
    (finishHandshake s).inputs = s.inputs := by unfold finishHandshake; split <;> rfl
@[simp] theorem finishHandshake_out (s : State) :
    (finishHandshake s).out = s.out := by unfold finishHandshake; split <;> rfl
@[simp] theorem finishHandshake_resetEpoch (s : State) :
    (finishHandshake s).resetEpoch = s.resetEpoch := by unfold finishHandshake; split <;> rfl

/-! `requestSync` -/
@[simp] theorem requestSync_win (s : State) : (requestSync s).win = s.win := by unfold requestSync; simp
@[simp] theorem requestSync_sizes (s : State) : (requestSync s).sizes = s.sizes := by unfold requestSync; simp
@[simp] theorem requestSync_pend (s : State) : (requestSync s).pend = s.pend := by unfold requestSync; simp
@[simp] theorem requestSync_failCause (s : State) :
    (requestSync s).failCause = s.failCause := by unfold requestSync; simp
@[simp] theorem requestSync_flags (s : State) :
    (requestSync s).flags = { s.flags with sentSync := true } := by unfold requestSync; simp
@[simp] theorem requestSync_stats (s : State) :
    (requestSync s).stats = { s.stats with tx := satInc s.stats.tx } := by unfold requestSync; simp
@[simp] theorem requestSync_cfg (s : State) : (requestSync s).cfg = s.cfg := by unfold requestSync; simp
@[simp] theorem requestSync_slots (s : State) : (requestSync s).slots = s.slots := by unfold requestSync; simp
@[simp] theorem requestSync_reord (s : State) : (requestSync s).reord = s.reord := by unfold requestSync; simp
@[simp] theorem requestSync_slotMem (s : State) : (requestSync s).slotMem = s.slotMem := by unfold requestSync; simp
@[simp] theorem requestSync_reordMem (s : State) :
    (requestSync s).reordMem = s.reordMem := by unfold requestSync; simp
@[simp] theorem requestSync_rxbuf (s : State) : (requestSync s).rxbuf = s.rxbuf := by unfold requestSync; simp
@[simp] theorem requestSync_inputs (s : State) : (requestSync s).inputs = s.inputs := by unfold requestSync; simp
@[simp] theorem requestSync_out (s : State) :
    (requestSync s).out = s.out ++ [.tx (s.syncImage false)] := by unfold requestSync; simp
@[simp] theorem requestSync_resetEpoch (s : State) :
    (requestSync s).resetEpoch = s.resetEpoch := by unfold requestSync; simp

/-! `getBufOp` -/
@[simp] theorem getBufOp_win (s : State) : (getBufOp s).win = { s.win with bufSlot := s.win.nextSeq } := rfl
@[simp] theorem getBufOp_sizes (s : State) : (getBufOp s).sizes = s.sizes := rfl
@[simp] theorem getBufOp_pstate (s : State) : (getBufOp s).pstate = s.pstate := rfl
@[simp] theorem getBufOp_pend (s : State) : (getBufOp s).pend = s.pend := rfl
@[simp] theorem getBufOp_failCause (s : State) : (getBufOp s).failCause = s.failCause := rfl
@[simp] theorem getBufOp_flags (s : State) : (getBufOp s).flags = { s.flags with bufOwned := true } := rfl
@[simp] theorem getBufOp_counters (s : State) : (getBufOp s).counters = s.counters := rfl
@[simp] theorem getBufOp_stats (s : State) : (getBufOp s).stats = s.stats := rfl
@[simp] theorem getBufOp_cfg (s : State) : (getBufOp s).cfg = s.cfg := rfl
@[simp] theorem getBufOp_slots (s : State) : (getBufOp s).slots = s.slots := rfl
@[simp] theorem getBufOp_reord (s : State) : (getBufOp s).reord = s.reord := rfl
@[simp] theorem getBufOp_slotMem (s : State) : (getBufOp s).slotMem = s.slotMem := rfl
@[simp] theorem getBufOp_reordMem (s : State) : (getBufOp s).reordMem = s.reordMem := rfl
@[simp] theorem getBufOp_rxbuf (s : State) : (getBufOp s).rxbuf = s.rxbuf := rfl
@[simp] theorem getBufOp_inputs (s : State) : (getBufOp s).inputs = s.inputs := rfl
@[simp] theorem getBufOp_resetEpoch (s : State) : (getBufOp s).resetEpoch = s.resetEpoch := rfl

/-! `fillSlot` -/
@[simp] theorem fillSlot_win (eom : Bool) (lch rch : Channel) (len : BitVec 12) (s : State) :
    (fillSlot eom lch rch len s).win = s.win := rfl
@[simp] theorem fillSlot_sizes (eom : Bool) (lch rch : Channel) (len : BitVec 12) (s : State) :
    (fillSlot eom lch rch len s).sizes = s.sizes := rfl
@[simp] theorem fillSlot_pstate (eom : Bool) (lch rch : Channel) (len : BitVec 12) (s : State) :
    (fillSlot eom lch rch len s).pstate = s.pstate := rfl
@[simp] theorem fillSlot_pend (eom : Bool) (lch rch : Channel) (len : BitVec 12) (s : State) :
    (fillSlot eom lch rch len s).pend = .sendData := rfl
@[simp] theorem fillSlot_failCause (eom : Bool) (lch rch : Channel) (len : BitVec 12) (s : State) :
    (fillSlot eom lch rch len s).failCause = s.failCause := rfl
@[simp] theorem fillSlot_flags (eom : Bool) (lch rch : Channel) (len : BitVec 12) (s : State) :
    (fillSlot eom lch rch len s).flags = { s.flags with bufOwned := false } := rfl
@[simp] theorem fillSlot_counters (eom : Bool) (lch rch : Channel) (len : BitVec 12) (s : State) :
    (fillSlot eom lch rch len s).counters = { s.counters with retry := 0 } := rfl
@[simp] theorem fillSlot_stats (eom : Bool) (lch rch : Channel) (len : BitVec 12) (s : State) :
    (fillSlot eom lch rch len s).stats = s.stats := rfl
@[simp] theorem fillSlot_cfg (eom : Bool) (lch rch : Channel) (len : BitVec 12) (s : State) :
    (fillSlot eom lch rch len s).cfg = s.cfg := rfl
@[simp] theorem fillSlot_slots (eom : Bool) (lch rch : Channel) (len : BitVec 12) (s : State) :
    (fillSlot eom lch rch len s).slots = setEntry s.slots s.win.nextSeq { inuse := true, lch := lch, rch := rch, eom := eom, len := len.setWidth 11 } := rfl
@[simp] theorem fillSlot_reord (eom : Bool) (lch rch : Channel) (len : BitVec 12) (s : State) :
    (fillSlot eom lch rch len s).reord = s.reord := rfl
@[simp] theorem fillSlot_slotMem (eom : Bool) (lch rch : Channel) (len : BitVec 12) (s : State) :
    (fillSlot eom lch rch len s).slotMem = s.slotMem := rfl
@[simp] theorem fillSlot_reordMem (eom : Bool) (lch rch : Channel) (len : BitVec 12) (s : State) :
    (fillSlot eom lch rch len s).reordMem = s.reordMem := rfl
@[simp] theorem fillSlot_rxbuf (eom : Bool) (lch rch : Channel) (len : BitVec 12) (s : State) :
    (fillSlot eom lch rch len s).rxbuf = s.rxbuf := rfl
@[simp] theorem fillSlot_inputs (eom : Bool) (lch rch : Channel) (len : BitVec 12) (s : State) :
    (fillSlot eom lch rch len s).inputs = s.inputs := rfl
@[simp] theorem fillSlot_out (eom : Bool) (lch rch : Channel) (len : BitVec 12) (s : State) :
    (fillSlot eom lch rch len s).out = s.out := rfl
@[simp] theorem fillSlot_resetEpoch (eom : Bool) (lch rch : Channel) (len : BitVec 12) (s : State) :
    (fillSlot eom lch rch len s).resetEpoch = s.resetEpoch := rfl

/-! `waitOp` -/
@[simp] theorem waitOp_win (s : State) : (waitOp s).win = s.win := rfl
@[simp] theorem waitOp_sizes (s : State) : (waitOp s).sizes = s.sizes := rfl
@[simp] theorem waitOp_pstate (s : State) : (waitOp s).pstate = s.pstate := rfl
@[simp] theorem waitOp_pend (s : State) : (waitOp s).pend = .wait := rfl
@[simp] theorem waitOp_failCause (s : State) : (waitOp s).failCause = s.failCause := rfl
@[simp] theorem waitOp_flags (s : State) : (waitOp s).flags = { s.flags with eomSeen := false } := rfl
@[simp] theorem waitOp_counters (s : State) : (waitOp s).counters = { s.counters with retry := 0 } := rfl
@[simp] theorem waitOp_stats (s : State) : (waitOp s).stats = s.stats := rfl
@[simp] theorem waitOp_cfg (s : State) : (waitOp s).cfg = s.cfg := rfl
@[simp] theorem waitOp_slots (s : State) : (waitOp s).slots = s.slots := rfl
@[simp] theorem waitOp_reord (s : State) : (waitOp s).reord = s.reord := rfl
@[simp] theorem waitOp_slotMem (s : State) : (waitOp s).slotMem = s.slotMem := rfl
@[simp] theorem waitOp_reordMem (s : State) : (waitOp s).reordMem = s.reordMem := rfl
@[simp] theorem waitOp_rxbuf (s : State) : (waitOp s).rxbuf = s.rxbuf := rfl
@[simp] theorem waitOp_inputs (s : State) : (waitOp s).inputs = s.inputs := rfl
@[simp] theorem waitOp_out (s : State) : (waitOp s).out = s.out := rfl
@[simp] theorem waitOp_resetEpoch (s : State) : (waitOp s).resetEpoch = s.resetEpoch := rfl

/-! `releaseBuffers` -/
@[simp] theorem releaseBuffers_win (s : State) : (releaseBuffers s).win = s.win := rfl
@[simp] theorem releaseBuffers_sizes (s : State) : (releaseBuffers s).sizes = s.sizes := rfl
@[simp] theorem releaseBuffers_pstate (s : State) : (releaseBuffers s).pstate = s.pstate := rfl
@[simp] theorem releaseBuffers_pend (s : State) : (releaseBuffers s).pend = s.pend := rfl
@[simp] theorem releaseBuffers_failCause (s : State) : (releaseBuffers s).failCause = s.failCause := rfl
@[simp] theorem releaseBuffers_flags (s : State) :
    (releaseBuffers s).flags = { s.flags with bufOwned := false } := rfl
@[simp] theorem releaseBuffers_counters (s : State) : (releaseBuffers s).counters = s.counters := rfl
@[simp] theorem releaseBuffers_stats (s : State) : (releaseBuffers s).stats = s.stats := rfl
@[simp] theorem releaseBuffers_cfg (s : State) : (releaseBuffers s).cfg = s.cfg := rfl
@[simp] theorem releaseBuffers_slots (s : State) :
    (releaseBuffers s).slots = s.slots.map fun e => { e with inuse := false } := rfl
@[simp] theorem releaseBuffers_reord (s : State) :
    (releaseBuffers s).reord = s.reord.map fun e => { e with valid := false } := rfl
@[simp] theorem releaseBuffers_slotMem (s : State) : (releaseBuffers s).slotMem = s.slotMem := rfl
@[simp] theorem releaseBuffers_reordMem (s : State) : (releaseBuffers s).reordMem = s.reordMem := rfl
@[simp] theorem releaseBuffers_rxbuf (s : State) : (releaseBuffers s).rxbuf = [] := rfl
@[simp] theorem releaseBuffers_inputs (s : State) : (releaseBuffers s).inputs = s.inputs := rfl
@[simp] theorem releaseBuffers_out (s : State) : (releaseBuffers s).out = s.out := rfl
@[simp] theorem releaseBuffers_resetEpoch (s : State) : (releaseBuffers s).resetEpoch = s.resetEpoch := rfl

/-! `countTimeout` -/
@[simp] theorem countTimeout_win (s : State) : (countTimeout s).win = s.win := rfl
@[simp] theorem countTimeout_sizes (s : State) : (countTimeout s).sizes = s.sizes := rfl
@[simp] theorem countTimeout_pstate (s : State) : (countTimeout s).pstate = s.pstate := rfl
@[simp] theorem countTimeout_pend (s : State) : (countTimeout s).pend = s.pend := rfl
@[simp] theorem countTimeout_failCause (s : State) : (countTimeout s).failCause = s.failCause := rfl
@[simp] theorem countTimeout_flags (s : State) : (countTimeout s).flags = s.flags := rfl
@[simp] theorem countTimeout_counters (s : State) :
    (countTimeout s).counters = { s.counters with retry := s.counters.retry + 1 } := rfl
@[simp] theorem countTimeout_stats (s : State) :
    (countTimeout s).stats = { s.stats with timeout := satInc s.stats.timeout } := rfl
@[simp] theorem countTimeout_cfg (s : State) : (countTimeout s).cfg = s.cfg := rfl
@[simp] theorem countTimeout_slots (s : State) : (countTimeout s).slots = s.slots := rfl
@[simp] theorem countTimeout_reord (s : State) : (countTimeout s).reord = s.reord := rfl
@[simp] theorem countTimeout_slotMem (s : State) : (countTimeout s).slotMem = s.slotMem := rfl
@[simp] theorem countTimeout_reordMem (s : State) : (countTimeout s).reordMem = s.reordMem := rfl
@[simp] theorem countTimeout_rxbuf (s : State) : (countTimeout s).rxbuf = s.rxbuf := rfl
@[simp] theorem countTimeout_inputs (s : State) : (countTimeout s).inputs = s.inputs := rfl
@[simp] theorem countTimeout_out (s : State) : (countTimeout s).out = s.out := rfl
@[simp] theorem countTimeout_resetEpoch (s : State) : (countTimeout s).resetEpoch = s.resetEpoch := rfl

/-! `rearmNak` -/
@[simp] theorem rearmNak_win (s : State) : (rearmNak s).win = s.win := rfl
@[simp] theorem rearmNak_sizes (s : State) : (rearmNak s).sizes = s.sizes := rfl
@[simp] theorem rearmNak_pstate (s : State) : (rearmNak s).pstate = s.pstate := rfl
@[simp] theorem rearmNak_pend (s : State) : (rearmNak s).pend = s.pend := rfl
@[simp] theorem rearmNak_failCause (s : State) : (rearmNak s).failCause = s.failCause := rfl
@[simp] theorem rearmNak_flags (s : State) : (rearmNak s).flags = { s.flags with nakedValid := false } := rfl
@[simp] theorem rearmNak_counters (s : State) : (rearmNak s).counters = s.counters := rfl
@[simp] theorem rearmNak_stats (s : State) : (rearmNak s).stats = s.stats := rfl
@[simp] theorem rearmNak_cfg (s : State) : (rearmNak s).cfg = s.cfg := rfl
@[simp] theorem rearmNak_slots (s : State) : (rearmNak s).slots = s.slots := rfl
@[simp] theorem rearmNak_reord (s : State) : (rearmNak s).reord = s.reord := rfl
@[simp] theorem rearmNak_slotMem (s : State) : (rearmNak s).slotMem = s.slotMem := rfl
@[simp] theorem rearmNak_reordMem (s : State) : (rearmNak s).reordMem = s.reordMem := rfl
@[simp] theorem rearmNak_rxbuf (s : State) : (rearmNak s).rxbuf = s.rxbuf := rfl
@[simp] theorem rearmNak_inputs (s : State) : (rearmNak s).inputs = s.inputs := rfl
@[simp] theorem rearmNak_out (s : State) : (rearmNak s).out = s.out := rfl
@[simp] theorem rearmNak_resetEpoch (s : State) : (rearmNak s).resetEpoch = s.resetEpoch := rfl

/-! `resetBlock` -/
@[simp] theorem resetBlock_win (s : State) : (resetBlock s).win = State.reset.win := rfl
@[simp] theorem resetBlock_sizes (s : State) : (resetBlock s).sizes = State.reset.sizes := rfl
@[simp] theorem resetBlock_pstate (s : State) : (resetBlock s).pstate = State.reset.pstate := rfl
@[simp] theorem resetBlock_pend (s : State) : (resetBlock s).pend = State.reset.pend := rfl
@[simp] theorem resetBlock_failCause (s : State) : (resetBlock s).failCause = State.reset.failCause := rfl
@[simp] theorem resetBlock_flags (s : State) : (resetBlock s).flags = State.reset.flags := rfl
@[simp] theorem resetBlock_counters (s : State) : (resetBlock s).counters = State.reset.counters := rfl
@[simp] theorem resetBlock_stats (s : State) : (resetBlock s).stats = State.reset.stats := rfl
@[simp] theorem resetBlock_cfg (s : State) : (resetBlock s).cfg = State.reset.cfg := rfl
@[simp] theorem resetBlock_slots (s : State) : (resetBlock s).slots = State.reset.slots := rfl
@[simp] theorem resetBlock_reord (s : State) : (resetBlock s).reord = State.reset.reord := rfl
@[simp] theorem resetBlock_slotMem (s : State) : (resetBlock s).slotMem = State.reset.slotMem := rfl
@[simp] theorem resetBlock_reordMem (s : State) : (resetBlock s).reordMem = State.reset.reordMem := rfl
@[simp] theorem resetBlock_rxbuf (s : State) : (resetBlock s).rxbuf = State.reset.rxbuf := rfl
@[simp] theorem resetBlock_inputs (s : State) : (resetBlock s).inputs = s.inputs := rfl
@[simp] theorem resetBlock_out (s : State) : (resetBlock s).out = s.out := rfl
@[simp] theorem resetBlock_resetEpoch (s : State) : (resetBlock s).resetEpoch = s.resetEpoch + 1 := rfl

/-! `refuseConfig` -/
@[simp] theorem refuseConfig_win (s : State) : (refuseConfig s).win = s.win := rfl
@[simp] theorem refuseConfig_sizes (s : State) : (refuseConfig s).sizes = s.sizes := rfl
@[simp] theorem refuseConfig_pstate (s : State) : (refuseConfig s).pstate = s.pstate := rfl
@[simp] theorem refuseConfig_pend (s : State) : (refuseConfig s).pend = s.pend := rfl
@[simp] theorem refuseConfig_failCause (s : State) : (refuseConfig s).failCause = s.failCause := rfl
@[simp] theorem refuseConfig_flags (s : State) : (refuseConfig s).flags = { s.flags with cfgErr := true } := rfl
@[simp] theorem refuseConfig_counters (s : State) : (refuseConfig s).counters = s.counters := rfl
@[simp] theorem refuseConfig_stats (s : State) : (refuseConfig s).stats = s.stats := rfl
@[simp] theorem refuseConfig_cfg (s : State) : (refuseConfig s).cfg = s.cfg := rfl
@[simp] theorem refuseConfig_slots (s : State) : (refuseConfig s).slots = s.slots := rfl
@[simp] theorem refuseConfig_reord (s : State) : (refuseConfig s).reord = s.reord := rfl
@[simp] theorem refuseConfig_slotMem (s : State) : (refuseConfig s).slotMem = s.slotMem := rfl
@[simp] theorem refuseConfig_reordMem (s : State) : (refuseConfig s).reordMem = s.reordMem := rfl
@[simp] theorem refuseConfig_rxbuf (s : State) : (refuseConfig s).rxbuf = s.rxbuf := rfl
@[simp] theorem refuseConfig_inputs (s : State) : (refuseConfig s).inputs = s.inputs := rfl
@[simp] theorem refuseConfig_out (s : State) : (refuseConfig s).out = s.out := rfl
@[simp] theorem refuseConfig_resetEpoch (s : State) : (refuseConfig s).resetEpoch = s.resetEpoch := rfl

/-! `State.emitted` -/
@[simp] theorem State.emitted_win (s : State) (e : OutEvent) : (s.emitted e).win = s.win := rfl
@[simp] theorem State.emitted_sizes (s : State) (e : OutEvent) : (s.emitted e).sizes = s.sizes := rfl
@[simp] theorem State.emitted_pstate (s : State) (e : OutEvent) : (s.emitted e).pstate = s.pstate := rfl
@[simp] theorem State.emitted_pend (s : State) (e : OutEvent) : (s.emitted e).pend = s.pend := rfl
@[simp] theorem State.emitted_failCause (s : State) (e : OutEvent) : (s.emitted e).failCause = s.failCause := rfl
@[simp] theorem State.emitted_flags (s : State) (e : OutEvent) : (s.emitted e).flags = s.flags := rfl
@[simp] theorem State.emitted_counters (s : State) (e : OutEvent) : (s.emitted e).counters = s.counters := rfl
@[simp] theorem State.emitted_stats (s : State) (e : OutEvent) : (s.emitted e).stats = s.stats := rfl
@[simp] theorem State.emitted_cfg (s : State) (e : OutEvent) : (s.emitted e).cfg = s.cfg := rfl
@[simp] theorem State.emitted_slots (s : State) (e : OutEvent) : (s.emitted e).slots = s.slots := rfl
@[simp] theorem State.emitted_reord (s : State) (e : OutEvent) : (s.emitted e).reord = s.reord := rfl
@[simp] theorem State.emitted_slotMem (s : State) (e : OutEvent) : (s.emitted e).slotMem = s.slotMem := rfl
@[simp] theorem State.emitted_reordMem (s : State) (e : OutEvent) : (s.emitted e).reordMem = s.reordMem := rfl
@[simp] theorem State.emitted_rxbuf (s : State) (e : OutEvent) : (s.emitted e).rxbuf = s.rxbuf := rfl
@[simp] theorem State.emitted_inputs (s : State) (e : OutEvent) : (s.emitted e).inputs = s.inputs := rfl
@[simp] theorem State.emitted_out (s : State) (e : OutEvent) : (s.emitted e).out = s.out ++ [e] := rfl
@[simp] theorem State.emitted_resetEpoch (s : State) (e : OutEvent) : (s.emitted e).resetEpoch = s.resetEpoch := rfl

end Sys2Proof.Machine
end

