-- ==== Sys2Proof/Laws/Ops.lean ====
section
/-! SUPPORT. What each shared operation can do, said once. A proof about a step cites these cases and the induction
principles of the loops, and unfolds no operation. -/

namespace Sys2Proof.Machine

open Sys2Proof

/-! ### Endings of commands, failure -/

/-- `endPending` answers the pending command and ends it, or does nothing where none is pending. -/
theorem endPending_eq (st : Status) (s : State) :
    endPending st s =
      { s with
        pend := .none
        out := s.out ++ if s.pend = .none then [] else [.rsp (rspWord s.pend.op st 0 0 0)] } := by
  obtain ⟨_, _, _, pend⟩ := s
  cases pend <;> simp [endPending, respond, emit, *]

/-- `endPending` where no command is pending. -/
theorem endPending_of_none {st : Status} {s : State} (h : s.pend = .none) : endPending st s = s := by
  unfold endPending; rw [h]

/-! ### Acks and rejects -/

/-- `onAck` either advances to an outstanding packet or does nothing (R165). -/
theorem onAck_cases (a : SeqNum) (s : State) :
    (s.win.ackValid a = true ∧ onAck a s = (true, advanceAcked a (rotationEvent a s))) ∨
      (s.win.ackValid a = false ∧ onAck a s = (false, s)) := by
  unfold onAck
  cases h : s.win.ackValid a <;> simp

theorem WindowRegs.ackValid_iff (w : WindowRegs) (a : SeqNum) : w.ackValid a = true ↔ w.isOutstanding a := by
  simp [WindowRegs.ackValid, WindowRegs.isOutstanding]

/-- `onAck` does what `AckApplied` says (R165, R166). -/
theorem ackApplied_onAck (a : SeqNum) (s : State) : AckApplied a s (onAck a s).2 := by
  rcases onAck_cases a s with ⟨hv, h⟩ | ⟨hv, h⟩ <;> rw [h]
  · refine ⟨fun _ => ⟨fun q => ?_, ?_⟩, fun hn => absurd ((WindowRegs.ackValid_iff _ _).mp hv) hn⟩
    · simp only [State.slot, advanceAcked_slots, rotationEvent_slots, rotationEvent_win]
      exact entryAt_releaseSlots _ _ _ _
    · have hlt : (a < s.win.lastAcked) ↔ a.toNat < s.win.lastAcked.toNat := Iff.rfl
      have hd : ∀ x y : SeqNum, (!decide (x ≤ y)) = decide (y < x) := by decide +kernel
      simp only [advanceAcked, rotationEvent, emit, hlt, hd, seqSucc]
      split <;> simp
  · exact ⟨fun ho => absurd ((WindowRegs.ackValid_iff _ _).mpr ho) (by simp [hv]), fun _ => rfl⟩

/-- What `AckApplied` says determines the state after the ack. -/
theorem AckApplied.unique {a : SeqNum} {s u v : State} (hu : AckApplied a s u) (hv : AckApplied a s v) : u = v := by
  by_cases h : s.win.isOutstanding a
  · obtain ⟨hus, hue⟩ := hu.1 h
    obtain ⟨hvs, hve⟩ := hv.1 h
    have hs : u.slots = v.slots := by
      ext1 i hi
      exact (hus (BitVec.ofFin ⟨i, hi⟩)).trans (hvs (BitVec.ofFin ⟨i, hi⟩)).symm
    rw [hue, hve, hs]
  · rw [hu.2 h, hv.2 h]

/-- `onReject` does nothing, or acts as an ack, or sets the retransmit point after acting as an ack (R169). -/
theorem onReject_cases (rs : SeqNum) (s : State) :
    onReject rs s = s ∨ onReject rs s = (onAck rs s).2 ∨
      (s.win.outstanding ≠ 0 ∧ onReject rs s = markReject (seqSucc rs) s) ∨
      ((onAck rs s).2.win.outstanding ≠ 0 ∧ onReject rs s = markReject (seqSucc rs) (onAck rs s).2) := by
  unfold onReject
  split
  · exact .inl rfl
  · by_cases h : dist rs s.win.lastAcked = 0
    · simp only [h, if_true]
      split
      · exact .inl rfl
      · rename_i hn; exact .inr (.inr (.inl ⟨hn, rfl⟩))
    · simp only [h, if_false]
      split
      · exact .inr (.inl rfl)
      · rename_i hn; exact .inr (.inr (.inr ⟨hn, rfl⟩))

/-! ### The handshake -/

/-- `finishHandshake` makes the block `READY` and restores the retry budget, or does nothing (R29, R238). -/
theorem finishHandshake_cases (s : State) :
    (s.pstate = .negotiating ∧ s.flags.sentSync = true ∧ s.flags.gotSync = true ∧
      finishHandshake s = { s with pstate := .ready, counters := { s.counters with retry := 0 } }) ∨
      (¬(s.pstate = .negotiating ∧ s.flags.sentSync = true ∧ s.flags.gotSync = true) ∧ finishHandshake s = s) := by
  unfold finishHandshake
  split
  · rename_i h; exact .inl ⟨h.1, h.2.1, h.2.2, rfl⟩
  · exact .inr ⟨‹_›, rfl⟩

/-- `requestSync` in `NEGOTIATING`: the request goes out, and the handshake is complete where a SYNC was accepted. -/
theorem requestSync_eq {s : State} (h : s.pstate = .negotiating) :
    requestSync s =
      { transmitSync false s with
        pstate := if s.flags.gotSync then .ready else .negotiating
        counters := { s.counters with retry := if s.flags.gotSync then 0 else s.counters.retry } } := by
  obtain ⟨_, _, _, _, _, flags⟩ := s
  subst h
  cases hg : flags.gotSync <;>
    simp [requestSync, finishHandshake, transmitSync, transmit, emit, hg]

/-! ### Errors -/

/-- The fallback halves the size or fails (R312). -/
theorem fallbackOrFail_cases (s : State) :
    (Config.kMin < s.sizes.lpktK.toNat ∧
      fallbackOrFail s =
        requestSync
          (emit (.evt (.fellBack (s.sizes.lpktK - 1)))
            { s with
              sizes :=
                { s.sizes with
                  lpktK := s.sizes.lpktK - 1
                  negPktK :=
                    if s.flags.gotSync then classMin (s.sizes.lpktK - 1) s.sizes.rpktK else s.sizes.negPktK }
              counters := { s.counters with errcnt := 0 } })) ∨
      (s.sizes.lpktK.toNat ≤ Config.kMin ∧ fallbackOrFail s = raiseFatal .negErrLimit s) := by
  unfold fallbackOrFail
  split
  · exact .inl ⟨‹_›, rfl⟩
  · exact .inr ⟨by omega, rfl⟩

/-- `countError` counts, and then may fall back in `NEGOTIATING` or fail in `READY` (R310, R311). -/
theorem countError_cases (kind : ErrKind) (s : State) :
    countError kind s = tallyError kind s ∨
      (s.pstate = .negotiating ∧ countError kind s = fallbackOrFail (tallyError kind s)) ∨
      (s.pstate = .ready ∧ countError kind s = raiseFatal .errLimit (tallyError kind s)) := by
  unfold countError
  simp only [tallyError_pstate]
  cases s.pstate <;> dsimp only
  case negotiating => split <;> simp
  case ready => split <;> simp
  all_goals exact .inl rfl

/-- Outside `NEGOTIATING` and `READY` an error is only counted (R311). -/
theorem countError_of_off {kind : ErrKind} {s : State} (h : s.decoderOn = false) :
    countError kind s = tallyError kind s := by
  unfold countError State.decoderOn at *
  simp only [tallyError_pstate]
  cases hp : s.pstate <;> simp_all

/-! ### Loops -/

/-- What each round of `drain` keeps, `drain` keeps (R234). -/
theorem drain_keeps {P : State → Prop}
    (round : ∀ s, (s.reordAt (seqSucc s.win.lastRecv)).valid = true → P s →
      P (drainOne (seqSucc s.win.lastRecv) s))
    (n : Nat) (s : State) (h : P s) : P (drain n s) := by
  induction n generalizing s with
  | zero => exact h
  | succ n ih =>
    unfold drain
    split
    · exact ih _ (round s ‹_› h)
    · exact h

/-- What each round of `pumpRetx` keeps, `pumpRetx` keeps (R268). -/
theorem pumpRetx_keeps {P : State → Prop}
    (round : ∀ s, s.win.nextRetx ≠ s.win.nextSeq → s.txAllowed s.win.nextRetx = true → P s → P (pumpOne s))
    (n : Nat) (s : State) (h : P s) : P (pumpRetx n s) := by
  induction n generalizing s with
  | zero => exact h
  | succ n ih =>
    unfold pumpRetx
    split
    · rename_i hc; exact ih _ (round s hc.1 hc.2 h)
    · exact h

/-- With nothing queued for retransmission `pumpRetx` does nothing. -/
theorem pumpRetx_of_none {s : State} (h : s.win.nextRetx = s.win.nextSeq) (n : Nat) : pumpRetx n s = s := by
  cases n with
  | zero => rfl
  | succ n => unfold pumpRetx; simp [h]

theorem gapNak_of_no_gap {s : State} (h : s.gap = false) : gapNak s = s := by
  unfold gapNak; simp [h]

theorem explicitAck_of_none {s : State} (h : s.flags.ackPending = false) : explicitAck s = s := by
  unfold explicitAck; simp [h]

/-- In a quiet state `service` transmits nothing (R263). -/
theorem service_of_quiet {s : State} (h : s.quiet) : service s = s := by
  unfold service
  rw [pumpRetx_of_none h.1, gapNak_of_no_gap ((State.gap_eq_false s).mpr h.2.1), explicitAck_of_none h.2.2]

/-- What the rounds of the pump, a NAK and an ACK keep, `service` keeps (R263). -/
theorem service_keeps {P : State → Prop} (round : ∀ s, P s → P (pumpOne s))
    (nak : ∀ s, s.gap = true → P s → P (gapNak s)) (ack : ∀ s, s.flags.ackPending = true → P s → P (transmitAck s))
    (s : State) (h : P s) : P (service s) := by
  have h1 : P (pumpRetx 32 s) := pumpRetx_keeps (fun t _ _ ht => round t ht) 32 s h
  have h2 : P (gapNak (pumpRetx 32 s)) := by
    cases hg : (pumpRetx 32 s).gap with
    | true => exact nak _ hg h1
    | false => rw [gapNak_of_no_gap hg]; exact h1
  unfold service explicitAck
  split
  · exact ack _ ‹_› h2
  · exact h2

/-! ### Packets -/

/-- A non-SYNC packet (R230, R242, R77). -/
theorem acceptNumbered_cases (ack : SeqNum) (own : Bool → State → State) (s : State) :
    (s.pstate = .negotiating ∧ acceptNumbered ack own s = goodPacket s) ∨
      (s.pstate = .ready ∧
        acceptNumbered ack own s =
          serviceIfReady (own (onAck ack (goodPacket s)).1 (onAck ack (goodPacket s)).2)) ∨
      (s.decoderOn = false ∧ acceptNumbered ack own s = s) := by
  unfold acceptNumbered State.decoderOn
  cases h : s.pstate <;> simp

/-- A SYNC (R230, R237, R239, R77). -/
theorem acceptSync_cases (f : Bool) (win k : Byte) (s : State) :
    (s.pstate = .negotiating ∧ acceptSync f win k s = handleSync f win k (goodPacket s)) ∨
      (s.pstate = .ready ∧ acceptSync f win k s = serviceIfReady (handleSync f win k (goodPacket s))) ∨
      (s.decoderOn = false ∧ acceptSync f win k s = s) := by
  unfold acceptSync State.decoderOn
  cases h : s.pstate <;> simp

/-- A SYNC is refused, or settles the sizes, is answered if it asks, and may finish the handshake (R237). -/
theorem handleSync_cases (f : Bool) (win k : Byte) (s : State) :
    ((win = 0 ∨ k.toNat < Config.kMin) ∧ handleSync f win k s = countError .hdrerr s) ∨
      (¬(win = 0 ∨ k.toNat < Config.kMin) ∧ f = true ∧
        handleSync f win k s = finishHandshake (settleSizes win k s)) ∨
      (¬(win = 0 ∨ k.toNat < Config.kMin) ∧ f = false ∧
        handleSync f win k s = finishHandshake (transmitSync true (settleSizes win k s))) := by
  unfold handleSync
  split
  · exact .inl ⟨‹_›, rfl⟩
  · cases f
    · exact .inr (.inr ⟨‹_›, rfl, rfl⟩)
    · exact .inr (.inl ⟨‹_›, rfl, rfl⟩)

/-- `onData` by the distance of the packet from `LAST_RECV` (R232), before the ACK it may owe. -/
theorem onData_cases (q : SeqNum) (lch rch : Channel) (eom : Bool) (p : List Byte) (s : State) :
    ∃ t, (onData q lch rch eom p s = t ∨ onData q lch rch eom p s = oweAck t) ∧
      ((dist q s.win.lastRecv = 1 ∧ t = onDataExpected q lch rch eom p s) ∨
        (2 ≤ dist q s.win.lastRecv ∧ dist q s.win.lastRecv ≤ s.sizes.lwin ∧ t = onDataAhead q lch rch eom p s) ∨
        t = oweAck s) := by
  unfold onData
  by_cases h1 : dist q s.win.lastRecv = 1
  · refine ⟨onDataExpected q lch rch eom p s, ?_, .inl ⟨h1, rfl⟩⟩
    simp only [h1, if_true]; split <;> simp
  · by_cases h2 : 2 ≤ dist q s.win.lastRecv ∧ dist q s.win.lastRecv ≤ s.sizes.lwin
    · refine ⟨onDataAhead q lch rch eom p s, ?_, .inr (.inl ⟨h2.1, h2.2, rfl⟩)⟩
      simp only [if_neg h1, if_pos h2]; split <;> simp
    · refine ⟨oweAck s, ?_, .inr (.inr rfl)⟩
      simp only [if_neg h1, if_neg h2]; split <;> simp

/-! ### Commands and completion -/

/-- A command is turned away `BUSY`, turned away `BAD_STATE`, or run (R115). -/
theorem command_cases (op : BitVec 4) (allowed : PState → Bool) (run : State → State) (s : State) :
    (s.pend ≠ .none ∧ command op allowed run s = respond op .busy s) ∨
      (s.pend = .none ∧ allowed s.pstate = false ∧ command op allowed run s = respond op .badState s) ∨
      (s.pend = .none ∧ allowed s.pstate = true ∧ command op allowed run s = run s) := by
  unfold command
  by_cases h : s.pend = .none
  · cases ha : allowed s.pstate <;> simp [h]
  · simp [h]

/-- At most one branch of the completion check fires (R210). -/
theorem completionCheck_cases (s : State) :
    completionCheck s = s ∨
      (s.pend = .start ∧ s.pstate = .ready ∧
        completionCheck s =
          { emit (.rsp (rspWord Pend.start.op .ok 0 s.sizes.rwin s.sizes.negPktK)) s with pend := .none }) ∨
      (s.pend = .wait ∧ s.flags.eomSeen = true ∧
        completionCheck s = { respond Pend.wait.op .ok s with pend := .none }) ∨
      (s.pend = .sendData ∧ s.pstate = .ready ∧ s.sendReady = true ∧
        completionCheck s = { respond Pend.sendData.op .ok (transmitNew s) with pend := .none }) := by
  unfold completionCheck
  cases h : s.pend <;> dsimp only
  · exact .inl rfl
  · split
    · exact .inr (.inl ⟨rfl, ‹_›, rfl⟩)
    · exact .inl rfl
  · split
    · rename_i hc; exact .inr (.inr (.inr ⟨rfl, hc.1, hc.2, rfl⟩))
    · exact .inl rfl
  · split
    · exact .inr (.inr (.inl ⟨rfl, ‹_›, rfl⟩))
    · exact .inl rfl

theorem completionCheck_of_none {s : State} (h : s.pend = .none) : completionCheck s = s := by
  unfold completionCheck; rw [h]

end Sys2Proof.Machine
end

