-- ==== Sys2Proof/Laws/PerInstr.lean ====
section
/-! SUPPORT. Statements made for every instruction, one lemma per constructor of `Instr`. -/

namespace Sys2Proof.Laws

open Sys2Proof Sys2Proof.Machine

/-- The length of the payload a packet carries (R90, R95, R103); 0 for a command. -/
def payloadLength : Instr → Nat
  | .data _ payload => payload.length
  | .sync _ _ _ => 2
  | .ack _ => 0
  | .nak _ => 0
  | .close _ => 0
  | .start _ => 0
  | .getBuf => 0
  | .sendData _ _ _ _ => 0
  | .wait => 0
  | .shutdown => 0
  | .file _ _ _ => 0

/-- The shape of an image: a packet begins with the lead-in and is six bytes of header, its payload and four bytes of
trailer (R90, R92); a command word carries its operation code in its low byte (R110, R111). -/
def imageShape (i : Instr) : Image → Prop
  | .packet bytes => isPacket i = true ∧ bytes.head? = some 0x07 ∧ bytes.length = 6 + payloadLength i + 4
  | .command w => isPacket i = false ∧ cmdOp w = (commandOp i).setWidth 8

/-- The family `ImageShape`: every instruction's image has the shape of its kind. -/
def ImageShape.Statement (i : Instr) : Prop := imageShape i (encode i)

theorem cmdOp_commandWord (len : BitVec 12) (rch lch : Channel) (flag : Bool) (op : BitVec 8) :
    cmdOp (commandWord len rch lch flag op) = op := by
  unfold cmdOp commandWord
  ext i hi
  simp only [BitVec.getElem_extractLsb', Nat.zero_add, BitVec.getLsbD_append, hi]
  exact BitVec.getLsbD_eq_getElem hi

theorem ImageShape.data (h : Hdr) (payload : List Byte) : ImageShape.Statement (.data h payload) :=
  ⟨rfl, encodePacket_head _ _ _, encodePacket_length _ _ _⟩

theorem ImageShape.sync (h : Hdr) (win k : Byte) : ImageShape.Statement (.sync h win k) :=
  ⟨rfl, encodePacket_head _ _ _, encodePacket_length _ _ _⟩

theorem ImageShape.ack (h : Hdr) : ImageShape.Statement (.ack h) :=
  ⟨rfl, encodePacket_head _ _ _, encodePacket_length _ _ _⟩

theorem ImageShape.nak (h : Hdr) : ImageShape.Statement (.nak h) :=
  ⟨rfl, encodePacket_head _ _ _, encodePacket_length _ _ _⟩

theorem ImageShape.close (h : Hdr) : ImageShape.Statement (.close h) :=
  ⟨rfl, encodePacket_head _ _ _, encodePacket_length _ _ _⟩

theorem ImageShape.start (role : Bool) : ImageShape.Statement (.start role) :=
  ⟨rfl, cmdOp_commandWord _ _ _ _ _⟩

theorem ImageShape.getBuf : ImageShape.Statement .getBuf := ⟨rfl, cmdOp_commandWord _ _ _ _ _⟩

theorem ImageShape.sendData (eom : Bool) (lch rch : Channel) (len : BitVec 12) :
    ImageShape.Statement (.sendData eom lch rch len) := ⟨rfl, cmdOp_commandWord _ _ _ _ _⟩

theorem ImageShape.wait : ImageShape.Statement .wait := ⟨rfl, cmdOp_commandWord _ _ _ _ _⟩

theorem ImageShape.shutdown : ImageShape.Statement .shutdown := ⟨rfl, cmdOp_commandWord _ _ _ _ _⟩

theorem ImageShape.file (flag : Bool) (lch rch : Channel) : ImageShape.Statement (.file flag lch rch) :=
  ⟨rfl, cmdOp_commandWord _ _ _ _ _⟩

end Sys2Proof.Laws
end

