-- ==== Sys2Proof/Laws/Receive.lean ====
section
/-! SUPPORT. The receive side and the step: what a step can do, and what every part of a step keeps, the step keeps. -/

namespace Sys2Proof.Machine

open Sys2Proof

/-! ### Results -/

@[simp] theorem andThen_next (s : State) (f : State → Result) : andThen (.next s) f = f s := rfl

@[simp] theorem andThen_refused (r : Refusal) (f : State → Result) : andThen (.refused r) f = .refused r := rfl

theorem andThen_assoc (o : Result) (f g : State → Result) :
    andThen (andThen o f) g = andThen o fun s => andThen (f s) g := by
  cases o <;> rfl

/-- Where `andThen` answers a next state, so does its first part. -/
theorem andThen_eq_next {o : Result} {f : State → Result} {t : State} (h : andThen o f = .next t) :
    ∃ s, o = .next s ∧ f s = .next t := by
  cases o with
  | next s => exact ⟨s, rfl, h⟩
  | fault r => cases h
  | refused r => cases h

/-! ### The decoder loop -/

/-- What `drop1`, the error accounting, the removal of a packet with its execution keep, the decoder loop keeps. -/
theorem decodeRounds_keeps {P : State → Prop} (drop : ∀ s, s.decoderOn = true → P s → P (drop1 s))
    (err : ∀ kind s, s.decoderOn = true → P s → P (countError kind s))
    (run : ∀ i s rest t, s.decoderOn = true → decodeFrame s.maxLen s.rxbuf = .packet i rest → P s →
      exec i { s with rxbuf := rest } = .next t → P t)
    (n : Nat) (s t : State) (hs : P s) (h : decodeRounds n s = .next t) : P t := by
  induction n generalizing s with
  | zero => cases h; exact hs
  | succ n ih =>
    unfold decodeRounds at h
    cases hon : s.decoderOn with
    | false => simp only [hon, Bool.false_eq_true, if_false] at h; cases h; exact hs
    | true =>
      simp only [hon, if_true] at h
      have hd : (drop1 s).decoderOn = true := hon
      cases hf : decodeFrame s.maxLen s.rxbuf with
      | incomplete => rw [hf] at h; cases h; exact hs
      | garbage => rw [hf] at h; exact ih _ (drop s hon hs) h
      | malformedHeader => rw [hf] at h; exact ih _ (err _ _ hd (drop s hon hs)) h
      | checksumMismatch => rw [hf] at h; exact ih _ (err _ _ hd (drop s hon hs)) h
      | packet i rest =>
        rw [hf] at h
        obtain ⟨u, hu, ht⟩ := andThen_eq_next h
        exact ih u (run i s rest u hon hf hs hu) ht

/-- What one byte through the decoder keeps, a chunk keeps (R77). -/
theorem feed_keeps {P : State → Prop}
    (byte : ∀ b s t, s.decoderOn = true → P s → decodeLoop { s with rxbuf := s.rxbuf ++ [b] } = .next t → P t)
    (chunk : List Byte) (s t : State) (hs : P s) (h : feed chunk s = .next t) : P t := by
  induction chunk generalizing s with
  | nil => cases h; exact hs
  | cons b chunk ih =>
    unfold feed at h
    cases hon : s.decoderOn with
    | false => simp only [hon, Bool.false_eq_true, if_false] at h; cases h; exact hs
    | true =>
      simp only [hon, if_true] at h
      obtain ⟨u, hu, ht⟩ := andThen_eq_next h
      exact ih u (byte b s u hon hs hu) ht

/-- With the decoder off a chunk is discarded (R77). -/
theorem feed_of_off {s : State} (h : s.decoderOn = false) (chunk : List Byte) : feed chunk s = .next s := by
  cases chunk with
  | nil => rfl
  | cons b chunk => unfold feed; simp [h]

/-! ### Events -/

/-- A request is open exactly while a command is pending (R43, R76). -/
theorem receiveRequest_isNone (s : State) : s.receiveRequest.isNone = true ↔ s.pend = .none := by
  unfold State.receiveRequest
  cases s.pend <;> simp

/-- What a chunk does where it is a step. -/
theorem rxBytes_eq_next {chunk : List Byte} {s t : State} (h : rxBytes chunk s = .next t) :
    s.pend ≠ .none ∧ chunk ≠ [] ∧ ∃ u, feed chunk s = .next u ∧ t = completionCheck u := by
  unfold rxBytes at h
  split at h
  · cases h
  · rename_i hr
    split at h
    · cases h
    · rename_i hc
      obtain ⟨u, hu, ht⟩ := andThen_eq_next h
      cases ht
      refine ⟨fun hn => hr ((receiveRequest_isNone s).mpr hn), ?_, u, hu, rfl⟩
      rintro rfl; exact hc rfl

/-- What a timeout does where it is a step (R175): it ends the connection, or flushes, transmits and checks. -/
theorem rxTimeout_eq_next {s t : State} (h : rxTimeout s = .next t) :
    s.pend ≠ .none ∧
      ((s.cfg.maxRetries ≤ s.counters.retry + 1 ∧ t = raiseFatal .retryExhausted (countTimeout s)) ∨
        (¬s.cfg.maxRetries ≤ s.counters.retry + 1 ∧
          ∃ u, flush (countTimeout s) = .next u ∧ t = afterFlush u)) := by
  unfold rxTimeout at h
  split at h
  · cases h
  · rename_i hr
    refine ⟨fun hn => hr ((receiveRequest_isNone s).mpr hn), ?_⟩
    dsimp only at h
    by_cases hc : (countTimeout s).cfg.maxRetries ≤ (countTimeout s).counters.retry
    · rw [if_pos hc] at h; cases h; exact .inl ⟨hc, rfl⟩
    · rw [if_neg hc] at h
      obtain ⟨u, hu, ht⟩ := andThen_eq_next h
      cases ht
      exact .inr ⟨hc, u, hu, rfl⟩

/-- A step takes the next input event, or is idle (R8, R209). -/
theorem step_cases (s : State) :
    (s.inputs = [] ∧ step s = .next s) ∨
      ∃ e rest, s.inputs = e :: rest ∧ step s = handle e { s with inputs := rest } := by
  unfold step nextEvent
  cases h : s.inputs with
  | nil => exact .inl ⟨rfl, rfl⟩
  | cons e rest => exact .inr ⟨e, rest, rfl, rfl⟩

/-- What handling an event keeps, and what does not depend on the inputs still to come, a step keeps. -/
theorem step_keeps {P : State → Prop} (inputs : ∀ s rest, P s → P { s with inputs := rest })
    (event : ∀ e s t, P s → handle e s = .next t → P t) (s t : State) (hs : P s) (h : step s = .next t) : P t := by
  rcases step_cases s with ⟨_, he⟩ | ⟨e, rest, _, he⟩
  · rw [he] at h; cases h; exact hs
  · rw [he] at h; exact event e _ t (inputs s rest hs) h

end Sys2Proof.Machine
end

