-- ==== Sys2Proof/Tests/Slice0.lean ====
section
/-! SUPPORT. The model's own tests: the one check of `Instr.wellFormed`, the decoding of words the spec writes out (R118,
R119), single steps with the outputs the spec's examples give, and for every statement with hypotheses a state and
operands that meet all of them. -/

namespace Sys2Proof.Tests

-- One theorem at a time: the kernel evaluations below each take a thread of their own otherwise.
set_option Elab.async false

open Sys2Proof Sys2Proof.Machine

/-! ### WellFormed and Decode -/

/-- A payload of 1025 bytes has no encoding (R95). -/
theorem test_wellFormed_refuses_long_payload (h : Hdr) :
    Instr.wellFormed (.data h (List.replicate 1025 0)) = false := by
  rw [Instr.wellFormed, List.length_replicate]; rfl

theorem test_wellFormed_admits_1024 (h : Hdr) : Instr.wellFormed (.data h (List.replicate 1024 0)) = true := by
  rw [Instr.wellFormed, List.length_replicate]; rfl

/-- R118, third row. -/
theorem test_decode_data :
    decode 1024 (.packet [0x07, 0x11, 0x0A, 0x00, 0x01, 0x1D, 0x00, 0x57, 0xE2, 0x0E, 0x39]) =
      .ok (.data { seq := 2, lch := 1, ack := 1, rch := 2, f := false } [0x00]) := by decide +kernel

/-- R118, second row: every field at its largest value. -/
theorem test_decode_data_all_ones :
    decode 1024 (.packet [0x07, 0xFF, 0xFF, 0x10, 0x00, 0x17, 0x0B, 0x1B, 0xFF, 0xAE]) =
      .ok (.data { seq := 31, lch := 7, ack := 31, rch := 7, f := true } []) := by decide +kernel

/-- R118, fourth row. -/
theorem test_decode_sync :
    decode 1024 (.packet [0x07, 0x00, 0x00, 0x20, 0x02, 0x25, 0x10, 0x0A, 0xCF, 0x83, 0x77, 0x02]) =
      .ok (.sync { seq := 0, lch := 0, ack := 0, rch := 0, f := false } 16 10) := by decide +kernel

/-- R118, sixth row. -/
theorem test_decode_ack :
    decode 1024 (.packet [0x07, 0x00, 0x28, 0x40, 0x00, 0x6F, 0x39, 0x66, 0x81, 0x4F]) =
      .ok (.ack { seq := 0, lch := 0, ack := 5, rch := 0, f := false }) := by decide +kernel

/-- R118, seventh row. -/
theorem test_decode_nak :
    decode 1024 (.packet [0x07, 0x30, 0x28, 0x60, 0x00, 0x7F, 0xAC, 0xE2, 0xA5, 0xED]) =
      .ok (.nak { seq := 6, lch := 0, ack := 5, rch := 0, f := false }) := by decide +kernel

/-- R118, eighth row. -/
theorem test_decode_close :
    decode 1024 (.packet [0x07, 0x00, 0x28, 0x80, 0x00, 0xAF, 0xF2, 0x9C, 0x56, 0x01]) =
      .ok (.close { seq := 0, lch := 0, ack := 5, rch := 0, f := false }) := by decide +kernel

/-- R119: the command words. -/
theorem test_decode_start_caller : decode 1024 (.command 0x00000101) = .ok (.start true) := by decide +kernel

theorem test_decode_start_callee : decode 1024 (.command 0x00000001) = .ok (.start false) := by decide +kernel

theorem test_decode_getBuf : decode 1024 (.command 0x00000002) = .ok .getBuf := by decide +kernel

theorem test_decode_sendData : decode 1024 (.command 0x00240103) = .ok (.sendData true 0 0 36) := by decide +kernel

theorem test_decode_wait : decode 1024 (.command 0x00000004) = .ok .wait := by decide +kernel

theorem test_decode_shutdown : decode 1024 (.command 0x00000005) = .ok .shutdown := by decide +kernel

theorem test_decode_file : decode 1024 (.command 0x00002306) = .ok (.file true 1 2) := by decide +kernel

/-- R112, R119: reserved operation, and a must-be-0 bit set. -/
theorem test_decode_reserved_op : decode 1024 (.command 0x000000FF) = .error .reservedOp := by decide +kernel

theorem test_decode_must_be_zero : decode 1024 (.command 0x00000104) = .error .mustBeZero := by decide +kernel

/-- The check value of the CRC: `CRC32("123456789") = 0xCBF43926` (R133). -/
theorem test_crc_check_value :
    crc32 [0x31, 0x32, 0x33, 0x34, 0x35, 0x36, 0x37, 0x38, 0x39] = 0xCBF43926 := by decide +kernel

/-! ### Single steps -/

/-- What a result has emitted; nothing where it stops. -/
def outputs : Result → List OutEvent
  | .next s => s.out
  | .fault _ => []
  | .refused _ => []

/-- A session in `READY` with size class 6 and windows of 4, the command `p` pending, the inputs to come. -/
def session (p : Pend) (inputs : List InEvent) : State :=
  { State.reset with
    pstate := .ready
    pend := p
    sizes := { lwin := 4, rwin := 4, lpktK := 6, rpktK := 6, acceptK := 6, negPktK := 6 }
    flags := { State.reset.flags with sentSync := true, gotSync := true }
    inputs := inputs }

/-- `session` with packet 1 ("hi", the first row of R118) sent and not acknowledged. -/
def sentOne (p : Pend) (inputs : List InEvent) : State :=
  { session p inputs with
    win := { State.reset.win with nextSeq := 2, nextRetx := 2, bufSlot := 1 }
    slots := setEntry State.reset.slots 1 { inuse := true, lch := 0, rch := 0, eom := true, len := 2 }
    slotMem := [(1024, 0x68), (1025, 0x69)] }

/-- START as caller transmits the SYNC of R118's fourth row. -/
theorem test_start_sends_sync :
    outputs (step { State.reset with inputs := [.cmd 0x00000101] }) =
      [.tx [0x07, 0x00, 0x00, 0x20, 0x02, 0x25, 0x10, 0x0A, 0xCF, 0x83, 0x77, 0x02]] := by decide +kernel

/-- GET_BUF answers slot 1, size 64 (R119). -/
theorem test_getBuf_lends_slot_one :
    outputs (step (session .none [.cmd 0x00000002])) = [.rsp 0x20400100] := by decide +kernel

/-- SEND_DATA transmits R118's first packet and is answered `OK` (R119). -/
theorem test_sendData_transmits :
    outputs
      (step
        { session .none [.cmd 0x00020103] with
          flags := { State.reset.flags with bufOwned := true }
          win := { State.reset.win with bufSlot := 1 }
          slotMem := [(1024, 0x68), (1025, 0x69)] }) =
      [.tx [0x07, 0x08, 0x00, 0x10, 0x02, 0x1D, 0x68, 0x69, 0x0C, 0xF5, 0x4C, 0xBF], .rsp 0x30000000] := by
  decide +kernel

/-- SEND_DATA of 65 bytes where `NEG_PKT_K = 6` is answered `BAD_ARG` (R205, R114). -/
theorem test_sendData_refuses_long :
    outputs
      (step { session .none [.cmd 0x00410103] with flags := { State.reset.flags with bufOwned := true } }) =
      [.rsp 0x30000002] := by decide +kernel

/-- WAIT while another command is pending is answered `BUSY` (R119). -/
theorem test_wait_busy : outputs (step (session .wait [.cmd 0x00000004])) = [.rsp 0x40000003] := by decide +kernel

/-- SHUTDOWN transmits R118's CLOSE twice and answers `OK` (R207). -/
theorem test_shutdown_closes_twice :
    outputs
      (step { session .none [.cmd 0x00000005] with win := { State.reset.win with lastRecv := 5, lastAckSent := 5 } }) =
      [.tx [0x07, 0x00, 0x28, 0x80, 0x00, 0xAF, 0xF2, 0x9C, 0x56, 0x01],
       .tx [0x07, 0x00, 0x28, 0x80, 0x00, 0xAF, 0xF2, 0x9C, 0x56, 0x01], .rsp 0x50000000] := by decide +kernel

/-- FILE answers `OK` (R208). -/
theorem test_file_ok : outputs (step (session .none [.cmd 0x00002306])) = [.rsp 0x60000000] := by decide +kernel

/-- FILE in `UNSTARTED` is answered `BAD_STATE` (R202). -/
theorem test_file_bad_state :
    outputs (step { State.reset with inputs := [.cmd 0x00000006] }) = [.rsp 0x60000001] := by decide +kernel

/-- Words that are no operation (R119). -/
theorem test_bad_op : outputs (step (session .none [.cmd 0x000000FF])) = [.rsp 0xF0000006] := by decide +kernel

theorem test_bad_arg : outputs (step (session .none [.cmd 0x00000104])) = [.rsp 0x40000002] := by decide +kernel

/-- DATA: R118's first packet is delivered and ends the WAIT (R232, R210). -/
theorem test_data_delivered :
    outputs
      (step
        (session .wait
          [.rxBytes [0x07, 0x08, 0x00, 0x10, 0x02, 0x1D, 0x68, 0x69, 0x0C, 0xF5, 0x4C, 0xBF]])) =
      [.deliver 0 0 true [0x68, 0x69], .rsp 0x40000000] := by decide +kernel

/-- DATA: the same bytes with one bit of the payload inverted are not (R144). -/
theorem test_data_damaged :
    outputs
      (step
        (session .wait
          [.rxBytes [0x07, 0x08, 0x00, 0x10, 0x02, 0x1D, 0x68, 0x68, 0x0C, 0xF5, 0x4C, 0xBF]])) = [] := by
  decide +kernel

/-- SYNC: the caller's SYNC of P1 makes the callee answer and finish START (R237, R119; 95_test_vectors.md P1). -/
theorem test_sync_answered :
    outputs
      (step
        { State.reset with
          pstate := .negotiating
          pend := .start
          sizes := { lwin := 4, rwin := 0, lpktK := 6, rpktK := 0, acceptK := 6, negPktK := 0 }
          inputs := [.rxBytes [0x07, 0x00, 0x00, 0x20, 0x02, 0x25, 0x04, 0x06, 0xE8, 0x9B, 0xEC, 0x7C]] }) =
      [.tx [0x07, 0x00, 0x00, 0x30, 0x02, 0x35, 0x04, 0x06, 0xB8, 0x82, 0xBB, 0xE3], .rsp 0x10000460] := by
  decide +kernel

/-- ACK: acknowledging packet 1 releases its slot (R165). -/
theorem test_ack_releases :
    (match exec (.ack { seq := 0, lch := 0, ack := 1, rch := 0, f := false }) (sentOne .wait []) with
      | .next t => decide (t.csrValue 0x48 = 0 ∧ t.win.lastAcked = 1 ∧ t.out = [])
      | .fault _ => false
      | .refused _ => false) = true := by decide +kernel

/-- NAK: naming packet 1 sends R118's first packet again (R236, R268). -/
theorem test_nak_resends :
    outputs (exec (.nak { seq := 1, lch := 0, ack := 0, rch := 0, f := false }) (sentOne .wait [])) =
      [.tx [0x07, 0x08, 0x00, 0x10, 0x02, 0x1D, 0x68, 0x69, 0x0C, 0xF5, 0x4C, 0xBF]] := by decide +kernel

/-- CLOSE: the host is told and the WAIT ends with `PEER_CLOSED` (R241, R114). -/
theorem test_close_ends_wait :
    outputs (exec (.close { seq := 0, lch := 0, ack := 0, rch := 0, f := false }) (session .wait [])) =
      [.evt .peerClosed, .rsp 0x40000005] := by decide +kernel

/-- A side that has accepted a SYNC and now sends its own at a timeout is `READY` and answers START (R29, R119). -/
theorem test_timeout_finishes_handshake :
    outputs
      (step
        { State.reset with
          pstate := .negotiating
          pend := .start
          sizes := { lwin := 4, rwin := 4, lpktK := 6, rpktK := 6, acceptK := 6, negPktK := 6 }
          flags := { State.reset.flags with gotSync := true }
          inputs := [.rxTimeout] }) =
      [.tx [0x07, 0x00, 0x00, 0x20, 0x02, 0x25, 0x04, 0x06, 0xE8, 0x9B, 0xEC, 0x7C], .rsp 0x10000460] := by
  decide +kernel

/-! ### The host's two definitions -/

/-- The DATA row of the table, `SEQ = 1`, `LEN = 2`, in `decodeTableWord`'s numbering. -/
theorem test_decodeTableWord_data :
    decodeTableWord 48 0x07080010021D =
      some (.data { seq := 1, lch := 0, ack := 0, rch := 0, f := true } [0, 0]) := by decide +kernel

theorem test_withFetchWord_command :
    step (State.reset.withFetchWord 32 0x00000101) = exec (.start true) State.reset := rfl

theorem test_withFetchWord_packet :
    (outputs (step (State.reset.withFetchWord 48 0x070800100000))).head? = some (.deliver 0 0 true []) := by
  decide +kernel

/-! ### Witnesses: the hypotheses of each statement of Certificates/Slice0/Obligations.lean can be met together -/

/-- A header of zeros but for its sequence and ack numbers. -/
def hdr (seq ack : SeqNum) : Hdr := { seq := seq, lch := 0, ack := ack, rch := 0, f := false }

/-- The ACK packet `ACK = 5` of R118. -/
def ackImage : List Byte := [0x07, 0x00, 0x28, 0x40, 0x00, 0x6F, 0x39, 0x66, 0x81, 0x4F]

/-- A callee in `NEGOTIATING`. -/
def negotiating (inputs : List InEvent) : State :=
  { State.reset with
    pstate := .negotiating
    pend := .start
    sizes := { lwin := 16, rwin := 0, lpktK := 10, rpktK := 0, acceptK := 10, negPktK := 0 }
    inputs := inputs }

/-- `session` with as many packets outstanding as the largest window admits. -/
def fullWindow : State :=
  { session .wait [] with
    win := { State.reset.win with nextSeq := 17, nextRetx := 17 }
    sizes := { (session .wait []).sizes with rwin := 16 } }

/-- `fullWindow` in cautious mode at packet 1, packets 1 and 2 sent again, packets 3 to 16 still queued. -/
def cautiousWindow : State :=
  { fullWindow with
    win := { fullWindow.win with nextRetx := 3, cautionSeq := 1 }
    flags := { fullWindow.flags with cautious := true, rejSeen := true } }

/-- `session` with packet 3 arrived ahead of 1 and 2, and packet 1 asked for. -/
def gapOpen : State :=
  { session .wait [] with
    win := { State.reset.win with nakedSeq := 1 }
    flags := { (session .wait []).flags with nakedValid := true }
    reord := setEntry State.reset.reord 3 { valid := true, lch := 0, rch := 0, eom := false, len := 0 } }

/-- `session` with packets 2 (an end of message) and 4 arrived ahead of 1 and 3, and packet 1 asked for. -/
def twoGaps : State :=
  { gapOpen with
    reord :=
      setEntry (setEntry State.reset.reord 2 { valid := true, lch := 0, rch := 0, eom := true, len := 0 }) 4
        { valid := true, lch := 0, rch := 0, eom := false, len := 0 } }

/-- `session` with another advertised window. -/
def withWindow (lwin : BitVec 5) : State :=
  { session .wait [] with sizes := { (session .wait []).sizes with lwin := lwin } }

/-- `session` with the next slot lent. -/
def borrowed : State :=
  { session .none [] with
    flags := { (session .none []).flags with bufOwned := true }
    win := { State.reset.win with bufSlot := 1 } }

/-- `session` in compatibility mode, packet 1 outstanding. -/
def compatible : State :=
  { sentOne .wait [] with cfg := { (State.reset).cfg with cfg0 := 0x00030A10 } }

/-- `session` after the connection has failed. -/
def failed : State := { session .none [] with pstate := .failed, failCause := .ioError }

theorem witness_DistancesAddToModulus : (0 : SeqNum) ≠ 31 ∧ (31 : SeqNum) = 31 := by decide

/-- Both ways for each of the three conditions; in cautious mode the last packet allowed and the first not allowed. -/
theorem witness_CanSendExactlyBelowWindow : fullWindow.win.outstanding.toNat ≤ 16 ∧
    (fullWindow.win.outstanding.toNat = 16 ∧ fullWindow.canSend = false) ∧
    (sentOne .none []).canSend = true ∧ (sentOne .none []).sendReady = true ∧ cautiousWindow.sendReady = false ∧
    cautiousWindow.txAllowed 2 = true ∧ cautiousWindow.txAllowed 3 = false := by decide +kernel

theorem witness_DecodeOfEncodeIsTheInstruction :
    Instr.wellFormed (.data (hdr 31 31) (List.replicate 1024 0)) = true := test_wellFormed_admits_1024 _

theorem witness_PacketImageHeadsTheStream :
    Instr.wellFormed (.ack (hdr 0 5)) = true ∧ fits 32 (.ack (hdr 0 5)) = true ∧
      encode (.ack (hdr 0 5)) = .packet ackImage ∧ 0 < ackImage.length ∧ 9 < ackImage.length := by decide +kernel

theorem witness_CheckByteDetectsOneFlip :
    let h : RawHeader := { b0 := 0x07, b1 := 0x00, b2 := 0x28, b3 := 0x40, b4 := 0x00, b5 := 0x6F }
    h.b5 = h.xchk ∧ 0 < 6 ∧ 5 < 6 ∧ 0 < 8 ∧ 7 < 8 := by decide +kernel

theorem witness_EverySingleFlipIsDetected :
    Instr.wellFormed (.ack (hdr 0 5)) = true ∧ fits 32 (.ack (hdr 0 5)) = true ∧
      encode (.ack (hdr 0 5)) = .packet ackImage ∧
      (0 < ackImage.length ∧ 5 < ackImage.length ∧ 6 < ackImage.length ∧ 9 < ackImage.length) ∧ 0 < 8 ∧ 7 < 8 := by
  decide +kernel

theorem witness_SendCmdSplitsTheText : 0 < 1 ∧ 1 ≤ 1024 ∧ 0 < 1024 ∧ 1024 ≤ 1024 := by decide

theorem witness_StepRunsTheDecodedInstruction_command :
    (session .none [.cmd 4, .rxTimeout]).inputs = .cmd 4 :: [.rxTimeout] ∧ decodeCommand 4 = .ok .wait := by
  decide +kernel

theorem witness_StepRunsTheDecodedInstruction_event :
    (session .wait [.rxTimeout]).inputs = .rxTimeout :: [] ∧ (session .none []).inputs = [] := ⟨rfl, rfl⟩

theorem witness_StepRunsTheDecodedInstruction_packet :
    let s := { session .wait [] with rxbuf := ackImage ++ [0x01] }
    (s.pstate = .negotiating ∨ s.pstate = .ready) ∧
      decodeFrame (2 ^ s.sizes.acceptK.toNat) s.rxbuf = .packet (.ack (hdr 0 5)) [0x01] := by decide +kernel

theorem witness_StepRunsTheDecodedInstruction_chunk :
    (session .wait [.rxBytes ackImage]).inputs = .rxBytes (0x07 :: ackImage.tail) :: [] ∧
      (session .wait [.rxBytes ackImage]).pend ≠ .none := by decide +kernel

/-- One state for each branch of the completion check, and one for none. -/
theorem witness_StepRunsTheDecodedInstruction_completion :
    let seen := { session .wait [] with flags := { (session .wait []).flags with eomSeen := true } }
    ((session .start []).pend = .start ∧ (session .start []).pstate = .ready) ∧
      (seen.pend = .wait ∧ seen.flags.eomSeen = true) ∧
      ((session .sendData []).pend = .sendData ∧ (session .sendData []).pstate = .ready ∧
        (session .sendData []).sendReady = true) ∧
      (¬((session .wait []).pend = .start ∧ (session .wait []).pstate = .ready) ∧
        ¬((session .wait []).pend = .wait ∧ (session .wait []).flags.eomSeen = true) ∧
        ¬((session .wait []).pend = .sendData ∧ (session .wait []).pstate = .ready ∧
          (session .wait []).sendReady = true)) := by decide +kernel

theorem witness_OnePacketChunkRunsThatPacket :
    let s := session .wait [.rxBytes ackImage]
    Instr.wellFormed (.ack (hdr 0 5)) = true ∧ fits (2 ^ s.sizes.acceptK.toNat) (.ack (hdr 0 5)) = true ∧
      encode (.ack (hdr 0 5)) = .packet ackImage ∧ (s.pstate = .negotiating ∨ s.pstate = .ready) ∧ s.rxbuf = [] ∧
      s.pend ≠ .none ∧
      s.inputs = .rxBytes ackImage :: [] ∧ refusedSync (.ack (hdr 0 5)) = false := by decide +kernel

/-- Both states in which the decoder runs and one in which it does not; a number of rounds just above the bytes held. -/
theorem witness_ChunkingDoesNotMatter :
    let s := { session .wait [] with rxbuf := ackImage.take 9 }
    (s.pstate = .ready ∧ (negotiating []).pstate = .negotiating) ∧
      (failed.pstate ≠ .negotiating ∧ failed.pstate ≠ .ready) ∧ s.rxbuf.length < 10 ∧
      decodeFrame (2 ^ s.sizes.acceptK.toNat) s.rxbuf = .incomplete := by decide +kernel

/-- A malformed header (`TYPE = 5`); a good one with one byte too few behind it, and with a right and a wrong trailer. -/
theorem witness_BadCandidatesLoseOneByte_frame :
    let bad : RawHeader := ⟨0x07, 0, 0, 0xA0, 0, 0xA7⟩
    let h : RawHeader := ⟨0x07, 0, 0x28, 0x40, 0, 0x6F⟩
    (bad.b0 = 0x07 ∧ bad.ok 64 = false) ∧
      (h.b0 = 0x07 ∧ h.ok 64 = true ∧ 0 = h.b3.toNat % 16 * 256 + h.b4.toNat ∧
        [(0x39 : Byte), 0x66, 0x81].length < 0 + 4 ∧
        [(0x39 : Byte), 0x66, 0x81, 0x4F].length = 4 ∧
        [(0x39 : Byte), 0x66, 0x81, 0x4F].foldl (fun a t => a * 256 + t.toNat) 0 =
          (crc32 (h.b2 :: h.b3 :: h.b4 :: [])).toNat ∧
        [(0x39 : Byte), 0x66, 0x81, 0x4E].foldl (fun a t => a * 256 + t.toNat) 0 ≠
          (crc32 (h.b2 :: h.b3 :: h.b4 :: [])).toNat) ∧
      [(0 : Byte), 0, 0, 0].length < 5 := by decide +kernel

theorem witness_BadCandidatesLoseOneByte_garbage :
    let s := { session .wait [] with rxbuf := [0x08, 0x07] }
    (s.pstate = .negotiating ∨ s.pstate = .ready) ∧ s.rxbuf = 0x08 :: [0x07] ∧ (0x08 : Byte) ≠ 0x07 := by decide +kernel

theorem witness_BadCandidatesLoseOneByte_header :
    let s := { session .wait [] with rxbuf := [0x07, 0, 0, 0xA0, 0, 0xA7] }
    (s.pstate = .negotiating ∨ s.pstate = .ready) ∧ s.rxbuf = 0x07 :: [0, 0, 0xA0, 0, 0xA7] ∧
      decodeFrame (2 ^ s.sizes.acceptK.toNat) (0x07 :: [0, 0, 0xA0, 0, 0xA7]) = .malformedHeader := by decide +kernel

theorem witness_BadCandidatesLoseOneByte_checksum :
    let s := { session .wait [] with rxbuf := 0x07 :: [0, 0x28, 0x40, 0, 0x6F, 0x39, 0x66, 0x81, 0x4E] }
    (s.pstate = .negotiating ∨ s.pstate = .ready) ∧
      s.rxbuf = 0x07 :: [0, 0x28, 0x40, 0, 0x6F, 0x39, 0x66, 0x81, 0x4E] ∧
      decodeFrame (2 ^ s.sizes.acceptK.toNat) (0x07 :: [0, 0x28, 0x40, 0, 0x6F, 0x39, 0x66, 0x81, 0x4E]) =
        .checksumMismatch := by decide +kernel

theorem witness_RefusedCommandsChangeNothing :
    isPacket .wait = false ∧ (session .wait []).pend ≠ .none ∧ State.reset.pend = .none ∧
      commandAllowed .wait State.reset.pstate = false ∧ commandAllowed (.start true) .ready = false ∧
      commandAllowed .shutdown .closed = false ∧ encode .wait = .command 4 := by decide +kernel

/-- A word with a 1 where START must have 0, and one where FILE must have 0, encode no instruction. -/
theorem not_encoded_start_bit9 (i : Instr) : encode i ≠ .command 0x00000201 := by
  intro h
  have hs := Laws.cmdOp_commandWord
  cases i <;> simp only [encode, reduceCtorEq, Image.command.injEq] at h <;>
    first
      | (rename_i role; revert h role; decide +kernel)
      | (have hc := congrArg cmdOp h; rw [hs] at hc; revert hc; decide +kernel)

theorem not_encoded_file_bit16 (i : Instr) : encode i ≠ .command 0x00010006 := by
  intro h
  have hs := Laws.cmdOp_commandWord
  cases i <;> simp only [encode, reduceCtorEq, Image.command.injEq] at h <;>
    first
      | (have hc := congrArg cmdOp h; rw [hs] at hc; revert hc; decide +kernel)
      | (rename_i flag lch rch; revert h flag lch rch; decide +kernel)

theorem witness_IllegalWordsAreAnswered :
    (session .none []).pend = .none ∧ (session .wait []).pend ≠ .none ∧
      (BitVec.toNat (0x00000000 : Word) % 256 = 0 ∧ 7 ≤ BitVec.toNat (0x00000007 : Word) % 256 ∧
        7 ≤ BitVec.toNat (0x000000FF : Word) % 256) ∧
      (1 ≤ BitVec.toNat (0x00000201 : Word) % 256 ∧ BitVec.toNat (0x00000201 : Word) % 256 ≤ 6) ∧
      (1 ≤ BitVec.toNat (0x00010006 : Word) % 256 ∧ BitVec.toNat (0x00010006 : Word) % 256 ≤ 6) ∧
      (∀ i, encode i ≠ .command 0x00000201) ∧ (∀ i, encode i ≠ .command 0x00010006) :=
  ⟨by decide +kernel, by decide +kernel, by decide +kernel, by decide +kernel, by decide +kernel,
    not_encoded_start_bit9, not_encoded_file_bit16⟩

theorem witness_StartBeginsNegotiation : State.reset.pend = .none ∧ State.reset.pstate = .unstarted := by decide +kernel

/-- Also for WAIT and FILE. -/
theorem witness_GetBufLendsTheNextSlot : (session .none []).pend = .none ∧ (session .none []).pstate = .ready := by
  decide +kernel

theorem witness_WaitBecomesPending : (session .none []).pend = .none ∧ (session .none []).pstate = .ready := by
  decide +kernel

theorem witness_FileAnswersOk : (session .none []).pend = .none ∧ (session .none []).pstate = .ready := by
  decide +kernel

/-- At both ends of the length's range. -/
theorem witness_SendDataTransmitsWhenReady :
    borrowed.pend = .none ∧ borrowed.pstate = .ready ∧ borrowed.flags.bufOwned = true ∧
      borrowed.sizes.negPktK ≤ 10 ∧ BitVec.toNat (64 : BitVec 12) ≤ 2 ^ borrowed.sizes.negPktK.toNat ∧
      BitVec.toNat (0 : BitVec 12) ≤ 2 ^ borrowed.sizes.negPktK.toNat ∧ borrowed.sendReady = true := by decide +kernel

theorem witness_SendDataPendsWhenNotReady :
    let s := { borrowed with sizes := { borrowed.sizes with rwin := 0 } }
    s.pend = .none ∧ s.pstate = .ready ∧ s.flags.bufOwned = true ∧
      BitVec.toNat (64 : BitVec 12) ≤ 2 ^ s.sizes.negPktK.toNat ∧ s.sendReady = false := by decide +kernel

theorem witness_SendDataNeedsBorrowAndLength :
    (session .none []).pend = .none ∧ (session .none []).pstate = .ready ∧ (session .none []).flags.bufOwned = false ∧
      borrowed.pend = .none ∧ borrowed.pstate = .ready ∧
      2 ^ borrowed.sizes.negPktK.toNat < BitVec.toNat (65 : BitVec 12) := by decide +kernel

theorem witness_ShutdownSendsCloseTwice :
    (session .none []).pend = .none ∧ (session .none []).pstate = .ready ∧
      { session .none [] with pstate := .closing }.pstate = .closing := by decide +kernel

theorem witness_NegotiatingDiscardsNonSync :
    (negotiating []).pstate = .negotiating ∧ isPacket (.ack (hdr 0 5)) = true ∧
      ∀ h w k, Instr.ack (hdr 0 5) ≠ .sync h w k :=
  ⟨by decide +kernel, by decide +kernel, fun _ _ _ => Instr.noConfusion⟩

theorem witness_GoodPacketsForgiveErrors :
    let s := { session .wait [] with counters := { State.reset.counters with goodcnt := 9, errcnt := 1 } }
    s.cfg.decayK.toNat ≤ (s.counters.goodcnt + 1).toNat ∧
      ((session .wait []).counters.goodcnt + 1).toNat < (session .wait []).cfg.decayK.toNat := by decide +kernel

/-- A DATA packet ahead of the expected one, the first and last byte of its entry and the bytes next to them. -/
theorem witness_PacketsKeepTheRest_data :
    let s := session .wait []
    isPacket (.data (hdr 2 0) [0x68, 0x69]) = true ∧
      exec (.data (hdr 2 0) [0x68, 0x69]) s =
        .next (serviceIfReady (onData 2 0 0 false [0x68, 0x69] (onAck 0 (goodPacket s)).2)) ∧
      2 ≤ dist 2 s.win.lastRecv ∧ dist 2 s.win.lastRecv ≤ s.sizes.lwin ∧
      ¬(recordAddr 2 0 ≤ 2047 ∧ 2047 < recordAddr 2 0 + 2) ∧ ¬(recordAddr 2 0 ≤ 2050 ∧ 2050 < recordAddr 2 0 + 2) ∧
      ∀ h w k, Instr.data (hdr 2 0) [0x68, 0x69] ≠ .sync h w k :=
  ⟨by decide +kernel, rfl, by decide +kernel, by decide +kernel, by decide +kernel, by decide +kernel,
    fun _ _ _ => Instr.noConfusion⟩

theorem witness_PacketsKeepTheRest_sync :
    let s := session .wait []
    isPacket (.sync (hdr 0 0) 0 5) = true ∧
      exec (.sync (hdr 0 0) 0 5) s = .next (serviceIfReady (handleSync false 0 5 (goodPacket s))) ∧
      ∀ h p, Instr.sync (hdr 0 0) 0 5 ≠ .data h p :=
  ⟨by decide +kernel, rfl, fun _ _ => Instr.noConfusion⟩

theorem quiet_session (p : Pend) (inputs : List InEvent) : (session p inputs).quiet :=
  ⟨rfl, (by decide +kernel : ∀ q, (State.reset.reordAt q).valid = false), rfl⟩

theorem quiet_sentOne (p : Pend) (inputs : List InEvent) : (sentOne p inputs).quiet :=
  ⟨rfl, (by decide +kernel : ∀ q, (State.reset.reordAt q).valid = false), rfl⟩

/-- With an ack for nothing outstanding, and with one for the packet that is, nothing waiting; with packet 2 waiting behind
packet 1 and packet 4 behind a further gap. -/
theorem witness_ExpectedDataIsDelivered :
    let s := sentOne .wait []
    (s.pstate = .ready ∧ s.win.nextRetx = s.win.nextSeq ∧ s.flags.ackPending = false ∧ s.win.outstanding ≤ 16 ∧
        (hdr 1 0).seq = s.win.lastRecv + 1 ∧ 0 < 32 ∧ (∀ q, (s.reordAt q).valid = false) ∧
        ¬s.win.isOutstanding (hdr 1 0).ack ∧ s.win.isOutstanding (hdr 1 1).ack) ∧
      (twoGaps.pstate = .ready ∧ twoGaps.win.nextRetx = twoGaps.win.nextSeq ∧ twoGaps.flags.ackPending = false ∧
        twoGaps.win.outstanding ≤ 16 ∧ (hdr 1 0).seq = twoGaps.win.lastRecv + 1 ∧
        (twoGaps.reordAt ((hdr 1 0).seq + 1 + BitVec.ofNat 5 0)).valid = true ∧
        (twoGaps.reordAt ((hdr 1 0).seq + 1 + BitVec.ofNat 5 1)).valid = false ∧ (2 : SeqNum) = 1 + BitVec.ofNat 5 1 ∧
        (twoGaps.reordAt 4).valid = true ∧ ¬(1 ≤ (Machine.dist 4 1).toNat ∧ (Machine.dist 4 1).toNat ≤ 1)) := by
  decide +kernel

/-- The packet that closes the first of two gaps: both deliveries, then the NAK for packet 3 (R232, R234, R264). -/
theorem test_data_fills_first_gap :
    (match exec (.data (hdr 1 0) [0x68]) twoGaps with
      | .next t =>
        decide (deliveries t.out = [(0, 0, false, [0x68]), (0, 0, true, [])] ∧ t.flags.eomSeen = true ∧
          transmissions t.out = [controlImage .nak 3 2] ∧ t.win.nakedSeq = 3)
      | .fault _ => false
      | .refused _ => false) = true := by decide +kernel

/-- At both ends of the range of the distance, with an ack for nothing outstanding and with one for the packet that is;
the gap opening, the gap open and asked for, and the last also with half the window unacknowledged. -/
theorem witness_AheadDataIsBuffered :
    let s := sentOne .wait []
    let v := { gapOpen with win := { gapOpen.win with lastAckSent := 30 } }
    s.pstate = .ready ∧ s.win.nextRetx = s.win.nextSeq ∧ s.flags.ackPending = false ∧ s.win.outstanding ≤ 16 ∧
      ¬s.win.isOutstanding (hdr 2 0).ack ∧ s.win.isOutstanding (hdr 4 1).ack ∧
      (List.replicate 1024 (0 : Byte)).length ≤ 1024 ∧
      (2 ≤ dist (hdr 2 0).seq s.win.lastRecv ∧ dist (hdr 2 0).seq s.win.lastRecv ≤ s.sizes.lwin) ∧
      (2 ≤ dist (hdr 4 0).seq s.win.lastRecv ∧ dist (hdr 4 0).seq s.win.lastRecv = s.sizes.lwin) ∧
      ¬s.gapAsked ∧
      (gapOpen.pstate = .ready ∧ gapOpen.win.nextRetx = gapOpen.win.nextSeq ∧ gapOpen.flags.ackPending = false ∧
        gapOpen.win.outstanding ≤ 16 ∧ dist (hdr 2 0).seq gapOpen.win.lastRecv = 2 ∧ gapOpen.sizes.lwin = 4 ∧
        gapOpen.gapAsked ∧ ¬gapOpen.ackDueAt gapOpen.win.lastRecv) ∧
      (v.pstate = .ready ∧ v.win.nextRetx = v.win.nextSeq ∧ v.flags.ackPending = false ∧ v.win.outstanding ≤ 16 ∧
        dist (hdr 2 0).seq v.win.lastRecv = 2 ∧ v.sizes.lwin = 4 ∧ v.gapAsked ∧ v.ackDueAt v.win.lastRecv) :=
  ⟨rfl, rfl, rfl, by decide +kernel, by decide +kernel, by decide +kernel, by rw [List.length_replicate],
    by decide +kernel, by decide +kernel, by decide +kernel, by decide +kernel, by decide +kernel⟩

theorem witness_OldDataIsOnlyAcknowledged :
    let s := session .wait []
    s.pstate = .ready ∧ s.quiet ∧ s.win.outstanding ≤ 16 ∧
      (dist (hdr 0 0).seq s.win.lastRecv ≠ 1 ∧ dist (hdr 0 0).seq s.win.lastRecv = 0) ∧
      (dist (hdr 5 0).seq s.win.lastRecv ≠ 1 ∧ s.sizes.lwin < dist (hdr 5 0).seq s.win.lastRecv) ∧
      (dist (hdr 31 0).seq s.win.lastRecv ≠ 1 ∧ s.sizes.lwin < dist (hdr 31 0).seq s.win.lastRecv) :=
  ⟨rfl, quiet_session _ _, by decide +kernel, by decide +kernel, by decide +kernel, by decide +kernel⟩

theorem witness_OutOfOrderArrivalsAreDeliveredInOrder :
    (withWindow 3).pstate = .ready ∧ (∀ q, ((withWindow 3).reordAt q).valid = false) ∧
      (hdr 1 0).seq = (withWindow 3).win.lastRecv + 1 ∧
      (hdr 2 0).seq = (withWindow 3).win.lastRecv + 2 ∧ (hdr 3 0).seq = (withWindow 3).win.lastRecv + 3 ∧
      [(1 : Byte)].length ≤ 1024 ∧ 3 ≤ (withWindow 3).sizes.lwin ∧
      (withWindow 2).pstate = .ready ∧ (∀ q, ((withWindow 2).reordAt q).valid = false) ∧
      (withWindow 2).sizes.lwin < 3 := by decide +kernel

/-- Outside cautious mode; in it, with retransmissions queued, an ack for the first packet sent again and for the last of
the window. -/
theorem witness_AckReleasesAcknowledgedSlots :
    let s := sentOne .wait []
    let c := cautiousWindow
    (s.pstate = .ready ∧ s.flags.ackPending = false ∧ s.win.isOutstanding (hdr 0 1).ack) ∧
      (c.pstate = .ready ∧ c.flags.ackPending = false ∧ c.win.isOutstanding (hdr 0 1).ack ∧
        c.win.isOutstanding (hdr 0 16).ack) := by decide +kernel

/-- The ack that ends cautious mode sends the rest again (R268): packets 3 to 16. -/
theorem test_ack_ends_cautious_mode :
    (match exec (.ack (hdr 0 1)) cautiousWindow with
      | .next t => decide ((transmissions t.out).length = 14 ∧ t.flags.cautious = false ∧ t.win.nextRetx = 17)
      | .fault _ => false
      | .refused _ => false) = true := by decide +kernel

/-- One NAK per gap (R264): with packet 1 asked for, packet 2 is stored and nothing goes out. -/
theorem test_data_in_asked_gap : outputs (exec (.data (hdr 2 0) [0x68]) gapOpen) = [] := by decide +kernel

theorem witness_RepeatedAckReleasesNothing :
    (onAck 1 (sentOne .wait [])).1 = true ∧ (sentOne .wait []).pstate = .ready ∧
      exec (.ack (hdr 0 1)) (sentOne .wait []) =
        .next (serviceIfReady (ackPacket 1 (onAck 1 (goodPacket (sentOne .wait []))).1
          (onAck 1 (goodPacket (sentOne .wait []))).2)) :=
  ⟨by decide +kernel, rfl, rfl⟩

theorem witness_AckOfNothingOutstandingIsIgnored :
    let s := sentOne .wait []
    s.pstate = .ready ∧ s.quiet ∧ ¬s.win.isOutstanding (hdr 0 2).ack ∧ ¬s.win.isOutstanding (hdr 0 0).ack ∧
      ¬(s.cfg.dupackNak = true ∧ (hdr 0 2).ack = s.win.lastAcked ∧ s.win.outstanding ≠ 0 ∧ s.flags.rejSeen = false) ∧
      ¬(s.cfg.dupackNak = true ∧ (hdr 0 0).ack = s.win.lastAcked ∧ s.win.outstanding ≠ 0 ∧
        s.flags.rejSeen = false) :=
  ⟨rfl, quiet_sentOne _ _, by decide +kernel, by decide +kernel, by decide +kernel, by decide +kernel⟩

/-- The oldest and the newest of sixteen outstanding packets. -/
theorem witness_NakResendsFromTheMissingPacket :
    (fullWindow.pstate = .ready ∧ (∀ q, (fullWindow.reordAt q).valid = false) ∧ fullWindow.flags.ackPending = false ∧
        ¬fullWindow.win.isOutstanding (hdr 1 0).ack) ∧
      (0 = dist ((hdr 1 0).seq - 1) fullWindow.win.lastAcked ∧ 0 < fullWindow.win.outstanding) ∧
      (15 = dist ((hdr 16 0).seq - 1) fullWindow.win.lastAcked ∧ 15 < fullWindow.win.outstanding) ∧
      fullWindow.win.outstanding = 16 ∧
      2 = min (fullWindow.win.outstanding.toNat - BitVec.toNat (0 : SeqNum)) (fullWindow.cfg.resendAhead.toNat + 1) ∧
      1 = min (fullWindow.win.outstanding.toNat - BitVec.toNat (15 : SeqNum)) (fullWindow.cfg.resendAhead.toNat + 1) := by
  decide +kernel

theorem witness_NakResendsFromTheMissingPacket_ackOnly :
    fullWindow.pstate = .ready ∧ ¬fullWindow.win.isOutstanding (hdr 17 0).ack ∧ fullWindow.win.outstanding ≠ 0 ∧
      dist ((hdr 17 0).seq - 1) fullWindow.win.lastAcked = fullWindow.win.outstanding := by decide +kernel

/-- With nothing outstanding; and with one packet outstanding the first number beyond. -/
theorem witness_NakResendsFromTheMissingPacket_ignored :
    let s := session .wait []
    let u := sentOne .wait []
    (s.pstate = .ready ∧ s.quiet ∧ ¬s.win.isOutstanding (hdr 1 0).ack ∧ s.win.outstanding = 0) ∧
      (u.pstate = .ready ∧ u.quiet ∧ ¬u.win.isOutstanding (hdr 3 0).ack ∧
        u.win.outstanding < dist ((hdr 3 0).seq - 1) u.win.lastAcked) :=
  ⟨⟨rfl, quiet_session _ _, by decide +kernel, by decide +kernel⟩,
    ⟨rfl, quiet_sentOne _ _, by decide +kernel, by decide +kernel⟩⟩

theorem witness_NakResendsFromTheMissingPacket_ownAck :
    fullWindow.pstate = .ready ∧ (hdr 2 1).ack = (hdr 2 1).seq - 1 ∧ (hdr 0 31).ack = (hdr 0 31).seq - 1 := by
  decide +kernel

theorem witness_DuplicateAckActsAsNak :
    compatible.pstate = .ready ∧ (hdr 0 0).ack = compatible.win.lastAcked ∧ compatible.cfg.dupackNak = true ∧
      compatible.flags.rejSeen = false ∧ compatible.win.outstanding ≠ 0 := by decide +kernel

theorem witness_SyncFinishesTheHandshake :
    (negotiating []).pstate = .negotiating ∧ (1 : Byte) ≠ 0 ∧ (255 : Byte) ≠ 0 ∧ 5 ≤ BitVec.toNat (5 : Byte) ∧
      5 ≤ BitVec.toNat (255 : Byte) := by decide +kernel

/-- The two reasons of a refusal, just below the limit of ten errors. -/
theorem witness_SyncFinishesTheHandshake_refused :
    let s := { negotiating [] with counters := { State.reset.counters with errcnt := 8 } }
    s.pstate = .negotiating ∧ (0 : Byte) = 0 ∧ BitVec.toNat (4 : Byte) < 5 ∧
      (goodPacket s).counters.errcnt.toNat + 1 < s.cfg.negErrLimit.toNat := by decide +kernel

theorem witness_SyncInReadyResetsNothing :
    (session .wait []).pstate = .ready ∧ (session .wait []).quiet ∧ (1 : Byte) ≠ 0 ∧ 5 ≤ BitVec.toNat (5 : Byte) :=
  ⟨rfl, quiet_session _ _, by decide +kernel, by decide +kernel⟩

theorem witness_SyncInReadyResetsNothing_refused :
    let s := session .wait []
    s.pstate = .ready ∧ s.quiet ∧ BitVec.toNat (4 : Byte) < 5 ∧
      (goodPacket s).counters.errcnt.toNat + 1 < s.cfg.errLimit.toNat :=
  ⟨rfl, quiet_session _ _, by decide +kernel, by decide +kernel⟩

theorem witness_PeerCloseEndsThePendingCommand :
    (sentOne .wait []).pstate = .ready ∧ (sentOne .wait []).win.isOutstanding (hdr 0 1).ack ∧
      ¬(sentOne .wait []).win.isOutstanding (hdr 0 0).ack ∧ ¬(sentOne .wait []).win.isOutstanding (hdr 0 2).ack := by
  decide +kernel

theorem witness_ErrorLimitEndsTheConnection :
    let s := { session .wait [] with counters := { State.reset.counters with errcnt := 99 } }
    let u := { session .wait [] with counters := { State.reset.counters with errcnt := 98 } }
    (s.pstate = .ready ∧ s.cfg.errLimit.toNat ≤ min (s.counters.errcnt.toNat + 1) 65535) ∧
      (u.pstate = .ready ∧ min (u.counters.errcnt.toNat + 1) 65535 < u.cfg.errLimit.toNat) ∧
      (failed.pstate ≠ .negotiating ∧ failed.pstate ≠ .ready) := by decide +kernel

theorem witness_FallbackHalvesThePacketSize :
    let s := { negotiating [] with
      counters := { State.reset.counters with errcnt := 9 }, sizes := { (negotiating []).sizes with lpktK := 6 } }
    let u := { s with sizes := { s.sizes with lpktK := 5 } }
    let v := { s with counters := { s.counters with errcnt := 8 } }
    (s.pstate = .negotiating ∧ s.cfg.negErrLimit.toNat ≤ s.counters.errcnt.toNat + 1 ∧ 5 < s.sizes.lpktK.toNat) ∧
      (u.pstate = .negotiating ∧ u.cfg.negErrLimit.toNat ≤ u.counters.errcnt.toNat + 1 ∧ u.sizes.lpktK.toNat ≤ 5) ∧
      (v.pstate = .negotiating ∧ v.counters.errcnt.toNat + 1 < v.cfg.negErrLimit.toNat) := by decide +kernel

theorem witness_OnlyResetLeavesFailed :
    failed.pstate = .failed ∧ failed.pend = .none ∧ isReset .reset = true ∧ isReset (.csrWrite 0x04 1) = true ∧
      isReset (.csrWrite 0x04 2) = false ∧ isReset (.cmd 5) = false ∧ isReset .rxTimeout = false := by decide +kernel

theorem witness_ByteStreamErrorIsFatal : (session .wait []).pend ≠ .none ∧ (session .none []).pend = .none := by
  decide +kernel

theorem witness_TimeoutResendsTheOldest_wait :
    let s := { sentOne .wait [] with counters := { State.reset.counters with retry := 8 } }
    let u := session .wait []
    (s.pend = .wait ∧ s.pstate = .ready ∧ s.rxbuf = [] ∧ s.flags.eomSeen = false ∧
        (s.counters.retry + 1).toNat < s.cfg.maxRetries.toNat ∧ s.win.outstanding ≠ 0) ∧
      (u.pend = .wait ∧ u.pstate = .ready ∧ u.rxbuf = [] ∧ u.flags.eomSeen = false ∧
        (u.counters.retry + 1).toNat < u.cfg.maxRetries.toNat ∧ u.win.outstanding = 0) := by decide +kernel

theorem witness_TimeoutResendsTheOldest_start :
    let s := negotiating []
    let u := { s with flags := { s.flags with gotSync := true } }
    (s.pend = .start ∧ s.pstate = .negotiating ∧ s.rxbuf = [] ∧
        (s.counters.retry + 1).toNat < s.cfg.maxRetries.toNat ∧ s.flags.gotSync = false) ∧
      (u.pend = .start ∧ u.pstate = .negotiating ∧ u.rxbuf = [] ∧
        (u.counters.retry + 1).toNat < u.cfg.maxRetries.toNat ∧ u.flags.gotSync = true) := by decide +kernel

/-- The last timeout, one before it with an empty `RXBUF`, and one with a partial packet. -/
theorem witness_TimeoutResendsTheOldest_general :
    let s := { session .wait [] with counters := { State.reset.counters with retry := 9 } }
    let u := { session .wait [] with counters := { State.reset.counters with retry := 8 } }
    let v := { session .wait [] with rxbuf := 0x07 :: [0x00] }
    (s.pend ≠ .none ∧ s.cfg.maxRetries.toNat ≤ (s.counters.retry + 1).toNat) ∧
      (u.pend ≠ .none ∧ (u.counters.retry + 1).toNat < u.cfg.maxRetries.toNat ∧ u.rxbuf = []) ∧
      (v.pend ≠ .none ∧ (v.counters.retry + 1).toNat < v.cfg.maxRetries.toNat ∧ v.rxbuf = 0x07 :: [0x00]) := by
  decide +kernel

theorem witness_TimeoutResendsTheOldest_afterFlush :
    (negotiating []).pstate = .negotiating ∧
      ((sentOne .wait []).pstate = .ready ∧ (sentOne .wait []).win.outstanding ≠ 0) ∧
      ((session .wait []).pstate = .ready ∧ (session .wait []).win.outstanding = 0) ∧ failed.pstate = .failed ∧
      { failed with pstate := .closing }.pstate = .closing ∧ State.reset.pstate = .unstarted := by decide +kernel

theorem witness_SilenceFailsAfterMaxRetries_wait :
    let s := session .wait []
    s.rxbuf = [] ∧ s.counters.retry = 0 ∧ s.cfg.maxRetries ≠ 0 ∧ s.pend = .wait ∧ s.pstate = .ready ∧
      s.flags.eomSeen = false ∧ 0 < s.cfg.maxRetries.toNat ∧ 9 < s.cfg.maxRetries.toNat ∧ s.failCause = .none := by
  decide +kernel

theorem witness_SilenceFailsAfterMaxRetries_sendData :
    let s := { session .sendData [] with sizes := { (session .sendData []).sizes with rwin := 0 } }
    s.rxbuf = [] ∧ s.counters.retry = 0 ∧ s.cfg.maxRetries ≠ 0 ∧ s.pend = .sendData ∧ s.pstate = .ready ∧
      s.sendReady = false := by decide +kernel

theorem witness_SilenceFailsAfterMaxRetries_start :
    let s := negotiating []
    s.rxbuf = [] ∧ s.counters.retry = 0 ∧ s.cfg.maxRetries ≠ 0 ∧ s.pend = .start ∧ s.pstate = .negotiating ∧
      s.flags.gotSync = false := by decide +kernel

theorem witness_BothResetsDoTheSame : isReset .reset = true ∧ isReset (.csrWrite 0x04 3) = true := by decide +kernel

/-- For each register a legal value at the edge of its range and an illegal one next to it. -/
theorem witness_ConfigurationWriteRule :
    cfg0Legal 0x00040510 = true ∧ cfg0Legal 0x00020A01 = true ∧ cfg0Legal 0x00040511 = false ∧
      cfg0Legal 0x00020B01 = false ∧ cfg1Legal 0x00010001 = true ∧ cfg1Legal 0x00010000 = false ∧
      cfg2Legal 0x01010001 = true ∧ cfg2Legal 0x00010001 = false ∧ State.reset.pstate = .unstarted := by decide +kernel

/-- `CTRL` with `CLR_STICKY` and without; a read-only, an unaligned and an unmapped offset. -/
theorem witness_ConfigurationWriteRule_other :
    BitVec.getLsbD (2 : Word) 0 = false ∧ BitVec.getLsbD (2 : Word) 1 = true ∧ BitVec.getLsbD (4 : Word) 0 = false ∧
      (0x14 ≠ 0x04 ∧ 0x14 ≠ 0x08 ∧ 0x14 ≠ 0x0C ∧ 0x14 ≠ 0x10) ∧
      (0x09 ≠ 0x04 ∧ 0x09 ≠ 0x08 ∧ 0x09 ≠ 0x0C ∧ 0x09 ≠ 0x10) ∧
      (0x50 ≠ 0x04 ∧ 0x50 ≠ 0x08 ∧ 0x50 ≠ 0x0C ∧ 0x50 ≠ 0x10) := by decide

theorem witness_StatusViewsShowTheRegisters :
    0x15 % 4 ≠ 0 ∧ 0x4C < 0x4D ∧ 0x4C < 0x50 ∧ (0 < 4 ∧ 3 < 4) ∧ (0 < 2 ∧ 1 < 2) := by decide

/-- The first and the last byte of the lent slot, and the bytes next to them. -/
theorem witness_BufferWritesOnlyTheLentSlot :
    (borrowed.flags.bufOwned = true ∧ 0x8000 + 1024 * borrowed.win.bufSlot.toNat ≤ 0x8400 ∧
        0x8400 ≤ 0x8000 + 1024 * borrowed.win.bufSlot.toNat + 1023) ∧
      (borrowed.flags.bufOwned = true ∧ 0x8000 + 1024 * borrowed.win.bufSlot.toNat ≤ 0x87FF ∧
        0x87FF ≤ 0x8000 + 1024 * borrowed.win.bufSlot.toNat + 1023) ∧
      ¬(borrowed.flags.bufOwned = true ∧ 0x8000 + 1024 * borrowed.win.bufSlot.toNat ≤ 0x83FF ∧
        0x83FF ≤ 0x8000 + 1024 * borrowed.win.bufSlot.toNat + 1023) ∧
      ¬(borrowed.flags.bufOwned = true ∧ 0x8000 + 1024 * borrowed.win.bufSlot.toNat ≤ 0x8800 ∧
        0x8800 ≤ 0x8000 + 1024 * borrowed.win.bufSlot.toNat + 1023) := by decide +kernel

/-! The invariant holds of a state in use, with a packet outstanding and a timeout to come. -/

/-- `sentOne` waiting, its next event a timeout. -/
def waiting : State := sentOne .wait [.rxTimeout]

theorem waiting_slot : SlotInv waiting :=
  ⟨nofun, fun _ => by decide +kernel, by decide +kernel⟩

theorem waiting_reord : ReordInv waiting := (by decide +kernel : ∀ q, (waiting.reordAt q).valid = true → _ ∧ _)

theorem waiting_size : SizeInv waiting :=
  ⟨by decide +kernel, by decide +kernel, by decide +kernel, by decide +kernel, by decide +kernel, by decide +kernel,
    by decide +kernel, fun _ => by decide +kernel⟩

theorem waiting_length : LengthInv waiting := ⟨by decide +kernel, by decide +kernel⟩

theorem waiting_inv : Inv waiting where
  control := ⟨⟨nofun, nofun⟩, fun _ => rfl⟩
  handshake := ⟨nofun, nofun, fun _ => ⟨rfl, rfl⟩⟩
  fresh := ⟨fun h => h.elim nofun nofun, nofun⟩
  window := ⟨by decide +kernel, by decide +kernel, by decide +kernel, by decide +kernel⟩
  slot := waiting_slot
  borrow := nofun
  reord := waiting_reord
  ack := ⟨rfl, by decide +kernel⟩
  size := waiting_size
  length := waiting_length
  rx := fun _ => .inl rfl
  counter := ⟨by decide +kernel, fun _ => by decide +kernel, nofun⟩
  memory := ⟨by decide +kernel, by decide +kernel, by decide +kernel, by decide +kernel⟩

/-- The state after that timeout. -/
def waited : State := afterFlush (countTimeout (sentOne .wait []))

/-- For the three statements about `step` that take a hypothesis on the state. -/
theorem witness_EveryStepKeepsTheInvariant : Inv waiting ∧ step waiting = .next waited := ⟨waiting_inv, rfl⟩

theorem witness_EveryTransmissionDecodes : Inv waiting ∧ step waiting = .next waited := ⟨waiting_inv, rfl⟩

theorem witness_EveryStepKeepsMemoryCanonical :
    waiting.slotMem.wf = true ∧ waiting.reordMem.wf = true ∧ step waiting = .next waited :=
  ⟨by decide +kernel, by decide +kernel, rfl⟩

theorem witness_StateMovesAreTheListedOnes :
    ControlInv waiting ∧ handle .rxTimeout waiting = .next (afterFlush (countTimeout waiting)) ∧
      isReset .rxTimeout = false ∧ handle .reset waiting = .next (resetBlock waiting) ∧ isReset .reset = true :=
  ⟨waiting_inv.control, rfl, rfl, rfl, rfl⟩

theorem witness_LastAckedNeverMovesBack :
    isReset (.cmd 5) = false ∧ handle (.cmd 5) (session .none []) = .next (shutdownOp (session .none [])) :=
  ⟨rfl, rfl⟩

theorem witness_NextSeqChangesOnlyByNewData :
    isReset (.cmd 0x00020103) = false ∧
      handle (.cmd 0x00020103) borrowed = .next (completionCheck (fillSlot true 0 0 2 borrowed)) ∧
      (completionCheck (fillSlot true 0 0 2 borrowed)).win.nextSeq ≠ borrowed.win.nextSeq :=
  ⟨rfl, rfl, by decide +kernel⟩

theorem witness_OutstandingPacketsAreImmutable :
    Inv waiting ∧ isReset .rxTimeout = false ∧
      handle .rxTimeout waiting = .next (afterFlush (countTimeout waiting)) ∧
      waiting.win.isOutstanding 1 ∧ (afterFlush (countTimeout waiting)).win.isOutstanding 1 :=
  ⟨waiting_inv, rfl, rfl, by decide +kernel, by decide +kernel⟩

end Sys2Proof.Tests
end

/-! ## Proofs of the family 00_scope: which steps there are, and what a step runs -/

namespace Sys2Proof.Machine

open Sys2Proof

/-! ### The decoder runs, the receive request is open -/

/-- The decoder runs in `NEGOTIATING` and `READY` and in no other state (R77, R140). -/
theorem State.decoderOn_iff (s : State) : s.decoderOn = true ↔ s.pstate = .negotiating ∨ s.pstate = .ready := by
  unfold State.decoderOn
  cases s.pstate <;> simp

/-- The open request carries `CFG1[31:16]` and stands exactly while a command is pending (R43, R76). -/
theorem State.receiveRequest_eq (s : State) :
    s.receiveRequest = if s.pend = .none then none else some (s.cfg.cfg1.extractLsb' 16 16) := by
  unfold State.receiveRequest ConfigRegs.timeout
  cases s.pend <;> simp

/-! ### The parts of a step answer a next state -/

/-- Two parts that answer a next state do so one after the other. -/
theorem andThen_total {o : Result} {f : State → Result} (ho : ∃ s, o = .next s) (hf : ∀ s, ∃ t, f s = .next t) :
    ∃ t, andThen o f = .next t := by
  obtain ⟨s, rfl⟩ := ho
  exact hf s

/-- Every instruction has a next state in every state. -/
theorem exec_total (i : Instr) (s : State) : ∃ t, exec i s = .next t := by
  cases i <;> exact ⟨_, rfl⟩

theorem decodeRounds_total (n : Nat) (s : State) : ∃ t, decodeRounds n s = .next t := by
  induction n generalizing s with
  | zero => exact ⟨s, rfl⟩
  | succ n ih =>
    unfold decodeRounds
    split
    · split
      case h_1 => exact ⟨s, rfl⟩
      case h_5 i rest _ => exact andThen_total (exec_total i _) ih
      all_goals exact ih _
    · exact ⟨s, rfl⟩

theorem decodeLoop_total (s : State) : ∃ t, decodeLoop s = .next t := decodeRounds_total _ s

theorem feed_total (chunk : List Byte) (s : State) : ∃ t, feed chunk s = .next t := by
  induction chunk generalizing s with
  | nil => exact ⟨s, rfl⟩
  | cons b chunk ih =>
    unfold feed
    split
    · exact andThen_total (decodeLoop_total _) ih
    · exact ⟨s, rfl⟩

theorem flush_total (s : State) : ∃ t, flush s = .next t := by
  unfold flush
  split
  · exact ⟨s, rfl⟩
  · exact decodeLoop_total _

/-- A command word is run or answered, legal or not (R112, R201). -/
theorem runCommand_total (w : Word) (s : State) : ∃ t, runCommand w s = .next t := by
  unfold runCommand
  split
  · exact exec_total _ s
  · exact ⟨_, rfl⟩

/-! ### The byte stream's events, with no request open and with one -/

/-- No request is open: the chunk has no step (R76, U13). -/
theorem rxBytes_of_none {s : State} (h : s.pend = .none) (chunk : List Byte) :
    rxBytes chunk s = .refused .noReceiveRequest := by
  unfold rxBytes
  rw [if_pos ((receiveRequest_isNone s).mpr h)]

theorem rxTimeout_of_none {s : State} (h : s.pend = .none) : rxTimeout s = .refused .noReceiveRequest := by
  unfold rxTimeout
  rw [if_pos ((receiveRequest_isNone s).mpr h)]

theorem rxError_of_none {s : State} (h : s.pend = .none) : rxError s = .refused .noReceiveRequest := by
  unfold rxError
  rw [if_pos ((receiveRequest_isNone s).mpr h)]

/-- An empty chunk has no step (U14). -/
theorem rxBytes_nil {s : State} (h : s.pend ≠ .none) : rxBytes [] s = .refused .emptyChunk := by
  unfold rxBytes
  rw [if_neg (mt (receiveRequest_isNone s).mp h)]
  rfl

/-- A non-empty chunk is fed and the completion check closes the step (R77, R210). -/
theorem rxBytes_cons {s : State} (h : s.pend ≠ .none) (b : Byte) (chunk : List Byte) :
    rxBytes (b :: chunk) s = andThen (feed (b :: chunk) s) fun t => .next (completionCheck t) := by
  unfold rxBytes
  rw [if_neg (mt (receiveRequest_isNone s).mp h)]
  rfl

theorem rxBytes_cons_total {s : State} (h : s.pend ≠ .none) (b : Byte) (chunk : List Byte) :
    ∃ t, rxBytes (b :: chunk) s = .next t := by
  rw [rxBytes_cons h]
  exact andThen_total (feed_total _ s) fun t => ⟨completionCheck t, rfl⟩

theorem rxTimeout_total {s : State} (h : s.pend ≠ .none) : ∃ t, rxTimeout s = .next t := by
  unfold rxTimeout
  rw [if_neg (mt (receiveRequest_isNone s).mp h)]
  dsimp only
  split
  · exact ⟨_, rfl⟩
  · exact andThen_total (flush_total _) fun u => ⟨afterFlush u, rfl⟩

theorem rxError_total {s : State} (h : s.pend ≠ .none) : ∃ t, rxError s = .next t := by
  unfold rxError
  rw [if_neg (mt (receiveRequest_isNone s).mp h)]
  exact ⟨_, rfl⟩

/-! ### Where a step stops -/

/-- The events of the byte stream, which answer an open receive request (R76). -/
def InEvent.fromStream : InEvent → Prop
  | .rxBytes _ => True
  | .rxTimeout => True
  | .rxError => True
  | .reset => False
  | .csrWrite _ _ => False
  | .csrRead _ => False
  | .bufWrite _ _ => False
  | .cmd _ => False

theorem InEvent.fromStream_iff (e : InEvent) :
    e.fromStream ↔ (∃ c, e = .rxBytes c) ∨ e = .rxTimeout ∨ e = .rxError := by
  cases e <;> simp [InEvent.fromStream]

/-- With no command pending the events of the byte stream are refused (R76, U13). -/
theorem handle_of_none {s : State} (h : s.pend = .none) {e : InEvent} (he : e.fromStream) :
    handle e s = .refused .noReceiveRequest := by
  rcases e.fromStream_iff.mp he with ⟨c, rfl⟩ | rfl | rfl
  · exact rxBytes_of_none h c
  · exact rxTimeout_of_none h
  · exact rxError_of_none h

/-- Every other event is a step, but for the empty chunk (U14). -/
theorem handle_total {e : InEvent} {s : State} (hreq : e.fromStream → s.pend ≠ .none) (hne : e ≠ .rxBytes []) :
    ∃ t, handle e s = .next t := by
  cases e with
  | reset => exact ⟨_, rfl⟩
  | csrWrite addr v => exact ⟨_, rfl⟩
  | csrRead addr => exact ⟨_, rfl⟩
  | bufWrite addr b => exact ⟨_, rfl⟩
  | cmd w => exact runCommand_total w s
  | rxBytes chunk =>
    cases chunk with
    | nil => exact absurd rfl hne
    | cons b chunk => exact rxBytes_cons_total (hreq trivial) b chunk
  | rxTimeout => exact rxTimeout_total (hreq trivial)
  | rxError => exact rxError_total (hreq trivial)

/-- What handling an event can answer: a next state, or one of the two refusals (U13, U14). -/
theorem handle_cases (e : InEvent) (s : State) :
    (∃ t, handle e s = .next t) ∨
      (s.pend = .none ∧ e.fromStream ∧ handle e s = .refused .noReceiveRequest) ∨
      (e = .rxBytes [] ∧ handle e s = .refused .emptyChunk) := by
  by_cases hclosed : s.pend = .none ∧ e.fromStream
  · obtain ⟨hp, he⟩ := hclosed
    exact .inr (.inl ⟨hp, he, handle_of_none hp he⟩)
  · have hreq : e.fromStream → s.pend ≠ .none := fun he hp => hclosed ⟨hp, he⟩
    by_cases hnil : e = .rxBytes []
    · subst hnil
      exact .inr (.inr ⟨rfl, rxBytes_nil (hreq trivial)⟩)
    · exact .inl (handle_total hreq hnil)

/-- Settles O15: an event is a step or one of the two that U13 and U14 exclude (`handle_cases`). -/
theorem stepsStopOnlyOnImpossibleEvents : Obligations.StepsStopOnlyOnImpossibleEvents := by
  refine ⟨exec_total, fun s => ?_, State.receiveRequest_eq⟩
  rcases step_cases s with ⟨_, hidle⟩ | ⟨e, rest, hin, hstep⟩
  · exact .inl ⟨s, hidle⟩
  · rw [hstep]
    rcases handle_cases e { s with inputs := rest } with hnext | ⟨hp, he, hr⟩ | ⟨rfl, hr⟩
    · exact .inl hnext
    · refine .inr (.inl ⟨hp, hr, ?_⟩)
      rcases e.fromStream_iff.mp he with ⟨c, rfl⟩ | rfl | rfl
      · exact .inl ⟨c, rest, hin⟩
      · exact .inr (.inl ⟨rest, hin⟩)
      · exact .inr (.inr ⟨rest, hin⟩)
    · exact .inr (.inr ⟨hr, rest, hin⟩)

/-! ### What a step runs -/

/-- A step handles the next input event (R8). -/
theorem step_of_cons {s : State} {e : InEvent} {rest : List InEvent} (h : s.inputs = e :: rest) :
    step s = handle e { s with inputs := rest } := by
  unfold step nextEvent
  rw [h]

/-- With no input to come the block is idle (R209, log 1). -/
theorem step_of_nil {s : State} (h : s.inputs = []) : step s = .next s := by
  unfold step nextEvent
  rw [h]

/-- A word that decodes to `i` runs `i` (R201). -/
theorem runCommand_of_ok {w : Word} {i : Instr} (h : decodeCommand w = .ok i) (s : State) :
    runCommand w s = exec i s := by
  unfold runCommand
  rw [h]

/-- A packet at the head of `RXBUF` is taken out and executed, and the loop goes on (R140). -/
theorem decodeRounds_of_packet {s : State} {i : Instr} {rest : List Byte} (hon : s.decoderOn = true)
    (h : decodeFrame s.maxLen s.rxbuf = .packet i rest) (n : Nat) :
    decodeRounds (n + 1) s = andThen (exec i { s with rxbuf := rest }) (decodeRounds n) := by
  rw [decodeRounds, if_pos hon, h]

/-! ### What the completion check does (R210) -/

theorem completionCheck_of_start {s : State} (hp : s.pend = .start) (hr : s.pstate = .ready) :
    completionCheck s =
      { s with pend := .none, out := s.out ++ [.rsp (rspWord 1 .ok 0 s.sizes.rwin s.sizes.negPktK)] } := by
  unfold completionCheck
  rw [hp]
  exact if_pos hr

theorem completionCheck_of_wait {s : State} (hp : s.pend = .wait) (he : s.flags.eomSeen = true) :
    completionCheck s = { s with pend := .none, out := s.out ++ [.rsp (rspWord 4 .ok 0 0 0)] } := by
  unfold completionCheck
  rw [hp]
  exact if_pos he

/-- The new packet goes out before the answer (R266, R210). -/
theorem completionCheck_of_sendData {s : State} (hp : s.pend = .sendData) (hr : s.pstate = .ready)
    (hs : s.sendReady = true) :
    completionCheck s = { respond 3 .ok (transmitNew s) with pend := .none } := by
  unfold completionCheck
  rw [hp]
  exact if_pos ⟨hr, hs⟩

/-- New-data transmission as the whole next state: the packet, the two moved registers, and the acknowledgement that
every DATA packet carries (R261, R266). -/
theorem transmitNew_eq (s : State) :
    transmitNew s =
      { s with
        win :=
          { s.win with
            nextSeq := s.win.nextSeq + 1, nextRetx := s.win.nextSeq + 1, lastAckSent := s.win.lastRecv }
        flags := { s.flags with ackPending := false }
        stats := { s.stats with tx := satInc s.stats.tx }
        out := s.out ++ [.tx (s.dataImage s.win.nextSeq)] } := rfl

/-- A SEND_DATA that may transmit does so and is answered: the whole next state. -/
theorem completionCheck_sendData_eq {s : State} (hp : s.pend = .sendData) (hr : s.pstate = .ready)
    (hs : s.sendReady = true) :
    completionCheck s =
      { s with
        pend := .none
        win :=
          { s.win with
            nextSeq := s.win.nextSeq + 1, nextRetx := s.win.nextSeq + 1, lastAckSent := s.win.lastRecv }
        flags := { s.flags with ackPending := false }
        stats := { s.stats with tx := satInc s.stats.tx }
        out := s.out ++ [.tx (s.dataImage s.win.nextSeq), .rsp (rspWord 3 .ok 0 0 0)] } := by
  rw [completionCheck_of_sendData hp hr hs, transmitNew_eq]
  simp [respond, emit]

/-- In every other case nothing is due. -/
theorem completionCheck_of_not_due {s : State} (hstart : ¬(s.pend = .start ∧ s.pstate = .ready))
    (hwait : ¬(s.pend = .wait ∧ s.flags.eomSeen = true))
    (hsend : ¬(s.pend = .sendData ∧ s.pstate = .ready ∧ s.sendReady = true)) : completionCheck s = s := by
  rcases completionCheck_cases s with h | ⟨hp, hr, _⟩ | ⟨hp, he, _⟩ | ⟨hp, hr, hs, _⟩
  · exact h
  · exact absurd ⟨hp, hr⟩ hstart
  · exact absurd ⟨hp, he⟩ hwait
  · exact absurd ⟨hp, hr, hs⟩ hsend

/-- Settles O11: the equations of `step`, `decodeRounds`, `rxBytes` and `completionCheck`, clause by clause. -/
theorem stepRunsTheDecodedInstruction : Obligations.StepRunsTheDecodedInstruction := by
  refine ⟨fun s e rest => step_of_cons, fun s => step_of_nil, fun s w rest i hin hw => ?command,
    fun s n i rest hp hf => ?packet, fun s b chunk rest hin hp => ?chunk, fun s => completionCheck_of_start,
    fun s => completionCheck_of_wait, fun s => completionCheck_sendData_eq, fun s => completionCheck_of_not_due⟩
  case command => exact (step_of_cons hin).trans (runCommand_of_ok hw _)
  case packet => exact decodeRounds_of_packet (s.decoderOn_iff.mpr hp) hf n
  case chunk => exact (step_of_cons hin).trans (rxBytes_cons (s := { s with inputs := rest }) hp b chunk)

end Sys2Proof.Machine

/-! ## Proofs of the family 10_state: what every step keeps, and what resets, registers, errors and timeouts do -/

namespace Sys2Proof.Machine

open Sys2Proof

section

variable {s : State}

/-! ### The parts of the invariant that every operation keeps -/

/-- `ControlInv` as it stands inside a step, where a START may still pend in `READY` until the completion check
answers it (R210). -/
def StepControlInv (s : State) : Prop :=
  (s.pstate = .negotiating → s.pend = .start) ∧
    (s.pend ≠ .none → s.pstate = .negotiating ∨ s.pstate = .ready)

/-- What every operation inside a step keeps: `Inv` without the reorder buffer and the acknowledgements owed, which are
settled only after a packet, and without `RXBUF`, which is settled only after the decoder loop. -/
structure StepInv (s : State) : Prop where
  control : StepControlInv s
  handshake : HandshakeInv s
  fresh : FreshInv s
  window : WindowInv s
  slot : SlotInv s
  borrow : BorrowInv s
  size : SizeInv s
  length : LengthInv s
  counter : CounterInv s
  memory : MemoryInv s

/-- What holds between two packets of a chunk. -/
structure PacketInv (s : State) : Prop extends StepInv s where
  reord : ReordInv s
  ack : AckInv s

theorem ControlInv.stepControlInv (h : ControlInv s) : StepControlInv s := by
  obtain ⟨hstart, hready⟩ := h
  refine ⟨hstart.mpr, fun hp => ?_⟩
  cases hpend : s.pend with
  | none => exact absurd hpend hp
  | start => exact .inl (hstart.mp hpend)
  | sendData => exact .inr (hready (.inr hpend))
  | wait => exact .inr (hready (.inl hpend))

theorem Inv.packetInv (h : Inv s) : PacketInv s :=
  { h with control := h.control.stepControlInv }

theorem PacketInv.inv (h : PacketInv s) (hc : ControlInv s) (hx : RxInv s) : Inv s :=
  { h with control := hc, rx := hx }

/-- Once the handshake is done nothing has to be fresh. -/
theorem freshInv_of_ne (hu : s.pstate ≠ .unstarted) (hn : s.pstate ≠ .negotiating) : FreshInv s :=
  ⟨fun h => (h.elim hu hn).elim, fun h => absurd h hu⟩

theorem freshInv_of_ready (h : s.pstate = .ready) : FreshInv s :=
  freshInv_of_ne (by simp [h]) (by simp [h])

theorem packetInv_emit (h : PacketInv s) (e : OutEvent) : PacketInv (emit e s) := { h with }

theorem stepInv_transmit (h : StepInv s) (hr : s.pstate = .ready) (ty : PktType) (q : SeqNum) (lch rch : Channel)
    (f : Bool) (p : List Byte) : StepInv (transmit ty q lch rch f p s) :=
  { h with fresh := freshInv_of_ready hr }

theorem stepInv_oweAck (h : StepInv s) (hr : s.pstate = .ready) : StepInv (oweAck s) :=
  { h with fresh := freshInv_of_ready hr }

theorem stepInv_deliver (h : StepInv s) (lch rch : Channel) (eom : Bool) (p : List Byte) :
    StepInv (deliver lch rch eom p s) := { h with }


/-! ### Errors, failure, good packets -/

theorem State.ne_unstarted_of_on (hon : s.decoderOn = true) : s.pstate ≠ .unstarted := by
  rcases s.decoderOn_iff.mp hon with h | h <;> simp [h]

theorem State.ne_closed_of_on (hon : s.decoderOn = true) : s.pstate ≠ .closed := by
  rcases s.decoderOn_iff.mp hon with h | h <;> simp [h]

theorem State.on_of_ready (h : s.pstate = .ready) : s.decoderOn = true := s.decoderOn_iff.mpr (.inr h)

theorem State.on_of_negotiating (h : s.pstate = .negotiating) : s.decoderOn = true := s.decoderOn_iff.mpr (.inl h)

/-- A command pends only where the decoder runs (R30). -/
theorem StepInv.on_of_pend (h : StepInv s) (hp : s.pend ≠ .none) : s.decoderOn = true :=
  s.decoderOn_iff.mpr (h.control.2 hp)

/-- The legal configuration has no zero limit (R36 to R38). -/
theorem SizeInv.limits_pos (h : SizeInv s) :
    0 < s.cfg.maxRetries ∧ 0 < s.cfg.negErrLimit ∧ 0 < s.cfg.decayK := by
  obtain ⟨-, h1, h2, -⟩ := h
  simp only [cfg1Legal, cfg2Legal, Bool.and_eq_true, decide_eq_true_eq] at h1 h2
  unfold ConfigRegs.maxRetries ConfigRegs.negErrLimit ConfigRegs.decayK
  refine ⟨?_, ?_, ?_⟩ <;> bv_omega

theorem SizeInv.sizes_le (h : SizeInv s) :
    s.sizes.lwin ≤ 16 ∧ s.sizes.lpktK ≤ 10 ∧ s.sizes.acceptK ≤ 10 ∧ s.sizes.negPktK ≤ 10 := by
  obtain ⟨-, -, -, hlwin, hlpkt, haccept, hneg, -⟩ := h
  exact ⟨hlwin, hlpkt, haccept, hneg⟩

/-- After START the sizes and the configuration stay legal in whatever state. -/
theorem SizeInv.of_started (h : SizeInv s) (hu : s.pstate ≠ .unstarted) {t : State} (hcfg : t.cfg = s.cfg)
    (hsizes : t.sizes = s.sizes) : SizeInv t := by
  obtain ⟨h0, h1, h2, hlwin, hlpkt, haccept, hneg, hstarted⟩ := h
  unfold SizeInv
  rw [hcfg, hsizes]
  exact ⟨h0, h1, h2, hlwin, hlpkt, haccept, hneg, fun _ => hstarted hu⟩

theorem CounterInv.errcnt_lt (h : CounterInv s) :
    s.pstate = .negotiating → s.counters.errcnt.toNat < s.cfg.negErrLimit.toNat := h.2.2

/-- `good_packet` leaves `GOODCNT` below `DECAY_K` (R313). -/
theorem counterInv_goodPacket (h : CounterInv s) (hsize : SizeInv s) : CounterInv (goodPacket s) := by
  obtain ⟨hgood, hretry, herr⟩ := h
  obtain ⟨-, -, hdecay⟩ := hsize.limits_pos
  unfold CounterInv goodPacket
  dsimp only
  split
  · refine ⟨hdecay, hretry, fun hp => ?_⟩
    have := herr hp
    dsimp only
    split <;> bv_omega
  · exact ⟨by bv_omega, hretry, herr⟩

theorem stepInv_goodPacket (h : StepInv s) (hon : s.decoderOn = true) : StepInv (goodPacket s) :=
  { h with
    fresh := ⟨h.fresh.1, fun hu => absurd hu (State.ne_unstarted_of_on hon)⟩
    counter := counterInv_goodPacket h.counter h.size }

theorem packetInv_goodPacket (h : PacketInv s) (hon : s.decoderOn = true) : PacketInv (goodPacket s) :=
  { h with toStepInv := stepInv_goodPacket h.toStepInv hon }

theorem packetInv_drop1 (h : PacketInv s) (hon : s.decoderOn = true) : PacketInv (drop1 s) :=
  { h with fresh := ⟨h.fresh.1, fun hu => absurd hu (State.ne_unstarted_of_on hon)⟩ }

/-- `raise Fatal` as the whole next state (R320). -/
theorem raiseFatal_eq (c : FailCause) (s : State) :
    raiseFatal c s =
      { s with
        pstate := .failed
        failCause := if s.failCause = .none then c else s.failCause
        flags := { s.flags with bufOwned := false }
        pend := .none
        out :=
          s.out ++ .evt (.failed c) ::
            if s.pend = .none then [] else [.rsp (rspWord s.pend.op .failed 0 0 0)] } := by
  simp [raiseFatal, endPending_eq, emit]

/-- `peer_close` as the whole next state (R241). -/
theorem peerClose_eq (s : State) :
    peerClose s =
      { s with
        pstate := .closing
        flags := { s.flags with closingF := true }
        pend := .none
        out :=
          s.out ++ .evt .peerClosed ::
            if s.pend = .none then [] else [.rsp (rspWord s.pend.op .peerClosed 0 0 0)] } := by
  simp [peerClose, endPending_eq, emit]

/-- A slot in use stays accounted for when the connection ends in `CLOSING` or `FAILED` (R211, R320, log 11). -/
theorem SlotInv.of_ended (h : SlotInv s) (hon : s.decoderOn = true) {t : State} (hslots : t.slots = s.slots)
    (hwin : t.win = s.win) (hpend : t.pend = .none) (hend : t.pstate = .closing ∨ t.pstate = .failed) : SlotInv t := by
  obtain ⟨-, hout, huse⟩ := h
  unfold SlotInv State.slot
  rw [hslots, hwin]
  exact ⟨by simp [hpend], fun _ => hout (State.ne_closed_of_on hon),
    fun q hq => (huse q hq).imp_right fun hn => ⟨hn.1, .inr hend⟩⟩

/-- A fatal exception keeps the invariant, whatever the errors and timeouts counted just before it. -/
theorem packetInv_raiseFatal (h : PacketInv s) (hon : s.decoderOn = true) (c : FailCause) (st : Stats) (k : Counters)
    (hk : k.goodcnt = s.counters.goodcnt) : PacketInv (raiseFatal c { s with stats := st, counters := k }) := by
  rw [raiseFatal_eq]
  exact
    { h with
      control := ⟨nofun, fun hp => absurd rfl hp⟩
      handshake := ⟨nofun, nofun, nofun⟩
      fresh := freshInv_of_ne nofun nofun
      slot := h.slot.of_ended hon rfl rfl rfl (.inr rfl)
      borrow := nofun
      size := h.size.of_started (State.ne_unstarted_of_on hon) rfl rfl
      counter := ⟨lt_of_eq_of_lt hk h.counter.1, by simp, nofun⟩ }

/-! ### The handshake -/

/-- What a SYNC, sent or accepted, may do before the handshake is looked at: set the two flags, settle legal sizes, and
leave `ERRCNT` below its limit. -/
theorem packetInv_finishHandshake (h : PacketInv s) (hon : s.decoderOn = true) {u : State} {sz : SizeRegs}
    {sent got : Bool} {errs : BitVec 16} {st : Stats} {o : List OutEvent}
    (hu : u = { s with
      sizes := sz, flags := { s.flags with sentSync := sent, gotSync := got }
      counters := { s.counters with errcnt := errs }, stats := st, out := o })
    (hlwin : sz.lwin = s.sizes.lwin) (haccept : sz.acceptK = s.sizes.acceptK) (hrwin : sz.rwin ≤ 16)
    (hlpkt : sz.lpktK ≤ 10) (hneg : sz.negPktK ≤ 10) (hsent : s.flags.sentSync = true → sent = true)
    (hgot : s.flags.gotSync = true → got = true)
    (herrs : s.pstate = .negotiating → errs.toNat < s.cfg.negErrLimit.toNat) : PacketInv (finishHandshake u) := by
  obtain ⟨hw16, -, hwne, hwle⟩ := h.window
  obtain ⟨hcfg0, hcfg1, hcfg2, hlwin16, -, hacc10, -, hstarted⟩ := h.size
  obtain ⟨-, -, hready⟩ := h.handshake
  obtain ⟨hgood, hretry, -⟩ := h.counter
  obtain ⟨hretries, -⟩ := h.size.limits_pos
  have hne := State.ne_unstarted_of_on hon
  have hsize : SizeInv u := by
    subst hu
    unfold SizeInv
    simp only [hlwin, haccept]
    exact ⟨hcfg0, hcfg1, hcfg2, hlwin16, hlpkt, hacc10, hneg, fun _ => hstarted hne⟩
  have hreord : ∀ q, (s.reordAt q).valid = true → 2 ≤ dist q s.win.lastRecv ∧ dist q s.win.lastRecv ≤ sz.lwin := by
    rw [hlwin]; exact h.reord
  have hack : s.flags.ackPending = false ∧
      (dist s.win.lastRecv s.win.lastAckSent).toNat < max 1 (sz.lwin.toNat / 2) := by
    rw [hlwin]; exact h.ack
  rcases finishHandshake_cases u with ⟨hn, ha, hb, he⟩ | ⟨hno, he⟩ <;> rw [he] <;> subst hu
  · obtain ⟨hslotSend, hslotOut, hslotUse⟩ := h.slot
    have hn' : s.pstate = .negotiating := hn
    obtain ⟨hwin, hborrow, -⟩ := h.fresh.1 (.inr hn)
    exact
      { h with
        control := ⟨nofun, fun _ => .inr rfl⟩
        handshake := ⟨nofun, nofun, fun _ => ⟨ha, hb⟩⟩
        fresh := freshInv_of_ready rfl
        window := ⟨hw16, hrwin, hwne, hwle⟩
        slot := ⟨hslotSend, fun _ => hslotOut (State.ne_closed_of_on hon),
          fun q hq => (hslotUse q hq).imp_right fun hnext => ⟨hnext.1, by simpa [hn'] using hnext.2⟩⟩
        borrow := fun hb => absurd hb (by simp [hborrow])
        reord := hreord
        ack := hack
        size := hsize.of_started hne rfl rfl
        counter := ⟨hgood, fun _ => hretries, nofun⟩ }
  · exact
      { h with
        handshake := ⟨fun hu => absurd hu hne, fun hn hab => hno ⟨hn, hab⟩,
          fun hr => (hready hr).imp hsent hgot⟩
        fresh := ⟨h.fresh.1, fun hu => absurd hu hne⟩
        window := ⟨hw16, hrwin, hwne, hwle⟩
        reord := hreord
        ack := hack
        size := hsize
        counter := ⟨hgood, hretry, herrs⟩ }

theorem classMin_le_left (a b : SizeClass) : classMin a b ≤ a := by
  unfold classMin
  split <;> bv_omega

/-- The SYNC request of a timeout (R175). -/
theorem packetInv_requestSync (h : PacketInv s) (hn : s.pstate = .negotiating) : PacketInv (requestSync s) := by
  obtain ⟨-, hrwin, -⟩ := h.window
  obtain ⟨-, hlpkt, -, hneg⟩ := h.size.sizes_le
  exact packetInv_finishHandshake (sent := true) (got := s.flags.gotSync) (errs := s.counters.errcnt)
    h (State.on_of_negotiating hn) rfl rfl rfl hrwin hlpkt hneg (fun _ => rfl) id h.counter.errcnt_lt

/-- An error that ends nothing is only counted, and in `NEGOTIATING` it leaves `ERRCNT` below its limit (R310). -/
theorem countError_negotiating (kind : ErrKind) (hn : s.pstate = .negotiating) :
    ((tallyError kind s).counters.errcnt.toNat < s.cfg.negErrLimit.toNat ∧ countError kind s = tallyError kind s) ∨
      (s.cfg.negErrLimit.toNat ≤ (tallyError kind s).counters.errcnt.toNat ∧
        countError kind s = fallbackOrFail (tallyError kind s)) := by
  have hp : (tallyError kind s).pstate = .negotiating := hn
  unfold countError
  simp only [hp]
  split
  · exact .inr ⟨‹_›, rfl⟩
  · exact .inl ⟨not_le.mp ‹_›, rfl⟩

/-- The smaller size is advertised, or the smallest has failed (R312). -/
theorem packetInv_fallbackOrFail (h : PacketInv s) (hn : s.pstate = .negotiating) (kind : ErrKind) :
    PacketInv (fallbackOrFail (tallyError kind s)) := by
  have hon := State.on_of_negotiating hn
  obtain ⟨-, hrwin, -⟩ := h.window
  obtain ⟨-, hlpkt, -, hneg⟩ := h.size.sizes_le
  obtain ⟨-, hlimit, -⟩ := h.size.limits_pos
  rcases fallbackOrFail_cases (tallyError kind s) with ⟨hk, he⟩ | ⟨-, he⟩ <;> rw [he]
  · have hk' : s.sizes.lpktK - 1 ≤ 10 := by
      unfold Config.kMin at hk
      simp only [tallyError_sizes] at hk
      bv_omega
    refine packetInv_finishHandshake (sent := true) (got := s.flags.gotSync) (errs := 0)
      h hon rfl rfl rfl hrwin hk' ?_ (fun _ => rfl) id (fun _ => hlimit)
    dsimp only
    split
    · exact BitVec.le_trans (classMin_le_left _ _) hk'
    · exact hneg
  · exact packetInv_raiseFatal h hon _ _ _ rfl

/-- An error counted, and what it leads to (R310 to R312). -/
theorem packetInv_countError (h : PacketInv s) (hon : s.decoderOn = true) (kind : ErrKind) :
    PacketInv (countError kind s) := by
  obtain ⟨hgood, hretry, -⟩ := h.counter
  have hne := State.ne_unstarted_of_on hon
  rcases s.decoderOn_iff.mp hon with hn | hr
  · rcases countError_negotiating kind hn with ⟨hlt, he⟩ | ⟨-, he⟩ <;> rw [he]
    · exact
        { h with
          fresh := ⟨h.fresh.1, fun hu => absurd hu hne⟩
          counter := ⟨hgood, hretry, fun _ => hlt⟩ }
    · exact packetInv_fallbackOrFail h hn kind
  · rcases countError_cases kind s with he | ⟨hn, -⟩ | ⟨-, he⟩
    · rw [he]
      exact
        { h with
          fresh := freshInv_of_ready hr
          counter := ⟨hgood, hretry, fun hn => absurd (hr.symm.trans hn) nofun⟩ }
    · exact absurd (hr.symm.trans hn) nofun
    · rw [he]; exact packetInv_raiseFatal h hon _ _ _ rfl

/-- An accepted SYNC (R237). -/
theorem packetInv_handleSync (h : PacketInv s) (hon : s.decoderOn = true) (f : Bool) (win k : Byte) :
    PacketInv (handleSync f win k s) := by
  obtain ⟨-, hlpkt, -⟩ := h.size.sizes_le
  have hrwin : (settleSizes win k s).sizes.rwin ≤ 16 := by
    show BitVec.ofNat 5 (min win.toNat Config.winMax) ≤ 16
    unfold Config.winMax
    bv_omega
  have hneg : (settleSizes win k s).sizes.negPktK ≤ 10 := BitVec.le_trans (classMin_le_left _ _) hlpkt
  rcases handleSync_cases f win k s with ⟨-, he⟩ | ⟨-, -, he⟩ | ⟨-, -, he⟩ <;> rw [he]
  · exact packetInv_countError h hon .hdrerr
  · exact packetInv_finishHandshake (sent := s.flags.sentSync) (got := true) (errs := s.counters.errcnt)
      h hon rfl rfl rfl hrwin hlpkt hneg id (fun _ => rfl) h.counter.errcnt_lt
  · exact packetInv_finishHandshake (sent := true) (got := true) (errs := s.counters.errcnt)
      h hon rfl rfl rfl hrwin hlpkt hneg (fun _ => rfl) (fun _ => rfl) h.counter.errcnt_lt


/-! ### The send window -/

/-- What an ack leaves outstanding (R165). -/
theorem isOutstanding_after_ack {w : WindowRegs} {a : SeqNum} (h16 : w.outstanding ≤ 16) (ha : w.isOutstanding a)
    (x q : SeqNum) :
    { w with lastAcked := a, nextRetx := x }.isOutstanding q ↔
      w.isOutstanding q ∧ ¬dist q w.lastAcked ≤ dist a w.lastAcked := by
  obtain ⟨ha0, hao⟩ := ha
  unfold WindowRegs.isOutstanding WindowRegs.outstanding dist seqPred at *
  dsimp only
  constructor
  · rintro ⟨h1, h2⟩
    refine ⟨⟨?_, ?_⟩, ?_⟩ <;> bv_omega
  · rintro ⟨⟨h1, h2⟩, h3⟩
    refine ⟨?_, ?_⟩ <;> bv_omega

/-- The packet after the last one sent is not outstanding. -/
theorem not_isOutstanding_nextSeq {w : WindowRegs} (h16 : w.outstanding ≤ 16) : ¬w.isOutstanding w.nextSeq := by
  unfold WindowRegs.isOutstanding WindowRegs.outstanding dist seqPred at *
  rintro ⟨h1, h2⟩
  bv_omega

@[simp] theorem advanceAcked_win (a : SeqNum) (s : State) :
    (advanceAcked a s).win =
      { s.win with
        lastAcked := a
        nextRetx :=
          if dist s.win.nextRetx s.win.lastAcked ≤ dist a s.win.lastAcked then seqSucc a else s.win.nextRetx } := rfl

theorem windowInv_advanceAcked (h : WindowInv s) {a : SeqNum} (ha : s.win.isOutstanding a) :
    WindowInv (advanceAcked a s) := by
  obtain ⟨h16, hrwin, hne, hle⟩ := h
  obtain ⟨ha0, hao⟩ := ha
  unfold WindowInv
  simp only [advanceAcked_win, advanceAcked_sizes]
  unfold WindowRegs.outstanding dist seqPred seqSucc at *
  dsimp only
  split
  · refine ⟨?_, hrwin, ?_, ?_⟩ <;> bv_omega
  · refine ⟨?_, hrwin, ?_, ?_⟩ <;> bv_omega

/-- The slots an ack releases are those it takes out of the window (R165). -/
theorem slotInv_advanceAcked (h : SlotInv s) (h16 : s.win.outstanding ≤ 16) {a : SeqNum}
    (ha : s.win.isOutstanding a) : SlotInv (advanceAcked a s) := by
  obtain ⟨hsend, hout, huse⟩ := h
  have hiff := isOutstanding_after_ack h16 ha
  have hinuse : ∀ q, ((advanceAcked a s).slot q).inuse = true ↔
      (s.slot q).inuse = true ∧ ¬(dist q s.win.lastAcked ≠ 0 ∧ dist q s.win.lastAcked ≤ dist a s.win.lastAcked) := by
    intro q
    rw [State.slot, advanceAcked_slots, entryAt_releaseSlots, State.slot]
    split <;> simp_all
  unfold SlotInv
  simp only [hinuse, advanceAcked_win, hiff, advanceAcked_pend, advanceAcked_pstate]
  refine ⟨fun hp => ⟨hsend hp, ?_⟩, fun hc q hq => ⟨hout hc q hq.1, fun hr => hq.2 hr.2⟩, fun q hq => ?_⟩
  · rintro ⟨hne, hle⟩
    exact not_isOutstanding_nextSeq h16 ⟨hne, BitVec.le_trans hle ha.2⟩
  · exact (huse q hq.1).imp_left fun ho => ⟨ho, fun hle => hq.2 ⟨ho.1, hle⟩⟩

/-- The retry budget is restored (R176). -/
theorem CounterInv.retry_zero (h : CounterInv s) (hsize : SizeInv s) {t : State} (hcfg : t.cfg = s.cfg)
    (hp : t.pstate = s.pstate) (hc : t.counters = { s.counters with retry := 0 }) : CounterInv t := by
  obtain ⟨hgood, -, herr⟩ := h
  unfold CounterInv
  rw [hcfg, hp, hc]
  exact ⟨hgood, fun _ => hsize.limits_pos.1, herr⟩

/-- A released slot keeps its length. -/
theorem lengthInv_advanceAcked (h : LengthInv s) (a : SeqNum) : LengthInv (advanceAcked a s) := by
  refine ⟨fun q => ?_, h.2⟩
  rw [State.slot, advanceAcked_slots, entryAt_releaseSlots]
  split <;> exact h.1 q

theorem packetInv_advanceAcked (h : PacketInv s) (hr : s.pstate = .ready) {a : SeqNum} (ha : s.win.isOutstanding a) :
    PacketInv (advanceAcked a s) :=
  { h with
    fresh := freshInv_of_ready hr
    window := windowInv_advanceAcked h.window ha
    slot := slotInv_advanceAcked h.slot h.window.1 ha
    length := lengthInv_advanceAcked h.length a
    counter := h.counter.retry_zero h.size rfl rfl rfl }

theorem packetInv_rotationEvent (h : PacketInv s) (a : SeqNum) : PacketInv (rotationEvent a s) := by
  unfold rotationEvent
  split
  · exact packetInv_emit h _
  · exact h

theorem packetInv_onAck (h : PacketInv s) (hr : s.pstate = .ready) (a : SeqNum) : PacketInv (onAck a s).2 := by
  rcases onAck_cases a s with ⟨hv, he⟩ | ⟨-, he⟩ <;> rw [he]
  · have ha := (WindowRegs.ackValid_iff _ _).mp hv
    exact packetInv_advanceAcked (packetInv_rotationEvent h a) (by simpa using hr) (by simpa using ha)
  · exact h

@[simp] theorem onAck_pstate (a : SeqNum) (s : State) : (onAck a s).2.pstate = s.pstate := by
  rcases onAck_cases a s with ⟨-, he⟩ | ⟨-, he⟩ <;> simp [he]

/-- The retransmit point may be set to the oldest outstanding packet (R169). -/
theorem packetInv_markReject (h : PacketInv s) (hr : s.pstate = .ready) {m : SeqNum} (hm : dist m s.win.lastAcked = 1) :
    PacketInv (markReject m s) := by
  obtain ⟨h16, hrwin, -⟩ := h.window
  have hwindow : WindowInv (markReject m s) := by
    refine ⟨h16, hrwin, ?_, ?_⟩ <;> simp [hm]
  exact { h with fresh := freshInv_of_ready hr, window := hwindow }

theorem packetInv_onReject (h : PacketInv s) (hr : s.pstate = .ready) (rs : SeqNum) : PacketInv (onReject rs s) := by
  unfold onReject
  split
  · exact h
  · rename_i hin
    by_cases hzero : dist rs s.win.lastAcked = 0
    · simp only [hzero, if_true]
      split
      · exact h
      · exact packetInv_markReject h hr (by rw [dist_eq_zero.mp hzero, dist_succ])
    · have hvalid : s.win.ackValid rs = true := (WindowRegs.ackValid_iff _ _).mpr ⟨hzero, BitVec.not_lt.mp hin⟩
      have hacked := packetInv_onAck h hr rs
      simp only [hzero, if_false]
      split
      · exact hacked
      · refine packetInv_markReject hacked (by simpa using hr) ?_
        simp [onAck, hvalid]


/-! ### Service -/

/-- What holds in `READY` while a packet is being handled: an acknowledgement may be due, and then one is owed (R243,
R265). -/
structure OwingInv (s : State) : Prop extends StepInv s where
  ready : s.pstate = .ready
  reord : ReordInv s
  owed : s.flags.ackPending = true ∨ AckInv s

theorem PacketInv.owingInv (h : PacketInv s) (hr : s.pstate = .ready) : OwingInv s :=
  { h with ready := hr, owed := .inr h.ack }

/-- With `LAST_RECV` acknowledged and no ACK pending nothing is owed (R261). -/
theorem ackInv_of_acked (hp : s.flags.ackPending = false) (ha : s.win.lastAckSent = s.win.lastRecv) : AckInv s :=
  ⟨hp, by rw [ha, dist_self]; exact lt_of_lt_of_le Nat.zero_lt_one (le_max_left 1 _)⟩

/-- Every packet but a SYNC acknowledges `LAST_RECV` (R261). -/
theorem packetInv_transmit (h : OwingInv s) {ty : PktType} (hty : ty ≠ .sync) (q : SeqNum) (lch rch : Channel)
    (f : Bool) (p : List Byte) : PacketInv (transmit ty q lch rch f p s) :=
  { stepInv_transmit h.toStepInv h.ready ty q lch rch f p with
    reord := h.reord
    ack := ackInv_of_acked (by simp [hty]) (by simp [hty]) }

theorem packetInv_transmitData (h : OwingInv s) (q : SeqNum) (again : Bool) : PacketInv (transmitData q again s) := by
  have hcounted : ∀ st : Stats, OwingInv { s with stats := st } := fun st => { h with }
  exact packetInv_transmit (ty := .data) (hcounted _) nofun _ _ _ _ _

/-- A retransmission moves `NEXT_RETX` on, inside the window (R268). -/
theorem windowInv_pumpOne (h : WindowInv s) (hne : s.win.nextRetx ≠ s.win.nextSeq) : WindowInv (pumpOne s) := by
  obtain ⟨h16, hrwin, hne0, hle⟩ := h
  unfold WindowInv
  simp only [pumpOne_win, pumpOne_sizes]
  unfold WindowRegs.outstanding dist seqPred seqSucc at *
  dsimp only
  refine ⟨h16, hrwin, ?_, ?_⟩ <;> bv_omega

theorem owingInv_pumpOne (h : OwingInv s) (hne : s.win.nextRetx ≠ s.win.nextSeq) : OwingInv (pumpOne s) :=
  { (packetInv_transmitData h s.win.nextRetx true).owingInv h.ready with
    fresh := freshInv_of_ready h.ready
    window := windowInv_pumpOne h.window hne }

theorem owingInv_gapNak (h : OwingInv s) : OwingInv (gapNak s) := by
  unfold gapNak
  dsimp only
  split
  · exact
      { (packetInv_transmit h (ty := .nak) nofun (seqSucc s.win.lastRecv) 0 0 false []).owingInv h.ready with
        fresh := freshInv_of_ready h.ready }
  · exact h

theorem packetInv_explicitAck (h : OwingInv s) : PacketInv (explicitAck s) := by
  unfold explicitAck
  split
  · exact packetInv_transmit (ty := .ack) h nofun 0 0 0 false []
  · rename_i hno
    exact { h with ack := h.owed.resolve_left hno }

/-- `service` pays what is owed (R263). -/
theorem packetInv_service (h : OwingInv s) : PacketInv (service s) :=
  packetInv_explicitAck (owingInv_gapNak (pumpRetx_keeps (fun _ hne _ ht => owingInv_pumpOne ht hne) 32 s h))

/-! ### DATA -/

/-- The reorder buffer while it drains: every packet in it is one of the next `k` (R234). -/
def ReordWithin (k : Nat) (s : State) : Prop :=
  ∀ q, (s.reordAt q).valid = true → dist q s.win.lastRecv ≠ 0 ∧ (dist q s.win.lastRecv).toNat ≤ k

/-- Delivering the next packet leaves one packet less ahead (R234). -/
theorem reordWithin_drainOne {k : Nat} (h : ReordWithin (k + 1) s) :
    ReordWithin k (drainOne (seqSucc s.win.lastRecv) s) := by
  intro q hq
  by_cases hnext : q = seqSucc s.win.lastRecv
  · subst hnext
    simp [State.reordAt] at hq
  · rw [State.reordAt, drainOne_reord, entryAt_setEntry_other _ _ hnext] at hq
    obtain ⟨h0, hk⟩ := h q hq
    rw [drainOne_win]
    unfold dist seqSucc at *
    dsimp only
    constructor <;> bv_omega

/-- `drain` stops at a gap: no packet left is the next one (R23 (d), R234). -/
theorem reordInv_drain {k n : Nat} (hn : k ≤ n) (hk : k ≤ s.sizes.lwin.toNat) (h : ReordWithin k s) :
    ReordInv (drain n s) := by
  induction n generalizing s k with
  | zero =>
    intro q hq
    obtain ⟨h0, hle⟩ := h q hq
    exact absurd (BitVec.eq_of_toNat_eq (by simpa using Nat.le_zero.mp (hle.trans hn))) h0
  | succ n ih =>
    unfold drain
    split
    · rename_i hv
      obtain ⟨-, h1⟩ := h _ hv
      rw [dist_succ] at h1
      obtain ⟨k, rfl⟩ := Nat.exists_eq_add_of_le' h1
      exact ih (Nat.le_of_succ_le_succ hn) (by simpa using Nat.le_of_succ_le hk) (reordWithin_drainOne h)
    · rename_i hv
      intro q hq
      obtain ⟨h0, hle⟩ := h q hq
      have hnext : q ≠ seqSucc s.win.lastRecv := fun e => hv (e ▸ hq)
      unfold dist seqSucc at *
      constructor <;> bv_omega


/-- Delivering a buffered packet, less what it does to the reorder window. -/
theorem stepInv_drainOne (h : StepInv s) (hr : s.pstate = .ready) (q : SeqNum) : StepInv (drainOne q s) := by
  have hlength : LengthInv (drainOne q s) := by
    refine ⟨h.length.1, fun q' => ?_⟩
    rw [State.reordAt, drainOne_reord]
    by_cases hq : q' = q
    · subst hq; rw [entryAt_setEntry_same]; exact h.length.2 q'
    · rw [entryAt_setEntry_other _ _ hq]; exact h.length.2 q'
  exact { h with fresh := freshInv_of_ready hr, length := hlength }

theorem stepInv_drain (h : StepInv s) (hr : s.pstate = .ready) (n : Nat) :
    StepInv (drain n s) ∧ (drain n s).pstate = .ready :=
  drain_keeps (P := fun t => StepInv t ∧ t.pstate = .ready)
    (fun _ _ ht => ⟨stepInv_drainOne ht.1 ht.2 _, ht.2⟩) n s ⟨h, hr⟩

/-- What holds in `READY` before it is decided whether an ACK is due. -/
structure ReceivedInv (s : State) : Prop extends StepInv s where
  ready : s.pstate = .ready
  reord : ReordInv s

/-- The packet after `LAST_RECV`, and those it lets out of the reorder buffer (R232, R234). -/
theorem receivedInv_onDataExpected (h : OwingInv s) {q : SeqNum} (hq : dist q s.win.lastRecv = 1) (lch rch : Channel)
    (eom : Bool) (p : List Byte) : ReceivedInv (onDataExpected q lch rch eom p s) := by
  have hu : StepInv
      { deliver lch rch eom p s with
        win := { s.win with lastRecv := q }
        flags := { (deliver lch rch eom p s).flags with nakedValid := false }
        counters := { s.counters with retry := 0 } } :=
    { stepInv_deliver h.toStepInv lch rch eom p with
      fresh := freshInv_of_ready h.ready
      counter := h.counter.retry_zero h.size rfl rfl rfl }
  obtain ⟨hlwin, -⟩ := h.size.sizes_le
  obtain ⟨hstep, hready⟩ := stepInv_drain hu h.ready 32
  refine ⟨hstep, hready, reordInv_drain (k := s.sizes.lwin.toNat) (by bv_omega) le_rfl fun q' hv => ?_⟩
  obtain ⟨h2, hle⟩ := h.reord q' hv
  unfold dist at *
  dsimp only
  constructor <;> bv_omega

/-- A packet ahead of the expected one is stored (R232). -/
theorem receivedInv_onDataAhead (h : OwingInv s) {q : SeqNum} (h2 : 2 ≤ dist q s.win.lastRecv)
    (hlwin : dist q s.win.lastRecv ≤ s.sizes.lwin) (lch rch : Channel) (eom : Bool) {p : List Byte}
    (hp : p.length ≤ 1024) : ReceivedInv (onDataAhead q lch rch eom p s) := by
  obtain ⟨hslotWf, hreordWf, hslotIn, hreordIn⟩ := h.memory
  have haddr : recordAddr q 0 + p.length ≤ 32768 := by
    have := q.isLt
    unfold recordAddr Config.slotBytes
    omega
  have hlength : LengthInv (onDataAhead q lch rch eom p s) := by
    refine ⟨h.length.1, fun q' => ?_⟩
    rw [State.reordAt, onDataAhead_reord]
    by_cases hq : q' = q
    · subst hq
      rw [entryAt_setEntry_same, BitVec.toNat_ofNat]
      exact (Nat.mod_le _ _).trans hp
    · rw [entryAt_setEntry_other _ _ hq]; exact h.length.2 q'
  refine ⟨?_, h.ready, fun q' hv => ?_⟩
  · exact
      { h with
        fresh := freshInv_of_ready h.ready
        length := hlength
        memory := ⟨hslotWf, Memory.wf_writeBytes _ _ _ hreordWf, hslotIn,
          Memory.inSpace_writeBytes _ _ _ haddr hreordIn⟩ }
  · by_cases hq : q' = q
    · subst hq; exact ⟨h2, hlwin⟩
    · rw [State.reordAt, onDataAhead_reord, entryAt_setEntry_other _ _ hq] at hv
      exact h.reord q' hv

theorem owingInv_oweAck (h : ReceivedInv s) : OwingInv (oweAck s) :=
  { stepInv_oweAck h.toStepInv h.ready with ready := h.ready, reord := h.reord, owed := .inl rfl }

/-- An ACK that is due is owed (R243). -/
theorem owingInv_of_received (h : ReceivedInv s) : OwingInv (if s.ackDue then oweAck s else s) := by
  split
  · exact owingInv_oweAck h
  · rename_i hdue
    obtain ⟨hstep, hr, hreord⟩ := h
    refine { hstep with ready := hr, reord := hreord, owed := ?_ }
    cases hp : s.flags.ackPending with
    | true => exact .inl rfl
    | false => exact .inr ⟨hp, not_le.mp fun hle => hdue (decide_eq_true hle)⟩

theorem owingInv_onData (h : OwingInv s) (q : SeqNum) (lch rch : Channel) (eom : Bool) {p : List Byte}
    (hp : p.length ≤ 1024) : OwingInv (onData q lch rch eom p s) := by
  unfold onData
  refine owingInv_of_received ?_
  split
  · rename_i h1
    exact receivedInv_onDataExpected h h1 lch rch eom p
  · split
    · rename_i hd
      exact receivedInv_onDataAhead h hd.1 hd.2 lch rch eom hp
    · exact ⟨stepInv_oweAck h.toStepInv h.ready, h.ready, h.reord⟩

/-! ### Packets -/

theorem packetInv_serviceIfReady (h : s.pstate = .ready → OwingInv s) (hoff : s.pstate ≠ .ready → PacketInv s) :
    PacketInv (serviceIfReady s) := by
  unfold serviceIfReady
  split
  · exact packetInv_service (h ‹_›)
  · exact hoff ‹_›

/-- A non-SYNC packet: its own handling may owe an ACK, which `service` pays (R230). -/
theorem packetInv_acceptNumbered (h : PacketInv s) (ack : SeqNum) {own : Bool → State → State}
    (hown : ∀ b t, PacketInv t → t.pstate = .ready → OwingInv (own b t) ∨ (PacketInv (own b t))) :
    PacketInv (acceptNumbered ack own s) := by
  rcases acceptNumbered_cases ack own s with ⟨hn, he⟩ | ⟨hr, he⟩ | ⟨-, he⟩ <;> rw [he]
  · exact packetInv_goodPacket h (State.on_of_negotiating hn)
  · have hacked := packetInv_onAck (packetInv_goodPacket h (State.on_of_ready hr)) hr ack
    rcases hown (onAck ack (goodPacket s)).1 _ hacked (by simpa using hr) with ho | ho
    · exact packetInv_serviceIfReady (fun _ => ho) fun hne => absurd ho.ready hne
    · exact packetInv_serviceIfReady (fun hr => ho.owingInv hr) fun _ => ho
  · exact h

theorem packetInv_ackPacket (h : PacketInv s) (hr : s.pstate = .ready) (ack : SeqNum) (advanced : Bool) :
    PacketInv (ackPacket ack advanced s) := by
  unfold ackPacket
  split
  · exact packetInv_onReject h hr _
  · exact h

theorem packetInv_peerClose (h : PacketInv s) (hr : s.pstate = .ready) : PacketInv (peerClose s) := by
  rw [peerClose_eq]
  exact
    { h with
      control := ⟨nofun, fun hp => absurd rfl hp⟩
      handshake := ⟨nofun, nofun, nofun⟩
      fresh := freshInv_of_ne nofun nofun
      slot := h.slot.of_ended (State.on_of_ready hr) rfl rfl rfl (.inl rfl)
      borrow := fun hb => ⟨(h.borrow hb).1, .inr rfl, nofun⟩
      size := h.size.of_started (State.ne_unstarted_of_on (State.on_of_ready hr)) rfl rfl
      counter := ⟨h.counter.1, by simp, nofun⟩ }

theorem packetInv_acceptSync (h : PacketInv s) (f : Bool) (win k : Byte) : PacketInv (acceptSync f win k s) := by
  rcases acceptSync_cases f win k s with ⟨hn, he⟩ | ⟨hr, he⟩ | ⟨-, he⟩ <;> rw [he]
  · have hon := State.on_of_negotiating hn
    exact packetInv_handleSync (packetInv_goodPacket h hon) hon f win k
  · have hon := State.on_of_ready hr
    have hsync := packetInv_handleSync (packetInv_goodPacket h hon) hon f win k
    exact packetInv_serviceIfReady hsync.owingInv fun _ => hsync
  · exact h

/-- Every packet that fits keeps the invariant. -/
theorem packetInv_exec (h : PacketInv s) {i : Instr} (hi : isPacket i = true) (hfits : fits 1024 i = true) {t : State}
    (he : exec i s = .next t) : PacketInv t := by
  cases i with
  | data hdr p =>
    cases he
    exact packetInv_acceptNumbered h _ fun _ t ht hr =>
      .inl (owingInv_onData (ht.owingInv hr) _ _ _ _ (of_decide_eq_true hfits))
  | sync hdr win k => cases he; exact packetInv_acceptSync h _ _ _
  | ack hdr => cases he; exact packetInv_acceptNumbered h _ fun _ t ht hr => .inr (packetInv_ackPacket ht hr _ _)
  | nak hdr => cases he; exact packetInv_acceptNumbered h _ fun _ t ht hr => .inr (packetInv_onReject ht hr _)
  | close hdr => cases he; exact packetInv_acceptNumbered h _ fun _ t ht hr => .inr (packetInv_peerClose ht hr)
  | start _ => cases hi
  | getBuf => cases hi
  | sendData _ _ _ _ => cases hi
  | wait => cases hi
  | shutdown => cases hi
  | file _ _ _ => cases hi


/-! ### The decoder loop and `RXBUF` -/

/-- A header whose length its type allows announces no more than the largest payload (R95, R138). -/
theorem lenOk_le {maxLen : Nat} (h2 : 2 ≤ maxLen) {ty : PktType} {n : Nat} (h : lenOk maxLen ty n = true) :
    n ≤ maxLen := by
  cases ty <;> simp only [lenOk, decide_eq_true_eq] at h <;> omega

/-- `hdr_ok` (R138) gives a packet type and an admissible length. -/
theorem RawHeader.ok_iff (maxLen : Nat) (raw : RawHeader) :
    raw.ok maxLen = true ↔
      (raw.b0 = Config.leadIn ∧ raw.b5 = raw.xchk) ∧
        ∃ ty, raw.pktType = some ty ∧ lenOk maxLen ty raw.len.toNat = true := by
  unfold RawHeader.ok
  cases raw.pktType <;> simp

/-- The packet a type and a payload make is a packet, and its payload is the one given. -/
theorem packetOf_fits {ty : PktType} {h : Hdr} {p : List Byte} {i : Instr} {maxLen : Nat}
    (hi : packetOf ty h p = some i) (hp : ty = .data → p.length ≤ maxLen) :
    isPacket i = true ∧ fits maxLen i = true := by
  unfold packetOf at hi
  split at hi
  · cases hi; exact ⟨rfl, decide_eq_true (hp rfl)⟩
  · split at hi
    · cases hi; exact ⟨rfl, rfl⟩
    · cases hi
  all_goals cases hi; exact ⟨rfl, rfl⟩

/-- What a complete header can lead to. -/
theorem decodeBody_packet {maxLen : Nat} {raw : RawHeader} {body rest : List Byte} {i : Instr}
    (h : decodeBody maxLen raw body = .packet i rest) :
    isPacket i = true ∧ fits maxLen i = true ∧ rest.length ≤ body.length := by
  unfold decodeBody at h
  split at h
  · rename_i hok
    dsimp only at h
    split at h
    · cases h
    · split at h
      · split at h
        · cases h
        · rename_i ty hty
          split at h
          · cases h
          · rename_i j hj
            cases h
            obtain ⟨-, ty', hty', hlen⟩ := (RawHeader.ok_iff _ _).mp hok
            cases hty'.symm.trans hty
            have hfits := packetOf_fits (maxLen := maxLen) hj fun hd => by
              subst hd
              exact (List.length_take_le _ _).trans (of_decide_eq_true hlen)
            exact ⟨hfits.1, hfits.2, by simp⟩
      · cases h
  · cases h

theorem decodeBody_incomplete {maxLen : Nat} (h2 : 2 ≤ maxLen) {raw : RawHeader} {body : List Byte}
    (h : decodeBody maxLen raw body = .incomplete) : body.length < maxLen + 4 := by
  unfold decodeBody at h
  split at h
  · rename_i hok
    obtain ⟨-, ty, -, hlen⟩ := (RawHeader.ok_iff _ _).mp hok
    have hle := lenOk_le h2 hlen
    dsimp only at h
    split at h
    · rename_i hshort
      unfold Config.trailerLen at hshort
      omega
    · split at h
      · split at h
        · cases h
        · split at h <;> cases h
      · cases h
  · cases h

/-- A packet found at the head of the buffer fits, and taking it out leaves less. -/
theorem decodeFrame_packet {maxLen : Nat} {buf rest : List Byte} {i : Instr}
    (h : decodeFrame maxLen buf = .packet i rest) :
    isPacket i = true ∧ fits maxLen i = true ∧ rest.length < buf.length := by
  unfold decodeFrame at h
  split at h
  · split at h
    · obtain ⟨hi, hfits, hlen⟩ := decodeBody_packet h
      refine ⟨hi, hfits, ?_⟩
      simp only [List.length_cons]
      omega
    · cases h
  · split at h <;> cases h
  · cases h

/-- What waits for more bytes is nothing, or a candidate packet that is not complete (R42, R140). -/
theorem decodeFrame_incomplete {maxLen : Nat} (h2 : 2 ≤ maxLen) {buf : List Byte}
    (h : decodeFrame maxLen buf = .incomplete) :
    buf = [] ∨ (buf.head? = some Config.leadIn ∧ buf.length < Config.headerLen + maxLen + Config.trailerLen) := by
  unfold Config.headerLen Config.trailerLen
  unfold decodeFrame at h
  split at h
  · split at h
    · rename_i hb
      have hlen := decodeBody_incomplete h2 h
      refine .inr ⟨by rw [hb]; rfl, ?_⟩
      simp only [List.length_cons]
      omega
    · cases h
  · rename_i b0 rest hshort
    split at h
    · rename_i hb
      refine .inr ⟨by rw [hb]; rfl, ?_⟩
      rcases rest with _ | ⟨b1, _ | ⟨b2, _ | ⟨b3, _ | ⟨b4, _ | ⟨b5, body⟩⟩⟩⟩⟩
      case cons.cons.cons.cons.cons => exact (hshort b1 b2 b3 b4 b5 body rfl).elim
      all_goals simp only [List.length_cons, List.length_nil]; omega
    · cases h
  · exact .inl rfl


/-! No packet touches `RXBUF`, and the window procedures leave `PSTATE` alone (R179). -/

@[simp] theorem onAck_rxbuf (a : SeqNum) (s : State) : (onAck a s).2.rxbuf = s.rxbuf := by
  rcases onAck_cases a s with ⟨-, he⟩ | ⟨-, he⟩ <;> simp [he]

@[simp] theorem onReject_rxbuf (rs : SeqNum) (s : State) : (onReject rs s).rxbuf = s.rxbuf := by
  rcases onReject_cases rs s with he | he | ⟨-, he⟩ | ⟨-, he⟩ <;> simp [he]

@[simp] theorem onReject_pstate (rs : SeqNum) (s : State) : (onReject rs s).pstate = s.pstate := by
  rcases onReject_cases rs s with he | he | ⟨-, he⟩ | ⟨-, he⟩ <;> simp [he]

@[simp] theorem ackPacket_rxbuf (a : SeqNum) (b : Bool) (s : State) : (ackPacket a b s).rxbuf = s.rxbuf := by
  unfold ackPacket
  split <;> simp

@[simp] theorem ackPacket_pstate (a : SeqNum) (b : Bool) (s : State) : (ackPacket a b s).pstate = s.pstate := by
  unfold ackPacket
  split <;> simp

@[simp] theorem drain_rxbuf (n : Nat) (s : State) : (drain n s).rxbuf = s.rxbuf :=
  drain_keeps (P := fun t => t.rxbuf = s.rxbuf) (fun _ _ ht => ht) n s rfl

@[simp] theorem drain_pstate (n : Nat) (s : State) : (drain n s).pstate = s.pstate :=
  drain_keeps (P := fun t => t.pstate = s.pstate) (fun _ _ ht => ht) n s rfl

@[simp] theorem onDataExpected_rxbuf (q : SeqNum) (lch rch : Channel) (eom : Bool) (p : List Byte) (s : State) :
    (onDataExpected q lch rch eom p s).rxbuf = s.rxbuf := drain_rxbuf _ _

@[simp] theorem onDataExpected_pstate (q : SeqNum) (lch rch : Channel) (eom : Bool) (p : List Byte) (s : State) :
    (onDataExpected q lch rch eom p s).pstate = s.pstate := drain_pstate _ _

@[simp] theorem onData_rxbuf (q : SeqNum) (lch rch : Channel) (eom : Bool) (p : List Byte) (s : State) :
    (onData q lch rch eom p s).rxbuf = s.rxbuf := by
  obtain ⟨t, he, hcase⟩ := onData_cases q lch rch eom p s
  rcases hcase with ⟨-, rfl⟩ | ⟨-, -, rfl⟩ | rfl <;> rcases he with he | he <;> simp [he]

@[simp] theorem onData_pstate (q : SeqNum) (lch rch : Channel) (eom : Bool) (p : List Byte) (s : State) :
    (onData q lch rch eom p s).pstate = s.pstate := by
  obtain ⟨t, he, hcase⟩ := onData_cases q lch rch eom p s
  rcases hcase with ⟨-, rfl⟩ | ⟨-, -, rfl⟩ | rfl <;> rcases he with he | he <;> simp [he]

/-- `service` sends packets and moves window registers (R263). -/
theorem service_same (s : State) : (service s).rxbuf = s.rxbuf ∧ (service s).pstate = s.pstate :=
  service_keeps (P := fun t => t.rxbuf = s.rxbuf ∧ t.pstate = s.pstate) (fun _ ht => ht)
    (fun t _ ht => by simpa using ht) (fun _ _ ht => ht) s ⟨rfl, rfl⟩

@[simp] theorem serviceIfReady_rxbuf (s : State) : (serviceIfReady s).rxbuf = s.rxbuf := by
  unfold serviceIfReady
  split
  · exact (service_same s).1
  · rfl

@[simp] theorem serviceIfReady_pstate (s : State) : (serviceIfReady s).pstate = s.pstate := by
  unfold serviceIfReady
  split
  · exact (service_same s).2
  · rfl

@[simp] theorem peerClose_rxbuf (s : State) : (peerClose s).rxbuf = s.rxbuf := by rw [peerClose_eq]

@[simp] theorem peerClose_pstate (s : State) : (peerClose s).pstate = .closing := by rw [peerClose_eq]

@[simp] theorem fallbackOrFail_rxbuf (s : State) : (fallbackOrFail s).rxbuf = s.rxbuf := by
  rcases fallbackOrFail_cases s with ⟨-, he⟩ | ⟨-, he⟩ <;> simp [he]

@[simp] theorem countError_rxbuf (kind : ErrKind) (s : State) : (countError kind s).rxbuf = s.rxbuf := by
  rcases countError_cases kind s with he | ⟨-, he⟩ | ⟨-, he⟩ <;> simp [he]

@[simp] theorem handleSync_rxbuf (f : Bool) (win k : Byte) (s : State) : (handleSync f win k s).rxbuf = s.rxbuf := by
  rcases handleSync_cases f win k s with ⟨-, he⟩ | ⟨-, -, he⟩ | ⟨-, -, he⟩ <;> simp [he]

theorem acceptNumbered_rxbuf {own : Bool → State → State} (hown : ∀ b t, (own b t).rxbuf = t.rxbuf) (ack : SeqNum)
    (s : State) : (acceptNumbered ack own s).rxbuf = s.rxbuf := by
  rcases acceptNumbered_cases ack own s with ⟨-, he⟩ | ⟨-, he⟩ | ⟨-, he⟩ <;> simp [he, hown]

theorem acceptSync_rxbuf (f : Bool) (win k : Byte) (s : State) : (acceptSync f win k s).rxbuf = s.rxbuf := by
  rcases acceptSync_cases f win k s with ⟨-, he⟩ | ⟨-, he⟩ | ⟨-, he⟩ <;> simp [he]

theorem exec_packet_rxbuf {i : Instr} (hi : isPacket i = true) {s t : State} (he : exec i s = .next t) :
    t.rxbuf = s.rxbuf := by
  cases i with
  | data hdr p => cases he; exact acceptNumbered_rxbuf (fun _ _ => onData_rxbuf _ _ _ _ _ _) _ s
  | sync hdr win k => cases he; exact acceptSync_rxbuf _ _ _ s
  | ack hdr => cases he; exact acceptNumbered_rxbuf (fun _ _ => ackPacket_rxbuf _ _ _) _ s
  | nak hdr => cases he; exact acceptNumbered_rxbuf (fun _ _ => onReject_rxbuf _ _) _ s
  | close hdr => cases he; exact acceptNumbered_rxbuf (fun _ _ => peerClose_rxbuf _) _ s
  | start _ => cases hi
  | getBuf => cases hi
  | sendData _ _ _ _ => cases hi
  | wait => cases hi
  | shutdown => cases hi
  | file _ _ _ => cases hi

/-- A buffer the decoder gives up a byte of is not empty. -/
theorem drop1_length (h : s.rxbuf ≠ []) : (drop1 s).rxbuf.length < s.rxbuf.length := by
  rw [drop1_rxbuf, List.length_tail]
  have := List.length_pos_iff.mpr h
  omega

/-- With a round for every byte and one more, the loop runs until the decoder is off or waits for bytes (R140,
log 15). -/
theorem decodeRounds_settles {n : Nat} {s t : State} (hn : s.rxbuf.length < n) (h : decodeRounds n s = .next t) :
    t.decoderOn = false ∨ decodeFrame t.maxLen t.rxbuf = .incomplete := by
  induction n generalizing s with
  | zero => omega
  | succ n ih =>
    unfold decodeRounds at h
    cases hon : s.decoderOn with
    | false => simp only [hon, Bool.false_eq_true, if_false] at h; cases h; exact .inl hon
    | true =>
      simp only [hon, if_true] at h
      have hshorter : decodeFrame s.maxLen s.rxbuf ≠ .incomplete → (drop1 s).rxbuf.length < n := fun hne => by
        have := drop1_length (s := s) fun hnil => hne (by rw [hnil]; rfl)
        omega
      cases hf : decodeFrame s.maxLen s.rxbuf with
      | incomplete => rw [hf] at h; cases h; exact .inr hf
      | garbage => rw [hf] at h hshorter; exact ih (hshorter nofun) h
      | malformedHeader => rw [hf] at h hshorter; exact ih (by simpa using hshorter nofun) h
      | checksumMismatch => rw [hf] at h hshorter; exact ih (by simpa using hshorter nofun) h
      | packet i rest =>
        rw [hf] at h
        obtain ⟨u, hu, ht⟩ := andThen_eq_next h
        obtain ⟨hi, -, hlen⟩ := decodeFrame_packet hf
        refine ih ?_ ht
        rw [exec_packet_rxbuf hi hu]
        dsimp only
        omega

/-- After the decoder loop `RXBUF` is settled (R42). -/
theorem rxInv_decodeLoop {s t : State} (h : decodeLoop s = .next t) (ht : SizeInv t) : RxInv t := by
  intro hp
  obtain ⟨-, -, -, -, -, -, -, hstarted⟩ := ht
  have hon := t.decoderOn_iff.mpr hp
  have h2 : 2 ≤ t.maxLen := by
    have h5 := (hstarted (State.ne_unstarted_of_on hon)).2
    unfold State.maxLen classSize
    exact Nat.le_self_pow (by bv_omega) 2
  rcases decodeRounds_settles (Nat.lt_succ_self _) h with hoff | hf
  · exact absurd (hon.symm.trans hoff) nofun
  · exact decodeFrame_incomplete h2 hf

/-- Between the packets of a chunk the invariant holds, whatever `RXBUF` holds. -/
theorem packetInv_rxbuf (h : PacketInv s) (hon : s.decoderOn = true) (buf : List Byte) :
    PacketInv { s with rxbuf := buf } :=
  { h with fresh := ⟨h.fresh.1, fun hu => absurd hu (State.ne_unstarted_of_on hon)⟩ }

theorem fits_mono {m n : Nat} (h : m ≤ n) {i : Instr} (hi : fits m i = true) : fits n i = true := by
  cases i with
  | data hdr p => exact decide_eq_true ((of_decide_eq_true hi).trans h)
  | _ => rfl

theorem packetInv_decodeRounds {n : Nat} {s t : State} (hs : PacketInv s) (h : decodeRounds n s = .next t) :
    PacketInv t := by
  refine decodeRounds_keeps (fun _ hon ht => packetInv_drop1 ht hon)
    (fun kind _ hon ht => packetInv_countError ht hon kind)
    (fun i u rest v hon hf hu he => ?_) n s t hs h
  have hmax : u.maxLen ≤ 1024 := by
    obtain ⟨-, -, hacc, -⟩ := hu.size.sizes_le
    exact Nat.pow_le_pow_right (by decide) (show u.sizes.acceptK.toNat ≤ 10 by bv_omega)
  obtain ⟨hi, hfits, -⟩ := decodeFrame_packet hf
  exact packetInv_exec (packetInv_rxbuf hu hon rest) hi (fits_mono hmax hfits) he


theorem packetInv_decodeLoop {s t : State} (hs : PacketInv s) (h : decodeLoop s = .next t) : PacketInv t ∧ RxInv t :=
  have ht := packetInv_decodeRounds hs h
  ⟨ht, rxInv_decodeLoop h ht.size⟩

theorem packetInv_feed {chunk : List Byte} {s t : State} (hs : PacketInv s) (hx : RxInv s)
    (h : feed chunk s = .next t) : PacketInv t ∧ RxInv t :=
  feed_keeps (P := fun u => PacketInv u ∧ RxInv u)
    (fun _ _ _ hon hu hv => packetInv_decodeLoop (packetInv_rxbuf hu.1 hon _) hv) chunk s t ⟨hs, hx⟩ h

/-! ### The completion check -/

/-- With no START left pending in `READY` the control position is that between two steps (R210). -/
theorem StepControlInv.controlInv (h : StepControlInv s) (hs : s.pend = .start → s.pstate ≠ .ready) :
    ControlInv s := by
  obtain ⟨hneg, hon⟩ := h
  refine ⟨⟨fun hp => (hon (by simp [hp])).resolve_right (hs hp), hneg⟩, fun hp => ?_⟩
  refine (hon ?_).resolve_left fun hn => ?_
  · rcases hp with hp | hp <;> simp [hp]
  · rcases hp with hp | hp <;> exact absurd (hp.symm.trans (hneg hn)) nofun

theorem StepControlInv.not_negotiating (h : StepControlInv s) (hp : s.pend ≠ .start) :
    s.pstate ≠ .negotiating := fun hn => hp (h.1 hn)

/-- A command that needs no slot is answered. -/
theorem packetInv_answered (h : PacketInv s) (hn : s.pstate ≠ .negotiating) (hp : s.pend ≠ .sendData)
    (o : List OutEvent) : PacketInv { s with pend := .none, out := o } := by
  obtain ⟨-, hout, huse⟩ := h.slot
  exact
    { h with
      control := ⟨fun hn' => absurd hn' hn, fun hp => absurd rfl hp⟩
      slot := ⟨nofun, hout, fun q hq => (huse q hq).imp_right fun hnext => ⟨hnext.1, by simpa [hp] using hnext.2⟩⟩
      borrow := fun hb => ⟨(h.borrow hb).1, (h.borrow hb).2.1, nofun⟩ }

/-- The packet of a SEND_DATA joins the window (R266). -/
theorem isOutstanding_after_new {w : WindowRegs} (h16 : w.outstanding ≤ 16) (x y q : SeqNum) :
    { w with nextSeq := w.nextSeq + 1, nextRetx := x, lastAckSent := y }.isOutstanding q ↔
      w.isOutstanding q ∨ q = w.nextSeq := by
  unfold WindowRegs.isOutstanding WindowRegs.outstanding dist seqPred at *
  dsimp only
  constructor
  · intro h; bv_omega
  · rintro (h | rfl)
    · constructor <;> bv_omega
    · constructor <;> bv_omega

theorem windowInv_sent (h : WindowInv s) (hs : s.sendReady = true) (y : SeqNum) {t : State}
    (hwin : t.win = { s.win with nextSeq := s.win.nextSeq + 1, nextRetx := s.win.nextSeq + 1, lastAckSent := y })
    (hsizes : t.sizes = s.sizes) : WindowInv t := by
  obtain ⟨h16, hrwin, -⟩ := h
  simp only [State.sendReady, State.canSend, Bool.and_eq_true, decide_eq_true_eq] at hs
  obtain ⟨⟨hcan, -⟩, -⟩ := hs
  unfold WindowInv
  rw [hwin, hsizes]
  unfold WindowRegs.outstanding dist seqPred at *
  dsimp only
  refine ⟨?_, hrwin, ?_, ?_⟩ <;> bv_omega

theorem packetInv_completionCheck (h : PacketInv s) : PacketInv (completionCheck s) := by
  rcases completionCheck_cases s with he | ⟨hp, hr, he⟩ | ⟨hp, -, he⟩ | ⟨hp, hr, hs, -⟩
  · rw [he]; exact h
  · rw [he]; exact packetInv_answered h (by simp [hr]) (by simp [hp]) _
  · rw [he]; exact packetInv_answered h (h.control.not_negotiating (by simp [hp])) (by simp [hp]) _
  · rw [completionCheck_sendData_eq hp hr hs]
    obtain ⟨h16, -⟩ := h.window
    obtain ⟨hsend, hout, huse⟩ := h.slot
    have hiff := isOutstanding_after_new h16 (s.win.nextSeq + 1) s.win.lastRecv
    exact
      { h with
        control := ⟨fun hn => absurd (hr.symm.trans hn) nofun, fun hp => absurd rfl hp⟩
        fresh := freshInv_of_ready hr
        window := windowInv_sent h.window hs _ rfl rfl
        slot := ⟨nofun,
          fun hc q hq => ((hiff q).mp hq).elim (hout hc q) fun hq => hq ▸ hsend hp,
          fun q hq => .inl ((hiff q).mpr ((huse q hq).imp_right And.left))⟩
        borrow := fun hb => absurd hp (h.borrow hb).2.2
        ack := ackInv_of_acked rfl rfl }

/-- The check touches neither `PSTATE` nor what `RXBUF` is judged by. -/
theorem completionCheck_same (s : State) :
    (completionCheck s).pstate = s.pstate ∧ (completionCheck s).rxbuf = s.rxbuf ∧
      (completionCheck s).sizes = s.sizes := by
  rcases completionCheck_cases s with he | ⟨-, -, he⟩ | ⟨-, -, he⟩ | ⟨-, -, -, he⟩ <;> simp [he]

/-- The check leaves no START pending in `READY` (R210). -/
theorem completionCheck_settles_start (h : (completionCheck s).pend = .start) :
    (completionCheck s).pstate ≠ .ready := by
  intro hr
  rw [(completionCheck_same s).1] at hr
  by_cases hp : s.pend = .start
  · rw [completionCheck_of_start hp hr] at h; cases h
  · rcases completionCheck_cases s with he | ⟨hp', -⟩ | ⟨-, -, he⟩ | ⟨-, -, -, he⟩
    · rw [he] at h; exact hp h
    · exact hp hp'
    · rw [he] at h; cases h
    · rw [he] at h; cases h

theorem RxInv.of_same {s t : State} (h : RxInv s)
    (hp : t.pstate = .negotiating ∨ t.pstate = .ready → s.decoderOn = true)
    (hbuf : t.rxbuf = s.rxbuf) (hacc : t.sizes.acceptK = s.sizes.acceptK) : RxInv t := by
  intro ht
  rw [hbuf, hacc]
  exact h (s.decoderOn_iff.mp (hp ht))

/-- The completion check closes a step: the whole invariant holds again. -/
theorem inv_completionCheck (h : PacketInv s) (hx : RxInv s) : Inv (completionCheck s) := by
  obtain ⟨hp, hbuf, hsizes⟩ := completionCheck_same s
  have ht := packetInv_completionCheck h
  refine ht.inv (ht.control.controlInv completionCheck_settles_start) (hx.of_same ?_ hbuf (by rw [hsizes]))
  rw [hp]
  exact s.decoderOn_iff.mpr

/-! ### Reset -/

theorem reset_slot (q : SeqNum) : State.reset.slot q = SlotRec.reset := by
  simp [State.slot, State.reset]

theorem reset_reordAt (q : SeqNum) : State.reset.reordAt q = ReordRec.reset := by
  simp [State.reordAt, State.reset]

/-- Settles O53: every part of the invariant on the values of R44. -/
theorem invariantHoldsAtReset : Obligations.InvariantHoldsAtReset where
  control := ⟨⟨nofun, nofun⟩, fun h => h.elim nofun nofun⟩
  handshake := ⟨fun _ => ⟨rfl, rfl⟩, nofun, nofun⟩
  fresh := ⟨fun _ => ⟨rfl, rfl, rfl, fun q => by rw [reset_slot]; rfl, fun q => by rw [reset_reordAt]; rfl⟩,
    fun _ => ⟨rfl, rfl⟩⟩
  window := ⟨by decide, by decide, by decide, by decide⟩
  slot := ⟨nofun, fun _ => by decide, fun q hq => by rw [reset_slot] at hq; cases hq⟩
  borrow := nofun
  reord := fun q hq => by rw [reset_reordAt] at hq; cases hq
  ack := ⟨rfl, by decide⟩
  size := ⟨by decide, by decide, by decide, by decide, by decide, by decide, by decide, fun h => absurd rfl h⟩
  length := ⟨fun q => by rw [reset_slot]; decide, fun q => by rw [reset_reordAt]; decide⟩
  rx := fun _ => .inl rfl
  counter := ⟨by decide, fun h => h.elim nofun nofun, nofun⟩
  memory := ⟨rfl, rfl, rfl, rfl⟩

theorem inv_resetBlock (s : State) : Inv (resetBlock s) :=
  { invariantHoldsAtReset with }

/-! ### The byte stream's events -/

theorem inv_rxBytes {chunk : List Byte} {s t : State} (h : Inv s) (ht : rxBytes chunk s = .next t) : Inv t := by
  obtain ⟨-, -, u, hu, rfl⟩ := rxBytes_eq_next ht
  obtain ⟨hu', hx⟩ := packetInv_feed h.packetInv h.rx hu
  exact inv_completionCheck hu' hx

theorem inv_raiseFatal (h : PacketInv s) (hon : s.decoderOn = true) (c : FailCause) (st : Stats) (k : Counters)
    (hk : k.goodcnt = s.counters.goodcnt) : Inv (raiseFatal c { s with stats := st, counters := k }) :=
  have ht := packetInv_raiseFatal h hon c st k hk
  ht.inv (ht.control.controlInv (by simp)) (by simp [RxInv])

theorem inv_rxError {s t : State} (h : Inv s) (ht : rxError s = .next t) : Inv t := by
  unfold rxError at ht
  split at ht
  · cases ht
  · rename_i hreq
    cases ht
    have hon := h.packetInv.on_of_pend (mt (receiveRequest_isNone s).mpr hreq)
    exact inv_raiseFatal h.packetInv hon .ioError s.stats s.counters rfl

theorem packetInv_countTimeout (h : PacketInv s) (hon : s.decoderOn = true)
    (hlimit : ¬s.cfg.maxRetries ≤ s.counters.retry + 1) : PacketInv (countTimeout s) :=
  { h with
    fresh := ⟨h.fresh.1, fun hu => absurd hu (State.ne_unstarted_of_on hon)⟩
    counter := ⟨h.counter.1, fun _ => BitVec.not_le.mp hlimit, h.counter.errcnt_lt⟩ }

/-- The flush gives up a partial candidate and settles `RXBUF` again (R175). -/
theorem packetInv_flush {s t : State} (hs : PacketInv s) (hx : RxInv s) (hon : s.decoderOn = true)
    (h : flush s = .next t) : PacketInv t ∧ RxInv t := by
  unfold flush at h
  split at h
  · cases h; exact ⟨hs, hx⟩
  · exact packetInv_decodeLoop (packetInv_drop1 hs hon) h

theorem packetInv_rearmNak (h : PacketInv s) : PacketInv (rearmNak s) := { h with }

/-- What a timeout transmits, by `PSTATE` (R175). -/
theorem timeoutResend_cases (s : State) :
    (s.pstate = .negotiating ∧ timeoutResend s = requestSync s) ∨
      (s.pstate = .ready ∧ s.win.outstanding ≠ 0 ∧ timeoutResend s = transmitData (seqSucc s.win.lastAcked) true s) ∨
      (s.pstate = .ready ∧ s.win.outstanding = 0 ∧ timeoutResend s = transmitNak (seqSucc s.win.lastRecv) s) ∨
      (s.decoderOn = false ∧ timeoutResend s = s) := by
  unfold timeoutResend State.decoderOn
  cases hp : s.pstate
  case ready =>
    by_cases ho : s.win.outstanding = 0
    · exact .inr (.inr (.inl ⟨rfl, ho, if_neg (not_not.mpr ho)⟩))
    · exact .inr (.inl ⟨rfl, ho, if_pos ho⟩)
  all_goals simp

theorem packetInv_timeoutResend (h : PacketInv s) : PacketInv (timeoutResend s) := by
  rcases timeoutResend_cases s with ⟨hn, he⟩ | ⟨hr, -, he⟩ | ⟨hr, -, he⟩ | ⟨-, he⟩ <;> rw [he]
  · exact packetInv_requestSync h hn
  · exact packetInv_transmitData (h.owingInv hr) _ _
  · exact packetInv_transmit (ty := .nak) (h.owingInv hr) nofun _ _ _ _ _
  · exact h

/-- A retransmission leaves the decoder on, and what `RXBUF` is judged by as it was. -/
theorem rxInv_timeoutResend (h : RxInv s) : RxInv (timeoutResend s) := by
  rcases timeoutResend_cases s with ⟨hn, he⟩ | ⟨hr, -, he⟩ | ⟨hr, -, he⟩ | ⟨-, he⟩ <;> rw [he]
  · exact h.of_same (fun _ => State.on_of_negotiating hn) (by simp) (by simp)
  · exact h.of_same (fun _ => State.on_of_ready hr) (by simp) (by simp)
  · exact h.of_same (fun _ => State.on_of_ready hr) (by simp) (by simp)
  · exact h

theorem inv_afterFlush (h : PacketInv s) (hx : RxInv s) : Inv (afterFlush s) := by
  have ht : PacketInv (timeoutResend (rearmNak s)) := packetInv_timeoutResend (packetInv_rearmNak h)
  have htx : RxInv (timeoutResend (rearmNak s)) := rxInv_timeoutResend hx
  unfold afterFlush
  dsimp only
  split
  · rename_i hfailed
    exact ht.inv (ht.control.controlInv fun _ => by simp [hfailed]) htx
  · exact inv_completionCheck ht htx

theorem inv_rxTimeout {s t : State} (h : Inv s) (ht : rxTimeout s = .next t) : Inv t := by
  obtain ⟨hp, hcase⟩ := rxTimeout_eq_next ht
  have hon := h.packetInv.on_of_pend hp
  rcases hcase with ⟨-, rfl⟩ | ⟨hlimit, u, hu, rfl⟩
  · exact inv_raiseFatal h.packetInv hon .retryExhausted _ _ rfl
  · obtain ⟨hu', hx⟩ := packetInv_flush (packetInv_countTimeout h.packetInv hon hlimit) h.rx hon hu
    exact inv_afterFlush hu' hx

/-! ### Commands -/

theorem inv_respond (h : Inv s) (op : BitVec 4) (st : Status) : Inv (respond op st s) := { h with }

/-- A command turned away leaves the invariant alone; so only its operation is left to look at (R115). -/
theorem inv_command (h : Inv s) {op : BitVec 4} {allowed : PState → Bool} {run : State → State}
    (hrun : s.pend = .none → allowed s.pstate = true → Inv (run s)) : Inv (command op allowed run s) := by
  rcases command_cases op allowed run s with ⟨-, he⟩ | ⟨-, -, he⟩ | ⟨hp, ha, he⟩ <;> rw [he]
  · exact inv_respond h _ _
  · exact inv_respond h _ _
  · exact hrun hp ha

/-- The configuration a START takes its sizes from is legal (R36). -/
theorem SizeInv.request_le (h : SizeInv s) :
    1 ≤ s.cfg.winReq ∧ s.cfg.winReq ≤ 16 ∧ 5 ≤ s.cfg.kReq ∧ s.cfg.kReq ≤ 10 := by
  obtain ⟨hcfg, -⟩ := h
  simp only [cfg0Legal, Bool.and_eq_true, decide_eq_true_eq] at hcfg
  obtain ⟨⟨⟨⟨h1, h2⟩, h3, h4⟩, -⟩, -⟩ := hcfg
  exact ⟨h1, h2, h3, h4⟩

/-- START opens the negotiation (R203); the caller's SYNC is the one flag it may set. -/
theorem inv_startOp (h : Inv s) (hu : s.pstate = .unstarted) (role : Bool) : Inv (startOp role s) := by
  obtain ⟨hwin1, hwin16, hk5, hk10⟩ := h.size.request_le
  obtain ⟨hcfg0, hcfg1, hcfg2, -, -, -, hneg, -⟩ := h.size
  obtain ⟨hwin, hborrow, hack, hslots, hreord⟩ := h.fresh.1 (.inl hu)
  obtain ⟨hbuf, hcounters⟩ := h.fresh.2 hu
  obtain ⟨hsent, hgot⟩ := h.handshake.1 hu
  obtain ⟨hretries, herrs, -⟩ := h.size.limits_pos
  obtain ⟨-, hout, -⟩ := h.slot
  have hgoal : ∀ (sent : Bool) (st : Stats) (o : List OutEvent), Inv
      { s with
        flags := { s.flags with role := role, sentSync := sent }
        sizes := { s.sizes with lwin := s.cfg.winReq, lpktK := s.cfg.kReq, acceptK := s.cfg.kReq }
        pstate := .negotiating
        counters := { s.counters with retry := 0 }
        pend := .start
        stats := st
        out := o } := fun sent st o =>
    { h with
      control := ⟨⟨fun _ => rfl, fun _ => rfl⟩, fun hp => hp.elim nofun nofun⟩
      handshake := ⟨nofun, fun _ hboth => absurd (hgot.symm.trans hboth.2) nofun, nofun⟩
      fresh := ⟨fun _ => ⟨hwin, hborrow, hack, hslots, hreord⟩, nofun⟩
      slot := ⟨nofun, fun _ => hout (by simp [hu]), fun q hq => absurd ((hslots q).symm.trans hq) nofun⟩
      borrow := fun hb => absurd (hborrow.symm.trans hb) nofun
      reord := fun q hq => absurd ((hreord q).symm.trans hq) nofun
      ack := ⟨hack, by rw [hwin]; exact lt_of_lt_of_le Nat.zero_lt_one (le_max_left 1 _)⟩
      size := ⟨hcfg0, hcfg1, hcfg2, hwin16, hk10, hk10, hneg, fun _ => ⟨hwin1, hk5⟩⟩
      rx := fun _ => .inl hbuf
      counter := ⟨h.counter.1, fun _ => hretries, fun _ => by rw [hcounters]; exact herrs⟩ }
  cases role with
  | true => exact hgoal true _ _
  | false => exact hgoal s.flags.sentSync _ _


theorem inv_getBufOp (h : Inv s) (hp : s.pend = .none) (hr : s.pstate = .ready) : Inv (getBufOp s) :=
  { h with
    fresh := freshInv_of_ready hr
    borrow := fun _ => ⟨rfl, .inl hr, by simp [hp]⟩ }

/-- WAIT takes nothing but the pending place (R206). -/
theorem inv_waitOp (h : Inv s) (hp : s.pend = .none) (hr : s.pstate = .ready) : Inv (waitOp s) := by
  obtain ⟨-, hout, huse⟩ := h.slot
  exact
    { h with
      control := ⟨⟨nofun, fun hn => absurd (hr.symm.trans hn) nofun⟩, fun _ => hr⟩
      fresh := freshInv_of_ready hr
      slot := ⟨nofun, hout, fun q hq => (huse q hq).imp_right fun hnext => ⟨hnext.1, by simpa [hp] using hnext.2⟩⟩
      borrow := fun hb => ⟨(h.borrow hb).1, .inl hr, nofun⟩
      counter := h.counter.retry_zero h.size rfl rfl rfl }

/-- The slot an accepted SEND_DATA fills is the next one, and its length fits (R205). -/
theorem packetInv_fillSlot (h : Inv s) (hr : s.pstate = .ready) {len : BitVec 12}
    (hlen : len.toNat ≤ classSize s.sizes.negPktK) (eom : Bool) (lch rch : Channel) :
    PacketInv (fillSlot eom lch rch len s) := by
  obtain ⟨-, hout, huse⟩ := h.slot
  obtain ⟨-, -, -, hneg⟩ := h.size.sizes_le
  have hsize : classSize s.sizes.negPktK ≤ 1024 :=
    Nat.pow_le_pow_right (by decide) (show s.sizes.negPktK.toNat ≤ 10 by bv_omega)
  have hinuse : ∀ q, ((fillSlot eom lch rch len s).slot q).inuse = true ↔
      q = s.win.nextSeq ∨ (s.slot q).inuse = true := by
    intro q
    rw [State.slot, fillSlot_slots]
    by_cases hq : q = s.win.nextSeq
    · subst hq; simp
    · rw [entryAt_setEntry_other _ _ hq]; simp [hq, State.slot]
  have hslot : SlotInv (fillSlot eom lch rch len s) := by
    unfold SlotInv
    simp only [hinuse]
    exact ⟨fun _ => .inl rfl, fun hc q hq => .inr (hout hc q hq),
      fun q hq => hq.elim (fun he => .inr ⟨he, .inl rfl⟩)
        fun hq => (huse q hq).imp_right fun hnext => ⟨hnext.1, .inl rfl⟩⟩
  have hlength : LengthInv (fillSlot eom lch rch len s) := by
    refine ⟨fun q => ?_, h.length.2⟩
    rw [State.slot, fillSlot_slots]
    by_cases hq : q = s.win.nextSeq
    · subst hq
      rw [entryAt_setEntry_same]
      exact (Nat.mod_le _ _).trans (hlen.trans hsize)
    · rw [entryAt_setEntry_other _ _ hq]; exact h.length.1 q
  exact
    { h.packetInv with
      control := ⟨fun hn => absurd (hr.symm.trans hn) nofun, fun _ => .inr hr⟩
      fresh := freshInv_of_ready hr
      slot := hslot
      borrow := nofun
      length := hlength
      counter := h.counter.retry_zero h.size rfl rfl rfl }

theorem inv_sendDataOp (h : Inv s) (hr : s.pstate = .ready) (eom : Bool) (lch rch : Channel)
    (len : BitVec 12) : Inv (sendDataOp eom lch rch len s) := by
  unfold sendDataOp
  split
  · exact inv_respond h _ _
  · rename_i hok
    exact inv_completionCheck (packetInv_fillSlot h hr (not_lt.mp (not_or.mp hok).2) eom lch rch) h.rx

/-- SHUTDOWN empties both pools and the receive buffer (R207). -/
theorem inv_shutdownOp (h : Inv s) (hp : s.pend = .none) (hu : s.pstate ≠ .unstarted) :
    Inv (shutdownOp s) := by
  have hslot : ∀ q, ((shutdownOp s).slot q) = { s.slot q with inuse := false } := fun q => entryAt_map _ _ q
  have hreord : ∀ q, ((shutdownOp s).reordAt q) = { s.reordAt q with valid := false } := fun q => entryAt_map _ _ q
  have hpend : (shutdownOp s).pend = .none := hp
  exact
    { h with
      control := ⟨⟨fun hs => absurd (hp.symm.trans hs) nofun, nofun⟩, by simp [hpend]⟩
      handshake := ⟨nofun, nofun, nofun⟩
      fresh := freshInv_of_ne nofun nofun
      slot := ⟨by simp [hpend], fun hc => absurd rfl hc, fun q hq => by rw [hslot] at hq; cases hq⟩
      borrow := nofun
      reord := fun q hq => by rw [hreord] at hq; cases hq
      ack := ackInv_of_acked rfl rfl
      size := h.size.of_started hu rfl rfl
      length := ⟨fun q => by rw [hslot]; exact h.length.1 q, fun q => by rw [hreord]; exact h.length.2 q⟩
      rx := fun _ => .inl rfl
      counter := ⟨h.counter.1, fun hc => hc.elim nofun nofun, nofun⟩ }

/-- Every command keeps the invariant. -/
theorem inv_exec_command {s t : State} (h : Inv s) {i : Instr} (hi : isPacket i = false) (ht : exec i s = .next t) :
    Inv t := by
  cases i with
  | start role => cases ht; exact inv_command h fun _ ha => inv_startOp h (of_decide_eq_true ha) role
  | getBuf => cases ht; exact inv_command h fun hp ha => inv_getBufOp h hp (of_decide_eq_true ha)
  | sendData eom lch rch len =>
    cases ht; exact inv_command h fun _ ha => inv_sendDataOp h (of_decide_eq_true ha) eom lch rch len
  | wait => cases ht; exact inv_command h fun hp ha => inv_waitOp h hp (of_decide_eq_true ha)
  | shutdown =>
    cases ht
    refine inv_command h fun hp ha => inv_shutdownOp h hp fun hu => ?_
    rw [hu] at ha; cases ha
  | file flag lch rch => cases ht; exact inv_command h fun _ _ => inv_respond h _ _
  | data _ _ => cases hi
  | sync _ _ _ => cases hi
  | ack _ => cases hi
  | nak _ => cases hi
  | close _ => cases hi

/-- A command word decodes to a command (R111). -/
theorem decodeCommand_not_packet {w : Word} {i : Instr} (h : decodeCommand w = .ok i) : isPacket i = false := by
  have hrow : ∀ {mask pattern : Word} {j : Instr}, cmdRow mask pattern w j = .ok i → i = j := by
    intro mask pattern j hr
    unfold cmdRow at hr
    split at hr
    · cases hr; rfl
    · cases hr
  unfold decodeCommand at h
  split at h
  case h_7 => cases h
  all_goals rw [hrow h]; rfl

theorem inv_illegalCommand (h : Inv s) (w : Word) (e : CmdError) : Inv (illegalCommand w e s) := by
  unfold illegalCommand
  dsimp only
  split
  · exact inv_respond h _ _
  · cases e <;> exact inv_respond h _ _

theorem inv_runCommand {s t : State} (h : Inv s) {w : Word} (ht : runCommand w s = .next t) : Inv t := by
  unfold runCommand at ht
  split at ht
  · rename_i i hw
    exact inv_exec_command h (decodeCommand_not_packet hw) ht
  · cases ht; exact inv_illegalCommand h w _

/-! ### Registers and buffers -/

/-- A configuration is replaced only before START, by a legal one (R39). -/
theorem inv_writeConfig (h : Inv s) {legal : Bool} {c : ConfigRegs}
    (hlegal : legal = true → cfg0Legal c.cfg0 = true ∧ cfg1Legal c.cfg1 = true ∧ cfg2Legal c.cfg2 = true) :
    Inv (writeConfig legal c s) := by
  unfold writeConfig
  split
  · rename_i hok
    obtain ⟨hu, hl⟩ := hok
    obtain ⟨hc0, hc1, hc2⟩ := hlegal hl
    obtain ⟨hlwin, hlpkt, hacc, hneg⟩ := h.size.sizes_le
    have hsize : SizeInv { s with cfg := c } := ⟨hc0, hc1, hc2, hlwin, hlpkt, hacc, hneg, fun hn => absurd hu hn⟩
    obtain ⟨hretries, herrs, hdecay⟩ := hsize.limits_pos
    obtain ⟨-, hcounters⟩ := h.fresh.2 hu
    have hcounter : CounterInv { s with cfg := c } := by
      unfold CounterInv
      rw [hcounters]
      exact ⟨hdecay, fun _ => hretries, fun _ => herrs⟩
    exact { h with size := hsize, counter := hcounter }
  · exact { h with }

theorem inv_csrWrite (h : Inv s) (addr : Nat) (v : Word) : Inv (csrWrite addr v s) := by
  obtain ⟨hc0, hc1, hc2, -⟩ := h.size
  unfold csrWrite
  split
  · unfold writeCtrl
    split
    · exact inv_resetBlock s
    · split
      · exact { h with }
      · exact h
  · exact inv_writeConfig h fun hl => ⟨hl, hc1, hc2⟩
  · exact inv_writeConfig h fun hl => ⟨hc0, hl, hc2⟩
  · exact inv_writeConfig h fun hl => ⟨hc0, hc1, hl⟩
  · exact h

/-- A byte goes into the lent slot only, which lies in the space (R66). -/
theorem inv_bufWrite (h : Inv s) (addr : Nat) (b : Byte) : Inv (bufWrite addr b s) := by
  obtain ⟨hslotWf, hreordWf, hslotIn, hreordIn⟩ := h.memory
  unfold bufWrite
  split
  · rename_i hlent
    simp only [State.lentOffset, Bool.and_eq_true, decide_eq_true_eq] at hlent
    have hlt : addr - Config.bufWinBase < 32768 := by
      have := recordAddr_lt s.win.bufSlot 1023 (by decide)
      omega
    exact
      { h with
        memory := ⟨Memory.wf_write _ _ _ hslotWf, hreordWf, Memory.inSpace_write _ _ _ hlt hslotIn, hreordIn⟩ }
  · exact { h with }

/-! ### The step -/

theorem inv_handle {e : InEvent} {s t : State} (h : Inv s) (ht : handle e s = .next t) : Inv t := by
  cases e with
  | reset => cases ht; exact inv_resetBlock s
  | csrWrite addr v => cases ht; exact inv_csrWrite h addr v
  | csrRead addr => cases ht; exact { h with }
  | bufWrite addr b => cases ht; exact inv_bufWrite h addr b
  | cmd w => exact inv_runCommand h ht
  | rxBytes chunk => exact inv_rxBytes h ht
  | rxTimeout => exact inv_rxTimeout h ht
  | rxError => exact inv_rxError h ht

/-- Settles O54: the parts of a step keep `PacketInv`, and the ends of a step restore the rest (`inv_handle`). -/
theorem everyStepKeepsTheInvariant : Obligations.EveryStepKeepsTheInvariant := fun s t h ht =>
  step_keeps (fun _ _ hs => { hs with }) (fun _ _ _ => inv_handle) s t h ht

end

end Sys2Proof.Machine

namespace Sys2Proof.Machine

open Sys2Proof

section

variable {s : State}

/-! ### Moves of `PSTATE` (R29) -/

/-- What packets, errors and timeouts make of `PSTATE`: they leave it, finish the handshake, or end the connection. -/
def StreamMove (p q : PState) : Prop := q = p ∨ q = .ready ∨ q = .closing ∨ q = .failed

theorem StreamMove.of_eq {p q : PState} (h : q = p) : StreamMove p q := .inl h

theorem StreamMove.trans {p q r : PState} (h : StreamMove p q) (h' : StreamMove q r) : StreamMove p r := by
  rcases h' with rfl | hr
  · exact h
  · exact .inr hr

/-- From a state in which the decoder runs these moves, and the paths of them, are on the list. -/
theorem StreamMove.allowed {p q : PState} (h : StreamMove p q) (hp : p = .negotiating ∨ p = .ready) :
    moveAllowed p q = true := by
  rcases hp with rfl | rfl <;> rcases h with rfl | rfl | rfl | rfl <;> rfl

theorem moveAllowed_self (p : PState) : moveAllowed p p = true := by cases p <;> rfl

theorem finishHandshake_move (s : State) : StreamMove s.pstate (finishHandshake s).pstate := by
  rcases finishHandshake_cases s with ⟨-, -, -, he⟩ | ⟨-, he⟩ <;> rw [he]
  · exact .inr (.inl rfl)
  · exact .of_eq rfl

theorem requestSync_move (s : State) : StreamMove s.pstate (requestSync s).pstate :=
  finishHandshake_move (transmitSync false s)

theorem raiseFatal_move (c : FailCause) (p : PState) (s : State) : StreamMove p (raiseFatal c s).pstate :=
  .inr (.inr (.inr (raiseFatal_pstate c s)))

theorem fallbackOrFail_move (s : State) : StreamMove s.pstate (fallbackOrFail s).pstate := by
  rcases fallbackOrFail_cases s with ⟨-, he⟩ | ⟨-, he⟩ <;> rw [he]
  · exact requestSync_move _
  · exact raiseFatal_move _ _ _

theorem countError_move (kind : ErrKind) (s : State) : StreamMove s.pstate (countError kind s).pstate := by
  rcases countError_cases kind s with he | ⟨-, he⟩ | ⟨-, he⟩ <;> rw [he]
  · exact .of_eq rfl
  · exact fallbackOrFail_move (tallyError kind s)
  · exact raiseFatal_move _ _ _

theorem handleSync_move (f : Bool) (win k : Byte) (s : State) : StreamMove s.pstate (handleSync f win k s).pstate := by
  rcases handleSync_cases f win k s with ⟨-, he⟩ | ⟨-, -, he⟩ | ⟨-, -, he⟩ <;> rw [he]
  · exact countError_move _ s
  · exact finishHandshake_move (settleSizes win k s)
  · exact finishHandshake_move (transmitSync true (settleSizes win k s))

theorem acceptNumbered_move {own : Bool → State → State} (hown : ∀ b t, StreamMove t.pstate (own b t).pstate)
    (ack : SeqNum) (s : State) : StreamMove s.pstate (acceptNumbered ack own s).pstate := by
  rcases acceptNumbered_cases ack own s with ⟨-, he⟩ | ⟨-, he⟩ | ⟨-, he⟩ <;> rw [he]
  · exact .of_eq rfl
  · rw [serviceIfReady_pstate]
    have hmove := hown (onAck ack (goodPacket s)).1 (onAck ack (goodPacket s)).2
    rwa [onAck_pstate, goodPacket_pstate] at hmove
  · exact .of_eq rfl

theorem acceptSync_move (f : Bool) (win k : Byte) (s : State) : StreamMove s.pstate (acceptSync f win k s).pstate := by
  rcases acceptSync_cases f win k s with ⟨-, he⟩ | ⟨-, he⟩ | ⟨-, he⟩ <;> rw [he]
  · exact handleSync_move f win k (goodPacket s)
  · rw [serviceIfReady_pstate]; exact handleSync_move f win k (goodPacket s)
  · exact .of_eq rfl

/-- A packet (R230, R237, R241). -/
theorem exec_packet_move {i : Instr} (hi : isPacket i = true) {t : State} (he : exec i s = .next t) :
    StreamMove s.pstate t.pstate := by
  cases i with
  | data hdr p => cases he; exact acceptNumbered_move (fun _ t => .of_eq (onData_pstate _ _ _ _ _ t)) _ s
  | sync hdr win k => cases he; exact acceptSync_move _ _ _ s
  | ack hdr => cases he; exact acceptNumbered_move (fun _ t => .of_eq (ackPacket_pstate _ _ t)) _ s
  | nak hdr => cases he; exact acceptNumbered_move (fun _ t => .of_eq (onReject_pstate _ t)) _ s
  | close hdr => cases he; exact acceptNumbered_move (fun _ t => .inr (.inr (.inl (peerClose_pstate t)))) _ s
  | start _ => cases hi
  | getBuf => cases hi
  | sendData _ _ _ _ => cases hi
  | wait => cases hi
  | shutdown => cases hi
  | file _ _ _ => cases hi

theorem decodeLoop_move {t : State} (h : decodeLoop s = .next t) : StreamMove s.pstate t.pstate :=
  decodeRounds_keeps (P := fun u => StreamMove s.pstate u.pstate) (fun _ _ hu => hu)
    (fun kind u _ hu => hu.trans (countError_move kind u))
    (fun _ u rest _ _ hf hu he =>
      hu.trans (exec_packet_move (s := { u with rxbuf := rest }) (decodeFrame_packet hf).1 he))
    _ s t (.of_eq rfl) h

theorem feed_move {chunk : List Byte} {t : State} (h : feed chunk s = .next t) : StreamMove s.pstate t.pstate :=
  feed_keeps (P := fun u => StreamMove s.pstate u.pstate) 
    (fun b u _ _ hu hv => hu.trans (decodeLoop_move (s := { u with rxbuf := u.rxbuf ++ [b] }) hv))
    chunk s t (.of_eq rfl) h

theorem flush_move {t : State} (h : flush s = .next t) : StreamMove s.pstate t.pstate := by
  unfold flush at h
  split at h
  · cases h; exact .of_eq rfl
  · exact decodeLoop_move (s := drop1 s) h

theorem completionCheck_pstate (s : State) : (completionCheck s).pstate = s.pstate := (completionCheck_same s).1

theorem timeoutResend_move (s : State) : StreamMove s.pstate (timeoutResend s).pstate := by
  rcases timeoutResend_cases s with ⟨-, he⟩ | ⟨-, -, he⟩ | ⟨-, -, he⟩ | ⟨-, he⟩ <;> rw [he]
  · exact requestSync_move s
  all_goals exact .of_eq rfl

theorem afterFlush_move (s : State) : StreamMove s.pstate (afterFlush s).pstate := by
  have hmove : StreamMove s.pstate (timeoutResend (rearmNak s)).pstate := timeoutResend_move (rearmNak s)
  unfold afterFlush
  dsimp only
  split
  · exact hmove
  · rwa [completionCheck_pstate]

/-- An event of the byte stream. -/
theorem stream_move {e : InEvent} (he : e.fromStream) {t : State} (h : handle e s = .next t) :
    s.pend ≠ .none ∧ StreamMove s.pstate t.pstate := by
  refine ⟨fun hp => absurd ((handle_of_none hp he).symm.trans h) nofun, ?_⟩
  rcases e.fromStream_iff.mp he with ⟨chunk, rfl⟩ | rfl | rfl
  · obtain ⟨-, -, u, hu, rfl⟩ := rxBytes_eq_next h
    rw [completionCheck_pstate]
    exact feed_move hu
  · obtain ⟨-, ⟨-, rfl⟩ | ⟨-, u, hu, rfl⟩⟩ := rxTimeout_eq_next h
    · exact raiseFatal_move _ _ _
    · exact (flush_move hu).trans (afterFlush_move u)
  · change rxError s = .next t at h
    unfold rxError at h
    split at h
    · cases h
    · cases h; exact raiseFatal_move _ _ _

/-- A command moves `PSTATE` only by its own operation (R115). -/
theorem command_move {op : BitVec 4} {allowed : PState → Bool} {run : State → State}
    (hrun : allowed s.pstate = true → moveAllowed s.pstate (run s).pstate = true) :
    moveAllowed s.pstate (command op allowed run s).pstate = true := by
  rcases command_cases op allowed run s with ⟨-, he⟩ | ⟨-, -, he⟩ | ⟨-, ha, he⟩ <;> rw [he]
  · exact moveAllowed_self _
  · exact moveAllowed_self _
  · exact hrun ha

theorem sendDataOp_pstate (eom : Bool) (lch rch : Channel) (len : BitVec 12) (s : State) :
    (sendDataOp eom lch rch len s).pstate = s.pstate := by
  unfold sendDataOp
  split
  · rfl
  · exact completionCheck_pstate _

/-- START opens the negotiation, SHUTDOWN closes, the rest stay (R203 to R208). -/
theorem exec_command_move {i : Instr} (hi : isPacket i = false) {t : State} (ht : exec i s = .next t) :
    moveAllowed s.pstate t.pstate = true := by
  cases i with
  | start role =>
    cases ht
    exact command_move fun ha => by cases role <;> rw [of_decide_eq_true ha] <;> rfl
  | getBuf => cases ht; exact command_move fun _ => moveAllowed_self _
  | sendData eom lch rch len =>
    cases ht; exact command_move fun _ => by rw [sendDataOp_pstate]; exact moveAllowed_self _
  | wait => cases ht; exact command_move fun _ => moveAllowed_self _
  | shutdown =>
    cases ht
    exact command_move fun ha => by rcases of_decide_eq_true ha with hp | hp <;> rw [hp] <;> rfl
  | file flag lch rch => cases ht; exact command_move fun _ => moveAllowed_self _
  | data _ _ => cases hi
  | sync _ _ _ => cases hi
  | ack _ => cases hi
  | nak _ => cases hi
  | close _ => cases hi

theorem runCommand_move {w : Word} {t : State} (h : runCommand w s = .next t) :
    moveAllowed s.pstate t.pstate = true := by
  unfold runCommand at h
  split at h
  · rename_i i hw
    exact exec_command_move (decodeCommand_not_packet hw) h
  · rename_i e _
    cases h
    unfold illegalCommand
    dsimp only
    split
    · exact moveAllowed_self _
    · cases e <;> exact moveAllowed_self _

/-- A register write that is no reset leaves `PSTATE`. -/
theorem csrWrite_pstate {addr : Nat} {v : Word} (h : isReset (.csrWrite addr v) = false) :
    (csrWrite addr v s).pstate = s.pstate := by
  have hconfig : ∀ legal c, (writeConfig legal c s).pstate = s.pstate := by
    intro legal c
    unfold writeConfig
    split <;> rfl
  unfold csrWrite
  split
  · unfold writeCtrl
    split
    · rename_i hreset; exact absurd (h.symm.trans hreset) nofun
    · split <;> rfl
  case h_5 => rfl
  all_goals exact hconfig _ _

/-- A reset leads to `UNSTARTED`, whatever the state (R340). -/
theorem reset_pstate {e : InEvent} (he : isReset e = true) {t : State} (h : handle e s = .next t) :
    t.pstate = .unstarted := by
  cases e with
  | reset => cases h; rfl
  | csrWrite addr v =>
    cases h
    simp only [isReset, Bool.and_eq_true, decide_eq_true_eq] at he
    obtain ⟨rfl, hv⟩ := he
    rw [csrWrite, writeCtrl, if_pos hv]
    rfl
  | _ => cases he

/-- Settles O56: the byte stream makes only `StreamMove`s, from a state in which the decoder runs; a command makes its
own move. -/
theorem stateMovesAreTheListedOnes : Obligations.StateMovesAreTheListedOnes := by
  intro e s t hcontrol ht
  refine ⟨fun he => reset_pstate he ht, fun he => ?_⟩
  by_cases hstream : e.fromStream
  · obtain ⟨hp, hmove⟩ := stream_move hstream ht
    exact hmove.allowed (hcontrol.stepControlInv.2 hp)
  · cases e with
    | reset => cases he
    | csrWrite addr v => cases ht; rw [csrWrite_pstate he]; exact moveAllowed_self _
    | csrRead addr => cases ht; exact moveAllowed_self _
    | bufWrite addr b =>
      cases ht
      unfold bufWrite
      split <;> exact moveAllowed_self _
    | cmd w => exact runCommand_move ht
    | rxBytes chunk => exact absurd trivial hstream
    | rxTimeout => exact absurd trivial hstream
    | rxError => exact absurd trivial hstream

end

end Sys2Proof.Machine

namespace Sys2Proof.Machine

open Sys2Proof

section

variable {s : State}

/-! ### Counting errors and good packets -/

/-- Settles O27: the two branches of `goodPacket`, with the saturating arithmetic in numbers. -/
theorem goodPacketsForgiveErrors : Obligations.GoodPacketsForgiveErrors := by
  refine ⟨fun n x => satInc_toNat x, fun s => ⟨fun hdecay => ?_, fun hdecay => ?_⟩⟩
  · have herr : (if s.counters.errcnt = 0 then 0 else s.counters.errcnt - 1) =
        BitVec.ofNat 16 (s.counters.errcnt.toNat - 1) := by
      split <;> bv_omega
    unfold goodPacket
    dsimp only
    rw [if_pos (show s.cfg.decayK ≤ s.counters.goodcnt + 1 from hdecay), herr]
  · unfold goodPacket
    dsimp only
    rw [if_neg (show ¬s.cfg.decayK ≤ s.counters.goodcnt + 1 from not_le.mpr hdecay)]

/-- Settles O48: the values of R44 are those `State.reset` is written with; the pools are uniform. -/
theorem resetLeavesTheListedValues : Obligations.ResetLeavesTheListedValues :=
  ⟨rfl, rfl, rfl, rfl, rfl, rfl, rfl, rfl, rfl, fun q => by rw [reset_slot]; rfl,
    fun q => by rw [reset_reordAt]; rfl, rfl⟩

/-- `ERRCNT` after an error, against a limit that 8 bits hold (R310). -/
theorem tallyError_errcnt_lt_iff (kind : ErrKind) (s : State) :
    (tallyError kind s).counters.errcnt.toNat < s.cfg.negErrLimit.toNat ↔
      s.counters.errcnt.toNat + 1 < s.cfg.negErrLimit.toNat := by
  have hlimit := s.cfg.negErrLimit.isLt
  have htally : (tallyError kind s).counters.errcnt.toNat = min (s.counters.errcnt.toNat + 1) (2 ^ 16 - 1) :=
    satInc_toNat _
  rw [htally]
  omega

/-- The smaller of two size classes as a number (R24, R312). -/
theorem classMin_eq_ofNat (a b : SizeClass) : classMin a b = BitVec.ofNat 4 (min a.toNat b.toNat) := by
  unfold classMin
  split <;> bv_omega

/-- A fallback as the whole next state (R312, R238, log 21). -/
theorem fallbackOrFail_eq (hn : s.pstate = .negotiating) (hk : 5 < s.sizes.lpktK.toNat) :
    fallbackOrFail s =
      { s with
        sizes :=
          { s.sizes with
            lpktK := s.sizes.lpktK - 1
            negPktK :=
              if s.flags.gotSync then BitVec.ofNat 4 (min (s.sizes.lpktK.toNat - 1) s.sizes.rpktK.toNat)
              else s.sizes.negPktK }
        pstate := if s.flags.gotSync then .ready else .negotiating
        counters := { s.counters with errcnt := 0, retry := if s.flags.gotSync then 0 else s.counters.retry }
        flags := { s.flags with sentSync := true }
        stats := { s.stats with tx := satInc s.stats.tx }
        out :=
          s.out ++
            [.evt (.fellBack (s.sizes.lpktK - 1)),
             .tx (encodePacket .sync { seq := 0, lch := 0, ack := 0, rch := 0, f := false }
               [s.sizes.lwin.setWidth 8, (s.sizes.lpktK - 1).setWidth 8])] } := by
  have hpred : (s.sizes.lpktK - 1).toNat = s.sizes.lpktK.toNat - 1 := by bv_omega
  rcases fallbackOrFail_cases s with ⟨-, he⟩ | ⟨hle, -⟩
  · rw [he, requestSync_eq (by simpa using hn), classMin_eq_ofNat, hpred]
    cases hg : s.flags.gotSync <;> simp [transmitSync, transmit, emit, hg]
  · exact absurd hk (not_lt.mpr hle)

/-- Settles O43: `ERRCNT` below the limit, at it with a size to give up, and at it with none. -/
theorem fallbackHalvesThePacketSize : Obligations.FallbackHalvesThePacketSize := by
  intro kind s hn
  have hlt := tallyError_errcnt_lt_iff kind s
  have hlimit : s.cfg.negErrLimit.toNat ≤ s.counters.errcnt.toNat + 1 →
      countError kind s = fallbackOrFail (tallyError kind s) := fun hle =>
    (countError_negotiating kind hn).elim (fun h => absurd (hlt.mp h.1) (not_lt.mpr hle)) And.right
  refine ⟨fun h => ?_, fun hle hk => ?_, fun hle hk => ?_⟩
  · exact (countError_negotiating kind hn).elim And.right fun h' => absurd (hlt.mpr h) (not_lt.mpr h'.1)
  · rw [hlimit hle, fallbackOrFail_eq (by simpa using hn) (by simpa using hk)]
    cases kind <;> rfl
  · rw [hlimit hle]
    exact (fallbackOrFail_cases (tallyError kind s)).elim (fun h => absurd h.1 (not_lt.mpr hk)) And.right

/-! ### Timeouts -/

theorem afterFlush_of_not_failed (h : (timeoutResend (rearmNak s)).pstate ≠ .failed) :
    afterFlush s = completionCheck (timeoutResend (rearmNak s)) := if_neg h

/-- In `NEGOTIATING` the SYNC request goes out again (R175, R238, log 21). -/
theorem afterFlush_of_negotiating (hn : s.pstate = .negotiating) :
    afterFlush s =
      completionCheck
        { s with
          pstate := if s.flags.gotSync then .ready else .negotiating
          counters := { s.counters with retry := if s.flags.gotSync then 0 else s.counters.retry }
          flags := { s.flags with nakedValid := false, sentSync := true }
          stats := { s.stats with tx := satInc s.stats.tx }
          out := s.out ++ [.tx (s.syncImage false)] } := by
  have hresend : timeoutResend (rearmNak s) = requestSync (rearmNak s) := by
    unfold timeoutResend; rw [rearmNak_pstate, hn]
  have heq := requestSync_eq (s := rearmNak s) hn
  rw [afterFlush_of_not_failed, hresend, heq]
  · rfl
  · rw [hresend, heq]
    dsimp only
    split <;> simp

/-- In `READY` the oldest packet goes out again, counted once as a retransmission (R175, log 10). -/
theorem afterFlush_of_outstanding (hr : s.pstate = .ready) (ho : s.win.outstanding ≠ 0) :
    afterFlush s =
      completionCheck
        { s with
          flags := { s.flags with nakedValid := false, ackPending := false }
          win := { s.win with lastAckSent := s.win.lastRecv }
          stats := { s.stats with tx := satInc s.stats.tx, retx := satInc s.stats.retx }
          out := s.out ++ [.tx (s.dataImage (s.win.lastAcked + 1))] } := by
  have hresend : timeoutResend (rearmNak s) = transmitData (seqSucc s.win.lastAcked) true (rearmNak s) := by
    unfold timeoutResend
    rw [rearmNak_pstate, hr]
    exact if_pos ho
  rw [afterFlush_of_not_failed (by rw [hresend, transmitData_pstate, rearmNak_pstate, hr]; nofun), hresend]
  rfl

/-- With nothing outstanding the next expected packet is asked for (R175). -/
theorem afterFlush_of_none_outstanding (hr : s.pstate = .ready) (ho : s.win.outstanding = 0) :
    afterFlush s =
      completionCheck
        { s with
          flags := { s.flags with nakedValid := false, ackPending := false }
          win := { s.win with lastAckSent := s.win.lastRecv }
          stats := { s.stats with tx := satInc s.stats.tx }
          out := s.out ++ [.tx (controlImage .nak (s.win.lastRecv + 1) s.win.lastRecv)] } := by
  have hresend : timeoutResend (rearmNak s) = transmitNak (seqSucc s.win.lastRecv) (rearmNak s) := by
    unfold timeoutResend
    rw [rearmNak_pstate, hr]
    exact if_neg (not_not.mpr ho)
  rw [afterFlush_of_not_failed (by rw [hresend, transmitNak_pstate, rearmNak_pstate, hr]; nofun), hresend]
  rfl

/-- With the connection gone only `NAKED_VALID` is cleared (log 12). -/
theorem timeoutResend_of_off (h : s.decoderOn = false) : timeoutResend s = s := by
  rcases timeoutResend_cases s with ⟨hn, -⟩ | ⟨hr, -⟩ | ⟨hr, -⟩ | ⟨-, he⟩
  · exact absurd ((State.on_of_negotiating hn).symm.trans h) nofun
  · exact absurd ((State.on_of_ready hr).symm.trans h) nofun
  · exact absurd ((State.on_of_ready hr).symm.trans h) nofun
  · exact he

theorem afterFlush_of_failed (hf : s.pstate = .failed) : afterFlush s = rearmNak s := by
  have hresend := timeoutResend_of_off (s := rearmNak s) (by simp [State.decoderOn, hf])
  unfold afterFlush
  dsimp only
  rw [hresend]
  exact if_pos hf

theorem afterFlush_of_ended (hp : s.pstate = .unstarted ∨ s.pstate = .closing ∨ s.pstate = .closed) :
    afterFlush s = completionCheck (rearmNak s) := by
  have hresend := timeoutResend_of_off (s := rearmNak s) (by
    rcases hp with hp | hp | hp <;> simp [State.decoderOn, hp])
  rw [afterFlush_of_not_failed, hresend]
  rw [hresend, rearmNak_pstate]
  rcases hp with hp | hp | hp <;> simp [hp]

theorem rxTimeout_of_exhausted (hp : s.pend ≠ .none) (hlimit : s.cfg.maxRetries.toNat ≤ (s.counters.retry + 1).toNat) :
    rxTimeout s = .next (raiseFatal .retryExhausted (countTimeout s)) := by
  unfold rxTimeout
  rw [if_neg (mt (receiveRequest_isNone s).mp hp)]
  exact if_pos hlimit

theorem rxTimeout_of_retries (hp : s.pend ≠ .none) (hlimit : (s.counters.retry + 1).toNat < s.cfg.maxRetries.toNat) :
    rxTimeout s = andThen (flush (countTimeout s)) fun u => .next (afterFlush u) := by
  unfold rxTimeout
  rw [if_neg (mt (receiveRequest_isNone s).mp hp)]
  exact if_neg (not_le.mpr hlimit)

/-- With no partial candidate there is nothing to flush. -/
theorem rxTimeout_of_empty (hp : s.pend ≠ .none) (hlimit : (s.counters.retry + 1).toNat < s.cfg.maxRetries.toNat)
    (hbuf : s.rxbuf = []) : rxTimeout s = .next (afterFlush (countTimeout s)) := by
  have hflush : flush (countTimeout s) = .next (countTimeout s) := by
    unfold flush
    rw [countTimeout_rxbuf, hbuf]
    rfl
  rw [rxTimeout_of_retries hp hlimit, hflush]
  rfl

/-- A partial candidate gives up its lead-in (R175). -/
theorem rxTimeout_of_cons (hp : s.pend ≠ .none) (hlimit : (s.counters.retry + 1).toNat < s.cfg.maxRetries.toNat)
    {b : Byte} {rest : List Byte} (hbuf : s.rxbuf = b :: rest) :
    rxTimeout s =
      andThen
        (decodeLoop
          { countTimeout s with
            rxbuf := rest
            counters := { (countTimeout s).counters with garbage := satInc s.counters.garbage } })
        fun u => .next (afterFlush u) := by
  have hdrop : drop1 (countTimeout s) =
      { countTimeout s with
        rxbuf := rest
        counters := { (countTimeout s).counters with garbage := satInc s.counters.garbage } } := by
    unfold drop1
    rw [countTimeout_rxbuf, hbuf]
    rfl
  have hflush : flush (countTimeout s) = decodeLoop (drop1 (countTimeout s)) := by
    unfold flush
    rw [countTimeout_rxbuf, hbuf]
    rfl
  rw [rxTimeout_of_retries hp hlimit, hflush, hdrop]

/-- Settles O46: a timeout by the retry budget and `RXBUF`, its end by `PSTATE`, and the two special cases from both. -/
theorem timeoutResendsTheOldest : Obligations.TimeoutResendsTheOldest := by
  refine ⟨fun s hw hr hbuf heom hlimit => ?wait, fun s hp hn hbuf hlimit => ?start, fun s c hp hc => ?general,
    fun u => ?ends⟩
  case wait =>
    have hempty := rxTimeout_of_empty (by simp [hw]) hlimit hbuf
    refine ⟨fun ho => hempty.trans ?_, fun ho => hempty.trans ?_⟩
    · rw [afterFlush_of_outstanding (s := countTimeout s) hr ho,
        completionCheck_of_not_due (by simp [hw]) (by simp [heom]) (by simp [hw])]
      rfl
    · rw [afterFlush_of_none_outstanding (s := countTimeout s) hr ho,
        completionCheck_of_not_due (by simp [hw]) (by simp [heom]) (by simp [hw])]
      rfl
  case start =>
    have hempty := rxTimeout_of_empty (by simp [hp]) hlimit hbuf
    have hflush := afterFlush_of_negotiating (s := countTimeout s) hn
    refine ⟨fun hg => hempty.trans ?_, fun hg => hempty.trans ?_⟩
    · rw [hflush, completionCheck_of_not_due (by simp [hg]) (by simp [hp]) (by simp [hp])]
      simp [hg, hn, State.syncImage]
    · rw [hflush, completionCheck_of_start (by simp [hp]) (by simp [hg])]
      simp [hg, State.syncImage]
  case general =>
    subst hc
    exact ⟨rxTimeout_of_exhausted hp, fun hlimit =>
      ⟨rxTimeout_of_empty hp hlimit, fun b rest => rxTimeout_of_cons hp hlimit⟩⟩
  case ends =>
    exact ⟨afterFlush_of_negotiating, afterFlush_of_outstanding, afterFlush_of_none_outstanding, afterFlush_of_failed,
      afterFlush_of_ended⟩

end

end Sys2Proof.Machine

namespace Sys2Proof.Machine

open Sys2Proof

/-! ### Register writes -/

/-- A field of a register as a number. -/
theorem toNat_extract (v : Word) (start len : Nat) :
    (v.extractLsb' start len).toNat = v.toNat / 2 ^ start % 2 ^ len := by
  rw [BitVec.extractLsb'_toNat, Nat.shiftRight_eq_div_pow]

theorem extract_eq_zero_iff (v : Word) (start len : Nat) :
    v.extractLsb' start len = 0 ↔ v.toNat / 2 ^ start % 2 ^ len = 0 := by
  rw [← toNat_extract]
  exact BitVec.toNat_eq.trans (by simp)

/-- The legal values of `CFG0` in numbers (R36). -/
theorem cfg0Legal_iff (v : Word) :
    cfg0Legal v = true ↔
      1 ≤ v.toNat % 32 ∧ v.toNat % 32 ≤ 16 ∧ 5 ≤ v.toNat / 256 % 16 ∧ v.toNat / 256 % 16 ≤ 10 ∧
        1 ≤ v.toNat / 131072 % 4 ∧ v.toNat / 131072 % 4 ≤ 2 ∧
        v.toNat / 32 % 8 = 0 ∧ v.toNat / 4096 % 16 = 0 ∧ v.toNat / 524288 = 0 := by
  have hv := v.isLt
  unfold cfg0Legal
  simp only [Bool.and_eq_true, decide_eq_true_eq, toNat_extract, extract_eq_zero_iff]
  unfold Config.winMax Config.kMin Config.kMax
  omega

/-- The legal values of `CFG1` in numbers (R37). -/
theorem cfg1Legal_iff (v : Word) :
    cfg1Legal v = true ↔ v.toNat % 256 ≠ 0 ∧ v.toNat / 65536 ≠ 0 ∧ v.toNat / 256 % 256 = 0 := by
  have hv := v.isLt
  unfold cfg1Legal
  simp only [Bool.and_eq_true, decide_eq_true_eq, ne_eq, extract_eq_zero_iff]
  omega

/-- The legal values of `CFG2` in numbers (R38). -/
theorem cfg2Legal_iff (v : Word) :
    cfg2Legal v = true ↔ v.toNat % 65536 ≠ 0 ∧ v.toNat / 65536 % 256 ≠ 0 ∧ v.toNat / 16777216 ≠ 0 := by
  have hv := v.isLt
  unfold cfg2Legal
  simp only [Bool.and_eq_true, decide_eq_true_eq, ne_eq, extract_eq_zero_iff]
  omega

/-- A configuration write is accepted whole or only sets `CFGERR` (R39). -/
theorem writeConfig_of_iff {legal : Bool} {P : Prop} (hlegal : P ↔ legal = true) (c : ConfigRegs) (s : State) :
    (s.pstate = .unstarted ∧ P → writeConfig legal c s = { s with cfg := c }) ∧
      (¬(s.pstate = .unstarted ∧ P) → writeConfig legal c s = { s with flags := { s.flags with cfgErr := true } }) := by
  rw [hlegal]
  exact ⟨fun h => if_pos h, fun h => if_neg h⟩

/-- Offsets that are no writable register (R35, R63). -/
theorem csrWrite_of_other {addr : Nat} (h4 : addr ≠ 0x04) (h8 : addr ≠ 0x08) (hc : addr ≠ 0x0C) (h10 : addr ≠ 0x10)
    (v : Word) (s : State) : csrWrite addr v s = s := by
  unfold csrWrite
  split
  case h_5 => rfl
  all_goals contradiction

/-- Settles O50: the three configuration offsets by their legal values, `CTRL`, and the rest of the map. -/
theorem configurationWriteRule : Obligations.ConfigurationWriteRule := by
  refine ⟨fun addr v s haddr => ⟨csrWrite addr v s, rfl, ?_⟩, fun v s hreset => ?_, fun addr v s h4 h8 hc h10 => ?_,
    fun c => ⟨rfl, rfl, rfl, rfl, rfl, rfl, rfl, rfl, rfl⟩⟩
  · rcases haddr with rfl | rfl | rfl
    · exact writeConfig_of_iff (by simp [cfg0Legal_iff]) _ s
    · exact writeConfig_of_iff (by simp [cfg1Legal_iff]) _ s
    · exact writeConfig_of_iff (by simp [cfg2Legal_iff]) _ s
  · have hctrl : csrWrite 0x04 v s =
        if v.getLsbD 1 then { s with flags := { s.flags with cfgErr := false, bufViol := false } } else s := by
      show writeCtrl v s = _
      unfold writeCtrl
      rw [if_neg (ne_true_of_eq_false hreset)]
    exact congrArg Host.Outcome.next hctrl
  · exact congrArg Host.Outcome.next (csrWrite_of_other h4 h8 hc h10 v s)

/-! ### Register reads -/

/-- What is not in the map reads 0 (R35, R63). -/
theorem csrValue_of_unmapped {addr : Nat} (h : addr % 4 ≠ 0 ∨ 0x4C < addr ∨ addr = 0x04) (s : State) :
    s.csrValue addr = 0 := by
  unfold State.csrValue
  split
  case h_20 => rfl
  all_goals omega

/-- Bit `i` of a map of flags is the `i`-th flag (R35). -/
theorem testBit_bitMap (l : List Bool) (i : Nat) : (bitMap l).testBit i = l.getD i false := by
  induction l generalizing i with
  | nil => simp [bitMap]
  | cons b l ih =>
    cases i with
    | zero => cases b <;> simp [bitMap, Nat.testBit_zero]
    | succ i =>
      have hdiv : (b.toNat + 2 * bitMap l) / 2 = bitMap l := by
        cases b <;> simp only [Bool.toNat_false, Bool.toNat_true] <;> omega
      rw [bitMap, Nat.testBit_succ, hdiv, ih, List.getD_cons_succ]

/-- A map of a pool's flags shows the flag of each of its 32 entries (R35: `SLOT_INUSE`, `REORD_VALID`). -/
theorem getLsbD_bitMap {α : Type} (f : α → Bool) (v : Vector α 32) (q : SeqNum) :
    (BitVec.ofNat 32 (bitMap (v.toList.map f))).getLsbD q.toNat = f (entryAt v q) := by
  have hq : q.toNat < 32 := q.isLt
  rw [BitVec.getLsbD_ofNat, testBit_bitMap]
  simp [hq, entryAt]

/-- A field of a word, bit by bit. -/
theorem extract_eq_iff_bits {len : Nat} (w : Word) (start : Nat) (x : BitVec len) :
    w.extractLsb' start len = x ↔ ∀ i, i < len → w.getLsbD (start + i) = x.getLsbD i := by
  constructor
  · rintro rfl i hi
    simp [hi]
  · intro h
    refine BitVec.eq_of_getLsbD_eq fun i hi => ?_
    rw [BitVec.getLsbD_extractLsb', h i hi]
    simp [hi]

/-- The fields of `STATUS` (R35). -/
theorem statusWord_fields (s : State) :
    s.statusWord.extractLsb' 0 3 = s.pstate.code ∧ s.statusWord.extractLsb' 16 2 = s.pend.code ∧
      s.statusWord.extractLsb' 18 14 = 0 := by
  simp only [extract_eq_iff_bits, State.statusWord, BitVec.getLsbD_append]
  refine ⟨fun i hi => ?_, fun i hi => ?_, fun i hi => ?_⟩
  · simp (disch := omega) only [if_pos, Nat.zero_add]
  · simp (disch := omega) only [if_pos, if_neg, Nat.sub_sub, Nat.add_sub_cancel_left, Nat.reduceAdd]
  · simp (disch := omega) only [if_neg, BitVec.getLsbD_zero]
    exact BitVec.getLsbD_zero.symm

theorem statusWord_flags (s : State) :
    s.statusWord.getLsbD 3 = s.flags.role ∧ s.statusWord.getLsbD 4 = s.flags.closingF ∧
      s.statusWord.getLsbD 5 = s.flags.bufOwned ∧ s.statusWord.getLsbD 6 = s.flags.cautious ∧
      s.statusWord.getLsbD 7 = s.flags.rejSeen ∧ s.statusWord.getLsbD 8 = s.flags.ackPending ∧
      s.statusWord.getLsbD 9 = s.flags.nakedValid ∧ s.statusWord.getLsbD 10 = s.flags.sentSync ∧
      s.statusWord.getLsbD 11 = s.flags.gotSync ∧ s.statusWord.getLsbD 12 = s.flags.eomSeen ∧
      s.statusWord.getLsbD 13 = s.flags.cfgErr ∧ s.statusWord.getLsbD 14 = s.flags.bufViol := by
  simp only [State.statusWord, BitVec.getLsbD_append, bit1]
  simp

theorem statusWord_bit15 (s : State) : s.statusWord.getLsbD 15 = false := by
  simp only [State.statusWord, BitVec.getLsbD_append]
  rfl

/-- Four sequence numbers, one per byte (R35: `WIN0`, `WIN1`). -/
theorem packSeqs_fields (r3 r2 r1 r0 : SeqNum) :
    (packSeqs r3 r2 r1 r0).extractLsb' 0 5 = r0 ∧ (packSeqs r3 r2 r1 r0).extractLsb' 8 5 = r1 ∧
      (packSeqs r3 r2 r1 r0).extractLsb' 16 5 = r2 ∧ (packSeqs r3 r2 r1 r0).extractLsb' 24 5 = r3 := by
  simp only [extract_eq_iff_bits, packSeqs, BitVec.getLsbD_append]
  refine ⟨?_, ?_, ?_, ?_⟩
  all_goals
    intro i hi
    simp (disch := omega) only [if_pos, if_neg, Nat.sub_sub, Nat.add_sub_cancel_left, Nat.reduceAdd, Nat.zero_add]

theorem packSeqs_unlisted (r3 r2 r1 r0 : SeqNum) {b : Nat} (hb : b < 4) :
    (packSeqs r3 r2 r1 r0).extractLsb' (8 * b + 5) 3 = 0 := by
  simp only [extract_eq_iff_bits, packSeqs, BitVec.getLsbD_append]
  intro i hi
  interval_cases b
  all_goals
    simp (disch := omega) only [if_pos, if_neg, Nat.reduceMul, Nat.zero_add, Nat.reduceAdd, Nat.sub_sub,
      Nat.add_sub_cancel_left, BitVec.getLsbD_zero]
    exact BitVec.getLsbD_zero.symm

/-- The fields of `NEG` (R35). -/
theorem negWord_fields (s : State) :
    s.negWord.extractLsb' 0 5 = s.sizes.lwin ∧ s.negWord.extractLsb' 8 5 = s.sizes.rwin ∧
      s.negWord.extractLsb' 16 4 = s.sizes.lpktK ∧ s.negWord.extractLsb' 20 4 = s.sizes.rpktK ∧
      s.negWord.extractLsb' 24 4 = s.sizes.negPktK ∧ s.negWord.extractLsb' 28 4 = s.sizes.acceptK := by
  simp only [extract_eq_iff_bits, State.negWord, BitVec.getLsbD_append]
  refine ⟨?_, ?_, ?_, ?_, ?_, ?_⟩
  all_goals
    intro i hi
    simp (disch := omega) only [if_pos, if_neg, Nat.sub_sub, Nat.add_sub_cancel_left, Nat.reduceAdd, Nat.zero_add]

theorem negWord_unlisted (s : State) {b : Nat} (hb : b < 2) : s.negWord.extractLsb' (8 * b + 5) 3 = 0 := by
  simp only [extract_eq_iff_bits, State.negWord, BitVec.getLsbD_append]
  intro i hi
  interval_cases b
  all_goals
    simp (disch := omega) only [if_pos, if_neg, Nat.reduceMul, Nat.zero_add, Nat.reduceAdd, Nat.sub_sub,
      Nat.add_sub_cancel_left, BitVec.getLsbD_zero]
    exact BitVec.getLsbD_zero.symm

/-- The fields of `CNT` (R35). -/
theorem cntWord_fields (s : State) :
    s.cntWord.extractLsb' 0 16 = s.counters.errcnt ∧ s.cntWord.extractLsb' 16 8 = s.counters.goodcnt ∧
      s.cntWord.extractLsb' 24 8 = s.counters.retry := by
  simp only [extract_eq_iff_bits, State.cntWord, BitVec.getLsbD_append]
  refine ⟨?_, ?_, ?_⟩
  all_goals
    intro i hi
    simp (disch := omega) only [if_pos, if_neg, Nat.sub_sub, Nat.add_sub_cancel_left, Nat.reduceAdd, Nat.zero_add]

/-- The cause stands in the low byte of `FAILCAUSE` (R35). -/
theorem failCauseWord_fields (c : FailCause) :
    (c.code.setWidth 32).extractLsb' 0 8 = c.code ∧ (c.code.setWidth 32).extractLsb' 8 24 = 0 := by
  cases c <;> decide

/-- Settles O51: each view by the lemma on its word. -/
theorem statusViewsShowTheRegisters : Obligations.StatusViewsShowTheRegisters := by
  refine ⟨⟨rfl, rfl, rfl, rfl, rfl, rfl⟩, ⟨rfl, rfl, rfl, rfl⟩, ⟨rfl, rfl, rfl, rfl, rfl⟩,
    fun a cause k => ⟨⟨rfl, rfl⟩, ⟨rfl, rfl⟩, ⟨rfl, rfl⟩, rfl, rfl⟩, fun s => ?_⟩
  obtain ⟨hpstate, hpend, hhigh⟩ := statusWord_fields s
  obtain ⟨hcause, hcauseHigh⟩ := failCauseWord_fields s.failCause
  exact ⟨fun addr => rfl, fun addr h => csrValue_of_unmapped h s,
    ⟨rfl, rfl, rfl, rfl, rfl, rfl, rfl, rfl, rfl, rfl, rfl⟩,
    ⟨statusWord_bit15 s, hhigh, hcauseHigh,
      fun b hb => ⟨packSeqs_unlisted _ _ _ _ hb, packSeqs_unlisted _ _ _ _ hb⟩, fun b hb => negWord_unlisted s hb⟩,
    hpstate, statusWord_flags s, hpend, hcause, packSeqs_fields _ _ _ _, packSeqs_fields _ _ _ _, negWord_fields s,
    cntWord_fields s, fun q => getLsbD_bitMap SlotRec.inuse s.slots q, fun q => getLsbD_bitMap ReordRec.valid s.reord q⟩

end Sys2Proof.Machine

/-! ## Proofs of the family 20_memory: buffers, chunks, and what an event keeps of the send window -/

namespace Sys2Proof.Machine

open Sys2Proof

section

variable {s : State}

/-! ### `BufWrite` and `RxError` -/

/-- Settles O45: a command pends, or the event is refused. -/
theorem byteStreamErrorIsFatal : Obligations.ByteStreamErrorIsFatal := fun s =>
  ⟨fun hp => if_neg (mt (receiveRequest_isNone s).mp hp), rxError_of_none⟩

/-- The window of the lent slot in numbers (R66). -/
theorem State.lentOffset_iff (s : State) (addr : Nat) :
    s.lentOffset addr = true ↔
      s.flags.bufOwned = true ∧ 0x8000 + 1024 * s.win.bufSlot.toNat ≤ addr ∧
        addr ≤ 0x8000 + 1024 * s.win.bufSlot.toNat + 1023 := by
  unfold State.lentOffset recordAddr Config.bufWinBase Config.slotBytes
  rw [Bool.and_eq_true, decide_eq_true_iff, Nat.add_zero, Nat.add_assoc]

theorem bufWrite_of_lent {addr : Nat} (h : s.lentOffset addr = true) (b : Byte) :
    bufWrite addr b s = { s with slotMem := s.slotMem.write (addr - 0x8000) b } := if_pos h

theorem bufWrite_of_not_lent {addr : Nat} (h : ¬s.lentOffset addr = true) (b : Byte) :
    bufWrite addr b s = { s with flags := { s.flags with bufViol := true } } := if_neg h

/-- Settles O52: inside the window a write to `SLOT`, read back by the laws of `Memory.write`; outside it the flag. -/
theorem bufferWritesOnlyTheLentSlot : Obligations.BufferWritesOnlyTheLentSlot := by
  intro addr b s
  rw [← s.lentOffset_iff addr]
  refine ⟨fun hlent => ⟨_, congrArg Host.Outcome.next (bufWrite_of_lent hlent b), ?same, fun a ha => ?other, rfl⟩,
    fun hlent => congrArg Host.Outcome.next (bufWrite_of_not_lent hlent b)⟩
  case same => rw [State.slotByte, Memory.find_write_same, Option.getD_some]
  case other => rw [State.slotByte, Memory.find_write_other _ _ ha, State.slotByte]

/-! ### Chunks -/

theorem State.decoderOn_eq_false (hn : s.pstate ≠ .negotiating) (hr : s.pstate ≠ .ready) : s.decoderOn = false :=
  Bool.eq_false_iff.mpr fun hon => (s.decoderOn_iff.mp hon).elim hn hr

theorem feed_cons_of_on (hon : s.decoderOn = true) (b : Byte) (rest : List Byte) :
    feed (b :: rest) s = andThen (decodeLoop { s with rxbuf := s.rxbuf ++ [b] }) (feed rest) := if_pos hon

/-- Two chunks are fed one after the other (D50). -/
theorem feed_append (xs ys : List Byte) (s : State) : feed (xs ++ ys) s = andThen (feed xs s) (feed ys) := by
  induction xs generalizing s with
  | nil => rfl
  | cons x xs ih =>
    cases hon : s.decoderOn with
    | false => rw [feed_of_off hon, feed_of_off hon, andThen_next, feed_of_off hon]
    | true =>
      rw [List.cons_append, feed_cons_of_on hon, feed_cons_of_on hon, andThen_assoc]
      exact congrArg _ (funext ih)

theorem decodeRounds_of_off (hoff : s.decoderOn = false) (n : Nat) : decodeRounds n s = .next s := by
  cases n with
  | zero => rfl
  | succ n => exact if_neg (ne_true_of_eq_false hoff)

theorem decodeRounds_of_incomplete (h : decodeFrame s.maxLen s.rxbuf = .incomplete) (n : Nat) :
    decodeRounds n s = .next s := by
  cases n with
  | zero => rfl
  | succ n =>
    rw [decodeRounds, h]
    split <;> rfl

/-- Every round that goes on shortens `RXBUF`, so two bounds above its length give the same (log 15). -/
theorem decodeRounds_eq {m n : Nat} (hm : s.rxbuf.length < m) (hn : s.rxbuf.length < n) :
    decodeRounds m s = decodeRounds n s := by
  induction m generalizing n s with
  | zero => omega
  | succ m ih =>
    obtain ⟨n, rfl⟩ : ∃ k, n = k + 1 := ⟨n - 1, by omega⟩
    have hdrop : decodeFrame s.maxLen s.rxbuf ≠ .incomplete →
        (drop1 s).rxbuf.length < m ∧ (drop1 s).rxbuf.length < n := fun hne => by
      have := drop1_length (s := s) fun hnil => hne (by rw [hnil]; rfl)
      omega
    unfold decodeRounds
    cases hf : decodeFrame s.maxLen s.rxbuf with
    | incomplete => rfl
    | garbage =>
      obtain ⟨hm', hn'⟩ := hdrop (by simp [hf])
      simp only [ih hm' hn']
    | malformedHeader =>
      obtain ⟨hm', hn'⟩ := hdrop (by simp [hf])
      simp only [ih (s := countError .hdrerr (drop1 s)) (by simpa using hm') (by simpa using hn')]
    | checksumMismatch =>
      obtain ⟨hm', hn'⟩ := hdrop (by simp [hf])
      simp only [ih (s := countError .crcerr (drop1 s)) (by simpa using hm') (by simpa using hn')]
    | packet i rest =>
      obtain ⟨hi, -, hlen⟩ := decodeFrame_packet hf
      obtain ⟨u, hu⟩ := exec_total i { s with rxbuf := rest }
      have hbuf : u.rxbuf = rest := exec_packet_rxbuf hi hu
      simp only [hu, andThen_next, ih (s := u) (n := n) (by rw [hbuf]; omega) (by rw [hbuf]; omega)]

/-- Settles O13: the equations of `feed` and `decodeRounds`; the bound by `decodeRounds_eq`. -/
theorem chunkingDoesNotMatter : Obligations.ChunkingDoesNotMatter :=
  ⟨feed_append, andThen_next, fun _ => rfl,
    fun b rest s hp => feed_cons_of_on (s.decoderOn_iff.mpr hp) b rest,
    fun chunk _ hn hr => feed_of_off (State.decoderOn_eq_false hn hr) chunk,
    fun _ s hn => decodeRounds_eq (Nat.lt_succ_self s.rxbuf.length) hn,
    fun n _ h => decodeRounds_of_incomplete h n,
    fun n _ hn hr => decodeRounds_of_off (State.decoderOn_eq_false hn hr) n⟩

end

end Sys2Proof.Machine

namespace Sys2Proof.Machine

open Sys2Proof

section

variable {s : State}

/-! ### The send window, the slots and the memories: which operations leave them -/

/-- A slot record less `INUSE`: what a retransmission reads of it (R136). -/
def SlotRec.content (e : SlotRec) : SlotRec := { e with inuse := false }

theorem SlotRec.content_eq_iff (e e' : SlotRec) :
    e.content = e'.content ↔ e.lch = e'.lch ∧ e.rch = e'.rch ∧ e.eom = e'.eom ∧ e.len = e'.len := by
  simp [SlotRec.content]

/-- The part of the state that the frame of an event speaks of: the ends of the send window, the slots, the two data
memories and the reset count their free bytes depend on. -/
structure Store where
  nextSeq : SeqNum
  lastAcked : SeqNum
  slots : Vector SlotRec 32
  slotMem : Memory
  reordMem : Memory
  resetEpoch : Nat

def State.store (s : State) : Store :=
  ⟨s.win.nextSeq, s.win.lastAcked, s.slots, s.slotMem, s.reordMem, s.resetEpoch⟩

@[simp] theorem raiseFatal_store (c : FailCause) (s : State) : (raiseFatal c s).store = s.store := by
  rw [raiseFatal_eq]; rfl

@[simp] theorem peerClose_store (s : State) : (peerClose s).store = s.store := by rw [peerClose_eq]; rfl

@[simp] theorem finishHandshake_store (s : State) : (finishHandshake s).store = s.store := by
  rcases finishHandshake_cases s with ⟨-, -, -, he⟩ | ⟨-, he⟩
  · rw [he]; rfl
  · rw [he]

@[simp] theorem requestSync_store (s : State) : (requestSync s).store = s.store :=
  finishHandshake_store (transmitSync false s)

@[simp] theorem fallbackOrFail_store (s : State) : (fallbackOrFail s).store = s.store := by
  rcases fallbackOrFail_cases s with ⟨-, he⟩ | ⟨-, he⟩ <;> rw [he]
  · exact requestSync_store _
  · exact raiseFatal_store _ s

@[simp] theorem countError_store (kind : ErrKind) (s : State) : (countError kind s).store = s.store := by
  rcases countError_cases kind s with he | ⟨-, he⟩ | ⟨-, he⟩ <;> rw [he]
  · rfl
  · exact fallbackOrFail_store (tallyError kind s)
  · exact raiseFatal_store _ (tallyError kind s)

@[simp] theorem handleSync_store (f : Bool) (win k : Byte) (s : State) : (handleSync f win k s).store = s.store := by
  rcases handleSync_cases f win k s with ⟨-, he⟩ | ⟨-, -, he⟩ | ⟨-, -, he⟩ <;> rw [he]
  · exact countError_store _ s
  · exact finishHandshake_store (settleSizes win k s)
  · exact finishHandshake_store (transmitSync true (settleSizes win k s))

theorem gapNak_cases (s : State) :
    gapNak s = s ∨
      gapNak s =
        { transmitNak (seqSucc s.win.lastRecv) s with
          flags := { (transmitNak (seqSucc s.win.lastRecv) s).flags with nakedValid := true }
          win := { (transmitNak (seqSucc s.win.lastRecv) s).win with nakedSeq := seqSucc s.win.lastRecv } } := by
  unfold gapNak
  dsimp only
  split
  · exact .inr rfl
  · exact .inl rfl

@[simp] theorem gapNak_store (s : State) : (gapNak s).store = s.store := by
  rcases gapNak_cases s with he | he
  · rw [he]
  · rw [he]; rfl

@[simp] theorem service_store (s : State) : (service s).store = s.store :=
  service_keeps (P := fun t => t.store = s.store) (fun _ ht => ht) (fun t _ ht => (gapNak_store t).trans ht)
    (fun _ _ ht => ht) s rfl

@[simp] theorem serviceIfReady_store (s : State) : (serviceIfReady s).store = s.store := by
  unfold serviceIfReady
  split
  · exact service_store s
  · rfl

@[simp] theorem acceptSync_store (f : Bool) (win k : Byte) (s : State) : (acceptSync f win k s).store = s.store := by
  rcases acceptSync_cases f win k s with ⟨-, he⟩ | ⟨-, he⟩ | ⟨-, he⟩ <;> rw [he]
  · exact handleSync_store f win k (goodPacket s)
  · rw [serviceIfReady_store]; exact handleSync_store f win k (goodPacket s)

@[simp] theorem onDataExpected_store (q : SeqNum) (lch rch : Channel) (eom : Bool) (p : List Byte) (s : State) :
    (onDataExpected q lch rch eom p s).store = s.store :=
  drain_keeps (P := fun t => t.store = s.store) (fun _ _ ht => ht) 32 _ rfl

@[simp] theorem timeoutResend_store (s : State) : (timeoutResend s).store = s.store := by
  rcases timeoutResend_cases s with ⟨-, he⟩ | ⟨-, -, he⟩ | ⟨-, -, he⟩ | ⟨-, he⟩ <;> rw [he]
  · exact requestSync_store s
  all_goals rfl

/-! ### The frame of packets, errors and timeouts -/

/-- What the byte stream leaves, up to the completion check: the block sends nothing new (R266), an ack moves
`LAST_ACKED` inside the window (R71), the slots keep their content (R74) and the memories their form (R60). -/
structure StreamFrame (s t : State) : Prop where
  nextSeq : t.win.nextSeq = s.win.nextSeq
  acked : dist t.win.lastAcked s.win.lastAcked ≤ s.win.outstanding
  content : ∀ q, (t.slot q).content = (s.slot q).content
  slotMem : t.slotMem = s.slotMem
  reordMem : s.reordMem.wf = true → t.reordMem.wf = true
  resetEpoch : t.resetEpoch = s.resetEpoch

theorem StreamFrame.of_store {t : State} (h : t.store = s.store) : StreamFrame s t := by
  simp only [State.store, Store.mk.injEq] at h
  obtain ⟨hnext, hacked, hslots, hmem, hreord, hepoch⟩ := h
  refine ⟨hnext, ?_, fun q => ?_, hmem, fun hwf => hreord ▸ hwf, hepoch⟩
  · rw [hacked, dist_self]; exact Nat.zero_le _
  · rw [State.slot, hslots, State.slot]

theorem StreamFrame.refl (s : State) : StreamFrame s s := .of_store rfl

/-- What one part acknowledges, a later part finds no longer outstanding. -/
theorem StreamFrame.trans {t u : State} (h : StreamFrame s t) (h' : StreamFrame t u) : StreamFrame s u where
  nextSeq := h'.nextSeq.trans h.nextSeq
  acked := by
    have hst := h.acked
    have htu := h'.acked
    unfold WindowRegs.outstanding dist seqPred at *
    rw [h.nextSeq] at htu
    bv_omega
  content q := (h'.content q).trans (h.content q)
  slotMem := h'.slotMem.trans h.slotMem
  reordMem hwf := h'.reordMem (h.reordMem hwf)
  resetEpoch := h'.resetEpoch.trans h.resetEpoch

/-- An ack moves `LAST_ACKED` to an outstanding packet and takes `INUSE` from slots (R165). -/
theorem streamFrame_onAck (a : SeqNum) (s : State) : StreamFrame s (onAck a s).2 := by
  rcases onAck_cases a s with ⟨hv, he⟩ | ⟨-, he⟩ <;> rw [he]
  · have ha := ((WindowRegs.ackValid_iff _ _).mp hv).2
    refine ⟨by simp, by simpa using ha, fun q => ?_, by simp, by simp, by simp⟩
    rw [State.slot, advanceAcked_slots, entryAt_releaseSlots, rotationEvent_slots, State.slot]
    split <;> rfl
  · exact .refl s

theorem streamFrame_markReject (m : SeqNum) (s : State) : StreamFrame s (markReject m s) := .of_store rfl

theorem streamFrame_onReject (rs : SeqNum) (s : State) : StreamFrame s (onReject rs s) := by
  rcases onReject_cases rs s with he | he | ⟨-, he⟩ | ⟨-, he⟩ <;> rw [he]
  · exact .refl s
  · exact streamFrame_onAck rs s
  · exact streamFrame_markReject _ s
  · exact (streamFrame_onAck rs s).trans (streamFrame_markReject _ _)

theorem streamFrame_ackPacket (ack : SeqNum) (advanced : Bool) (s : State) :
    StreamFrame s (ackPacket ack advanced s) := by
  unfold ackPacket
  split
  · exact streamFrame_onReject _ s
  · exact .refl s

theorem streamFrame_oweAck (s : State) : StreamFrame s (oweAck s) := .of_store rfl

/-- A packet ahead is written to `REORD`, which keeps the canonical form (R232). -/
theorem streamFrame_onDataAhead (q : SeqNum) (lch rch : Channel) (eom : Bool) (p : List Byte) (s : State) :
    StreamFrame s (onDataAhead q lch rch eom p s) :=
  { StreamFrame.refl s with reordMem := Memory.wf_writeBytes _ _ _ }

theorem streamFrame_onData (q : SeqNum) (lch rch : Channel) (eom : Bool) (p : List Byte) (s : State) :
    StreamFrame s (onData q lch rch eom p s) := by
  obtain ⟨t, he, hcase⟩ := onData_cases q lch rch eom p s
  have ht : StreamFrame s t := by
    rcases hcase with ⟨-, rfl⟩ | ⟨-, -, rfl⟩ | rfl
    · exact .of_store (onDataExpected_store _ _ _ _ _ s)
    · exact streamFrame_onDataAhead _ _ _ _ _ s
    · exact streamFrame_oweAck s
  rcases he with he | he <;> rw [he]
  · exact ht
  · exact ht.trans (streamFrame_oweAck t)

theorem streamFrame_acceptNumbered {own : Bool → State → State} (hown : ∀ b t, StreamFrame t (own b t))
    (ack : SeqNum) (s : State) : StreamFrame s (acceptNumbered ack own s) := by
  have hgood : StreamFrame s (goodPacket s) := .of_store rfl
  rcases acceptNumbered_cases ack own s with ⟨-, he⟩ | ⟨-, he⟩ | ⟨-, he⟩ <;> rw [he]
  · exact hgood
  · exact ((hgood.trans (streamFrame_onAck ack _)).trans (hown _ _)).trans (.of_store (serviceIfReady_store _))
  · exact .refl s

theorem streamFrame_exec {i : Instr} (hi : isPacket i = true) {t : State} (he : exec i s = .next t) :
    StreamFrame s t := by
  cases i with
  | data hdr p => cases he; exact streamFrame_acceptNumbered (fun _ t => streamFrame_onData _ _ _ _ _ t) _ s
  | sync hdr win k => cases he; exact .of_store (acceptSync_store _ _ _ s)
  | ack hdr => cases he; exact streamFrame_acceptNumbered (fun _ t => streamFrame_ackPacket _ _ t) _ s
  | nak hdr => cases he; exact streamFrame_acceptNumbered (fun _ t => streamFrame_onReject _ t) _ s
  | close hdr => cases he; exact streamFrame_acceptNumbered (fun _ t => .of_store (peerClose_store t)) _ s
  | start _ => cases hi
  | getBuf => cases hi
  | sendData _ _ _ _ => cases hi
  | wait => cases hi
  | shutdown => cases hi
  | file _ _ _ => cases hi

theorem streamFrame_decodeLoop {t : State} (h : decodeLoop s = .next t) : StreamFrame s t :=
  decodeRounds_keeps (P := StreamFrame s) (fun _ _ hu => hu.trans (.of_store rfl))
    (fun kind u _ hu => hu.trans (.of_store (countError_store kind u)))
    (fun _ u rest _ _ hf hu he =>
      (hu.trans (t := u) (u := { u with rxbuf := rest }) (.of_store rfl)).trans
        (streamFrame_exec (decodeFrame_packet hf).1 he))
    _ s t (.refl s) h

theorem streamFrame_feed {chunk : List Byte} {t : State} (h : feed chunk s = .next t) : StreamFrame s t :=
  feed_keeps (P := StreamFrame s)
    (fun b u _ _ hu hv =>
      (hu.trans (t := u) (u := { u with rxbuf := u.rxbuf ++ [b] }) (.of_store rfl)).trans (streamFrame_decodeLoop hv))
    chunk s t (.refl s) h

theorem streamFrame_flush {t : State} (h : flush s = .next t) : StreamFrame s t := by
  have hdrop : StreamFrame s (drop1 s) := .of_store rfl
  unfold flush at h
  split at h
  · cases h; exact .refl s
  · exact hdrop.trans (streamFrame_decodeLoop h)

/-! ### The frame of an event -/

/-- What every event but a reset leaves (R60, R66, R71, R74): only the slot at `NEXT_SEQ` takes new content, only the
lent slot new bytes. -/
structure EventFrame (s t : State) : Prop where
  acked : dist t.win.lastAcked s.win.lastAcked ≤ s.win.outstanding
  content : ∀ q, q ≠ s.win.nextSeq → (t.slot q).content = (s.slot q).content
  slotByte : ∀ a, s.lentOffset (0x8000 + a) = false → t.slotByte a = s.slotByte a
  slotMem : s.slotMem.wf = true → t.slotMem.wf = true
  reordMem : s.reordMem.wf = true → t.reordMem.wf = true

theorem StreamFrame.eventFrame {t : State} (h : StreamFrame s t) : EventFrame s t where
  acked := h.acked
  content q _ := h.content q
  slotByte a _ := by rw [State.slotByte, h.slotMem, h.resetEpoch, State.slotByte]
  slotMem hwf := h.slotMem ▸ hwf
  reordMem := h.reordMem

theorem EventFrame.of_store {t : State} (h : t.store = s.store) : EventFrame s t := (StreamFrame.of_store h).eventFrame

theorem EventFrame.refl (s : State) : EventFrame s s := .of_store rfl

/-- The completion check may move `NEXT_SEQ`, of which the frame does not speak (R210, R266). -/
theorem EventFrame.completed {t : State} (h : EventFrame s t) : EventFrame s (completionCheck t) := by
  rcases completionCheck_cases t with he | ⟨-, -, he⟩ | ⟨-, -, he⟩ | ⟨-, -, -, he⟩ <;> rw [he]
  all_goals exact { h with }

theorem eventFrame_afterFlush {t : State} (h : StreamFrame s t) : EventFrame s (afterFlush t) := by
  have hresend : StreamFrame s (timeoutResend (rearmNak t)) := h.trans (.of_store (timeoutResend_store (rearmNak t)))
  unfold afterFlush
  dsimp only
  split
  · exact hresend.eventFrame
  · exact hresend.eventFrame.completed

theorem eventFrame_stream {e : InEvent} (he : e.fromStream) {t : State} (h : handle e s = .next t) :
    EventFrame s t := by
  have hcount : StreamFrame s (countTimeout s) := .of_store rfl
  rcases e.fromStream_iff.mp he with ⟨chunk, rfl⟩ | rfl | rfl
  · obtain ⟨-, -, u, hu, rfl⟩ := rxBytes_eq_next h
    exact (streamFrame_feed hu).eventFrame.completed
  · obtain ⟨-, ⟨-, rfl⟩ | ⟨-, u, hu, rfl⟩⟩ := rxTimeout_eq_next h
    · exact .of_store (raiseFatal_store _ (countTimeout s))
    · exact eventFrame_afterFlush (hcount.trans (streamFrame_flush hu))
  · by_cases hp : s.pend = .none
    · exact absurd ((rxError_of_none hp).symm.trans h) nofun
    · cases ((byteStreamErrorIsFatal s).1 hp).symm.trans h
      exact .of_store (raiseFatal_store _ s)

theorem eventFrame_command {op : BitVec 4} {allowed : PState → Bool} {run : State → State}
    (hrun : EventFrame s (run s)) : EventFrame s (command op allowed run s) := by
  rcases command_cases op allowed run s with ⟨-, he⟩ | ⟨-, -, he⟩ | ⟨-, -, he⟩ <;> rw [he]
  · exact .of_store rfl
  · exact .of_store rfl
  · exact hrun

/-- SEND_DATA fills the slot at `NEXT_SEQ` (R205). -/
theorem eventFrame_fillSlot (eom : Bool) (lch rch : Channel) (len : BitVec 12) (s : State) :
    EventFrame s (fillSlot eom lch rch len s) := by
  refine { EventFrame.refl s with content := fun q hq => ?_ }
  rw [State.slot, fillSlot_slots, entryAt_setEntry_other _ _ hq, State.slot]

theorem eventFrame_sendDataOp (eom : Bool) (lch rch : Channel) (len : BitVec 12) (s : State) :
    EventFrame s (sendDataOp eom lch rch len s) := by
  unfold sendDataOp
  split
  · exact .of_store rfl
  · exact (eventFrame_fillSlot eom lch rch len s).completed

/-- SHUTDOWN takes `INUSE` from every slot and leaves the rest (R207). -/
theorem eventFrame_shutdownOp (s : State) : EventFrame s (shutdownOp s) := by
  refine { EventFrame.refl s with content := fun q _ => ?_ }
  have hslot : (shutdownOp s).slot q = { s.slot q with inuse := false } := entryAt_map _ _ q
  rw [hslot]
  rfl

theorem eventFrame_exec_command {i : Instr} (hi : isPacket i = false) {t : State} (ht : exec i s = .next t) :
    EventFrame s t := by
  cases i with
  | start role => cases ht; exact eventFrame_command (by cases role <;> exact .of_store rfl)
  | getBuf => cases ht; exact eventFrame_command (.of_store rfl)
  | sendData eom lch rch len => cases ht; exact eventFrame_command (eventFrame_sendDataOp eom lch rch len s)
  | wait => cases ht; exact eventFrame_command (.of_store rfl)
  | shutdown => cases ht; exact eventFrame_command (eventFrame_shutdownOp s)
  | file flag lch rch => cases ht; exact eventFrame_command (.of_store rfl)
  | data _ _ => cases hi
  | sync _ _ _ => cases hi
  | ack _ => cases hi
  | nak _ => cases hi
  | close _ => cases hi

@[simp] theorem illegalCommand_store (w : Word) (e : CmdError) (s : State) :
    (illegalCommand w e s).store = s.store := by
  unfold illegalCommand
  dsimp only
  split
  · rfl
  · cases e <;> rfl

theorem eventFrame_runCommand {w : Word} {t : State} (h : runCommand w s = .next t) : EventFrame s t := by
  unfold runCommand at h
  split at h
  · rename_i i hw
    exact eventFrame_exec_command (decodeCommand_not_packet hw) h
  · cases h; exact .of_store (illegalCommand_store w _ s)

/-- A register write that is no reset leaves the store. -/
theorem csrWrite_store {addr : Nat} {v : Word} (h : isReset (.csrWrite addr v) = false) :
    (csrWrite addr v s).store = s.store := by
  have hconfig : ∀ legal c, (writeConfig legal c s).store = s.store := by
    intro legal c
    unfold writeConfig
    split <;> rfl
  unfold csrWrite
  split
  · unfold writeCtrl
    split
    · rename_i hreset; exact absurd (h.symm.trans hreset) nofun
    · split <;> rfl
  case h_5 => rfl
  all_goals exact hconfig _ _

/-- `BufWrite` changes the addressed byte of the lent slot (R66). -/
theorem eventFrame_bufWrite (addr : Nat) (b : Byte) (s : State) : EventFrame s (bufWrite addr b s) := by
  by_cases hlent : s.lentOffset addr = true
  · rw [bufWrite_of_lent hlent]
    refine { EventFrame.refl s with slotByte := fun a ha => ?_, slotMem := Memory.wf_write _ _ _ }
    have hne : a ≠ addr - 0x8000 := by
      intro hsame
      obtain ⟨-, hlow, -⟩ := (s.lentOffset_iff addr).mp hlent
      have haddr : 0x8000 + a = addr := by omega
      rw [haddr] at ha
      exact absurd (ha.symm.trans hlent) nofun
    rw [State.slotByte, Memory.find_write_other _ _ hne, State.slotByte]
  · rw [bufWrite_of_not_lent hlent]
    exact .of_store rfl

/-- The frame of every event but a reset. -/
theorem eventFrame_handle {e : InEvent} (he : isReset e = false) {t : State} (h : handle e s = .next t) :
    EventFrame s t := by
  by_cases hstream : e.fromStream
  · exact eventFrame_stream hstream h
  · cases e with
    | reset => cases he
    | csrWrite addr v => cases h; exact .of_store (csrWrite_store he)
    | csrRead addr => cases h; exact .of_store rfl
    | bufWrite addr b => cases h; exact eventFrame_bufWrite addr b s
    | cmd w => exact eventFrame_runCommand h
    | rxBytes chunk => exact absurd trivial hstream
    | rxTimeout => exact absurd trivial hstream
    | rxError => exact absurd trivial hstream

/-- Settles O57: the window's part of the frame. -/
theorem lastAckedNeverMovesBack : Obligations.LastAckedNeverMovesBack := fun _ _ _ he h =>
  (eventFrame_handle he h).acked

/-! ### Both memories stay canonical -/

/-- A reset event is the reset of the block (R340). -/
theorem handle_of_reset {e : InEvent} (he : isReset e = true) (s : State) : handle e s = .next (resetBlock s) := by
  cases e with
  | reset => rfl
  | csrWrite addr v =>
    simp only [isReset, Bool.and_eq_true, decide_eq_true_eq] at he
    obtain ⟨rfl, hv⟩ := he
    exact congrArg Host.Outcome.next (if_pos hv)
  | _ => cases he

theorem memories_wf_handle {e : InEvent} {t : State} (hs : s.slotMem.wf = true ∧ s.reordMem.wf = true)
    (h : handle e s = .next t) : t.slotMem.wf = true ∧ t.reordMem.wf = true := by
  cases he : isReset e with
  | true =>
    cases (handle_of_reset he s).symm.trans h
    exact State.reset_memories_wf
  | false =>
    have hframe := eventFrame_handle he h
    exact ⟨hframe.slotMem hs.1, hframe.reordMem hs.2⟩

/-- Settles O55: a reset empties both memories, every other event has them in its frame. -/
theorem everyStepKeepsMemoryCanonical : Obligations.EveryStepKeepsMemoryCanonical := fun s t hslot hreord h =>
  step_keeps (P := fun u => u.slotMem.wf = true ∧ u.reordMem.wf = true) (fun _ _ hu => hu)
    (fun _ _ _ hu ht => memories_wf_handle hu ht) s t ⟨hslot, hreord⟩ h

/-! ### Outstanding packets -/

/-- No byte of an outstanding packet is lent: the lent slot is the one at `NEXT_SEQ` (R204). -/
theorem Inv.lentOffset_outstanding (h : Inv s) {q : SeqNum} (hq : s.win.isOutstanding q) {i : Nat} (hi : i < 1024) :
    s.lentOffset (0x8000 + recordAddr q i) = false := by
  refine Bool.eq_false_iff.mpr fun hlent => ?_
  obtain ⟨hown, hlow, hhigh⟩ := (s.lentOffset_iff _).mp hlent
  obtain ⟨hslot, -⟩ := h.borrow hown
  have hsame : q = s.win.nextSeq := by
    rw [← hslot]
    unfold recordAddr Config.slotBytes at *
    exact BitVec.eq_of_toNat_eq (by omega)
  exact not_isOutstanding_nextSeq h.window.1 (hsame ▸ hq)

/-- The payload depends on the record's length and the bytes of the slot (R60). -/
theorem slotPayload_congr {t : State} {q : SeqNum} (hlen : (t.slot q).len = (s.slot q).len)
    (hbyte : ∀ i < (s.slot q).len.toNat, t.slotByte (recordAddr q i) = s.slotByte (recordAddr q i)) :
    t.slotPayload q = s.slotPayload q := by
  unfold State.slotPayload
  rw [hlen]
  exact List.map_congr_left fun i hi => hbyte i (List.mem_range.mp hi)

/-- Settles O59: an outstanding packet's slot is not the one at `NEXT_SEQ`, nor lent, so it stands in the frame. -/
theorem outstandingPacketsAreImmutable : Obligations.OutstandingPacketsAreImmutable := by
  refine ⟨fun _ _ => rfl, fun e s t q hinv he h hq _ => ?_⟩
  have hframe := eventFrame_handle he h
  have hne : q ≠ s.win.nextSeq := fun heq => not_isOutstanding_nextSeq hinv.window.1 (heq ▸ hq)
  obtain ⟨hlch, hrch, heom, hlen⟩ := (SlotRec.content_eq_iff _ _).mp (hframe.content q hne)
  refine ⟨slotPayload_congr hlen fun i hi => hframe.slotByte _ ?_, hlch, hrch, heom⟩
  exact hinv.lentOffset_outstanding hq (hi.trans_le (hinv.length.1 q))

end

end Sys2Proof.Machine

namespace Sys2Proof

/-! ### The image of a packet decodes to it, and waits while it is cut short -/

theorem PktType.ofCode_code (ty : PktType) : PktType.ofCode ty.code = some ty := by cases ty <;> rfl

/-- The type code stands in the high bits of `b3`, the high part of the length in the low ones (R91). -/
theorem extract_code (c : BitVec 3) (f : BitVec 1) (l : BitVec 4) : (c ++ f ++ l).extractLsb' 5 3 = c := by
  ext i hi
  simp only [BitVec.getElem_extractLsb', BitVec.getLsbD_append]
  rw [if_neg (by omega), if_neg (by omega), show 5 + i - 4 - 1 = i by omega, BitVec.getLsbD_eq_getElem hi]

theorem extract_lenHigh (c : BitVec 3) (f : BitVec 1) (l : BitVec 4) : (c ++ f ++ l).extractLsb' 0 4 = l := by
  ext i hi
  simp only [BitVec.getElem_extractLsb', BitVec.getLsbD_append]
  rw [if_pos (by omega), Nat.zero_add, BitVec.getLsbD_eq_getElem hi]

theorem append_extract_len (len : BitVec 12) : len.extractLsb' 8 4 ++ len.extractLsb' 0 8 = len :=
  BitVec.extractLsb'_append_extractLsb'_eq_extractLsb' (x := len) rfl |>.trans BitVec.extractLsb'_eq_self

@[simp] theorem encodeHeader_pktType (ty : PktType) (h : Hdr) (len : BitVec 12) :
    (encodeHeader ty h len).pktType = some ty :=
  (congrArg PktType.ofCode (extract_code ty.code (bit1 h.f) (len.extractLsb' 8 4))).trans (PktType.ofCode_code ty)

@[simp] theorem encodeHeader_len (ty : PktType) (h : Hdr) (len : BitVec 12) : (encodeHeader ty h len).len = len := by
  show (ty.code ++ bit1 h.f ++ len.extractLsb' 8 4).extractLsb' 0 4 ++ len.extractLsb' 0 8 = len
  rw [extract_lenHigh, append_extract_len]

/-- The header the encoder writes passes `hdr_ok` where its length does (R138). -/
theorem encodeHeader_ok {maxLen : Nat} {ty : PktType} {len : BitVec 12} (hlen : lenOk maxLen ty len.toNat = true)
    (h : Hdr) : (encodeHeader ty h len).ok maxLen = true :=
  (Machine.RawHeader.ok_iff _ _).mpr ⟨⟨rfl, rfl⟩, ty, encodeHeader_pktType _ _ _, by rwa [encodeHeader_len]⟩

theorem decodeFrame_header {raw : RawHeader} (h : raw.b0 = Config.leadIn) (maxLen : Nat) (body : List Byte) :
    decodeFrame maxLen (raw.bytes ++ body) = decodeBody maxLen raw body := if_pos h

/-- Less than a header behind the lead-in waits for more (R140). -/
theorem decodeFrame_of_short {buf : List Byte} (h : buf.length < 6) (hlead : ∀ b ∈ buf.head?, b = Config.leadIn)
    (maxLen : Nat) : decodeFrame maxLen buf = .incomplete := by
  unfold decodeFrame
  split
  · simp only [List.length_cons] at h
    omega
  · exact if_pos (hlead _ rfl)
  · rfl

/-- A good header waits for its payload and trailer (R140). -/
theorem decodeBody_of_short {maxLen : Nat} {raw : RawHeader} {body : List Byte} (hok : raw.ok maxLen = true)
    (h : body.length < raw.len.toNat + 4) : decodeBody maxLen raw body = .incomplete := by
  unfold decodeBody
  rw [if_pos hok]
  exact if_pos h

/-- A good header with its payload and the right trailer is a packet (R140). -/
theorem decodeBody_of_packet {maxLen : Nat} {raw : RawHeader} {ty : PktType} {payload : List Byte} {i : Instr}
    (hok : raw.ok maxLen = true) (hty : raw.pktType = some ty) (hlen : payload.length = raw.len.toNat)
    (hi : packetOf ty raw.fields payload = some i) (rest : List Byte) :
    decodeBody maxLen raw (payload ++ (trailerBytes (crc32 (coveredBytes raw payload)) ++ rest)) =
      .packet i rest := by
  have htrailer : ∀ c : Word, (trailerBytes c ++ rest).take Config.trailerLen = trailerBytes c :=
    fun c => List.take_left' (trailerBytes_length c)
  have hrest : ∀ c : Word, (trailerBytes c ++ rest).drop Config.trailerLen = rest :=
    fun c => List.drop_left' (trailerBytes_length c)
  unfold decodeBody
  simp only [if_pos hok, ← hlen, List.take_left, List.drop_left, htrailer, ← List.drop_drop, hrest, hty, hi,
    if_true]
  rw [if_neg]
  simp [Config.trailerLen]

/-- The image is the header and what stands behind it (R135). -/
theorem encodePacket_eq (ty : PktType) (h : Hdr) (payload : List Byte) :
    encodePacket ty h payload =
      (encodeHeader ty h (BitVec.ofNat 12 payload.length)).bytes ++
        (payload ++
          trailerBytes (crc32 (coveredBytes (encodeHeader ty h (BitVec.ofNat 12 payload.length)) payload))) := by
  simp [encodePacket]

section

variable {maxLen : Nat} {ty : PktType} {h : Hdr} {payload : List Byte}

/-- A length that fits the field is the field's value (R91). -/
theorem lenField_toNat (hmax : payload.length ≤ 1024) : (BitVec.ofNat 12 payload.length).toNat = payload.length := by
  rw [BitVec.toNat_ofNat]
  exact Nat.mod_eq_of_lt (by omega)

/-- The stream round trip of one packet (R143). -/
theorem decodeFrame_encodePacket {i : Instr} (hmax : payload.length ≤ 1024)
    (hlen : lenOk maxLen ty payload.length = true) (hi : packetOf ty h payload = some i) (rest : List Byte) :
    decodeFrame maxLen (encodePacket ty h payload ++ rest) = .packet i rest := by
  have hfield := lenField_toNat hmax
  rw [encodePacket_eq, List.append_assoc, decodeFrame_header rfl, List.append_assoc]
  refine decodeBody_of_packet (encodeHeader_ok (by rwa [hfield]) h) (encodeHeader_pktType _ _ _) ?_ ?_ rest
  · rw [encodeHeader_len, hfield]
  · rwa [encodeHeader_fields]

/-- An image that is cut short waits for the rest (R140). -/
theorem decodeFrame_prefix (hmax : payload.length ≤ 1024) (hlen : lenOk maxLen ty payload.length = true)
    {p : List Byte} (hp : p <+: encodePacket ty h payload) (hne : p ≠ encodePacket ty h payload) :
    decodeFrame maxLen p = .incomplete := by
  have hfield := lenField_toNat hmax
  have hlt : p.length < 6 + payload.length + 4 := by
    rw [← encodePacket_length ty h payload]
    exact lt_of_le_of_ne hp.length_le fun he => hne (hp.eq_of_length he)
  by_cases hshort : p.length < 6
  · obtain ⟨tail, htail⟩ := hp
    have hhead := encodePacket_head ty h payload
    refine decodeFrame_of_short hshort (fun b hb => ?_) maxLen
    rw [← htail, List.head?_append, hb] at hhead
    exact Option.some.inj hhead
  · have hheader : (encodeHeader ty h (BitVec.ofNat 12 payload.length)).bytes <+: p := by
      refine List.prefix_of_prefix_length_le ?_ hp (not_lt.mp hshort)
      rw [encodePacket_eq]
      exact List.prefix_append _ _
    obtain ⟨body, rfl⟩ := hheader
    rw [List.length_append, RawHeader.bytes_length] at hlt
    rw [decodeFrame_header rfl]
    exact decodeBody_of_short (encodeHeader_ok (by rwa [hfield]) h) (by rw [encodeHeader_len, hfield]; omega)

end

/-- Every packet that fits is built from a type, its fields and a payload that type may carry (R95, R103). -/
theorem encode_eq_packet {maxLen : Nat} {i : Instr} {bytes : List Byte} (hwf : i.wellFormed = true)
    (hfits : Machine.fits maxLen i = true) (he : encode i = .packet bytes) :
    ∃ ty h payload, bytes = encodePacket ty h payload ∧ packetOf ty h payload = some i ∧
      payload.length ≤ 1024 ∧ lenOk maxLen ty payload.length = true := by
  cases i with
  | data h payload => cases he; exact ⟨.data, h, payload, rfl, rfl, of_decide_eq_true hwf, hfits⟩
  | sync h win k => cases he; exact ⟨.sync, h, [win, k], rfl, rfl, by simp, rfl⟩
  | ack h => cases he; exact ⟨.ack, h, [], rfl, rfl, by decide, rfl⟩
  | nak h => cases he; exact ⟨.nak, h, [], rfl, rfl, by decide, rfl⟩
  | close h => cases he; exact ⟨.close, h, [], rfl, rfl, by decide, rfl⟩
  | start _ => cases he
  | getBuf => cases he
  | sendData _ _ _ _ => cases he
  | wait => cases he
  | shutdown => cases he
  | file _ _ _ => cases he

end Sys2Proof

namespace Sys2Proof.Machine

open Sys2Proof

section

variable {s : State}

/-! ### A packet fed byte by byte -/

/-- While the candidate is incomplete the bytes gather in `RXBUF` (R77, R140). -/
theorem feed_of_incomplete (hon : s.decoderOn = true) {xs : List Byte}
    (h : ∀ p, p <+: xs → p ≠ [] → decodeFrame s.maxLen (s.rxbuf ++ p) = .incomplete) :
    feed xs s = .next { s with rxbuf := s.rxbuf ++ xs } := by
  induction xs generalizing s with
  | nil => rw [List.append_nil]; rfl
  | cons b xs ih =>
    have hbyte : decodeLoop { s with rxbuf := s.rxbuf ++ [b] } = .next { s with rxbuf := s.rxbuf ++ [b] } :=
      decodeRounds_of_incomplete (h [b] ⟨xs, rfl⟩ (List.cons_ne_nil _ _)) _
    rw [feed_cons_of_on hon, hbyte, andThen_next, ih (s := { s with rxbuf := s.rxbuf ++ [b] }) hon]
    · simp
    · intro p hp _
      rw [List.append_assoc]
      exact h (b :: p) (by simpa using hp) (List.cons_ne_nil _ _)

/-- With nothing left in `RXBUF` the decoder waits. -/
theorem decodeRounds_of_nil (h : s.rxbuf = []) (n : Nat) : decodeRounds n s = .next s :=
  decodeRounds_of_incomplete (by rw [h]; rfl) n

/-- A chunk that becomes a packet with its last byte runs that packet (R77, R140). -/
theorem feed_of_packet {i : Instr} {bytes : List Byte} (hon : s.decoderOn = true) (hbuf : s.rxbuf = [])
    (hprefix : ∀ p, p <+: bytes → p ≠ bytes → decodeFrame s.maxLen p = .incomplete)
    (hframe : decodeFrame s.maxLen bytes = .packet i []) : feed bytes s = exec i s := by
  obtain ⟨init, last, rfl⟩ : ∃ init last, bytes = init ++ [last] :=
    (List.eq_nil_or_concat' bytes).resolve_left fun hnil => by rw [hnil] at hframe; cases hframe
  have hinit : feed init s = .next { s with rxbuf := init } := by
    rw [feed_of_incomplete hon fun p hp _ => ?_, hbuf, List.nil_append]
    rw [hbuf, List.nil_append]
    refine hprefix p (hp.trans (List.prefix_append _ _)) fun he => ?_
    have := hp.length_le
    rw [he, List.length_append, List.length_singleton] at this
    omega
  have hempty : { s with rxbuf := [] } = s := by rw [← hbuf]
  obtain ⟨t, ht⟩ := exec_total i s
  have htbuf : t.rxbuf = [] := (exec_packet_rxbuf (decodeFrame_packet hframe).1 ht).trans hbuf
  have hloop : decodeLoop { s with rxbuf := init ++ [last] } = .next t := by
    rw [decodeLoop, decodeRounds_of_packet (s := { s with rxbuf := init ++ [last] }) hon hframe, hempty, ht,
      andThen_next, decodeRounds_of_nil htbuf]
  rw [feed_append, hinit, andThen_next, feed_cons_of_on (s := { s with rxbuf := init }) hon, hloop, ht]
  rfl

/-! ### The error counters -/

/-- The counters of discarded bytes and packets (R32, R33). -/
structure ErrorCounts where
  garbage : BitVec 32
  hdrerr : BitVec 32
  crcerr : BitVec 32

def State.errors (s : State) : ErrorCounts := ⟨s.counters.garbage, s.stats.hdrerr, s.stats.crcerr⟩

@[simp] theorem goodPacket_errors (s : State) : (goodPacket s).errors = s.errors := by
  unfold State.errors goodPacket
  dsimp only
  split <;> rfl

@[simp] theorem raiseFatal_errors (c : FailCause) (s : State) : (raiseFatal c s).errors = s.errors := by
  rw [raiseFatal_eq]; rfl

@[simp] theorem peerClose_errors (s : State) : (peerClose s).errors = s.errors := by rw [peerClose_eq]; rfl

@[simp] theorem finishHandshake_errors (s : State) : (finishHandshake s).errors = s.errors := by
  rcases finishHandshake_cases s with ⟨-, -, -, he⟩ | ⟨-, he⟩
  · rw [he]; rfl
  · rw [he]

@[simp] theorem fallbackOrFail_errors (s : State) : (fallbackOrFail s).errors = s.errors := by
  rcases fallbackOrFail_cases s with ⟨-, he⟩ | ⟨-, he⟩ <;> rw [he]
  · exact finishHandshake_errors _
  · exact raiseFatal_errors _ s

/-- An error is counted once, whatever it leads to (R310). -/
@[simp] theorem countError_errors (kind : ErrKind) (s : State) :
    (countError kind s).errors = (tallyError kind s).errors := by
  rcases countError_cases kind s with he | ⟨-, he⟩ | ⟨-, he⟩ <;> rw [he]
  · exact fallbackOrFail_errors _
  · exact raiseFatal_errors _ _

theorem tallyError_hdrerr_errors (s : State) :
    (tallyError .hdrerr s).errors = { s.errors with hdrerr := satInc s.errors.hdrerr } := rfl

@[simp] theorem onAck_errors (a : SeqNum) (s : State) : (onAck a s).2.errors = s.errors := by
  rcases onAck_cases a s with ⟨-, he⟩ | ⟨-, he⟩ <;> rw [he]
  unfold rotationEvent
  split <;> rfl

theorem markReject_errors (m : SeqNum) (s : State) : (markReject m s).errors = s.errors := rfl

@[simp] theorem onReject_errors (rs : SeqNum) (s : State) : (onReject rs s).errors = s.errors := by
  rcases onReject_cases rs s with he | he | ⟨-, he⟩ | ⟨-, he⟩ <;> simp [he, markReject_errors]

@[simp] theorem ackPacket_errors (a : SeqNum) (b : Bool) (s : State) : (ackPacket a b s).errors = s.errors := by
  unfold ackPacket
  split
  · exact onReject_errors _ s
  · rfl

@[simp] theorem onDataExpected_errors (q : SeqNum) (lch rch : Channel) (eom : Bool) (p : List Byte) (s : State) :
    (onDataExpected q lch rch eom p s).errors = s.errors :=
  drain_keeps (P := fun t => t.errors = s.errors) (fun _ _ ht => ht) 32 _ rfl

@[simp] theorem onData_errors (q : SeqNum) (lch rch : Channel) (eom : Bool) (p : List Byte) (s : State) :
    (onData q lch rch eom p s).errors = s.errors := by
  obtain ⟨t, he, hcase⟩ := onData_cases q lch rch eom p s
  have ht : t.errors = s.errors := by
    rcases hcase with ⟨-, rfl⟩ | ⟨-, -, rfl⟩ | rfl
    · exact onDataExpected_errors q lch rch eom p s
    all_goals rfl
  rcases he with he | he <;> rw [he] <;> exact ht

@[simp] theorem gapNak_errors (s : State) : (gapNak s).errors = s.errors := by
  rcases gapNak_cases s with he | he
  · rw [he]
  · rw [he]; rfl

@[simp] theorem serviceIfReady_errors (s : State) : (serviceIfReady s).errors = s.errors := by
  unfold serviceIfReady
  split
  · exact service_keeps (P := fun t => t.errors = s.errors) (fun _ ht => ht)
      (fun t _ ht => (gapNak_errors t).trans ht) (fun _ _ ht => ht) s rfl
  · rfl

theorem acceptNumbered_errors {own : Bool → State → State} (hown : ∀ b t, (own b t).errors = t.errors) (ack : SeqNum)
    (s : State) : (acceptNumbered ack own s).errors = s.errors := by
  rcases acceptNumbered_cases ack own s with ⟨-, he⟩ | ⟨-, he⟩ | ⟨-, he⟩ <;> simp [he, hown]

/-- Only a refused SYNC counts an error, one of the header (R237). -/
theorem handleSync_errors (f : Bool) (win k : Byte) (s : State) :
    (handleSync f win k s).errors = s.errors ∨
      ((win = 0 ∨ k.toNat < 5) ∧ (handleSync f win k s).errors = (tallyError .hdrerr s).errors) := by
  rcases handleSync_cases f win k s with ⟨hrefused, he⟩ | ⟨-, -, he⟩ | ⟨-, -, he⟩ <;> rw [he]
  · exact .inr ⟨hrefused, countError_errors _ s⟩
  · exact .inl (finishHandshake_errors _)
  · exact .inl (finishHandshake_errors _)

theorem acceptSync_errors (f : Bool) (win k : Byte) (s : State) :
    (acceptSync f win k s).errors = s.errors ∨
      ((win = 0 ∨ k.toNat < 5) ∧ (acceptSync f win k s).errors = (tallyError .hdrerr s).errors) := by
  have hgood := handleSync_errors f win k (goodPacket s)
  rw [tallyError_hdrerr_errors, goodPacket_errors, ← tallyError_hdrerr_errors] at hgood
  rcases acceptSync_cases f win k s with ⟨-, he⟩ | ⟨-, he⟩ | ⟨-, he⟩ <;> rw [he]
  · exact hgood
  · rwa [serviceIfReady_errors]
  · exact .inl rfl

/-- A packet counts no error, but for the one of a refused SYNC (R143, R237, log 19). -/
theorem exec_packet_errors {i : Instr} (hi : isPacket i = true) {t : State} (he : exec i s = .next t) :
    t.errors = s.errors ∨ (refusedSync i = true ∧ t.errors = (tallyError .hdrerr s).errors) := by
  cases i with
  | data hdr p => cases he; exact .inl (acceptNumbered_errors (fun _ _ => onData_errors _ _ _ _ _ _) _ s)
  | sync hdr win k => cases he; exact (acceptSync_errors _ _ _ s).imp_right fun h => ⟨decide_eq_true h.1, h.2⟩
  | ack hdr => cases he; exact .inl (acceptNumbered_errors (fun _ _ => ackPacket_errors _ _ _) _ s)
  | nak hdr => cases he; exact .inl (acceptNumbered_errors (fun _ _ => onReject_errors _ _) _ s)
  | close hdr => cases he; exact .inl (acceptNumbered_errors (fun _ _ => peerClose_errors _) _ s)
  | start _ => cases hi
  | getBuf => cases hi
  | sendData _ _ _ _ => cases hi
  | wait => cases hi
  | shutdown => cases hi
  | file _ _ _ => cases hi

/-- Settles O12: the image waits until its last byte and then decodes to its packet, which `feed_of_packet` runs. -/
theorem onePacketChunkRunsThatPacket : Obligations.OnePacketChunkRunsThatPacket := by
  intro s i bytes rest hwf hfits he hp hbuf hpend hin
  obtain ⟨ty, h, payload, hbytes, hi, hmax, hlen⟩ := encode_eq_packet hwf hfits he
  have hframe : decodeFrame s.maxLen bytes = .packet i [] := by
    simpa [hbytes] using decodeFrame_encodePacket (maxLen := s.maxLen) hmax hlen hi []
  have hfeed : feed bytes { s with inputs := rest } = exec i { s with inputs := rest } :=
    feed_of_packet (s.decoderOn_iff.mpr hp) hbuf
      (fun p hpre hne => decodeFrame_prefix hmax hlen (hbytes ▸ hpre) (hbytes ▸ hne)) hframe
  have hpacket := (decodeFrame_packet hframe).1
  obtain ⟨t, ht⟩ := exec_total i { s with inputs := rest }
  refine ⟨t, ht, ?step, (exec_packet_rxbuf hpacket ht).trans hbuf, ?garbage, fun hok => ?errors⟩
  case step =>
    have hcons : rxBytes bytes { s with inputs := rest } =
        andThen (feed bytes { s with inputs := rest }) fun t => .next (completionCheck t) := by
      cases bytes with
      | nil => cases hframe
      | cons b chunk => exact rxBytes_cons (s := { s with inputs := rest }) hpend b chunk
    exact (step_of_cons hin).trans (hcons.trans (by rw [hfeed, ht, andThen_next]))
  case garbage =>
    rcases exec_packet_errors hpacket ht with hsame | ⟨-, hone⟩
    · exact congrArg ErrorCounts.garbage hsame
    · exact congrArg ErrorCounts.garbage hone
  case errors =>
    have hsame := (exec_packet_errors hpacket ht).resolve_right fun hr => absurd (hok.symm.trans hr.1) nofun
    exact ⟨congrArg ErrorCounts.hdrerr hsame, congrArg ErrorCounts.crcerr hsame⟩

end

end Sys2Proof.Machine

/-! ## Proofs of the family 30_encoding: packet images, command words, and what the block answers and transmits -/

namespace Sys2Proof

/-! ### Fields laid side by side -/

/-- Two fields side by side, as a number. -/
theorem toNat_append_eq {m n : Nat} (x : BitVec m) (y : BitVec n) : (x ++ y).toNat = x.toNat * 2 ^ n + y.toNat := by
  rw [BitVec.toNat_append, ← Nat.shiftLeft_add_eq_or_of_lt y.isLt, Nat.shiftLeft_eq]

theorem append_eq_append_iff {m n : Nat} {x x' : BitVec m} {y y' : BitVec n} :
    x ++ y = x' ++ y' ↔ x = x' ∧ y = y' := by
  refine ⟨fun h => ⟨?_, ?_⟩, fun ⟨hx, hy⟩ => by rw [hx, hy]⟩
  · simpa only [BitVec.extractLsb'_append_eq_left] using congrArg (BitVec.extractLsb' n m) h
  · simpa only [BitVec.extractLsb'_append_eq_right] using congrArg (BitVec.extractLsb' 0 n) h

@[simp] theorem toNat_bit1 (b : Bool) : (bit1 b).toNat = b.toNat := BitVec.toNat_ofBool b

theorem bit1_inj {b b' : Bool} : bit1 b = bit1 b' ↔ b = b' := by
  cases b <;> cases b' <;> decide

/-! ### Command words -/

/-- A 32-bit word from all its parts: the fields of a command and the bits no command has, 31 to 28 and 15 (R110). -/
def splitWord (high : BitVec 4) (len : BitVec 12) (gap : BitVec 1) (rch lch : Channel) (flag : Bool) (op : BitVec 8) :
    Word :=
  (high ++ len ++ gap ++ rch ++ lch ++ bit1 flag ++ op : BitVec (4 + 12 + 1 + 3 + 3 + 1 + 8))

section

variable {high high' : BitVec 4} {len len' : BitVec 12} {gap gap' : BitVec 1} {rch rch' lch lch' : Channel}
  {flag flag' : Bool} {op op' : BitVec 8}

/-- A command word has zeros in the bits no command has. -/
theorem commandWord_eq_splitWord : commandWord len rch lch flag op = splitWord 0 len 0 rch lch flag op := rfl

theorem splitWord_inj :
    splitWord high len gap rch lch flag op = splitWord high' len' gap' rch' lch' flag' op' ↔
      high = high' ∧ len = len' ∧ gap = gap' ∧ rch = rch' ∧ lch = lch' ∧ flag = flag' ∧ op = op' := by
  show @Eq (BitVec (4 + 12 + 1 + 3 + 3 + 1 + 8)) _ _ ↔ _
  simp only [splitWord, append_eq_append_iff, bit1_inj, and_assoc]

theorem splitWord_and :
    splitWord high len gap rch lch flag op &&& splitWord high' len' gap' rch' lch' flag' op' =
      splitWord (high &&& high') (len &&& len') (gap &&& gap') (rch &&& rch') (lch &&& lch') (flag && flag')
        (op &&& op') := by
  have hflag : bit1 flag &&& bit1 flag' = bit1 (flag && flag') := by cases flag <;> cases flag' <;> rfl
  simp only [splitWord, ← hflag, ← BitVec.and_append]

theorem toNat_splitWord :
    (splitWord high len gap rch lch flag op).toNat =
      268435456 * high.toNat + 65536 * len.toNat + 32768 * gap.toNat + 4096 * rch.toNat + 512 * lch.toNat +
        256 * flag.toNat + op.toNat := by
  unfold splitWord
  simp only [toNat_append_eq, toNat_bit1]
  omega

/-- Every word is its parts. -/
theorem splitWord_parts (w : Word) :
    splitWord (w.extractLsb' 28 4) (cmdLen w) (w.extractLsb' 15 1) (cmdRch w) (cmdLch w) (cmdFlag w) (cmdOp w) = w := by
  have hflag : (cmdFlag w).toNat = w.toNat / 256 % 2 := by
    rw [cmdFlag, BitVec.getLsbD, Nat.toNat_testBit]
  refine BitVec.eq_of_toNat_eq ?_
  rw [toNat_splitWord, hflag, cmdLen, cmdRch, cmdLch, cmdOp]
  simp only [Machine.toNat_extract]
  omega

theorem splitWord_fields :
    (splitWord high len gap rch lch flag op).extractLsb' 28 4 = high ∧
    cmdLen (splitWord high len gap rch lch flag op) = len ∧
    (splitWord high len gap rch lch flag op).extractLsb' 15 1 = gap ∧
    cmdRch (splitWord high len gap rch lch flag op) = rch ∧ cmdLch (splitWord high len gap rch lch flag op) = lch ∧
    cmdFlag (splitWord high len gap rch lch flag op) = flag ∧ cmdOp (splitWord high len gap rch lch flag op) = op :=
  splitWord_inj.mp (splitWord_parts _)

theorem commandWord_fields :
    cmdLen (commandWord len rch lch flag op) = len ∧ cmdRch (commandWord len rch lch flag op) = rch ∧
      cmdLch (commandWord len rch lch flag op) = lch ∧ cmdFlag (commandWord len rch lch flag op) = flag := by
  obtain ⟨-, hlen, -, hrch, hlch, hflag, -⟩ := splitWord_fields (high := 0) (len := len) (gap := 0) (rch := rch)
    (lch := lch) (flag := flag) (op := op)
  exact ⟨hlen, hrch, hlch, hflag⟩

end

/-! ### The rows of the command table -/

/-- The operation of a row is found where the mask's bits are the pattern (R111). -/
theorem cmdRow_eq_ok_iff {mask pattern w : Word} {i j : Instr} :
    cmdRow mask pattern w i = .ok j ↔ w &&& mask = pattern ∧ i = j := by
  unfold cmdRow
  split <;> simp [*]

theorem cmdRow_ne_reservedOp {mask pattern w : Word} {i : Instr} : cmdRow mask pattern w i ≠ .error .reservedOp := by
  unfold cmdRow
  split <;> nofun

/-- The mask of START leaves `FLAG` free, and nothing else (R111). -/
theorem and_startMask_iff (w : Word) : w &&& 0xFFFFFEFF = 0x00000001 ↔ commandWord 0 0 0 (cmdFlag w) 1 = w := by
  have hmask : (0xFFFFFEFF : Word) =
      splitWord (.allOnes 4) (.allOnes 12) (.allOnes 1) (.allOnes 3) (.allOnes 3) false (.allOnes 8) := rfl
  have hpattern : (0x00000001 : Word) = splitWord 0 0 0 0 0 false 1 := rfl
  rw [hmask, hpattern, ← splitWord_parts w, splitWord_and]
  simp [-BitVec.reduceAllOnes, commandWord_eq_splitWord, splitWord_inj, splitWord_fields, eq_comm]

/-- The mask of FILE leaves `FLAG`, `LCH` and `RCH` free (R111). -/
theorem and_fileMask_iff (w : Word) :
    w &&& 0xFFFF80FF = 0x00000006 ↔ commandWord 0 (cmdRch w) (cmdLch w) (cmdFlag w) 6 = w := by
  have hmask : (0xFFFF80FF : Word) = splitWord (.allOnes 4) (.allOnes 12) (.allOnes 1) 0 0 false (.allOnes 8) := rfl
  have hpattern : (0x00000006 : Word) = splitWord 0 0 0 0 0 false 6 := rfl
  rw [hmask, hpattern, ← splitWord_parts w, splitWord_and]
  simp [-BitVec.reduceAllOnes, commandWord_eq_splitWord, splitWord_inj, splitWord_fields, eq_comm]

/-- The mask of SEND_DATA leaves every field free (R111). -/
theorem and_sendDataMask_iff (w : Word) :
    w &&& 0xF00080FF = 0x00000003 ↔ commandWord (cmdLen w) (cmdRch w) (cmdLch w) (cmdFlag w) 3 = w := by
  have hmask : (0xF00080FF : Word) = splitWord (.allOnes 4) 0 (.allOnes 1) 0 0 false (.allOnes 8) := rfl
  have hpattern : (0x00000003 : Word) = splitWord 0 0 0 0 0 false 3 := rfl
  rw [hmask, hpattern, ← splitWord_parts w, splitWord_and]
  simp [-BitVec.reduceAllOnes, commandWord_eq_splitWord, splitWord_inj, splitWord_fields, eq_comm]

/-- The mask of the commands without fields leaves nothing free (R111). -/
theorem and_fullMask_iff (w : Word) (op : BitVec 8) :
    w &&& 0xFFFFFFFF = commandWord 0 0 0 false op ↔ commandWord 0 0 0 false op = w := by
  rw [show (0xFFFFFFFF : Word) = .allOnes 32 from rfl, BitVec.and_allOnes, eq_comm]

theorem toNat_cmdOp (w : Word) : (cmdOp w).toNat = w.toNat % 256 := by
  rw [cmdOp, Machine.toNat_extract]
  omega

/-- What the decoder reads from a word is the instruction of that word (R111). -/
theorem encode_of_decodeCommand {w : Word} {i : Instr} (h : decodeCommand w = .ok i) : encode i = .command w := by
  unfold decodeCommand at h
  split at h
  case h_7 => cases h
  all_goals
    obtain ⟨hmask, rfl⟩ := cmdRow_eq_ok_iff.mp h
    refine congrArg Image.command ?_
  case h_1 => exact (and_startMask_iff w).mp hmask
  case h_2 => exact (and_fullMask_iff w 2).mp hmask
  case h_3 => exact (and_sendDataMask_iff w).mp hmask
  case h_4 => exact (and_fullMask_iff w 4).mp hmask
  case h_5 => exact (and_fullMask_iff w 5).mp hmask
  case h_6 => exact (and_fileMask_iff w).mp hmask

/-- The word of a command is read as that command (R110, R111). -/
theorem decodeCommand_of_encode {w : Word} {i : Instr} (h : encode i = .command w) : decodeCommand w = .ok i := by
  cases i with
  | start role =>
    obtain ⟨-, -, -, hflag⟩ := commandWord_fields (len := 0) (rch := 0) (lch := 0) (flag := role) (op := 1)
    cases h
    unfold decodeCommand
    rw [Laws.cmdOp_commandWord, hflag]
    exact cmdRow_eq_ok_iff.mpr ⟨(and_startMask_iff _).mpr (by rw [hflag]), rfl⟩
  | getBuf => cases h; rfl
  | sendData eom lch rch len =>
    obtain ⟨hlen, hrch, hlch, hflag⟩ :=
      commandWord_fields (len := len) (rch := rch) (lch := lch) (flag := eom) (op := 3)
    cases h
    unfold decodeCommand
    rw [Laws.cmdOp_commandWord, hlen, hrch, hlch, hflag]
    exact cmdRow_eq_ok_iff.mpr ⟨(and_sendDataMask_iff _).mpr (by rw [hlen, hrch, hlch, hflag]), rfl⟩
  | wait => cases h; rfl
  | shutdown => cases h; rfl
  | file flag lch rch =>
    obtain ⟨-, hrch, hlch, hflag⟩ := commandWord_fields (len := 0) (rch := rch) (lch := lch) (flag := flag) (op := 6)
    cases h
    unfold decodeCommand
    rw [Laws.cmdOp_commandWord, hrch, hlch, hflag]
    exact cmdRow_eq_ok_iff.mpr ⟨(and_fileMask_iff _).mpr (by rw [hrch, hlch, hflag]), rfl⟩
  | data _ _ => cases h
  | sync _ _ _ => cases h
  | ack _ => cases h
  | nak _ => cases h
  | close _ => cases h

/-- `decodeCommand` and `encode` are inverse to each other on command words (R110, R111). -/
theorem decodeCommand_eq_ok_iff {w : Word} {i : Instr} : decodeCommand w = .ok i ↔ encode i = .command w :=
  ⟨encode_of_decodeCommand, decodeCommand_of_encode⟩

/-- The reserved operations are 0 and those from 7 up (R112). -/
theorem decodeCommand_eq_reservedOp_iff (w : Word) :
    decodeCommand w = .error .reservedOp ↔ w.toNat % 256 = 0 ∨ 7 ≤ w.toNat % 256 := by
  rw [← toNat_cmdOp]
  unfold decodeCommand
  split
  case h_7 =>
    simp only [imp_false, true_iff] at *
    omega
  all_goals exact iff_of_false cmdRow_ne_reservedOp (by omega)

/-- A word of a defined operation that is no instruction's breaks a must-be-0 bit (R112). -/
theorem decodeCommand_eq_mustBeZero {w : Word} (hop : 1 ≤ w.toNat % 256 ∧ w.toNat % 256 ≤ 6)
    (hnone : ∀ i, encode i ≠ .command w) : decodeCommand w = .error .mustBeZero := by
  cases h : decodeCommand w with
  | ok i => exact absurd (encode_of_decodeCommand h) (hnone i)
  | error e =>
    cases e with
    | reservedOp => have := (decodeCommand_eq_reservedOp_iff w).mp h; omega
    | mustBeZero => rfl

/-- A command word in arithmetic (R110). -/
theorem commandWord_eq_fieldWord (len : BitVec 12) (rch lch : Channel) (flag : Bool) (op : BitVec 8) :
    commandWord len rch lch flag op = Machine.fieldWord op.toNat flag lch rch len.toNat := by
  have hvalue : (commandWord len rch lch flag op).toNat =
      op.toNat + 256 * flag.toNat + 512 * lch.toNat + 4096 * rch.toNat + 65536 * len.toNat := by
    simp only [commandWord_eq_splitWord, toNat_splitWord, BitVec.ofNat_eq_ofNat, BitVec.toNat_zero]
    omega
  rw [Machine.fieldWord, ← hvalue, BitVec.ofNat_toNat, BitVec.setWidth_eq]

/-- Settles O9: `decodeCommand` inverts `encode` (`decodeCommand_eq_ok_iff`), and each command's word by
`commandWord_eq_fieldWord`. -/
theorem commandWordsHaveOneMeaning : Obligations.CommandWordsHaveOneMeaning := by
  refine ⟨fun w => ⟨fun i => decodeCommand_eq_ok_iff, decodeCommand_eq_reservedOp_iff w⟩, fun flag lch rch len => ?_⟩
  have hword : ∀ (len : BitVec 12) (rch lch : Channel) (flag : Bool) (op : BitVec 8),
      Image.command (commandWord len rch lch flag op) =
        .command (Machine.fieldWord op.toNat flag lch rch len.toNat) :=
    fun len rch lch flag op => congrArg Image.command (commandWord_eq_fieldWord len rch lch flag op)
  exact ⟨hword 0 0 0 flag 1, hword 0 0 0 false 2, hword len rch lch flag 3, hword 0 0 0 false 4,
    hword 0 0 0 false 5, hword 0 rch lch flag 6⟩

end Sys2Proof

namespace Sys2Proof.Machine

open Sys2Proof

section

variable {s : State}

/-! ### Answers -/

/-- The fields of a response word (R113). -/
theorem rspWord_fields (op : BitVec 4) (st : Status) (size : BitVec 12) (val : BitVec 5) (k : BitVec 4) :
    (rspWord op st size val k).extractLsb' 0 4 = st.code ∧ (rspWord op st size val k).extractLsb' 4 4 = k ∧
      (rspWord op st size val k).extractLsb' 8 5 = val ∧ (rspWord op st size val k).extractLsb' 13 3 = 0 ∧
      (rspWord op st size val k).extractLsb' 16 12 = size ∧ (rspWord op st size val k).extractLsb' 28 4 = op := by
  simp only [extract_eq_iff_bits, rspWord, BitVec.getLsbD_append]
  refine ⟨?_, ?_, ?_, ?_, ?_, ?_⟩
  all_goals
    intro i hi
    simp (disch := omega) only [if_pos, if_neg, Nat.sub_sub, Nat.add_sub_cancel_left, Nat.reduceAdd, Nat.zero_add]
  rfl

/-- A command that finds another one pending is turned away (R115). -/
theorem command_of_pending (h : s.pend ≠ .none) (op : BitVec 4) (allowed : PState → Bool) (run : State → State) :
    command op allowed run s = s.emitted (.rsp (rspWord op .busy 0 0 0)) := if_pos h

/-- A command that the state does not allow is turned away (R115, R202). -/
theorem command_of_not_allowed (h : s.pend = .none) {allowed : PState → Bool} (ha : allowed s.pstate = false)
    (op : BitVec 4) (run : State → State) :
    command op allowed run s = s.emitted (.rsp (rspWord op .badState 0 0 0)) := by
  unfold command
  rw [if_neg (not_not.mpr h), ha]
  rfl

/-- Every command goes through the checks of R115, with its own code and its own row of R202's table. -/
theorem exec_eq_command {i : Instr} (hi : isPacket i = false) :
    ∃ run, ∀ s, exec i s = .next (command (commandOp i) (commandAllowed i) run s) := by
  cases i with
  | start role => exact ⟨startOp role, fun _ => rfl⟩
  | getBuf => exact ⟨getBufOp, fun _ => rfl⟩
  | sendData eom lch rch len => exact ⟨sendDataOp eom lch rch len, fun _ => rfl⟩
  | wait => exact ⟨waitOp, fun _ => rfl⟩
  | shutdown => exact ⟨shutdownOp, fun s => by simp [exec, execShutdown, commandOp, commandAllowed, command]⟩
  | file flag lch rch => exact ⟨respond 6 .ok, fun _ => rfl⟩
  | data _ _ => cases hi
  | sync _ _ _ => cases hi
  | ack _ => cases hi
  | nak _ => cases hi
  | close _ => cases hi

/-- The echoed code is the low half of `OP` (R113). -/
theorem commandOp_of_encode {i : Instr} {w : Word} (h : encode i = .command w) : commandOp i = w.extractLsb' 0 4 := by
  have hlow : ∀ v : Word, v.extractLsb' 0 4 = (cmdOp v).extractLsb' 0 4 := fun v => by
    rw [cmdOp, BitVec.extractLsb'_extractLsb'_of_le (by decide)]
  rw [hlow]
  cases i with
  | start role => cases h; rw [Laws.cmdOp_commandWord]; rfl
  | getBuf => cases h; rfl
  | sendData eom lch rch len => cases h; rw [Laws.cmdOp_commandWord]; rfl
  | wait => cases h; rfl
  | shutdown => cases h; rfl
  | file flag lch rch => cases h; rw [Laws.cmdOp_commandWord]; rfl
  | data _ _ => cases h
  | sync _ _ _ => cases h
  | ack _ => cases h
  | nak _ => cases h
  | close _ => cases h

/-- Settles O16: `exec_eq_command` reduces the refusals to the checks of `command`. -/
theorem refusedCommandsChangeNothing : Obligations.RefusedCommandsChangeNothing := by
  refine ⟨fun i s hi => ?_, rspWord_fields, ⟨rfl, rfl, rfl, rfl, rfl, rfl, rfl⟩, fun i w => commandOp_of_encode,
    ⟨rfl, rfl, rfl⟩⟩
  obtain ⟨run, hexec⟩ := exec_eq_command hi
  rw [hexec]
  exact ⟨fun hp => congrArg Host.Outcome.next (command_of_pending hp _ _ _),
    fun hp ha => congrArg Host.Outcome.next (command_of_not_allowed hp ha _ _)⟩

/-- A word that is no operation is answered, `BUSY` first (R112, R115). -/
theorem handle_cmd_of_error {w : Word} {e : CmdError} (h : decodeCommand w = .error e) (s : State) :
    handle (.cmd w) s = .next (illegalCommand w e s) := by
  show runCommand w s = _
  unfold runCommand
  rw [h]

theorem illegalCommand_of_pending (h : s.pend ≠ .none) (w : Word) (e : CmdError) :
    illegalCommand w e s = s.emitted (.rsp (rspWord (w.extractLsb' 0 4) .busy 0 0 0)) := if_pos h

theorem illegalCommand_of_reservedOp (h : s.pend = .none) (w : Word) :
    illegalCommand w .reservedOp s = s.emitted (.rsp (rspWord (w.extractLsb' 0 4) .badOp 0 0 0)) :=
  if_neg (not_not.mpr h)

theorem illegalCommand_of_mustBeZero (h : s.pend = .none) (w : Word) :
    illegalCommand w .mustBeZero s = s.emitted (.rsp (rspWord (w.extractLsb' 0 4) .badArg 0 0 0)) :=
  if_neg (not_not.mpr h)

/-- Settles O17: which error the word decodes to, then its answer. -/
theorem illegalWordsAreAnswered : Obligations.IllegalWordsAreAnswered := by
  refine fun s w => ⟨fun hp hop => ?reserved, fun hp hop hnone => ?argument, fun hp hnone => ?busy⟩
  case reserved =>
    rw [handle_cmd_of_error ((decodeCommand_eq_reservedOp_iff w).mpr hop), illegalCommand_of_reservedOp hp]
  case argument =>
    rw [handle_cmd_of_error (decodeCommand_eq_mustBeZero hop hnone), illegalCommand_of_mustBeZero hp]
  case busy =>
    cases h : decodeCommand w with
    | ok i => exact absurd (encode_of_decodeCommand h) (hnone i)
    | error e => rw [handle_cmd_of_error h, illegalCommand_of_pending hp]

end

end Sys2Proof.Machine

namespace Sys2Proof

/-! ### Whole images -/

/-- A length a type may have has a packet of that type (R95, R103). -/
theorem packetOf_of_lenOk {maxLen : Nat} {ty : PktType} {payload : List Byte}
    (h : lenOk maxLen ty payload.length = true) (hdr : Hdr) :
    ∃ i, packetOf ty hdr payload = some i ∧ Machine.isPacket i = true := by
  cases ty with
  | data => exact ⟨_, rfl, rfl⟩
  | sync =>
    obtain ⟨win, k, rfl⟩ := List.length_eq_two.mp (of_decide_eq_true h)
    exact ⟨_, rfl, rfl⟩
  | ack => exact ⟨_, rfl, rfl⟩
  | nak => exact ⟨_, rfl, rfl⟩
  | close => exact ⟨_, rfl, rfl⟩

/-- The image of a packet is that packet and nothing more (R135, R143). -/
theorem decode_encodePacket {maxLen : Nat} {ty : PktType} {h : Hdr} {payload : List Byte} {i : Instr}
    (hmax : payload.length ≤ 1024) (hlen : lenOk maxLen ty payload.length = true)
    (hi : packetOf ty h payload = some i) : decode maxLen (.packet (encodePacket ty h payload)) = .ok i := by
  have hframe := decodeFrame_encodePacket hmax hlen hi []
  rw [List.append_nil] at hframe
  simp [decode, hframe]

/-- A well-formed DATA payload is within the largest length (R95). -/
theorem fits_slotBytes {i : Instr} (h : i.wellFormed = true) : Machine.fits Config.slotBytes i = true := by
  cases i with
  | data hdr payload => exact h
  | _ => rfl

/-- Settles O3: a packet's image by the stream round trip, a command's word by `decodeCommand_of_encode`. -/
theorem decodeOfEncodeIsTheInstruction : Obligations.DecodeOfEncodeIsTheInstruction := by
  intro i hwf
  cases himage : encode i with
  | packet bytes =>
    obtain ⟨ty, h, payload, rfl, hi, hmax, hlen⟩ := encode_eq_packet hwf (fits_slotBytes hwf) himage
    exact decode_encodePacket hmax hlen hi
  | command w => simp [decode, decodeCommand_of_encode himage]

/-! ### The bytes of an image in arithmetic -/

/-- A byte of a CRC value (R134). -/
theorem extract_byte_eq_ofNat (c : Word) (start : Nat) : c.extractLsb' start 8 = BitVec.ofNat 8 (c.toNat / 2 ^ start) :=
  BitVec.eq_of_toNat_eq (by rw [Machine.toNat_extract, BitVec.toNat_ofNat])

theorem trailerBytes_eq (c : Word) :
    trailerBytes c =
      [BitVec.ofNat 8 (c.toNat / 16777216), BitVec.ofNat 8 (c.toNat / 65536), BitVec.ofNat 8 (c.toNat / 256),
        BitVec.ofNat 8 c.toNat] := by
  simp only [trailerBytes, extract_byte_eq_ofNat, Nat.reducePow, Nat.div_one]

/-- Two fields that fill a byte (R91). -/
theorem append_eq_ofNat {m n : Nat} (x : BitVec m) (y : BitVec n) :
    x ++ y = BitVec.ofNat (m + n) (x.toNat * 2 ^ n + y.toNat) := by
  rw [← toNat_append_eq, BitVec.ofNat_toNat, BitVec.setWidth_eq]

/-- The code of a packet type in numbers (R93). -/
def PktType.number : PktType → Nat
  | .data => 0
  | .sync => 1
  | .ack => 2
  | .nak => 3
  | .close => 4

theorem PktType.code_toNat (ty : PktType) : ty.code.toNat = ty.number := by cases ty <;> rfl

/-- `b3` and `b4`: the type code, `F` and the length (R91, R92). -/
theorem typeByte_eq (ty : PktType) (f : Bool) {n : Nat} (hn : n < 4096) :
    ty.code ++ bit1 f ++ (BitVec.ofNat 12 n).extractLsb' 8 4 =
      BitVec.ofNat 8 (ty.number * 32 + f.toNat * 16 + n / 256) := by
  refine (append_eq_ofNat _ _).trans (congrArg (BitVec.ofNat 8) ?_)
  have hhigh : ((BitVec.ofNat 12 n).extractLsb' 8 4).toNat = n / 256 := by
    rw [BitVec.extractLsb'_toNat, BitVec.toNat_ofNat, Nat.shiftRight_eq_div_pow]
    omega
  rw [toNat_append_eq, toNat_bit1, PktType.code_toNat, hhigh]
  omega

theorem lengthByte_eq (n : Nat) : (BitVec.ofNat 12 n).extractLsb' 0 8 = BitVec.ofNat 8 n := by
  refine BitVec.eq_of_toNat_eq ?_
  rw [BitVec.extractLsb'_toNat, BitVec.toNat_ofNat, BitVec.toNat_ofNat, Nat.shiftRight_zero]
  omega

/-- The image of R135 is that of R91 to R102 byte by byte. -/
theorem encodePacket_eq_wireImage (ty : PktType) (h : Hdr) {payload : List Byte} (hmax : payload.length < 4096) :
    encodePacket ty h payload = Machine.wireImage ty.number h payload := by
  have hb1 : h.seq ++ h.lch = BitVec.ofNat 8 (h.seq.toNat * 8 + h.lch.toNat) := append_eq_ofNat _ _
  have hb2 : h.ack ++ h.rch = BitVec.ofNat 8 (h.ack.toNat * 8 + h.rch.toNat) := append_eq_ofNat _ _
  simp only [encodePacket, encodeHeader, RawHeader.sealed, RawHeader.bytes, RawHeader.xchk, coveredBytes, hb1, hb2,
    typeByte_eq ty h.f hmax, lengthByte_eq, trailerBytes_eq]
  rfl

/-- Settles O4: the stream round trip and its proper prefixes, and the bytes by `encodePacket_eq_wireImage`. -/
theorem packetImageHeadsTheStream : Obligations.PacketImageHeadsTheStream := by
  refine ⟨fun maxLen i bytes hwf hfits he => ?stream, fun h payload win k => ?images⟩
  case stream =>
    obtain ⟨ty, h, payload, rfl, hi, hmax, hlen⟩ := encode_eq_packet hwf hfits he
    refine ⟨decodeFrame_encodePacket hmax hlen hi, fun n hn => ?_⟩
    refine decodeFrame_prefix hmax hlen (List.take_prefix _ _) fun hall => ?_
    have hlength := congrArg List.length hall
    rw [List.length_take] at hlength
    omega
  case images =>
    have himage : ∀ (ty : PktType) (p : List Byte), p.length ≤ 1024 →
        Image.packet (encodePacket ty h p) = .packet (Machine.wireImage ty.number h p) :=
      fun ty p hp => congrArg Image.packet (encodePacket_eq_wireImage ty h (by omega))
    exact ⟨himage .data payload, himage .sync [win, k] (by simp), himage .ack [] (by simp), himage .nak [] (by simp),
      himage .close [] (by simp)⟩

/-- Settles O5: the decoder evaluated on the words of R118 and R119, and the CRC on its check value. -/
theorem writtenWordsDecode : Obligations.WrittenWordsDecode := by
  refine ⟨?data, ?sync, ?nak, ?sendData, ?file, ?crc⟩
  all_goals decide +kernel

/-! ### The check byte -/

/-- What is added to the start of an exclusive or is added to the end. -/
theorem foldl_xor_init (l : List Byte) (init mask : Byte) :
    l.foldl (· ^^^ ·) (init ^^^ mask) = l.foldl (· ^^^ ·) init ^^^ mask := by
  induction l generalizing init with
  | nil => rfl
  | cons b l ih =>
    rw [List.foldl_cons, List.foldl_cons, BitVec.xor_assoc, BitVec.xor_comm mask, ← BitVec.xor_assoc, ih]

/-- Inverting bits of one byte inverts them in the exclusive or of all bytes. -/
theorem foldl_xor_modify (l : List Byte) (init mask : Byte) {k : Nat} (hk : k < l.length) :
    (l.modify k fun b => b ^^^ mask).foldl (· ^^^ ·) init = l.foldl (· ^^^ ·) init ^^^ mask := by
  induction l generalizing init k with
  | nil => cases hk
  | cons b l ih =>
    cases k with
    | zero => rw [List.modify_zero_cons, List.foldl_cons, List.foldl_cons, ← BitVec.xor_assoc, foldl_xor_init]
    | succ k => rw [List.modify_succ_cons, List.foldl_cons, List.foldl_cons, ih _ (Nat.lt_of_succ_lt_succ hk)]

theorem one_shiftLeft_ne_zero {j : Nat} (hj : j < 8) : 1#8 <<< j ≠ 0 := by
  interval_cases j <;> decide

/-- Settles O6: with the right check byte the sum is 0, and a flip adds its one bit (`foldl_xor_modify`). -/
theorem checkByteDetectsOneFlip : Obligations.CheckByteDetectsOneFlip := by
  refine fun h => ⟨rfl, fun hb5 => ?_⟩
  have hsum : h.bytes.foldl (· ^^^ ·) 0 = 0 := by
    simp [RawHeader.bytes, hb5, RawHeader.xchk]
  refine ⟨hsum, fun k j hk hj => ?_⟩
  rw [Machine.flipBit, foldl_xor_modify _ _ _ hk, hsum]
  simpa using one_shiftLeft_ne_zero hj

end Sys2Proof

namespace Sys2Proof

/-! ### Bytes that are no packet -/

/-- The length field in the arithmetic of R137. -/
theorem RawHeader.len_toNat (h : RawHeader) : h.len.toNat = h.b3.toNat % 16 * 256 + h.b4.toNat := by
  rw [RawHeader.len, toNat_append_eq, BitVec.extractLsb'_toNat, Nat.shiftRight_zero]
  rfl

theorem decodeFrame_of_garbage {b : Byte} (h : b ≠ Config.leadIn) (maxLen : Nat) (rest : List Byte) :
    decodeFrame maxLen (b :: rest) = .garbage := by
  unfold decodeFrame
  split
  · rename_i hcons
    cases hcons
    exact if_neg h
  · rename_i hcons
    cases hcons
    exact if_neg h
  · rename_i hcons
    cases hcons

theorem decodeBody_of_not_ok {maxLen : Nat} {raw : RawHeader} (h : raw.ok maxLen = false) (body : List Byte) :
    decodeBody maxLen raw body = .malformedHeader := by
  unfold decodeBody
  rw [h]
  rfl

/-- A complete candidate is judged by its trailer (R105, R132, R140). -/
theorem decodeBody_eq_mismatch_iff {maxLen : Nat} {raw : RawHeader} (hok : raw.ok maxLen = true)
    {payload trailer : List Byte} (hpayload : payload.length = raw.len.toNat) (htrailer : trailer.length = 4)
    (rest : List Byte) :
    decodeBody maxLen raw (payload ++ trailer ++ rest) = .checksumMismatch ↔
      trailer ≠ trailerBytes (crc32 (coveredBytes raw payload)) := by
  have htake : (trailer ++ rest).take Config.trailerLen = trailer := List.take_left' htrailer
  have hlong : ¬(payload ++ (trailer ++ rest)).length < payload.length + Config.trailerLen := by
    simp [htrailer, Config.trailerLen]
  unfold decodeBody
  simp only [List.append_assoc, if_pos hok, ← hpayload, if_neg hlong, List.take_left, List.drop_left, htake]
  by_cases hcrc : trailer = trailerBytes (crc32 (coveredBytes raw payload))
  · rw [if_pos hcrc]
    refine iff_of_false ?_ (not_not.mpr hcrc)
    split
    · nofun
    · split <;> nofun
  · rw [if_neg hcrc]
    exact iff_of_true rfl hcrc

/-- The trailer is read most significant byte first (R134). -/
theorem eq_trailerBytes_iff {trailer : List Byte} (h : trailer.length = 4) (c : Word) :
    trailer = trailerBytes c ↔ trailer.foldl (fun a t => a * 256 + t.toNat) 0 = c.toNat := by
  obtain ⟨b3, b2, b1, b0, rfl⟩ : ∃ b3 b2 b1 b0, trailer = [b3, b2, b1, b0] := by
    match trailer, h with
    | [b3, b2, b1, b0], _ => exact ⟨b3, b2, b1, b0, rfl⟩
  simp only [trailerBytes, List.cons.injEq, and_true, BitVec.toNat_eq, Machine.toNat_extract, List.foldl_cons,
    List.foldl_nil]
  have := c.isLt
  have := b0.isLt
  have := b1.isLt
  have := b2.isLt
  have := b3.isLt
  omega

end Sys2Proof

namespace Sys2Proof.Machine

open Sys2Proof

section

variable {s : State} {b : Byte} {rest : List Byte}

/-- Giving up the first byte of `RXBUF` (R139). -/
theorem drop1_of_cons (h : s.rxbuf = b :: rest) :
    drop1 s =
      { s with rxbuf := rest, counters := { s.counters with garbage := satInc s.counters.garbage } } := by
  unfold drop1
  rw [h]
  rfl

/-- A round on garbage (R140). -/
theorem decodeRounds_of_garbage (hon : s.decoderOn = true) (h : decodeFrame s.maxLen s.rxbuf = .garbage) (n : Nat) :
    decodeRounds (n + 1) s = decodeRounds n (drop1 s) := by
  rw [decodeRounds, if_pos hon, h]

/-- A round on a bad header (R140, R305). -/
theorem decodeRounds_of_malformed (hon : s.decoderOn = true) (h : decodeFrame s.maxLen s.rxbuf = .malformedHeader)
    (n : Nat) : decodeRounds (n + 1) s = decodeRounds n (countError .hdrerr (drop1 s)) := by
  rw [decodeRounds, if_pos hon, h]

/-- A round on a bad trailer (R140, R305). -/
theorem decodeRounds_of_mismatch (hon : s.decoderOn = true) (h : decodeFrame s.maxLen s.rxbuf = .checksumMismatch)
    (n : Nat) : decodeRounds (n + 1) s = decodeRounds n (countError .crcerr (drop1 s)) := by
  rw [decodeRounds, if_pos hon, h]

/-- Settles O14: one round for each kind of bad candidate, and the kinds by `decodeFrame` and `decodeBody`. -/
theorem badCandidatesLoseOneByte : Obligations.BadCandidatesLoseOneByte := by
  refine ⟨fun s n b rest hp hbuf => ?rounds, fun maxLen b rest => ?heads, fun maxLen h body hb0 => ?headers⟩
  case rounds =>
    have hon := s.decoderOn_iff.mpr hp
    rw [← drop1_of_cons hbuf]
    refine ⟨fun hb => ?_, fun hf => ?_, fun hf => ?_⟩
    · exact decodeRounds_of_garbage hon (hbuf ▸ decodeFrame_of_garbage hb _ rest) n
    · exact decodeRounds_of_malformed hon (hbuf ▸ hf) n
    · exact decodeRounds_of_mismatch hon (hbuf ▸ hf) n
  case heads =>
    refine ⟨rfl, fun hb => decodeFrame_of_garbage hb maxLen rest, fun hlen => ?_⟩
    exact decodeFrame_of_short (buf := 0x07 :: rest) (by rw [List.length_cons]; omega)
      (fun b hb => (Option.some.inj hb).symm) maxLen
  case headers =>
    rw [decodeFrame_header hb0]
    refine ⟨fun hok => decodeBody_of_not_ok hok body, fun len hlen hok => ?_⟩
    rw [← h.len_toNat] at hlen
    subst hlen
    refine ⟨fun hshort => decodeBody_of_short hok hshort, fun payload trailer rest hpayload htrailer hbody => ?_⟩
    rw [hbody, decodeBody_eq_mismatch_iff hok hpayload htrailer, Ne, eq_trailerBytes_iff htrailer]
    rfl

end

end Sys2Proof.Machine

namespace Sys2Proof.Machine

open Sys2Proof

/-! ### SEND_CMD -/

section

variable {p : Nat}

/-- Pieces of `p` bytes, joined, are what they were cut from. -/
theorem flatten_pieces (p n : Nat) (text : List Byte) :
    ((List.range n).map fun i => (text.drop (i * p)).take p).flatten = text.take (n * p) := by
  induction n with
  | zero => simp
  | succ n ih => rw [List.range_succ, List.map_append, List.flatten_append, ih, Nat.succ_mul, List.take_add]; simp

/-- There are enough pieces for the text (R116). -/
theorem length_le_sendCmdCount_mul (hp : 0 < p) (len : Nat) : len ≤ sendCmdCount p len * p := by
  have hceil : len + p - 1 < ((len + p - 1) / p + 1) * p := Nat.lt_mul_of_div_lt (Nat.lt_succ_self _) hp
  have hmax : (len + p - 1) / p * p ≤ sendCmdCount p len * p := Nat.mul_le_mul_right p (le_max_right _ _)
  rw [Nat.succ_mul] at hceil
  omega

/-- Before the last piece there is text for a whole one (R116). -/
theorem mul_le_length_of_lt_sendCmdCount {i len : Nat} (hi : i + 1 < sendCmdCount p len) : (i + 1) * p ≤ len := by
  have hlt : i + 1 < (len + p - 1) / p := by
    unfold sendCmdCount at hi
    omega
  have hp : 0 < p := Nat.pos_of_ne_zero fun h => by simp [h] at hlt
  have hmul : (i + 2) * p ≤ len + p - 1 := (Nat.le_div_iff_mul_le hp).mp hlt
  rw [Nat.add_mul] at *
  omega

@[simp] theorem sendCmdPieces_length (p : Nat) (text : List Byte) :
    (sendCmdPieces p text).length = sendCmdCount p text.length := by
  simp [sendCmdPieces]

theorem sendCmdPieces_flatten (hp : 0 < p) (text : List Byte) : (sendCmdPieces p text).flatten = text :=
  (flatten_pieces p _ text).trans (List.take_of_length_le (length_le_sendCmdCount_mul hp _))

theorem length_le_of_mem_sendCmdPieces {text c : List Byte} (hc : c ∈ sendCmdPieces p text) : c.length ≤ p := by
  obtain ⟨i, -, rfl⟩ := List.mem_map.mp hc
  exact List.length_take_le _ _

/-- All pieces but the last are full (R116). -/
theorem length_eq_of_mem_dropLast_sendCmdPieces {text c : List Byte} (hc : c ∈ (sendCmdPieces p text).dropLast) :
    c.length = p := by
  obtain ⟨i, hi, rfl⟩ := List.mem_iff_getElem.mp hc
  rw [List.length_dropLast, sendCmdPieces_length] at hi
  have hfull := mul_le_length_of_lt_sendCmdCount (p := p) (i := i) (len := text.length) (by omega)
  rw [Nat.add_mul] at hfull
  simp only [List.getElem_dropLast, sendCmdPieces, List.getElem_map, List.getElem_range, List.length_take,
    List.length_drop]
  omega

/-- The events of one piece, with the words in arithmetic and the addresses of the slot's window (R116). -/
theorem pieceEvents_eq {piece : List Byte} (h : piece.length ≤ 1024) (q : SeqNum) (lch rch : Channel) (eom : Bool) :
    pieceEvents q lch rch eom piece =
      .cmd 2 :: (piece.zipIdx.map fun bj => .bufWrite (0x8000 + 1024 * q.toNat + bj.2) bj.1) ++
        [.cmd (fieldWord 3 eom lch rch piece.length)] := by
  have hget : commandWord 0 0 0 false 2 = 2 := rfl
  rw [pieceEvents, hget, commandWord_eq_fieldWord, lenField_toNat h]
  rfl

/-- Settles O10: the pieces cover the text (`flatten_pieces`), and each piece's events are those of R116. -/
theorem sendCmdSplitsTheText : Obligations.SendCmdSplitsTheText := by
  refine fun p text hp => ⟨sendCmdPieces_flatten hp text, fun c => length_le_of_mem_sendCmdPieces,
    fun c => length_eq_of_mem_dropLast_sendCmdPieces, sendCmdPieces_length p text, fun hmax q lch rch => ?_⟩
  rw [sendCmdEvents, sendCmdPieces_length]
  refine List.flatMap_congr fun ci hci => ?_
  have hmem : ci.1 ∈ sendCmdPieces p text := List.fst_mem_of_mem_zipIdx hci
  exact pieceEvents_eq ((length_le_of_mem_sendCmdPieces hmem).trans hmax) _ _ _ _

end

end Sys2Proof.Machine

namespace Sys2Proof.Machine

open Sys2Proof

/-! ### What the block transmits -/

/-- What the output transmits, if anything, is one whole packet image (R72, R106). -/
def OutEvent.decodes : OutEvent → Prop
  | .tx bytes => ∃ i, decode Config.slotBytes (.packet bytes) = .ok i ∧ isPacket i = true
  | .deliver _ _ _ _ => True
  | .evt _ => True
  | .rsp _ => True
  | .csrData _ => True

/-- The transmissions of an output list are the packets of its `Tx` events. -/
theorem tx_mem_of_mem_transmissions {bytes : List Byte} {l : List OutEvent} (h : bytes ∈ transmissions l) :
    .tx bytes ∈ l := by
  induction l with
  | nil => cases h
  | cons e l ih =>
    cases e with
    | tx b =>
      rcases List.mem_cons.mp h with rfl | h
      · exact List.mem_cons_self
      · exact List.mem_cons_of_mem _ (ih h)
    | deliver _ _ _ _ => exact List.mem_cons_of_mem _ (ih h)
    | evt _ => exact List.mem_cons_of_mem _ (ih h)
    | rsp _ => exact List.mem_cons_of_mem _ (ih h)
    | csrData _ => exact List.mem_cons_of_mem _ (ih h)

/-- The image of every admissible payload decodes (R106). -/
theorem decodes_encodePacket {ty : PktType} {payload : List Byte} (hlen : lenOk 1024 ty payload.length = true)
    (h : Hdr) : (OutEvent.tx (encodePacket ty h payload)).decodes := by
  obtain ⟨i, hi, hpacket⟩ := packetOf_of_lenOk hlen h
  exact ⟨i, decode_encodePacket (lenOk_le (by decide) hlen) hlen hi, hpacket⟩

/-- What holds all through a step: every slot's length is one a DATA packet may have, and the outputs are those of
before the step (`base`) and behind them only such as decode. -/
structure SentWell (base : List OutEvent) (s : State) : Prop where
  fits : ∀ q, (s.slot q).len.toNat ≤ 1024
  out : ∃ new, s.out = base ++ new ∧ ∀ e ∈ new, e.decodes

section

variable {base : List OutEvent} {s t : State}

/-! ### What neither emits nor touches the slots, and what only emits -/

theorem SentWell.emitted (h : SentWell base s) {new : List OutEvent} (hslots : t.slots = s.slots)
    (hout : t.out = s.out ++ new) (hnew : ∀ e ∈ new, e.decodes) : SentWell base t where
  fits q := by rw [State.slot, hslots]; exact h.fits q
  out := by
    obtain ⟨old, hold, hall⟩ := h.out
    refine ⟨old ++ new, by rw [hout, hold, List.append_assoc], fun e he => ?_⟩
    exact (List.mem_append.mp he).elim (hall e) (hnew e)

theorem SentWell.of_eq (h : SentWell base s) (hslots : t.slots = s.slots) (hout : t.out = s.out) : SentWell base t :=
  h.emitted (new := []) hslots (hout.trans (List.append_nil _).symm) nofun

theorem SentWell.emitted_one (h : SentWell base s) {e : OutEvent} (hslots : t.slots = s.slots)
    (hout : t.out = s.out ++ [e]) (he : e.decodes) : SentWell base t :=
  h.emitted hslots hout fun _ hmem => List.mem_singleton.mp hmem ▸ he

theorem sentWell_emit (h : SentWell base s) {e : OutEvent} (he : e.decodes) : SentWell base (emit e s) :=
  h.emitted_one rfl rfl he

theorem sentWell_respond (h : SentWell base s) (op : BitVec 4) (st : Status) : SentWell base (respond op st s) :=
  h.emitted_one rfl rfl trivial

theorem sentWell_endPending (h : SentWell base s) (st : Status) : SentWell base (endPending st s) := by
  rw [endPending_eq]
  refine h.emitted rfl rfl fun e he => ?_
  split at he
  · cases he
  · exact List.mem_singleton.mp he ▸ trivial

theorem sentWell_raiseFatal (h : SentWell base s) (c : FailCause) : SentWell base (raiseFatal c s) := by
  unfold raiseFatal
  refine sentWell_endPending (sentWell_emit ?_ ?_) _
  · exact h.of_eq rfl rfl
  · exact trivial

theorem sentWell_peerClose (h : SentWell base s) : SentWell base (peerClose s) := by
  unfold peerClose
  refine sentWell_endPending (sentWell_emit ?_ ?_) _
  · exact h.of_eq rfl rfl
  · exact trivial

theorem sentWell_finishHandshake (h : SentWell base s) : SentWell base (finishHandshake s) :=
  h.of_eq (finishHandshake_slots s) (finishHandshake_out s)

/-! ### Transmissions -/

theorem sentWell_transmit (h : SentWell base s) {ty : PktType} {payload : List Byte}
    (hlen : lenOk 1024 ty payload.length = true) (q : SeqNum) (lch rch : Channel) (f : Bool) :
    SentWell base (transmit ty q lch rch f payload s) :=
  h.emitted_one rfl rfl (decodes_encodePacket hlen _)

theorem sentWell_transmitSync (h : SentWell base s) (reply : Bool) : SentWell base (transmitSync reply s) :=
  h.emitted_one rfl rfl (decodes_encodePacket (ty := .sync) rfl _)

/-- A slot's payload has the length of its record (R60). -/
@[simp] theorem slotPayload_length (s : State) (q : SeqNum) : (s.slotPayload q).length = (s.slot q).len.toNat := by
  simp [State.slotPayload]

theorem SentWell.dataImage_decodes (h : SentWell base s) (q : SeqNum) : (OutEvent.tx (s.dataImage q)).decodes :=
  decodes_encodePacket (ty := .data) (decide_eq_true ((slotPayload_length s q).trans_le (h.fits q))) _

theorem sentWell_transmitData (h : SentWell base s) (q : SeqNum) (again : Bool) :
    SentWell base (transmitData q again s) :=
  h.emitted_one rfl rfl (h.dataImage_decodes q)

theorem sentWell_transmitNew (h : SentWell base s) : SentWell base (transmitNew s) :=
  h.emitted_one rfl rfl (h.dataImage_decodes _)

theorem sentWell_pumpOne (h : SentWell base s) : SentWell base (pumpOne s) :=
  h.emitted_one rfl rfl (h.dataImage_decodes _)

theorem sentWell_requestSync (h : SentWell base s) : SentWell base (requestSync s) :=
  sentWell_finishHandshake (sentWell_transmitSync h false)

theorem sentWell_gapNak (h : SentWell base s) : SentWell base (gapNak s) := by
  rcases gapNak_cases s with he | he <;> rw [he]
  · exact h
  · exact (sentWell_transmit (ty := .nak) (payload := []) h rfl _ _ _ _).of_eq rfl rfl

theorem sentWell_serviceIfReady (h : SentWell base s) : SentWell base (serviceIfReady s) := by
  unfold serviceIfReady
  split
  · exact service_keeps (P := SentWell base) (fun _ => sentWell_pumpOne) (fun _ _ => sentWell_gapNak)
      (fun _ _ ht => sentWell_transmit (ty := .ack) (payload := []) ht rfl _ _ _ _) s h
  · exact h

/-! ### Errors and packets -/

theorem sentWell_countError (h : SentWell base s) (kind : ErrKind) : SentWell base (countError kind s) := by
  have htally : SentWell base (tallyError kind s) := h.of_eq rfl rfl
  have hfallback : SentWell base (fallbackOrFail (tallyError kind s)) := by
    rcases fallbackOrFail_cases (tallyError kind s) with ⟨-, he⟩ | ⟨-, he⟩ <;> rw [he]
    · exact sentWell_requestSync (h.emitted_one rfl rfl trivial)
    · exact sentWell_raiseFatal htally _
  rcases countError_cases kind s with he | ⟨-, he⟩ | ⟨-, he⟩ <;> rw [he]
  · exact htally
  · exact hfallback
  · exact sentWell_raiseFatal htally _

/-- An ack takes `INUSE` from slots and leaves their lengths (R165). -/
theorem sentWell_onAck (h : SentWell base s) (a : SeqNum) : SentWell base (onAck a s).2 := by
  have hrotation : SentWell base (rotationEvent a s) := by
    unfold rotationEvent
    split
    · exact h.emitted_one rfl rfl trivial
    · exact h
  rcases onAck_cases a s with ⟨-, he⟩ | ⟨-, he⟩ <;> rw [he]
  · refine ⟨fun q => ?_, hrotation.out⟩
    rw [State.slot, advanceAcked_slots, entryAt_releaseSlots]
    split <;> exact hrotation.fits q
  · exact h

theorem sentWell_onReject (h : SentWell base s) (rs : SeqNum) : SentWell base (onReject rs s) := by
  rcases onReject_cases rs s with he | he | ⟨-, he⟩ | ⟨-, he⟩ <;> rw [he]
  · exact h
  · exact sentWell_onAck h rs
  · exact h.of_eq rfl rfl
  · exact (sentWell_onAck h rs).of_eq rfl rfl

theorem sentWell_ackPacket (h : SentWell base s) (ack : SeqNum) (advanced : Bool) :
    SentWell base (ackPacket ack advanced s) := by
  unfold ackPacket
  split
  · exact sentWell_onReject h _
  · exact h

theorem sentWell_onData (h : SentWell base s) (q : SeqNum) (lch rch : Channel) (eom : Bool) (p : List Byte) :
    SentWell base (onData q lch rch eom p s) := by
  have hexpected : SentWell base (onDataExpected q lch rch eom p s) :=
    drain_keeps (P := SentWell base) (fun _ _ ht => ht.emitted_one rfl rfl trivial) 32 _ (h.emitted_one rfl rfl trivial)
  obtain ⟨t, he, hcase⟩ := onData_cases q lch rch eom p s
  have ht : SentWell base t := by
    rcases hcase with ⟨-, rfl⟩ | ⟨-, -, rfl⟩ | rfl
    · exact hexpected
    · exact h.of_eq rfl rfl
    · exact h.of_eq rfl rfl
  rcases he with he | he <;> rw [he]
  · exact ht
  · exact ht.of_eq rfl rfl

theorem sentWell_handleSync (h : SentWell base s) (f : Bool) (win k : Byte) :
    SentWell base (handleSync f win k s) := by
  have hsettle : SentWell base (settleSizes win k s) := h.of_eq rfl rfl
  rcases handleSync_cases f win k s with ⟨-, he⟩ | ⟨-, -, he⟩ | ⟨-, -, he⟩ <;> rw [he]
  · exact sentWell_countError h _
  · exact sentWell_finishHandshake hsettle
  · exact sentWell_finishHandshake (sentWell_transmitSync hsettle true)

theorem sentWell_acceptSync (h : SentWell base s) (f : Bool) (win k : Byte) :
    SentWell base (acceptSync f win k s) := by
  have hgood : SentWell base (goodPacket s) := h.of_eq rfl rfl
  rcases acceptSync_cases f win k s with ⟨-, he⟩ | ⟨-, he⟩ | ⟨-, he⟩ <;> rw [he]
  · exact sentWell_handleSync hgood f win k
  · exact sentWell_serviceIfReady (sentWell_handleSync hgood f win k)
  · exact h

theorem sentWell_acceptNumbered (h : SentWell base s) (ack : SeqNum) {own : Bool → State → State}
    (hown : ∀ b t, SentWell base t → SentWell base (own b t)) : SentWell base (acceptNumbered ack own s) := by
  have hgood : SentWell base (goodPacket s) := h.of_eq rfl rfl
  rcases acceptNumbered_cases ack own s with ⟨-, he⟩ | ⟨-, he⟩ | ⟨-, he⟩ <;> rw [he]
  · exact hgood
  · exact sentWell_serviceIfReady (hown _ _ (sentWell_onAck hgood ack))
  · exact h

theorem sentWell_exec_packet (h : SentWell base s) {i : Instr} (hi : isPacket i = true) (he : exec i s = .next t) :
    SentWell base t := by
  cases i with
  | data hdr p => cases he; exact sentWell_acceptNumbered h _ fun _ _ ht => sentWell_onData ht _ _ _ _ _
  | sync hdr win k => cases he; exact sentWell_acceptSync h _ _ _
  | ack hdr => cases he; exact sentWell_acceptNumbered h _ fun _ _ ht => sentWell_ackPacket ht _ _
  | nak hdr => cases he; exact sentWell_acceptNumbered h _ fun _ _ ht => sentWell_onReject ht _
  | close hdr => cases he; exact sentWell_acceptNumbered h _ fun _ _ ht => sentWell_peerClose ht
  | start _ => cases hi
  | getBuf => cases hi
  | sendData _ _ _ _ => cases hi
  | wait => cases hi
  | shutdown => cases hi
  | file _ _ _ => cases hi

/-! ### The byte stream's events -/

theorem sentWell_decodeLoop (h : SentWell base s) (ht : decodeLoop s = .next t) : SentWell base t :=
  decodeRounds_keeps (P := SentWell base) (fun _ _ hu => hu.of_eq rfl rfl)
    (fun kind _ _ hu => sentWell_countError hu kind)
    (fun _ u rest _ _ hf hu he =>
      sentWell_exec_packet (s := { u with rxbuf := rest }) (hu.of_eq rfl rfl) (decodeFrame_packet hf).1 he)
    _ s t h ht

theorem sentWell_feed (h : SentWell base s) {chunk : List Byte} (ht : feed chunk s = .next t) : SentWell base t :=
  feed_keeps (P := SentWell base)
    (fun b u _ _ hu hv => sentWell_decodeLoop (s := { u with rxbuf := u.rxbuf ++ [b] }) (hu.of_eq rfl rfl) hv)
    chunk s t h ht

theorem sentWell_completionCheck (h : SentWell base s) : SentWell base (completionCheck s) := by
  rcases completionCheck_cases s with he | ⟨-, -, he⟩ | ⟨-, -, he⟩ | ⟨-, -, -, he⟩ <;> rw [he]
  · exact h
  · exact h.emitted_one rfl rfl trivial
  · exact h.emitted_one rfl rfl trivial
  · exact (sentWell_transmitNew h).emitted_one rfl rfl trivial

theorem sentWell_flush (h : SentWell base s) (ht : flush s = .next t) : SentWell base t := by
  unfold flush at ht
  split at ht
  · cases ht; exact h
  · exact sentWell_decodeLoop (s := drop1 s) (h.of_eq rfl rfl) ht

theorem sentWell_afterFlush (h : SentWell base s) : SentWell base (afterFlush s) := by
  have hrearm : SentWell base (rearmNak s) := h.of_eq rfl rfl
  have hresend : SentWell base (timeoutResend (rearmNak s)) := by
    rcases timeoutResend_cases (rearmNak s) with ⟨-, he⟩ | ⟨-, -, he⟩ | ⟨-, -, he⟩ | ⟨-, he⟩ <;> rw [he]
    · exact sentWell_requestSync hrearm
    · exact sentWell_transmitData hrearm _ _
    · exact sentWell_transmit (ty := .nak) (payload := []) hrearm rfl _ _ _ _
    · exact hrearm
  unfold afterFlush
  dsimp only
  split
  · exact hresend
  · exact sentWell_completionCheck hresend

theorem sentWell_stream (h : SentWell base s) {e : InEvent} (he : e.fromStream) (ht : handle e s = .next t) :
    SentWell base t := by
  have hcount : SentWell base (countTimeout s) := h.of_eq rfl rfl
  rcases e.fromStream_iff.mp he with ⟨chunk, rfl⟩ | rfl | rfl
  · obtain ⟨-, -, u, hu, rfl⟩ := rxBytes_eq_next ht
    exact sentWell_completionCheck (sentWell_feed h hu)
  · obtain ⟨-, ⟨-, rfl⟩ | ⟨-, u, hu, rfl⟩⟩ := rxTimeout_eq_next ht
    · exact sentWell_raiseFatal hcount _
    · exact sentWell_afterFlush (sentWell_flush hcount hu)
  · by_cases hp : s.pend = .none
    · exact absurd ((rxError_of_none hp).symm.trans ht) nofun
    · cases ((byteStreamErrorIsFatal s).1 hp).symm.trans ht
      exact sentWell_raiseFatal h _

/-! ### Commands -/

theorem sentWell_command (h : SentWell base s) {op : BitVec 4} {allowed : PState → Bool} {run : State → State}
    (hrun : allowed s.pstate = true → SentWell base (run s)) : SentWell base (command op allowed run s) := by
  rcases command_cases op allowed run s with ⟨-, he⟩ | ⟨-, -, he⟩ | ⟨-, ha, he⟩ <;> rw [he]
  · exact sentWell_respond h _ _
  · exact sentWell_respond h _ _
  · exact hrun ha

theorem sentWell_startOp (h : SentWell base s) (role : Bool) : SentWell base (startOp role s) := by
  cases role with
  | true => exact h.emitted_one rfl rfl (decodes_encodePacket (ty := .sync) rfl _)
  | false => exact h.of_eq rfl rfl

/-- SEND_DATA admits only a length that a packet may have (R205), and that is what the filled slot holds. -/
theorem sentWell_sendDataOp (hinv : Inv s) (hr : s.pstate = .ready) (h : SentWell base s) (eom : Bool)
    (lch rch : Channel) (len : BitVec 12) : SentWell base (sendDataOp eom lch rch len s) := by
  unfold sendDataOp
  split
  · exact sentWell_respond h _ _
  · rename_i hok
    have hfill := packetInv_fillSlot hinv hr (not_lt.mp (not_or.mp hok).2) eom lch rch
    exact sentWell_completionCheck ⟨hfill.length.1, h.out⟩

/-- SHUTDOWN transmits two CLOSE packets, takes `INUSE` from every slot and answers (R207). -/
theorem sentWell_shutdownOp (h : SentWell base s) : SentWell base (shutdownOp s) := by
  have hclose : ∀ {u : State}, SentWell base u → SentWell base (transmitClose u) := fun hu =>
    sentWell_transmit (ty := .close) (payload := []) hu rfl _ _ _ _
  have htwice : SentWell base
      (transmitClose (transmitClose { s with pstate := .closing, flags := { s.flags with closingF := true } })) :=
    hclose (hclose (h.of_eq rfl rfl))
  refine ⟨fun q => ?_, (sentWell_respond htwice 5 .ok).out⟩
  have hslot : (shutdownOp s).slot q = { s.slot q with inuse := false } := entryAt_map _ _ q
  rw [hslot]
  exact h.fits q

theorem sentWell_exec_command (hinv : Inv s) (h : SentWell base s) {i : Instr} (hi : isPacket i = false)
    (ht : exec i s = .next t) : SentWell base t := by
  cases i with
  | start role => cases ht; exact sentWell_command h fun _ => sentWell_startOp h role
  | getBuf => cases ht; exact sentWell_command h fun _ => h.emitted_one rfl rfl trivial
  | sendData eom lch rch len =>
    cases ht; exact sentWell_command h fun ha => sentWell_sendDataOp hinv (of_decide_eq_true ha) h eom lch rch len
  | wait => cases ht; exact sentWell_command h fun _ => h.of_eq rfl rfl
  | shutdown => cases ht; exact sentWell_command h fun _ => sentWell_shutdownOp h
  | file flag lch rch => cases ht; exact sentWell_command h fun _ => sentWell_respond h _ _
  | data _ _ => cases hi
  | sync _ _ _ => cases hi
  | ack _ => cases hi
  | nak _ => cases hi
  | close _ => cases hi

theorem sentWell_runCommand (hinv : Inv s) (h : SentWell base s) {w : Word} (ht : runCommand w s = .next t) :
    SentWell base t := by
  cases hw : decodeCommand w with
  | ok i =>
    rw [runCommand_of_ok hw] at ht
    exact sentWell_exec_command hinv h (decodeCommand_not_packet hw) ht
  | error e =>
    cases (handle_cmd_of_error hw s).symm.trans ht
    unfold illegalCommand
    dsimp only
    split
    · exact sentWell_respond h _ _
    · cases e <;> exact sentWell_respond h _ _

/-! ### The step -/

/-- A reset empties the slots and emits nothing (R340). -/
theorem sentWell_resetBlock (h : SentWell base s) : SentWell base (resetBlock s) :=
  ⟨(inv_resetBlock s).length.1, h.out⟩

theorem sentWell_csrWrite (h : SentWell base s) (addr : Nat) (v : Word) : SentWell base (csrWrite addr v s) := by
  have hconfig : ∀ legal c, SentWell base (writeConfig legal c s) := by
    intro legal c
    unfold writeConfig
    split <;> exact h.of_eq rfl rfl
  unfold csrWrite
  split
  · unfold writeCtrl
    split
    · exact sentWell_resetBlock h
    · split
      · exact h.of_eq rfl rfl
      · exact h
  case h_5 => exact h
  all_goals exact hconfig _ _

theorem sentWell_handle (hinv : Inv s) (h : SentWell base s) {e : InEvent} (ht : handle e s = .next t) :
    SentWell base t := by
  by_cases hstream : e.fromStream
  · exact sentWell_stream h hstream ht
  · cases e with
    | reset => cases ht; exact sentWell_resetBlock h
    | csrWrite addr v => cases ht; exact sentWell_csrWrite h addr v
    | csrRead addr => cases ht; exact h.emitted_one rfl rfl trivial
    | bufWrite addr b =>
      cases ht
      unfold bufWrite
      split <;> exact h.of_eq rfl rfl
    | cmd w => exact sentWell_runCommand hinv h ht
    | rxBytes chunk => exact absurd trivial hstream
    | rxTimeout => exact absurd trivial hstream
    | rxError => exact absurd trivial hstream

/-- Settles O60: the invariant bounds the slots' lengths, and every part of the step keeps `SentWell`. -/
theorem everyTransmissionDecodes : Obligations.EveryTransmissionDecodes := by
  intro s t hinv h
  have hstart : SentWell s.out s := ⟨hinv.length.1, [], (List.append_nil _).symm, nofun⟩
  have hend : SentWell s.out t := by
    rcases step_cases s with ⟨-, he⟩ | ⟨e, rest, -, he⟩
    · cases he.symm.trans h
      exact hstart
    · exact sentWell_handle (s := { s with inputs := rest }) { hinv with } (hstart.of_eq rfl rfl) (he.symm.trans h)
  obtain ⟨new, hout, hall⟩ := hend.out
  exact ⟨new, hout, fun bytes hbytes => hall _ (tx_mem_of_mem_transmissions hbytes)⟩

end

end Sys2Proof.Machine

/-! ## Proofs of the family 40_codec: the conditions of a good header, and one inverted bit is detected -/

namespace Sys2Proof

/-! ### The conditions of a good header -/

theorem PktType.ofCode_eq_some_iff {c : BitVec 3} {ty : PktType} : PktType.ofCode c = some ty ↔ c = ty.code := by
  refine ⟨fun h => ?_, fun h => h ▸ PktType.ofCode_code ty⟩
  revert c
  cases ty <;> decide

/-- The type a header names, in the arithmetic of R137. -/
theorem RawHeader.pktType_eq_some_iff {h : RawHeader} {ty : PktType} :
    h.pktType = some ty ↔ h.b3.toNat / 32 = ty.number := by
  have hcode : (h.b3.extractLsb' 5 3).toNat = h.b3.toNat / 32 := by
    rw [BitVec.extractLsb'_toNat, Nat.shiftRight_eq_div_pow]
    have := h.b3.isLt
    omega
  rw [RawHeader.pktType, PktType.ofCode_eq_some_iff, BitVec.toNat_eq, PktType.code_toNat, hcode]

/-- The length rule of R138 for a type code: the codes 0 to 4 are those of R93, each with its lengths (R95). -/
theorem exists_lenOk_iff (maxLen code len : Nat) :
    (∃ ty : PktType, code = ty.number ∧ lenOk maxLen ty len = true) ↔
      code ≤ 4 ∧ (2 ≤ code → len = 0) ∧ (code = 1 → len = 2) ∧ (code = 0 → len ≤ maxLen) := by
  constructor
  · rintro ⟨ty, rfl, hlen⟩
    cases ty <;> simpa [PktType.number, lenOk] using hlen
  · rintro ⟨hcode, hempty, hsync, hdata⟩
    interval_cases code
    · exact ⟨.data, rfl, decide_eq_true (hdata rfl)⟩
    · exact ⟨.sync, rfl, decide_eq_true (hsync rfl)⟩
    · exact ⟨.ack, rfl, decide_eq_true (hempty (by decide))⟩
    · exact ⟨.nak, rfl, decide_eq_true (hempty (by decide))⟩
    · exact ⟨.close, rfl, decide_eq_true (hempty (by decide))⟩

/-- Settles O7: `hdr_ok` by its parts (`RawHeader.ok_iff`), its type and length in the arithmetic of R137. -/
theorem headerOkConditions : Obligations.HeaderOkConditions := by
  intro maxLen h
  have hrule := exists_lenOk_iff maxLen (h.b3.toNat / 32) (h.b3.toNat % 16 * 256 + h.b4.toNat)
  simp only [Machine.RawHeader.ok_iff, RawHeader.pktType_eq_some_iff, RawHeader.len_toNat, hrule, and_assoc]
  rfl

/-! ### The checksum tells apart words that differ in one byte -/

/-- The bit shifted out of the register comes back as its top bit: the polynomial of R133 has that bit set. -/
theorem crcBit_top (c : Word) : (crcBit c).getLsbD 31 = c.getLsbD 0 := by
  unfold crcBit
  split
  · rename_i h
    rw [h, BitVec.getLsbD_xor, BitVec.getLsbD_ushiftRight, BitVec.getLsbD_of_ge c (1 + 31) (by decide)]
    decide
  · rename_i h
    rw [BitVec.getLsbD_ushiftRight, BitVec.getLsbD_of_ge c (1 + 31) (by decide)]
    exact (Bool.eq_false_iff.mpr h).symm

/-- One round of R133 loses nothing. -/
theorem crcBit_injective : Function.Injective crcBit := by
  intro c d h
  have hlow : c.getLsbD 0 = d.getLsbD 0 := by rw [← crcBit_top, h, crcBit_top]
  have hshift : c >>> 1 = d >>> 1 := by
    unfold crcBit at h
    rw [hlow] at h
    split at h
    · exact (BitVec.xor_left_inj _).mp h
    · exact h
  refine BitVec.eq_of_getLsbD_eq fun i _ => ?_
  cases i with
  | zero => exact hlow
  | succ i => simpa [Nat.add_comm] using congrArg (BitVec.getLsbD · i) hshift

theorem crcBits_injective (n : Nat) : Function.Injective (crcBits n) := by
  induction n with
  | zero => exact Function.injective_id
  | succ n ih => exact ih.comp crcBit_injective

theorem crcByte_injective_register (b : Byte) : Function.Injective fun c => crcByte c b :=
  fun _ _ h => (BitVec.xor_left_inj _).mp (crcBits_injective 8 h)

theorem crcByte_injective_byte (c : Word) : Function.Injective (crcByte c) := by
  intro a b h
  have hword : a.setWidth 32 = b.setWidth 32 := (BitVec.xor_right_inj _).mp (crcBits_injective 8 h)
  simpa using congrArg (BitVec.setWidth 8) hword

theorem crcFold_cons (b : Byte) (l : List Byte) (c : Word) : crcFold (b :: l) c = crcFold l (crcByte c b) := by
  rw [crcFold, withNumeral_eq]

theorem crcFold_injective_register (l : List Byte) : Function.Injective (crcFold l) := by
  induction l with
  | nil => exact Function.injective_id
  | cons b l ih =>
    intro c d h
    rw [crcFold_cons, crcFold_cons] at h
    exact crcByte_injective_register b (ih h)

theorem xor_ne_self {mask : Byte} (h : mask ≠ 0) (b : Byte) : b ^^^ mask ≠ b :=
  fun hb => h ((BitVec.xor_right_inj b).mp (hb.trans BitVec.xor_zero.symm))

/-- Inverting bits of one byte changes the register after that byte, and the later bytes keep the change. -/
theorem crcFold_modify_ne {mask : Byte} (hmask : mask ≠ 0) (l : List Byte) (c : Word) {k : Nat} (hk : k < l.length) :
    crcFold (l.modify k fun b => b ^^^ mask) c ≠ crcFold l c := by
  induction l generalizing c k with
  | nil => cases hk
  | cons b l ih =>
    cases k with
    | zero =>
      rw [List.modify_zero_cons, crcFold_cons, crcFold_cons]
      intro h
      have hbyte : b ^^^ mask = b := crcByte_injective_byte c (crcFold_injective_register l h)
      exact xor_ne_self hmask b hbyte
    | succ k =>
      rw [List.modify_succ_cons, crcFold_cons, crcFold_cons]
      exact ih _ (Nat.lt_of_succ_lt_succ hk)

theorem trailerBytes_injective : Function.Injective trailerBytes := by
  intro c d h
  have hc := (eq_trailerBytes_iff (trailerBytes_length c) c).mp rfl
  have hd := (eq_trailerBytes_iff (trailerBytes_length c) d).mp h
  exact BitVec.eq_of_toNat_eq (hc.symm.trans hd)

/-! ### One inverted bit -/

section

open Machine

@[simp] theorem flipBit_length (l : List Byte) (k j : Nat) : (flipBit l k j).length = l.length := List.length_modify ..

theorem flipBit_append_left {l : List Byte} {k : Nat} (hk : k < l.length) (m : List Byte) (j : Nat) :
    flipBit (l ++ m) k j = flipBit l k j ++ m := by
  unfold flipBit
  rw [List.modify_eq_take_cons_drop hk, List.modify_eq_take_cons_drop (by simp; omega), List.getElem_append_left hk,
    List.take_append_of_le_length hk.le, List.drop_append_of_le_length hk]
  simp

theorem flipBit_append_right {l : List Byte} {k : Nat} (hk : l.length ≤ k) (m : List Byte) (j : Nat) :
    flipBit (l ++ m) k j = l ++ flipBit m (k - l.length) j := by
  induction l generalizing k with
  | nil => rfl
  | cons b l ih =>
    obtain ⟨k, rfl⟩ : ∃ n, k = n + 1 := ⟨k - 1, by simp at hk; omega⟩
    rw [List.length_cons, Nat.add_sub_add_right]
    exact congrArg (b :: ·) (ih (Nat.le_of_succ_le_succ hk))

/-- A flip shows in the exclusive or of all bytes (R101). -/
theorem flipBit_ne {l : List Byte} {k j : Nat} (hk : k < l.length) (hj : j < 8) : flipBit l k j ≠ l := by
  intro h
  have hsum := foldl_xor_modify l 0 (1#8 <<< j) hk
  rw [← flipBit, h] at hsum
  exact xor_ne_self (one_shiftLeft_ne_zero hj) _ hsum.symm

/-- A flip in the payload changes the CRC (R133, R144). -/
theorem crc32_coveredBytes_flipBit_ne (raw : RawHeader) {payload : List Byte} {k j : Nat} (hk : k < payload.length)
    (hj : j < 8) : crc32 (coveredBytes raw (flipBit payload k j)) ≠ crc32 (coveredBytes raw payload) := by
  intro h
  have hfold := (BitVec.xor_left_inj _).mp h
  simp only [coveredBytes, crcFold_cons] at hfold
  exact crcFold_modify_ne (one_shiftLeft_ne_zero hj) payload _ hk hfold

/-- Six bytes are a header. -/
theorem exists_eq_bytes {l : List Byte} (h : l.length = 6) : ∃ raw : RawHeader, l = raw.bytes := by
  match l, h with
  | [b0, b1, b2, b3, b4, b5], _ => exact ⟨⟨b0, b1, b2, b3, b4, b5⟩, rfl⟩

/-- A flip in the lead-in makes it garbage, one in the rest of the header a malformed header (R101, R138, R144). -/
theorem decodeFrame_flipBit_header {maxLen : Nat} {raw : RawHeader} (hok : raw.ok maxLen = true) {k j : Nat}
    (hk : k < 6) (hj : j < 8) (body : List Byte) :
    decodeFrame maxLen (flipBit raw.bytes k j ++ body) = if k = 0 then .garbage else .malformedHeader := by
  obtain ⟨⟨hlead, hcheck⟩, -⟩ := (RawHeader.ok_iff maxLen raw).mp hok
  cases k with
  | zero =>
    have hne : raw.b0 ^^^ 1#8 <<< j ≠ Config.leadIn := hlead ▸ xor_ne_self (one_shiftLeft_ne_zero hj) _
    exact decodeFrame_of_garbage hne maxLen _
  | succ k =>
    obtain ⟨flipped, hflipped⟩ := exists_eq_bytes (l := flipBit raw.bytes (k + 1) j) (by simp)
    have hlead' : flipped.b0 = Config.leadIn := (List.cons.inj hflipped).1.symm.trans hlead
    have hsum := ((checkByteDetectsOneFlip raw).2 hcheck).2 (k + 1) j hk hj
    have hbad : flipped.ok maxLen = false := by
      rw [Bool.eq_false_iff]
      intro hok'
      obtain ⟨⟨-, hcheck'⟩, -⟩ := (RawHeader.ok_iff maxLen flipped).mp hok'
      exact hsum (hflipped ▸ ((checkByteDetectsOneFlip flipped).2 hcheck').1)
    rw [hflipped, decodeFrame_header hlead', decodeBody_of_not_ok hbad]
    rfl

/-- A flip behind the header leaves a payload and a trailer that do not belong together: in the payload it changes the
CRC called for, in the trailer the one given (R132, R144). -/
theorem exists_flipBit_body (raw : RawHeader) (payload : List Byte) {k j : Nat} (hk : k < payload.length + 4)
    (hj : j < 8) :
    ∃ payload' trailer',
      flipBit (payload ++ trailerBytes (crc32 (coveredBytes raw payload))) k j = payload' ++ trailer' ∧
        payload'.length = payload.length ∧ trailer'.length = 4 ∧
        trailer' ≠ trailerBytes (crc32 (coveredBytes raw payload')) := by
  by_cases hpayload : k < payload.length
  · refine ⟨_, _, flipBit_append_left hpayload _ j, flipBit_length .., trailerBytes_length _, fun h => ?_⟩
    exact crc32_coveredBytes_flipBit_ne raw hpayload hj (trailerBytes_injective h).symm
  · refine ⟨_, _, flipBit_append_right (not_lt.mp hpayload) _ j, rfl, by simp, ?_⟩
    exact flipBit_ne (by rw [trailerBytes_length]; omega) hj

/-- Settles O8: the check byte sees a flip in the header, the CRC one behind it. -/
theorem everySingleFlipIsDetected : Obligations.EverySingleFlipIsDetected := by
  intro maxLen i bytes rest k j hwf hfits he hk hj
  obtain ⟨ty, h, payload, rfl, -, hmax, hlen⟩ := encode_eq_packet hwf hfits he
  rw [encodePacket_length] at hk
  rw [encodePacket_eq]
  have hfield := lenField_toNat hmax
  generalize hraw : encodeHeader ty h (BitVec.ofNat 12 payload.length) = raw
  have hok : raw.ok maxLen = true := hraw ▸ encodeHeader_ok (by rwa [hfield]) h
  have hrawLen : raw.len.toNat = payload.length := by rw [← hraw, encodeHeader_len, hfield]
  by_cases hheader : k < 6
  · rw [flipBit_append_left (by simpa using hheader), List.append_assoc, decodeFrame_flipBit_header hok hheader hj,
      if_pos hheader]
  · obtain ⟨payload', trailer', hbody, hpayload, htrailer, hne⟩ :=
      exists_flipBit_body raw payload (k := k - 6) (by omega) hj
    rw [flipBit_append_right (by simpa using hheader), List.append_assoc, RawHeader.bytes_length, hbody,
      decodeFrame_header (by rw [← hraw]; rfl), if_neg (by omega), if_neg hheader]
    exact (decodeBody_eq_mismatch_iff hok (hpayload.trans hrawLen.symm) htrailer rest).mpr hne

end

end Sys2Proof

/-! ## Proofs of the family 41_window: acks, rejects, retransmissions, and what a received packet does -/

namespace Sys2Proof.Machine

open Sys2Proof

section

variable {s : State}

/-! ### Sums -/

theorem seqSucc_add (q : SeqNum) (i : Nat) : seqSucc q + BitVec.ofNat 5 i = q + BitVec.ofNat 5 (i + 1) := by
  rw [BitVec.ofNat_add, add_comm (BitVec.ofNat 5 i), ← add_assoc]
  rfl

theorem satAdd_add (m n : Nat) (x : BitVec 32) : satAdd n (satAdd m x) = satAdd (m + n) x := by
  induction m generalizing x with
  | zero => rw [Nat.zero_add]; rfl
  | succ m ih => rw [Nat.succ_add]; exact ih (satInc x)

/-! ### What an ack leaves alone -/

/-- An ack writes the slots' `INUSE`, `LAST_ACKED`, `NEXT_RETX`, `REJ_SEEN`, `CAUTIOUS`, `RETRY` and the outputs, and
nothing else (R165, R166). -/
theorem onAck_eq (a : SeqNum) (s : State) :
    (onAck a s).2 =
      { s with
        slots := (onAck a s).2.slots
        win :=
          { s.win with
            lastAcked := (onAck a s).2.win.lastAcked, nextRetx := (onAck a s).2.win.nextRetx }
        flags :=
          { s.flags with
            rejSeen := (onAck a s).2.flags.rejSeen, cautious := (onAck a s).2.flags.cautious }
        counters := { s.counters with retry := (onAck a s).2.counters.retry }
        out := (onAck a s).2.out } := by
  rcases onAck_cases a s with ⟨-, he⟩ | ⟨-, he⟩ <;> rw [he]
  unfold rotationEvent
  split <;> rfl

@[simp] theorem onAck_nextSeq (a : SeqNum) (s : State) : (onAck a s).2.win.nextSeq = s.win.nextSeq :=
  congrArg (·.win.nextSeq) (onAck_eq a s)
@[simp] theorem onAck_lastRecv (a : SeqNum) (s : State) : (onAck a s).2.win.lastRecv = s.win.lastRecv :=
  congrArg (·.win.lastRecv) (onAck_eq a s)
@[simp] theorem onAck_lastAckSent (a : SeqNum) (s : State) : (onAck a s).2.win.lastAckSent = s.win.lastAckSent :=
  congrArg (·.win.lastAckSent) (onAck_eq a s)
@[simp] theorem onAck_cautionSeq (a : SeqNum) (s : State) : (onAck a s).2.win.cautionSeq = s.win.cautionSeq :=
  congrArg (·.win.cautionSeq) (onAck_eq a s)
@[simp] theorem onAck_nakedSeq (a : SeqNum) (s : State) : (onAck a s).2.win.nakedSeq = s.win.nakedSeq :=
  congrArg (·.win.nakedSeq) (onAck_eq a s)
@[simp] theorem onAck_ackPending (a : SeqNum) (s : State) : (onAck a s).2.flags.ackPending = s.flags.ackPending :=
  congrArg (·.flags.ackPending) (onAck_eq a s)
@[simp] theorem onAck_nakedValid (a : SeqNum) (s : State) : (onAck a s).2.flags.nakedValid = s.flags.nakedValid :=
  congrArg (·.flags.nakedValid) (onAck_eq a s)
@[simp] theorem onAck_eomSeen (a : SeqNum) (s : State) : (onAck a s).2.flags.eomSeen = s.flags.eomSeen :=
  congrArg (·.flags.eomSeen) (onAck_eq a s)
@[simp] theorem onAck_sizes (a : SeqNum) (s : State) : (onAck a s).2.sizes = s.sizes := by rw [onAck_eq]
@[simp] theorem onAck_cfg (a : SeqNum) (s : State) : (onAck a s).2.cfg = s.cfg := by rw [onAck_eq]
@[simp] theorem onAck_stats (a : SeqNum) (s : State) : (onAck a s).2.stats = s.stats := by rw [onAck_eq]
@[simp] theorem onAck_reord (a : SeqNum) (s : State) : (onAck a s).2.reord = s.reord := by rw [onAck_eq]

theorem onAck_slotByte (a : SeqNum) (s : State) (b : Nat) : (onAck a s).2.slotByte b = s.slotByte b := by
  rw [onAck_eq]; rfl

theorem onAck_reordByte (a : SeqNum) (s : State) (b : Nat) : (onAck a s).2.reordByte b = s.reordByte b := by
  rw [onAck_eq]; rfl

theorem onAck_reordAt (a : SeqNum) (s : State) (q : SeqNum) : (onAck a s).2.reordAt q = s.reordAt q := by
  rw [onAck_eq]; rfl

theorem onAck_reordPayload (a : SeqNum) (s : State) (q : SeqNum) :
    (onAck a s).2.reordPayload q = s.reordPayload q := by
  rw [onAck_eq]; rfl

/-- A slot that loses only `INUSE` is sent again as before (R136). -/
theorem onAck_dataImage (a : SeqNum) (s : State) (q : SeqNum) : (onAck a s).2.dataImage q = s.dataImage q := by
  obtain ⟨hlch, hrch, heom, hlen⟩ := (SlotRec.content_eq_iff _ _).mp ((streamFrame_onAck a s).content q)
  unfold State.dataImage
  rw [hlch, hrch, heom, onAck_lastRecv, slotPayload_congr hlen fun i _ => onAck_slotByte a s _]

theorem onAck_of_outstanding {a : SeqNum} (h : s.win.isOutstanding a) :
    onAck a s = (true, advanceAcked a (rotationEvent a s)) :=
  if_pos ((WindowRegs.ackValid_iff _ _).mpr h)

theorem onAck_of_not_outstanding {a : SeqNum} (h : ¬s.win.isOutstanding a) : onAck a s = (false, s) :=
  if_neg (mt (WindowRegs.ackValid_iff _ _).mp h)

theorem onAck_lastAcked_of_outstanding {a : SeqNum} (h : s.win.isOutstanding a) :
    (onAck a s).2.win.lastAcked = a := by rw [onAck_of_outstanding h]; rfl

/-- No packet is outstanding at the distance 0. -/
theorem not_isOutstanding_lastAcked (w : WindowRegs) : ¬w.isOutstanding w.lastAcked := fun h => h.1 (dist_self _)

/-- Where nothing was queued for retransmission, nothing is after an ack (R165): `NEXT_SEQ` lies behind every
outstanding packet. -/
theorem onAck_nextRetx_of_none (a : SeqNum) (hretx : s.win.nextRetx = s.win.nextSeq) (h16 : s.win.outstanding ≤ 16) :
    (onAck a s).2.win.nextRetx = s.win.nextSeq := by
  by_cases ho : s.win.isOutstanding a
  · rw [onAck_of_outstanding ho, advanceAcked_win, rotationEvent_win, hretx]
    refine if_neg fun hle => not_isOutstanding_nextSeq h16 ⟨?_, BitVec.le_trans hle ho.2⟩
    unfold WindowRegs.outstanding dist seqPred at *
    bv_omega
  · rw [onAck_of_not_outstanding ho, hretx]

/-- Up to what is outstanding, an ack leaves `LAST_ACKED` at its value (R165). -/
theorem onAck_lastAcked_of_within {a : SeqNum} (h : dist a s.win.lastAcked ≤ s.win.outstanding) :
    (onAck a s).2.win.lastAcked = a := by
  by_cases hzero : dist a s.win.lastAcked = 0
  · rw [onAck_of_not_outstanding fun ho => ho.1 hzero]
    exact (dist_eq_zero.mp hzero).symm
  · exact onAck_lastAcked_of_outstanding ⟨hzero, h⟩

/-- The packets an ack leaves outstanding (R165). -/
theorem onAck_outstanding_of_within {a : SeqNum} (h : dist a s.win.lastAcked ≤ s.win.outstanding) :
    (onAck a s).2.win.outstanding = s.win.outstanding - dist a s.win.lastAcked := by
  unfold WindowRegs.outstanding
  rw [onAck_lastAcked_of_within h, onAck_nextSeq]
  unfold dist
  bv_omega

/-- What the ack adds to the outputs (R166). -/
theorem onAck_out (a : SeqNum) (s : State) :
    (onAck a s).2.out =
      s.out ++ if s.win.isOutstanding a ∧ a.toNat < s.win.lastAcked.toNat then [.evt (.windowAcked a)] else [] := by
  by_cases ho : s.win.isOutstanding a
  · rw [((ackApplied_onAck a s).1 ho).2]
    simp only [and_iff_right ho]
  · rw [onAck_of_not_outstanding ho, if_neg fun hc => ho hc.1, List.append_nil]

theorem onAck_retry (a : SeqNum) (s : State) :
    (onAck a s).2.counters.retry = if s.win.isOutstanding a then 0 else s.counters.retry := by
  by_cases ho : s.win.isOutstanding a
  · rw [onAck_of_outstanding ho, if_pos ho]; rfl
  · rw [onAck_of_not_outstanding ho, if_neg ho]

theorem onAck_slot (a : SeqNum) (s : State) (q : SeqNum) :
    (onAck a s).2.slot q =
      if s.win.isOutstanding a ∧ dist q s.win.lastAcked ≠ 0 ∧ dist q s.win.lastAcked ≤ dist a s.win.lastAcked then
        { s.slot q with inuse := false }
      else s.slot q := by
  by_cases ho : s.win.isOutstanding a
  · rw [((ackApplied_onAck a s).1 ho).1 q]
    simp only [and_iff_right ho]
  · rw [onAck_of_not_outstanding ho, if_neg fun hc => ho hc.1]

/-! ### A packet counted as good -/

/-- The state `u` with the good-packet counters of a packet accepted in state `s` (R313). -/
def State.counted (s u : State) : State :=
  { u with
    counters := { (goodPacket s).counters with retry := u.counters.retry }
    stats := { u.stats with rx := satInc s.stats.rx } }

theorem goodPacket_eq_counted (s : State) : goodPacket s = s.counted s := by
  unfold State.counted goodPacket
  dsimp only
  split <;> rfl

/-- The ack of a packet is applied as if the packet were not counted (R230, R231). -/
theorem onAck_goodPacket (a : SeqNum) (s : State) :
    onAck a (goodPacket s) = ((onAck a s).1, s.counted (onAck a s).2) := by
  rw [goodPacket_eq_counted]
  by_cases h : s.win.isOutstanding a
  · rw [onAck_of_outstanding h, onAck_of_outstanding (s := s.counted s) h]
    unfold rotationEvent
    by_cases hlt : a < s.win.lastAcked
    · rw [if_pos hlt, if_pos (show a < (s.counted s).win.lastAcked from hlt)]; rfl
    · rw [if_neg hlt, if_neg (show ¬a < (s.counted s).win.lastAcked from hlt)]; rfl
  · rw [onAck_of_not_outstanding h, onAck_of_not_outstanding (s := s.counted s) h]

theorem acceptNumbered_of_ready (hr : s.pstate = .ready) (ack : SeqNum) (own : Bool → State → State) :
    acceptNumbered ack own s = serviceIfReady (own (onAck ack s).1 (s.counted (onAck ack s).2)) := by
  unfold acceptNumbered
  rw [hr, onAck_goodPacket]

theorem serviceIfReady_of_ready (hr : s.pstate = .ready) : serviceIfReady s = service s := if_pos hr

/-- A DATA packet in `READY` (R231, R232). -/
theorem exec_data_of_ready (hr : s.pstate = .ready) (h : Hdr) (p : List Byte) :
    exec (.data h p) s =
      .next (service (onData h.seq h.lch h.rch h.f p (s.counted (onAck h.ack s).2))) := by
  have hready : (onData h.seq h.lch h.rch h.f p (s.counted (onAck h.ack s).2)).pstate = .ready := by
    rw [onData_pstate]; exact (onAck_pstate _ _).trans hr
  rw [← serviceIfReady_of_ready hready, ← acceptNumbered_of_ready hr h.ack fun _ t => onData h.seq h.lch h.rch h.f p t]
  rfl

/-- An ACK packet in `READY` (R231, R235). -/
theorem exec_ack_of_ready (hr : s.pstate = .ready) (h : Hdr) :
    exec (.ack h) s =
      .next (service (ackPacket h.ack (onAck h.ack s).1 (s.counted (onAck h.ack s).2))) := by
  have hready : (ackPacket h.ack (onAck h.ack s).1 (s.counted (onAck h.ack s).2)).pstate = .ready := by
    rw [ackPacket_pstate]; exact (onAck_pstate _ _).trans hr
  rw [← serviceIfReady_of_ready hready, ← acceptNumbered_of_ready hr h.ack fun advanced t => ackPacket h.ack advanced t]
  rfl

/-- A NAK packet in `READY` (R231, R236). -/
theorem exec_nak_of_ready (hr : s.pstate = .ready) (h : Hdr) :
    exec (.nak h) s = .next (service (onReject (h.seq - 1) (s.counted (onAck h.ack s).2))) := by
  have hready : (onReject (h.seq - 1) (s.counted (onAck h.ack s).2)).pstate = .ready := by
    rw [onReject_pstate]; exact (onAck_pstate _ _).trans hr
  rw [← serviceIfReady_of_ready hready,
    ← acceptNumbered_of_ready hr h.ack fun _ t => onReject (h.seq - 1) t]
  rfl

/-- An ack that has advanced is no duplicate (R173). -/
theorem ackPacket_of_advanced (ack : SeqNum) (s : State) : ackPacket ack true s = s := by
  unfold ackPacket; simp

/-! ### The service step as a whole -/

/-- How many packets `pump_retx` sends again (R268, R170): those from `NEXT_RETX` up to `NEXT_SEQ - 1`, and in cautious
mode none further than `RESEND_AHEAD` past `CAUTION_SEQ`. -/
def State.retxCount (s : State) : Nat :=
  if s.flags.cautious = true then
    min (dist s.win.nextSeq s.win.nextRetx).toNat
      (s.cfg.resendAhead.toNat + 1 - (dist s.win.nextRetx s.win.cautionSeq).toNat)
  else (dist s.win.nextSeq s.win.nextRetx).toNat

theorem State.retxCount_eq_zero_iff (s : State) :
    s.retxCount = 0 ↔ ¬(s.win.nextRetx ≠ s.win.nextSeq ∧ s.txAllowed s.win.nextRetx = true) := by
  have hzero : (dist s.win.nextSeq s.win.nextRetx).toNat = 0 ↔ s.win.nextRetx = s.win.nextSeq := by
    rw [eq_comm (a := s.win.nextRetx), ← dist_eq_zero]
    exact BitVec.toNat_inj (y := (0 : SeqNum))
  unfold State.retxCount State.txAllowed
  cases s.flags.cautious
  · simp [hzero]
  · simp only [if_true, Bool.not_true, Bool.false_or, decide_eq_true_eq, Nat.min_eq_zero_iff, hzero]
    by_cases hq : s.win.nextRetx = s.win.nextSeq
    · simp [hq]
    · simp only [hq, false_or, ne_eq, not_false_eq_true, true_and]; omega

theorem State.retxCount_pumpOne (hne : s.win.nextRetx ≠ s.win.nextSeq) (hallowed : s.txAllowed s.win.nextRetx = true) :
    (pumpOne s).retxCount + 1 = s.retxCount := by
  have hsub : (dist s.win.nextSeq (seqSucc s.win.nextRetx)).toNat + 1 = (dist s.win.nextSeq s.win.nextRetx).toNat := by
    unfold dist seqSucc; bv_omega
  unfold State.txAllowed at hallowed
  unfold State.retxCount
  rw [pumpOne_win, pumpOne_flags, pumpOne_cfg]
  dsimp only
  cases hc : s.flags.cautious
  · simpa using hsub
  · have hle : (dist s.win.nextRetx s.win.cautionSeq).toNat ≤ s.cfg.resendAhead.toNat := by simpa [hc] using hallowed
    have hahead := s.cfg.resendAhead.isLt
    have hadd : (dist (seqSucc s.win.nextRetx) s.win.cautionSeq).toNat =
        (dist s.win.nextRetx s.win.cautionSeq).toNat + 1 := by
      rw [dist_succ_left, BitVec.toNat_add]
      exact Nat.mod_eq_of_lt (by change _ + 1 < 32; omega)
    simp only [if_true, hadd]
    omega

theorem State.retxCount_lt (s : State) : s.retxCount < 32 := by
  have := (dist s.win.nextSeq s.win.nextRetx).isLt
  unfold State.retxCount
  split <;> omega

/-- `pump_retx` sends `retxCount` packets again, in order, each with the current `LAST_RECV` (R268). -/
theorem pumpRetx_eq {n m : Nat} (hm : s.retxCount = m) (hn : m ≤ n) :
    pumpRetx n s =
      { s with
        win :=
          { s.win with
            nextRetx := s.win.nextRetx + BitVec.ofNat 5 m
            lastAckSent := if m = 0 then s.win.lastAckSent else s.win.lastRecv }
        flags := { s.flags with ackPending := s.flags.ackPending && decide (m = 0) }
        stats := { s.stats with tx := satAdd m s.stats.tx, retx := satAdd m s.stats.retx }
        out := s.out ++ (List.range m).map fun i => .tx (s.dataImage (s.win.nextRetx + BitVec.ofNat 5 i)) } := by
  induction m generalizing n s with
  | zero =>
    have hstop := s.retxCount_eq_zero_iff.mp hm
    have hstay : pumpRetx n s = s := by
      cases n with
      | zero => rfl
      | succ n => exact if_neg hstop
    rw [hstay]
    simp [satAdd]
  | succ m ih =>
    obtain ⟨n, rfl⟩ : ∃ k, n = k + 1 := ⟨n - 1, by omega⟩
    have hgo : s.win.nextRetx ≠ s.win.nextSeq ∧ s.txAllowed s.win.nextRetx = true := by
      by_contra hstop
      rw [s.retxCount_eq_zero_iff.mpr hstop] at hm
      omega
    have hround : pumpRetx (n + 1) s = pumpRetx n (pumpOne s) := if_pos hgo
    have hcount : (pumpOne s).retxCount = m := by
      have := State.retxCount_pumpOne hgo.1 hgo.2
      omega
    have himage (q : SeqNum) : (pumpOne s).dataImage q = s.dataImage q := rfl
    rw [hround, ih hcount (by omega)]
    simp [himage, seqSucc_add, satAdd, List.range_succ_eq_map, Function.comp_def]

/-- A NAK for `LAST_RECV + 1` is due (R264): a gap is open and not asked for. -/
def State.asksGap (s : State) : Bool := s.gap && !decide s.gapAsked

theorem State.asksGap_iff (s : State) :
    s.asksGap = true ↔ (∃ q, (s.reordAt q).valid = true) ∧ ¬s.gapAsked := by
  rw [← s.gap_eq_true, State.asksGap, Bool.and_eq_true, Bool.not_eq_true', decide_eq_false_iff_not]

theorem State.asksGap_of_no_gap (h : ∀ q, (s.reordAt q).valid = false) : s.asksGap = false := by
  rw [State.asksGap, s.gap_eq_false.mpr h, Bool.false_and]

/-- `gap_nak` asks for the packet after `LAST_RECV`, or does nothing (R264). -/
theorem gapNak_eq {asks : Bool} (h : s.asksGap = asks) :
    gapNak s =
      { s with
        win :=
          { s.win with
            lastAckSent := if asks = true then s.win.lastRecv else s.win.lastAckSent
            nakedSeq := if asks = true then s.win.lastRecv + 1 else s.win.nakedSeq }
        flags :=
          { s.flags with
            ackPending := s.flags.ackPending && !asks, nakedValid := s.flags.nakedValid || asks }
        stats := { s.stats with tx := satAdd asks.toNat s.stats.tx }
        out :=
          s.out ++ if asks = true then [.tx (controlImage .nak (s.win.lastRecv + 1) s.win.lastRecv)] else [] } := by
  have hcond : (s.gap = true ∧ ¬(s.flags.nakedValid = true ∧ s.win.nakedSeq = seqSucc s.win.lastRecv)) ↔
      asks = true := by
    rw [← h, s.asksGap_iff, s.gap_eq_true]
    rfl
  unfold gapNak
  cases asks
  · exact (if_neg (mt hcond.mp nofun)).trans (by simp [satAdd])
  · exact (if_pos (hcond.mpr rfl)).trans (by simp [satAdd, seqSucc])

/-- The explicit ACK goes out exactly if one is still owed (R265). -/
theorem explicitAck_eq {owed : Bool} (h : s.flags.ackPending = owed) :
    explicitAck s =
      { s with
        win := { s.win with lastAckSent := if owed = true then s.win.lastRecv else s.win.lastAckSent }
        flags := { s.flags with ackPending := false }
        stats := { s.stats with tx := satAdd owed.toNat s.stats.tx }
        out := s.out ++ if owed = true then [.tx (controlImage .ack 0 s.win.lastRecv)] else [] } := by
  cases owed
  · have hflags : { s.flags with ackPending := false } = s.flags := by rw [← h]
    rw [explicitAck_of_none h, hflags]
    simp [satAdd]
  · exact if_pos h

/-- `service` as a whole (R263 to R268): `m` retransmissions, a NAK where `asks`, and an ACK where one was owed and
neither of them carried it. -/
theorem service_eq {m : Nat} {asks : Bool} (hm : s.retxCount = m) (hasks : s.asksGap = asks) :
    service s =
      { s with
        win :=
          { s.win with
            nextRetx := s.win.nextRetx + BitVec.ofNat 5 m
            lastAckSent :=
              if m ≠ 0 ∨ asks = true ∨ s.flags.ackPending = true then s.win.lastRecv else s.win.lastAckSent
            nakedSeq := if asks = true then s.win.lastRecv + 1 else s.win.nakedSeq }
        flags := { s.flags with ackPending := false, nakedValid := s.flags.nakedValid || asks }
        stats :=
          { s.stats with
            tx := satAdd (m + asks.toNat + (s.flags.ackPending && decide (m = 0) && !asks).toNat) s.stats.tx
            retx := satAdd m s.stats.retx }
        out :=
          s.out ++ ((List.range m).map fun i => .tx (s.dataImage (s.win.nextRetx + BitVec.ofNat 5 i))) ++
            (if asks = true then [.tx (controlImage .nak (s.win.lastRecv + 1) s.win.lastRecv)] else []) ++
            if (s.flags.ackPending && decide (m = 0) && !asks) = true then [.tx (controlImage .ack 0 s.win.lastRecv)]
            else [] } := by
  have hpump := pumpRetx_eq hm (hm ▸ s.retxCount_lt.le : m ≤ 32)
  have hgap := gapNak_eq (s := pumpRetx 32 s) (asks := asks) (by rw [hpump]; exact hasks)
  have hack := explicitAck_eq (s := gapNak (pumpRetx 32 s))
    (owed := s.flags.ackPending && decide (m = 0) && !asks) (by rw [hgap, hpump])
  unfold service
  rw [hack, hgap, hpump]
  simp only [satAdd_add, List.append_assoc]
  have hsent : (if (s.flags.ackPending && decide (m = 0) && !asks) = true then s.win.lastRecv
      else if asks = true then s.win.lastRecv
      else if m = 0 then s.win.lastAckSent else s.win.lastRecv) =
      if m ≠ 0 ∨ asks = true ∨ s.flags.ackPending = true then s.win.lastRecv else s.win.lastAckSent := by
    grind
  rw [hsent]

end

end Sys2Proof.Machine

namespace Sys2Proof.Machine

open Sys2Proof

/-! ### Distances and the send window -/

/-- Settles O1: distances are differences modulo 32. -/
theorem distancesAddToModulus : Obligations.DistancesAddToModulus := by
  intro a b
  unfold dist
  refine ⟨?_, fun hne => ?_, fun heq => ?_⟩
  · rw [BitVec.toNat_sub]; omega
  · bv_omega
  · simp [heq]

section

variable {s : State}

theorem WindowRegs.outstanding_toNat (w : WindowRegs) :
    w.outstanding.toNat = (w.nextSeq.toNat + 63 - w.lastAcked.toNat) % 32 := by
  unfold WindowRegs.outstanding dist seqPred
  bv_omega

/-- `NEXT_SEQ` lies one packet behind the last outstanding one (R163). -/
theorem WindowRegs.dist_nextSeq {w : WindowRegs} (h16 : w.outstanding.toNat ≤ 16) :
    (dist w.nextSeq w.lastAcked).toNat = w.outstanding.toNat + 1 := by
  rw [← w.outstanding_add_one, BitVec.toNat_add]
  exact Nat.mod_eq_of_lt (by change _ + 1 < 32; omega)

theorem State.canSend_iff (s : State) :
    s.canSend = true ↔ (dist s.win.nextSeq s.win.lastAcked).toNat ≤ s.sizes.rwin.toNat := decide_eq_true_iff

theorem State.txAllowed_iff (s : State) (q : SeqNum) :
    s.txAllowed q = true ↔
      s.flags.cautious = false ∨ (dist q s.win.cautionSeq).toNat ≤ (s.cfg.cfg0.extractLsb' 17 2).toNat := by
  rw [State.txAllowed, Bool.or_eq_true, Bool.not_eq_true', decide_eq_true_iff]
  rfl

theorem State.sendReady_iff (s : State) :
    s.sendReady = true ↔
      s.canSend = true ∧ s.win.nextRetx = s.win.nextSeq ∧ s.txAllowed s.win.nextSeq = true := by
  simp [State.sendReady, and_assoc]

/-- Settles O2: each condition read off its registers. -/
theorem canSendExactlyBelowWindow : Obligations.CanSendExactlyBelowWindow := by
  refine ⟨WindowRegs.outstanding_toNat, fun s h16 => ?_, State.txAllowed_iff, fun s => ?_⟩
  · have hdist := WindowRegs.dist_nextSeq h16
    refine ⟨s.canSend_iff, hdist, ?_⟩
    rw [s.canSend_iff, hdist]
    exact Nat.succ_le_iff
  · rw [s.sendReady_iff, s.canSend_iff, s.txAllowed_iff]

/-! ### ACK packets -/

theorem State.quiet_counted (h : s.quiet) : (s.counted s).quiet := h

/-- An ACK that names nothing outstanding only counts, or starts a retransmission (R173, R235). -/
theorem exec_ack_of_not_outstanding (hr : s.pstate = .ready) {h : Hdr} (ho : ¬s.win.isOutstanding h.ack) :
    exec (.ack h) s = .next (service (ackPacket h.ack false (s.counted s))) := by
  rw [exec_ack_of_ready hr, onAck_of_not_outstanding ho]

/-- An ACK of an outstanding packet is applied, and no duplicate (R165, R173). -/
theorem exec_ack_of_outstanding (hr : s.pstate = .ready) {h : Hdr} (ho : s.win.isOutstanding h.ack) :
    exec (.ack h) s = .next (service (s.counted (onAck h.ack s).2)) := by
  rw [exec_ack_of_ready hr, show (onAck h.ack s).1 = true by rw [onAck_of_outstanding ho], ackPacket_of_advanced]

/-- Settles O35: neither the ack nor the heuristic applies, and `service` finds nothing to send. -/
theorem ackOfNothingOutstandingIsIgnored : Obligations.AckOfNothingOutstandingIsIgnored := by
  intro h s hr hquiet ho hdup
  have hpacket : ackPacket h.ack false (s.counted s) = s.counted s :=
    if_neg fun hcond => hdup ⟨hcond.1, hcond.2.2⟩
  rw [exec_ack_of_not_outstanding hr ho, hpacket, service_of_quiet (State.quiet_counted hquiet), goodPacket_eq_counted]

/-- Settles O33: the ack as `onAck` applies it, then `service`. -/
theorem ackReleasesAcknowledgedSlots : Obligations.AckReleasesAcknowledgedSlots := by
  intro h s hr howed ho
  refine ⟨_, ackApplied_onAck h.ack s, fun m asks hm hasks => ?_⟩
  have hcount : (s.counted (onAck h.ack s).2).retxCount = m := by
    rw [hm, ← onAck_nextSeq h.ack s, ← onAck_cautionSeq h.ack s, ← onAck_cfg h.ack s]; rfl
  have hgap : (s.counted (onAck h.ack s).2).asksGap = asks := by
    rw [Bool.eq_iff_iff, hasks, State.asksGap_iff]
    simp [State.counted, State.gapAsked, State.reordAt]
  have hretry : (onAck h.ack s).2.counters.retry = 0 := by rw [onAck_of_outstanding ho]; rfl
  have himage (q : SeqNum) : (s.counted (onAck h.ack s).2).dataImage q = s.dataImage q := onAck_dataImage h.ack s q
  rw [exec_ack_of_outstanding hr ho, service_eq hcount hgap]
  simp only [himage]
  simp [State.counted, howed, hretry]

/-- `on_ack` applied twice advances once (R167). -/
theorem onAck_onAck (a : SeqNum) (s : State) : onAck a (onAck a s).2 = (false, (onAck a s).2) := by
  refine onAck_of_not_outstanding ?_
  by_cases ho : s.win.isOutstanding a
  · have hne := not_isOutstanding_lastAcked (onAck a s).2.win
    rwa [onAck_lastAcked_of_outstanding ho] at hne
  · rwa [onAck_of_not_outstanding ho]

/-- The part of the window and of the slots that no retransmission and no NAK touches. -/
theorem service_slots (s : State) :
    (service s).slots = s.slots ∧ (service s).win.lastAcked = s.win.lastAcked ∧
      (service s).win.nextSeq = s.win.nextSeq := by
  rw [service_eq rfl rfl]
  exact ⟨rfl, rfl, rfl⟩

/-- The duplicate-ACK heuristic releases nothing (R173). -/
theorem ackPacket_slots (ack : SeqNum) (advanced : Bool) (s : State) :
    (ackPacket ack advanced s).slots = s.slots ∧ (ackPacket ack advanced s).win.lastAcked = s.win.lastAcked ∧
      (ackPacket ack advanced s).win.nextSeq = s.win.nextSeq := by
  unfold ackPacket
  split
  · have hself : onAck s.win.lastAcked s = (false, s) := onAck_of_not_outstanding (not_isOutstanding_lastAcked _)
    rcases onReject_cases s.win.lastAcked s with he | he | ⟨-, he⟩ | ⟨-, he⟩ <;> simp [he, hself]
  · exact ⟨rfl, rfl, rfl⟩

/-- An ACK packet that names nothing outstanding releases nothing (R167). -/
theorem exec_ack_keeps_slots (hr : s.pstate = .ready) {h : Hdr} (ho : ¬s.win.isOutstanding h.ack) :
    ∃ t, exec (.ack h) s = .next t ∧ t.pstate = .ready ∧ t.slots = s.slots ∧ t.win.lastAcked = s.win.lastAcked ∧
      t.win.nextSeq = s.win.nextSeq := by
  obtain ⟨hslots, hacked, hnext⟩ := service_slots (ackPacket h.ack false (s.counted s))
  obtain ⟨hslots', hacked', hnext'⟩ := ackPacket_slots h.ack false (s.counted s)
  refine ⟨_, exec_ack_of_not_outstanding hr ho, ?_, hslots.trans hslots', hacked.trans hacked', hnext.trans hnext'⟩
  rw [(service_same _).2, ackPacket_pstate]
  exact hr

/-- Settles O34: after an ACK packet its ack names nothing outstanding, so a second one releases nothing. -/
theorem repeatedAckReleasesNothing : Obligations.RepeatedAckReleasesNothing := by
  refine ⟨fun a s _ => onAck_onAck a s, fun h s t hr ht => ?_⟩
  have hsecond : t.pstate = .ready ∧ ¬t.win.isOutstanding h.ack := by
    by_cases ho : s.win.isOutstanding h.ack
    · rw [exec_ack_of_outstanding hr ho] at ht
      obtain ⟨-, hacked, -⟩ := service_slots (s.counted (onAck h.ack s).2)
      cases ht
      refine ⟨by rw [(service_same _).2]; exact (onAck_pstate _ _).trans hr, fun hout => ?_⟩
      exact hout.1 (by rw [hacked]; exact dist_eq_zero.mpr (onAck_lastAcked_of_outstanding ho).symm)
    · obtain ⟨u, hu, hur, -, hacked, hnext⟩ := exec_ack_keeps_slots hr ho
      cases hu.symm.trans ht
      refine ⟨hur, ?_⟩
      unfold WindowRegs.isOutstanding WindowRegs.outstanding
      rwa [hacked, hnext]
  obtain ⟨u, hu, -, hslots, hacked, -⟩ := exec_ack_keeps_slots hsecond.1 hsecond.2
  exact ⟨u, hu, hacked, hslots⟩

/-! ### NAK packets -/

/-- A reject that names nothing outstanding is ignored (R169). -/
theorem onReject_of_nothing {rs : SeqNum}
    (h : s.win.outstanding = 0 ∨ s.win.outstanding < dist rs s.win.lastAcked) : onReject rs s = s := by
  unfold onReject
  by_cases hlt : s.win.outstanding < dist rs s.win.lastAcked
  · exact if_pos hlt
  · have hnone : s.win.outstanding = 0 := h.resolve_right hlt
    have hzero : dist rs s.win.lastAcked = 0 := by rw [hnone] at hlt; bv_omega
    rw [if_neg hlt, hzero]
    exact if_pos hnone

/-- A reject inside the window acts as an ack of `rs`, and sets the retransmit point if packets remain (R169). -/
theorem onReject_of_within {rs : SeqNum} (h : dist rs s.win.lastAcked ≤ s.win.outstanding) :
    onReject rs s =
      if (onAck rs s).2.win.outstanding = 0 then (onAck rs s).2 else markReject (seqSucc rs) (onAck rs s).2 := by
  unfold onReject
  rw [if_neg (BitVec.not_lt.mpr h)]
  by_cases hzero : dist rs s.win.lastAcked = 0
  · rw [onAck_of_not_outstanding fun ho => ho.1 hzero]
    simp [hzero]
  · dsimp only
    rw [if_neg hzero]

/-- The reject of a packet counted as good (R230, R236). -/
theorem onReject_counted {rs : SeqNum} (h : dist rs s.win.lastAcked ≤ s.win.outstanding) :
    onReject rs (s.counted s) =
      if (onAck rs s).2.win.outstanding = 0 then s.counted (onAck rs s).2
      else markReject (seqSucc rs) (s.counted (onAck rs s).2) := by
  rw [onReject_of_within (s := s.counted s) h, ← goodPacket_eq_counted, onAck_goodPacket]
  rfl

/-- An ack applied before its reject changes nothing (R236). -/
theorem onReject_onAck (rs : SeqNum) (s : State) : onReject rs (onAck rs s).2 = onReject rs s := by
  by_cases ho : s.win.isOutstanding rs
  · have hzero : dist rs (onAck rs s).2.win.lastAcked = 0 :=
      dist_eq_zero.mpr (onAck_lastAcked_of_outstanding ho).symm
    rw [onReject_of_within (s := (onAck rs s).2) (by rw [hzero]; exact Nat.zero_le _), onReject_of_within ho.2,
      onAck_onAck]
  · rw [onAck_of_not_outstanding ho]

theorem exec_nak_of_not_outstanding (hr : s.pstate = .ready) {h : Hdr} (ho : ¬s.win.isOutstanding h.ack) :
    exec (.nak h) s = .next (service (onReject (h.seq - 1) (s.counted s))) := by
  rw [exec_nak_of_ready hr, onAck_of_not_outstanding ho]

/-- Settles O37: both are a reject of `LAST_ACKED`. -/
theorem duplicateAckActsAsNak : Obligations.DuplicateAckActsAsNak := by
  intro h s hr hack hmode hrej hout
  have ho : ¬s.win.isOutstanding h.ack := hack ▸ not_isOutstanding_lastAcked s.win
  have hpacket : ackPacket h.ack false (s.counted s) = onReject s.win.lastAcked (s.counted s) :=
    if_pos ⟨hmode, rfl, hack, hout, hrej⟩
  rw [exec_ack_of_not_outstanding hr ho, hpacket,
    exec_nak_of_not_outstanding (h := { h with seq := s.win.lastAcked + 1 }) hr ho, add_sub_cancel_right]

/-- A NAK for an outstanding packet (R169, R268): those before it are acknowledged, it and up to `RESEND_AHEAD` after
it go out again. -/
theorem exec_nak_of_missing {h : Hdr} {d : SeqNum} {m : Nat} (hr : s.pstate = .ready)
    (hgap : ∀ q, (s.reordAt q).valid = false) (howed : s.flags.ackPending = false) (ho : ¬s.win.isOutstanding h.ack)
    (hd : d = dist (h.seq - 1) s.win.lastAcked) (hlt : d < s.win.outstanding) (h16 : s.win.outstanding ≤ 16)
    (hm : m = min (s.win.outstanding.toNat - d.toNat) (s.cfg.resendAhead.toNat + 1)) :
    exec (.nak h) s =
      .next
        { s with
          slots := (onAck (h.seq - 1) s).2.slots
          win :=
            { s.win with
              lastAcked := h.seq - 1
              nextRetx := h.seq + BitVec.ofNat 5 m, cautionSeq := h.seq, lastAckSent := s.win.lastRecv }
          flags := { s.flags with cautious := true, rejSeen := true }
          counters := { (goodPacket s).counters with retry := if d = 0 then s.counters.retry else 0 }
          stats :=
            { s.stats with
              rx := satInc s.stats.rx, tx := satAdd m s.stats.tx, retx := satAdd m s.stats.retx }
          out :=
            s.out ++
              (if d ≠ 0 ∧ (h.seq - 1).toNat < s.win.lastAcked.toNat then [.evt (.windowAcked (h.seq - 1))] else []) ++
              (List.range m).map fun i => .tx (s.dataImage (h.seq + BitVec.ofNat 5 i)) } := by
  have hwithin : dist (h.seq - 1) s.win.lastAcked ≤ s.win.outstanding := hd ▸ BitVec.le_of_lt hlt
  have hout : s.win.isOutstanding (h.seq - 1) ↔ d ≠ 0 := by
    rw [hd]; exact ⟨And.left, fun hne => ⟨hne, hwithin⟩⟩
  have hacked : (onAck (h.seq - 1) s).2.win.lastAcked = h.seq - 1 := onAck_lastAcked_of_within hwithin
  have hleft : (onAck (h.seq - 1) s).2.win.outstanding ≠ 0 := by
    rw [onAck_outstanding_of_within hwithin, ← hd]
    bv_omega
  have hreject : onReject (h.seq - 1) (s.counted s) = markReject h.seq (s.counted (onAck (h.seq - 1) s).2) := by
    rw [onReject_counted hwithin, if_neg hleft, seqSucc, sub_add_cancel]
  have hcount : (markReject h.seq (s.counted (onAck (h.seq - 1) s).2)).retxCount = m := by
    have hnext : (dist s.win.nextSeq h.seq).toNat = s.win.outstanding.toNat - d.toNat := by
      rw [hd] at hlt ⊢
      unfold WindowRegs.outstanding dist seqPred at *
      bv_omega
    unfold State.retxCount
    simp [State.counted, hm, hnext]
  have hasks : (markReject h.seq (s.counted (onAck (h.seq - 1) s).2)).asksGap = false :=
    State.asksGap_of_no_gap fun q => by simpa [State.counted, State.reordAt] using hgap q
  have hm0 : m ≠ 0 := by bv_omega
  have himage (q : SeqNum) :
      (markReject h.seq (s.counted (onAck (h.seq - 1) s).2)).dataImage q = s.dataImage q := onAck_dataImage _ s q
  rw [exec_nak_of_not_outstanding hr ho, hreject, service_eq hcount hasks]
  simp only [himage]
  rw [State.counted, onAck_eq]
  simp only [onAck_out, onAck_retry, hout, hacked]
  simp [markReject, hm0, howed]

/-- Settles O36: by what the NAK names. -/
theorem nakResendsFromTheMissingPacket : Obligations.NakResendsFromTheMissingPacket := by
  refine ⟨fun h s d m hr hgap howed ho hd hlt h16 hm => ?missing, fun h s hr ho hout hd => ?last,
    fun h s hr hquiet ho hout => ?nothing, fun h s hr hack => ?ownAck⟩
  case missing =>
    refine ⟨_, exec_nak_of_missing hr hgap howed ho hd hlt h16 hm, fun q => ?_, rfl⟩
    refine (onAck_slot _ s q).trans (if_congr ?_ rfl rfl)
    rw [hd]
    refine ⟨And.right, fun hq => ⟨⟨fun hzero => hq.1 ?_, hd ▸ BitVec.le_of_lt hlt⟩, hq⟩⟩
    rw [hzero] at hq
    bv_omega
  case last =>
    have hrs : s.win.isOutstanding (h.seq - 1) := ⟨by rwa [hd], by rw [hd]; exact Nat.le_refl _⟩
    have hnone : (onAck (h.seq - 1) s).2.win.outstanding = 0 := by
      rw [onAck_outstanding_of_within hrs.2, hd]; bv_omega
    rw [exec_nak_of_not_outstanding hr ho, onReject_counted hrs.2, if_pos hnone,
      exec_ack_of_outstanding (h := { h with ack := h.seq - 1 }) hr hrs]
  case nothing =>
    rw [exec_nak_of_not_outstanding hr ho, onReject_of_nothing (s := s.counted s) hout,
      service_of_quiet (State.quiet_counted hquiet), goodPacket_eq_counted]
  case ownAck =>
    have hsame : s.counted (onAck (h.seq - 1) s).2 = (onAck (h.seq - 1) (s.counted s)).2 := by
      rw [← goodPacket_eq_counted, onAck_goodPacket]
    rw [exec_nak_of_ready hr, hack, hsame, onReject_onAck,
      exec_nak_of_not_outstanding (h := { h with ack := s.win.lastAcked }) hr (not_isOutstanding_lastAcked s.win)]

end

end Sys2Proof.Machine

namespace Sys2Proof.Machine

open Sys2Proof

section

variable {s : State}

/-! ### DATA packets -/

/-- With nothing queued `pump_retx` has nothing to send. -/
theorem State.retxCount_of_none (h : s.win.nextRetx = s.win.nextSeq) : s.retxCount = 0 :=
  s.retxCount_eq_zero_iff.mpr fun hgo => hgo.1 h

/-- `service` with no retransmission queued: a NAK where `asks`, else an ACK where one is owed (R264, R265). -/
theorem service_of_no_retx {asks : Bool} (hretx : s.win.nextRetx = s.win.nextSeq) (hasks : s.asksGap = asks) :
    service s =
      { s with
        win :=
          { s.win with
            lastAckSent := if asks = true ∨ s.flags.ackPending = true then s.win.lastRecv else s.win.lastAckSent
            nakedSeq := if asks = true then s.win.lastRecv + 1 else s.win.nakedSeq }
        flags := { s.flags with ackPending := false, nakedValid := s.flags.nakedValid || asks }
        stats :=
          { s.stats with
            tx := if asks = true ∨ s.flags.ackPending = true then satInc s.stats.tx else s.stats.tx }
        out :=
          s.out ++
            if asks = true then [.tx (controlImage .nak (s.win.lastRecv + 1) s.win.lastRecv)]
            else if s.flags.ackPending = true then [.tx (controlImage .ack 0 s.win.lastRecv)]
            else [] } := by
  rw [service_eq (State.retxCount_of_none hretx) hasks]
  cases asks <;> cases hp : s.flags.ackPending <;> simp [satAdd]

/-- `service` after `on_data` with no retransmission queued: where `on_data` owes an ACK (R243 (b)), a NAK or an ACK
carries it. -/
theorem service_of_received {asks due : Bool} (hretx : s.win.nextRetx = s.win.nextSeq)
    (howed : s.flags.ackPending = false) (hasks : s.asksGap = asks) (hdue : s.ackDue = due) :
    service (if s.ackDue = true then oweAck s else s) =
      { s with
        win :=
          { s.win with
            lastAckSent := if asks = true ∨ due = true then s.win.lastRecv else s.win.lastAckSent
            nakedSeq := if asks = true then s.win.lastRecv + 1 else s.win.nakedSeq }
        flags := { s.flags with nakedValid := s.flags.nakedValid || asks }
        stats := { s.stats with tx := if asks = true ∨ due = true then satInc s.stats.tx else s.stats.tx }
        out :=
          s.out ++
            if asks = true then [.tx (controlImage .nak (s.win.lastRecv + 1) s.win.lastRecv)]
            else if due = true then [.tx (controlImage .ack 0 s.win.lastRecv)]
            else [] } := by
  rw [hdue]
  cases due
  · rw [if_neg nofun, service_of_no_retx hretx hasks]
    simp [howed]
  · rw [if_pos rfl, service_of_no_retx (s := oweAck s) hretx hasks]
    simp [oweAck, howed]

theorem onData_of_expected {q : SeqNum} (hq : q = s.win.lastRecv + 1) (lch rch : Channel) (eom : Bool)
    (p : List Byte) {t : State} (ht : onDataExpected q lch rch eom p s = t) :
    onData q lch rch eom p s = if t.ackDue = true then oweAck t else t := by
  unfold onData
  dsimp only
  rw [if_pos (show dist q s.win.lastRecv = 1 from hq ▸ dist_succ _), ht]

theorem onData_of_ahead {q : SeqNum} (h2 : 2 ≤ dist q s.win.lastRecv) (hwin : dist q s.win.lastRecv ≤ s.sizes.lwin)
    (lch rch : Channel) (eom : Bool) (p : List Byte) {t : State} (ht : onDataAhead q lch rch eom p s = t) :
    onData q lch rch eom p s = if t.ackDue = true then oweAck t else t := by
  unfold onData
  dsimp only
  rw [if_neg (show ¬dist q s.win.lastRecv = 1 by bv_omega),
    if_pos (show 2 ≤ dist q s.win.lastRecv ∧ dist q s.win.lastRecv ≤ s.sizes.lwin from ⟨h2, hwin⟩), ht]

theorem onData_of_old {q : SeqNum} (h1 : dist q s.win.lastRecv ≠ 1)
    (hold : dist q s.win.lastRecv = 0 ∨ s.sizes.lwin < dist q s.win.lastRecv) (lch rch : Channel) (eom : Bool)
    (p : List Byte) : onData q lch rch eom p s = oweAck s := by
  have hahead : ¬(2 ≤ dist q s.win.lastRecv ∧ dist q s.win.lastRecv ≤ s.sizes.lwin) := by
    rintro ⟨h2, hwin⟩
    rcases hold with hzero | hlt <;> bv_omega
  unfold onData
  dsimp only
  rw [if_neg h1, if_neg hahead]
  split <;> rfl

/-- Settles O31: an ACK is owed, and `service` sends nothing else. -/
theorem oldDataIsOnlyAcknowledged : Obligations.OldDataIsOnlyAcknowledged := by
  intro h payload s hr hquiet h16 h1 hold
  obtain ⟨hretx, hnone, howed⟩ := hquiet
  refine ⟨_, ackApplied_onAck h.ack s, ?_⟩
  have hdata : onData h.seq h.lch h.rch h.f payload (s.counted (onAck h.ack s).2) =
      oweAck (s.counted (onAck h.ack s).2) :=
    onData_of_old (by simpa [State.counted] using h1) (by simpa [State.counted] using hold) _ _ _ _
  have hqueue : (oweAck (s.counted (onAck h.ack s).2)).win.nextRetx =
      (oweAck (s.counted (onAck h.ack s).2)).win.nextSeq := by
    simpa [State.counted] using onAck_nextRetx_of_none h.ack hretx h16
  have hasks : (oweAck (s.counted (onAck h.ack s).2)).asksGap = false :=
    State.asksGap_of_no_gap fun q => by simpa [State.counted, State.reordAt] using hnone q
  rw [exec_data_of_ready hr, hdata, service_of_no_retx hqueue hasks, onAck_eq]
  simp [State.counted, oweAck, howed]

/-- The stored packet opens a gap, or one was open (R232, R264). -/
theorem asksGap_onDataAhead (q : SeqNum) (lch rch : Channel) (eom : Bool) (p : List Byte) (s : State) :
    (onDataAhead q lch rch eom p s).asksGap = true ↔ ¬s.gapAsked := by
  rw [State.asksGap_iff]
  exact and_iff_right ⟨q, by rw [State.reordAt, onDataAhead_reord, entryAt_setEntry_same]⟩

/-- The payload of a stored packet can be read back (R60, R232). -/
theorem reordPayload_onDataAhead {p : List Byte} (hlen : p.length ≤ 1024) (q : SeqNum) (lch rch : Channel)
    (eom : Bool) (s : State) : (onDataAhead q lch rch eom p s).reordPayload q = p := by
  have hreord : ((onDataAhead q lch rch eom p s).reordAt q).len.toNat = p.length := by
    rw [State.reordAt, onDataAhead_reord, entryAt_setEntry_same, BitVec.toNat_ofNat]
    exact Nat.mod_eq_of_lt (by omega)
  unfold State.reordPayload
  rw [hreord]
  refine List.ext_getElem (by simp) fun i _ hi => ?_
  have hfind := Memory.find_writeBytes_inside s.reordMem (recordAddr q 0) p i hi
  simp only [List.getElem_map, List.getElem_range]
  rw [State.reordByte, onDataAhead_reordMem]
  exact congrArg (Option.getD · _) hfind

theorem reordByte_onDataAhead_outside {q : SeqNum} {p : List Byte} {a : Nat}
    (ha : ¬(recordAddr q 0 ≤ a ∧ a < recordAddr q 0 + p.length)) (lch rch : Channel) (eom : Bool) (s : State) :
    (onDataAhead q lch rch eom p s).reordByte a = s.reordByte a := by
  rw [State.reordByte, onDataAhead_reordMem, Memory.find_writeBytes_outside _ _ _ ha]
  rfl

/-- A DATA packet ahead of the expected one (R232): stored, then `service`. -/
theorem exec_data_of_ahead {h : Hdr} {payload : List Byte} {asks due : Bool} (hr : s.pstate = .ready)
    (hretx : s.win.nextRetx = s.win.nextSeq) (howed : s.flags.ackPending = false) (h16 : s.win.outstanding ≤ 16)
    (h2 : 2 ≤ dist h.seq s.win.lastRecv) (hwin : dist h.seq s.win.lastRecv ≤ s.sizes.lwin)
    (hasks : asks = true ↔ ¬s.gapAsked) (hdue : due = true ↔ s.ackDueAt s.win.lastRecv) :
    exec (.data h payload) s =
      .next
        { onDataAhead h.seq h.lch h.rch h.f payload (s.counted (onAck h.ack s).2) with
          win :=
            { (onAck h.ack s).2.win with
              lastAckSent := if asks = true ∨ due = true then s.win.lastRecv else (onAck h.ack s).2.win.lastAckSent
              nakedSeq := if asks = true then s.win.lastRecv + 1 else (onAck h.ack s).2.win.nakedSeq }
          flags := { (onAck h.ack s).2.flags with nakedValid := (onAck h.ack s).2.flags.nakedValid || asks }
          stats :=
            { s.stats with
              rx := satInc s.stats.rx
              tx := if asks = true ∨ due = true then satInc s.stats.tx else s.stats.tx }
          out :=
            (onAck h.ack s).2.out ++
              if asks = true then [.tx (controlImage .nak (s.win.lastRecv + 1) s.win.lastRecv)]
              else if due = true then [.tx (controlImage .ack 0 s.win.lastRecv)]
              else [] } := by
  have hdata := onData_of_ahead (s := s.counted (onAck h.ack s).2) (q := h.seq) (by simpa [State.counted] using h2)
    (by simpa [State.counted] using hwin) h.lch h.rch h.f payload rfl
  have hqueue := onAck_nextRetx_of_none h.ack hretx h16
  rw [exec_data_of_ready hr, hdata, service_of_received (asks := asks) (due := due)]
  case hretx => simpa [State.counted] using hqueue
  case howed => simpa [State.counted] using howed
  case hasks =>
    rw [Bool.eq_iff_iff, hasks, asksGap_onDataAhead]
    simp [State.counted, State.gapAsked]
  case hdue =>
    rw [Bool.eq_iff_iff, hdue]
    simp [State.ackDue, State.counted]
  simp [State.counted]

/-- Settles O30: the packet is stored, so a gap is open, and `service` asks for it once. -/
theorem aheadDataIsBuffered : Obligations.AheadDataIsBuffered := by
  intro h payload s hr hretx howed h16 hlen h2 hwin
  refine ⟨_, _, ackApplied_onAck h.ack s,
    exec_data_of_ahead (asks := !decide s.gapAsked) (due := decide (s.ackDueAt s.win.lastRecv)) hr hretx howed h16 h2
      hwin (by rw [Bool.not_eq_true', decide_eq_false_iff_not]) decide_eq_true_iff, ?_⟩
  refine ⟨entryAt_setEntry_same _ _ _, reordPayload_onDataAhead hlen _ _ _ _ _, fun q hq => ?_, fun a ha => ?_,
    onAck_slotByte h.ack s, fun hasked => ?_, fun hasked hdue => ?_, fun hasked hdue => ?_, ?_⟩
  · exact (entryAt_setEntry_other _ _ hq).trans (onAck_reordAt h.ack s q)
  · exact (reordByte_onDataAhead_outside ha h.lch h.rch h.f _).trans (onAck_reordByte h.ack s a)
  · rw [decide_eq_false hasked]
    simp
  · rw [decide_eq_true hasked, decide_eq_false hdue, Bool.not_true, Bool.or_false]
    exact ⟨List.append_nil _, rfl, rfl, rfl⟩
  · rw [decide_eq_true hasked, decide_eq_true hdue, Bool.not_true, Bool.or_false]
    exact ⟨rfl, rfl, rfl, rfl⟩
  · rw [onAck_eq]
    exact ⟨rfl, rfl, rfl, rfl, rfl, rfl, rfl, rfl, rfl, rfl, rfl, rfl⟩

/-! ### The expected packet, and those that waited behind it -/

theorem pool_ext {α : Type} {v w : Vector α 32} (h : ∀ q, entryAt v q = entryAt w q) : v = w := by
  ext1 i hi
  exact h (BitVec.ofFin ⟨i, hi⟩)

/-- The reorder buffer with the `n` entries behind `lr` emptied (R234). -/
def drainedReord (lr : SeqNum) (n : Nat) (v : Vector ReordRec 32) : Vector ReordRec 32 :=
  Vector.ofFn fun i : Fin 32 =>
    if 1 ≤ (dist (BitVec.ofFin i) lr).toNat ∧ (dist (BitVec.ofFin i) lr).toNat ≤ n then { v[i.val] with valid := false }
    else v[i.val]

theorem entryAt_drainedReord (lr : SeqNum) (n : Nat) (v : Vector ReordRec 32) (q : SeqNum) :
    entryAt (drainedReord lr n v) q =
      if 1 ≤ (dist q lr).toNat ∧ (dist q lr).toNat ≤ n then { entryAt v q with valid := false } else entryAt v q := by
  simp [entryAt, drainedReord]

theorem drainedReord_zero (lr : SeqNum) (v : Vector ReordRec 32) : drainedReord lr 0 v = v :=
  pool_ext fun q => by rw [entryAt_drainedReord]; exact if_neg (by omega)

/-- Emptying the next entry and then `n` more empties `n + 1` (R234). -/
theorem drainedReord_succ (lr : SeqNum) {n : Nat} (hn : n + 1 < 32) (v : Vector ReordRec 32) :
    drainedReord (seqSucc lr) n (setEntry v (seqSucc lr) { entryAt v (seqSucc lr) with valid := false }) =
      drainedReord lr (n + 1) v := by
  refine pool_ext fun q => ?_
  rw [entryAt_drainedReord, entryAt_drainedReord]
  by_cases hq : q = seqSucc lr
  · rw [hq, entryAt_setEntry_same, dist_self, dist_succ]
    simp
  · rw [entryAt_setEntry_other _ _ hq]
    refine if_congr ?_ rfl rfl
    unfold dist seqSucc at *
    bv_omega

/-- The `n` sequence numbers after `LAST_RECV`, in the order in which `drain` looks at them (R234). -/
def State.waiting (s : State) (n : Nat) : List SeqNum :=
  (List.range n).map fun i => s.win.lastRecv + 1 + BitVec.ofNat 5 i

theorem State.waiting_succ (s : State) (n : Nat) :
    s.waiting (n + 1) = seqSucc s.win.lastRecv :: (drainOne (seqSucc s.win.lastRecv) s).waiting n := by
  unfold State.waiting
  rw [List.range_succ_eq_map, List.map_cons, List.map_map, drainOne_win]
  refine congrArg₂ List.cons ?_ (List.map_congr_left fun i _ => (seqSucc_add _ i).symm)
  exact BitVec.add_zero _

theorem State.ne_of_mem_waiting {n : Nat} (hn : n + 1 < 32) {q : SeqNum}
    (hq : q ∈ (drainOne (seqSucc s.win.lastRecv) s).waiting n) : q ≠ seqSucc s.win.lastRecv := by
  obtain ⟨i, hi, rfl⟩ := List.mem_map.mp hq
  have hlt := List.mem_range.mp hi
  rw [drainOne_win]
  unfold seqSucc
  bv_omega

theorem reordAt_drainOne_other {q r : SeqNum} (h : r ≠ q) : (drainOne q s).reordAt r = s.reordAt r :=
  entryAt_setEntry_other _ _ h

theorem reordPayload_drainOne_other {q r : SeqNum} (h : r ≠ q) :
    (drainOne q s).reordPayload r = s.reordPayload r := by
  unfold State.reordPayload
  rw [reordAt_drainOne_other h]
  rfl

/-- The delivery of an entry of the reorder buffer (R234). -/
def State.delivery (s : State) (q : SeqNum) : OutEvent :=
  .deliver (s.reordAt q).lch (s.reordAt q).rch (s.reordAt q).eom (s.reordPayload q)

/-- `drain` delivers the packets waiting up to the next missing one, in order, and empties their entries (R234). -/
theorem drain_eq {n k : Nat} (hk : n ≤ k) (hn : n < 32) (hvalid : ∀ q ∈ s.waiting n, (s.reordAt q).valid = true)
    (hstop : (s.reordAt (s.win.lastRecv + 1 + BitVec.ofNat 5 n)).valid = false) :
    drain k s =
      { s with
        reord := drainedReord s.win.lastRecv n s.reord
        win := { s.win with lastRecv := s.win.lastRecv + BitVec.ofNat 5 n }
        flags := { s.flags with eomSeen := s.flags.eomSeen || ((s.waiting n).map s.reordAt).any ReordRec.eom }
        out := s.out ++ (s.waiting n).map s.delivery } := by
  induction n generalizing k s with
  | zero =>
    have hempty : ¬(s.reordAt (seqSucc s.win.lastRecv)).valid = true := by
      rw [BitVec.add_zero] at hstop
      exact Bool.eq_false_iff.mp hstop
    have hstay : drain k s = s := by
      cases k with
      | zero => rfl
      | succ k => exact if_neg hempty
    rw [hstay, drainedReord_zero]
    simp [State.waiting]
  | succ n ih =>
    obtain ⟨k, rfl⟩ : ∃ j, k = j + 1 := ⟨k - 1, by omega⟩
    rw [s.waiting_succ, List.forall_mem_cons] at hvalid
    obtain ⟨hnext, hrest⟩ := hvalid
    have hround : drain (k + 1) s = drain k (drainOne (seqSucc s.win.lastRecv) s) := if_pos hnext
    have hother {q : SeqNum} (hq : q ∈ (drainOne (seqSucc s.win.lastRecv) s).waiting n) :=
      State.ne_of_mem_waiting hn hq
    have hseq : seqSucc s.win.lastRecv + 1 + BitVec.ofNat 5 n = s.win.lastRecv + 1 + BitVec.ofNat 5 (n + 1) :=
      seqSucc_add _ n
    rw [hround, ih (by omega) (by omega)]
    case hvalid => exact fun q hq => by rw [reordAt_drainOne_other (hother hq)]; exact hrest q hq
    case hstop =>
      rw [drainOne_win, hseq, reordAt_drainOne_other]
      · exact hstop
      · unfold seqSucc; bv_omega
    have hrecs : ((drainOne (seqSucc s.win.lastRecv) s).waiting n).map (drainOne (seqSucc s.win.lastRecv) s).reordAt =
        ((drainOne (seqSucc s.win.lastRecv) s).waiting n).map s.reordAt :=
      List.map_congr_left fun q hq => reordAt_drainOne_other (hother hq)
    have hmap : ((drainOne (seqSucc s.win.lastRecv) s).waiting n).map (drainOne (seqSucc s.win.lastRecv) s).delivery =
        ((drainOne (seqSucc s.win.lastRecv) s).waiting n).map s.delivery :=
      List.map_congr_left fun q hq => by
        rw [State.delivery, reordAt_drainOne_other (hother hq), reordPayload_drainOne_other (hother hq), State.delivery]
    have hreord : drainedReord (seqSucc s.win.lastRecv) n (drainOne (seqSucc s.win.lastRecv) s).reord =
        drainedReord s.win.lastRecv (n + 1) s.reord := drainedReord_succ _ hn _
    rw [hrecs, hmap, s.waiting_succ, List.map_cons, List.map_cons, List.any_cons]
    simp only [drainOne_win, hreord, seqSucc_add]
    simp [State.delivery, Bool.or_assoc]

/-- The state after the expected DATA packet and the `n` that waited behind it (R232, R234). -/
def State.received (s : State) (h : Hdr) (payload : List Byte) (n : Nat) : State :=
  { s with
    reord := drainedReord h.seq n s.reord
    win := { s.win with lastRecv := h.seq + BitVec.ofNat 5 n }
    flags :=
      { s.flags with
        eomSeen :=
          s.flags.eomSeen || h.f || (List.range n).any fun i => (s.reordAt (h.seq + 1 + BitVec.ofNat 5 i)).eom
        nakedValid := false }
    counters := { s.counters with retry := 0 }
    out :=
      s.out ++ .deliver h.lch h.rch h.f payload ::
        (List.range n).map fun i => s.delivery (h.seq + 1 + BitVec.ofNat 5 i) }

theorem onDataExpected_eq {h : Hdr} {n : Nat} (hn : n < 32)
    (hvalid : ∀ i, i < n → (s.reordAt (h.seq + 1 + BitVec.ofNat 5 i)).valid = true)
    (hstop : (s.reordAt (h.seq + 1 + BitVec.ofNat 5 n)).valid = false) (payload : List Byte) :
    onDataExpected h.seq h.lch h.rch h.f payload s = s.received h payload n := by
  unfold onDataExpected
  dsimp only
  rw [drain_eq (n := n) (by omega) hn]
  case hvalid =>
    intro q hq
    obtain ⟨i, hi, rfl⟩ := List.mem_map.mp hq
    exact hvalid i (List.mem_range.mp hi)
  case hstop => exact hstop
  simp only [State.waiting, List.map_map, List.any_map, deliver, emit, List.append_assoc]
  rfl

/-- A gap remains after the expected packet exactly if one of the packets not delivered with it is waiting (R264). -/
theorem asksGap_received (h : Hdr) (payload : List Byte) (n : Nat) (s : State) :
    (s.received h payload n).asksGap = true ↔
      ∃ q, (s.reordAt q).valid = true ∧ ¬(1 ≤ (dist q h.seq).toNat ∧ (dist q h.seq).toNat ≤ n) := by
  rw [State.asksGap_iff]
  refine (and_iff_left fun hasked => Bool.false_ne_true hasked.1).trans (exists_congr fun q => ?_)
  have hentry : (s.received h payload n).reordAt q = _ := entryAt_drainedReord h.seq n s.reord q
  rw [hentry]
  split
  · rename_i hin; simp [hin]
  · rename_i hout; exact (and_iff_left hout).symm

/-- Settles O29: the ack, the delivery with what waited behind it, then `service`. -/
theorem expectedDataIsDelivered : Obligations.ExpectedDataIsDelivered := by
  intro h payload s n last asks hr hretx howed h16 hseq hn hvalid hstop hlast hasks
  have hrec (q : SeqNum) : (s.counted (onAck h.ack s).2).reordAt q = s.reordAt q := onAck_reordAt h.ack s q
  have hpayload (q : SeqNum) : (s.counted (onAck h.ack s).2).reordPayload q = s.reordPayload q :=
    onAck_reordPayload h.ack s q
  have hdata := onData_of_expected (s := s.counted (onAck h.ack s).2) (hseq.trans (by simp [State.counted])) h.lch h.rch
    h.f payload (onDataExpected_eq hn (by simpa only [hrec] using hvalid) (by rwa [hrec]) payload)
  have hqueue := onAck_nextRetx_of_none h.ack hretx h16
  have hexec := exec_data_of_ready hr h payload
  rw [hdata, service_of_received (asks := asks) (due := decide (s.ackDueAt last))] at hexec
  case hretx => simpa [State.received, State.counted] using hqueue
  case howed => simpa [State.received, State.counted] using howed
  case hasks =>
    rw [Bool.eq_iff_iff, hasks, asksGap_received]
    simp only [hrec]
  case hdue => simp [State.received, State.counted, State.ackDue, hlast]
  refine ⟨_, _, ackApplied_onAck h.ack s, hexec, fun q => ?_, ?_⟩
  · exact (entryAt_drainedReord _ _ _ q).trans (by rw [← hrec]; rfl)
  · simp only [State.received, State.delivery, hrec, hpayload]
    simp [State.counted, hlast]

end

end Sys2Proof.Machine

namespace Sys2Proof.Machine

open Sys2Proof

section

variable {s t : State}

/-! ### Total silence -/

theorem transmissions_append (l m : List OutEvent) : transmissions (l ++ m) = transmissions l ++ transmissions m := by
  induction l with
  | nil => rfl
  | cons e l ih => cases e <;> simp [transmissions, ih]

theorem timeouts_succ (n : Nat) (s : State) : timeouts (n + 1) s = andThen (timeouts n s) (handle .rxTimeout) := by
  induction n generalizing s with
  | zero =>
    change andThen (handle .rxTimeout s) .next = handle .rxTimeout s
    cases handle .rxTimeout s <;> rfl
  | succ n ih =>
    change andThen (handle .rxTimeout s) (timeouts (n + 1)) = andThen (andThen (handle .rxTimeout s) (timeouts n)) _
    rw [andThen_assoc]
    exact congrArg (andThen _) (funext ih)

/-- A blocking command waits (R177): a WAIT with no end of message, a SEND_DATA that cannot go out yet, or a START with
no SYNC accepted. -/
def State.blocked (s : State) : Prop :=
  (s.pend = .wait ∧ s.pstate = .ready ∧ s.flags.eomSeen = false) ∨
    (s.pend = .sendData ∧ s.pstate = .ready ∧ s.sendReady = false) ∨
    (s.pend = .start ∧ s.pstate = .negotiating ∧ s.flags.gotSync = false)

theorem State.blocked.pend_ne (h : s.blocked) : s.pend ≠ .none := by
  rcases h with ⟨hp, -⟩ | ⟨hp, -⟩ | ⟨hp, -⟩ <;> simp [hp]

/-- A blocked command is not answered (R210). -/
theorem completionCheck_of_blocked (h : s.blocked) : completionCheck s = s := by
  rcases h with ⟨hp, -, heom⟩ | ⟨hp, -, hsend⟩ | ⟨hp, hn, -⟩
  · exact completionCheck_of_not_due (by simp [hp]) (by simp [heom]) (by simp [hp])
  · exact completionCheck_of_not_due (by simp [hp]) (by simp [hp]) (by simp [hsend])
  · exact completionCheck_of_not_due (by simp [hn]) (by simp [hp]) (by simp [hp])

/-- State `s` after a timeout has transmitted its packet, with the flags, `LAST_ACK_SENT` and the statistics that the
transmission leaves (R175, R261). -/
def State.resent (s : State) (f : StatusFlags) (x : SeqNum) (st : Stats) : State :=
  { s with
    flags := f
    win := { s.win with lastAckSent := x }
    stats := st
    out := s.out ++ [.tx s.timeoutImage] }

theorem State.blocked.resent (h : s.blocked) {f : StatusFlags} (heom : f.eomSeen = s.flags.eomSeen)
    (hgot : f.gotSync = s.flags.gotSync) (hcautious : f.cautious = s.flags.cautious) (x : SeqNum) (st : Stats) :
    (s.resent f x st).blocked := by
  have hsend : (s.resent f x st).sendReady = s.sendReady := by
    simp only [State.sendReady, State.txAllowed, State.resent, hcautious]
    rfl
  unfold State.blocked at h ⊢
  rw [hsend]
  simpa only [State.resent, heom, hgot] using h

/-- Where a command is blocked a timeout transmits `timeoutImage` (R175), and the completion check finds nothing to
answer. -/
theorem afterFlush_of_blocked (h : s.blocked) :
    ∃ f x st, (s.resent f x st).blocked ∧ afterFlush s = s.resent f x st := by
  suffices hresent : ∃ f x st, f.eomSeen = s.flags.eomSeen ∧ f.gotSync = s.flags.gotSync ∧
      f.cautious = s.flags.cautious ∧ afterFlush s = completionCheck (s.resent f x st) by
    obtain ⟨f, x, st, heom, hgot, hcautious, he⟩ := hresent
    have hblocked := h.resent heom hgot hcautious x st
    exact ⟨f, x, st, hblocked, he.trans (completionCheck_of_blocked hblocked)⟩
  have hstate : s.pstate = .ready ∨ s.pstate = .negotiating ∧ s.flags.gotSync = false :=
    h.elim (fun h => .inl h.2.1) (Or.imp (fun h => h.2.1) And.right)
  rcases hstate with hr | ⟨hn, hgot⟩
  · by_cases ho : s.win.outstanding = 0
    · have himage : s.timeoutImage = controlImage .nak (s.win.lastRecv + 1) s.win.lastRecv := by
        rw [State.timeoutImage, if_neg (by simp [hr]), if_neg (not_not.mpr ho)]
      refine ⟨{ s.flags with nakedValid := false, ackPending := false }, s.win.lastRecv,
        { s.stats with tx := satInc s.stats.tx }, rfl, rfl, rfl, ?_⟩
      rw [afterFlush_of_none_outstanding hr ho, State.resent, himage]
    · have himage : s.timeoutImage = s.dataImage (s.win.lastAcked + 1) := by
        rw [State.timeoutImage, if_neg (by simp [hr]), if_pos ho]
      refine ⟨{ s.flags with nakedValid := false, ackPending := false }, s.win.lastRecv,
        { s.stats with tx := satInc s.stats.tx, retx := satInc s.stats.retx }, rfl, rfl, rfl, ?_⟩
      rw [afterFlush_of_outstanding hr ho, State.resent, himage]
  · have himage : s.timeoutImage = s.syncImage false := if_pos hn
    refine ⟨{ s.flags with nakedValid := false, sentSync := true }, s.win.lastAckSent,
      { s.stats with tx := satInc s.stats.tx }, rfl, rfl, rfl, ?_⟩
    rw [afterFlush_of_negotiating hn, State.resent, himage, hgot, ← hn]
    rfl

/-- What `n` silent timeouts leave as it was in state `s`, and what they have transmitted (R175, R177). -/
structure Silent (s t : State) (n : Nat) : Prop where
  blocked : t.blocked
  rxbuf : t.rxbuf = []
  pend : t.pend = s.pend
  pstate : t.pstate = s.pstate
  cfg : t.cfg = s.cfg
  failCause : t.failCause = s.failCause
  image : t.timeoutImage = s.timeoutImage
  retry : t.counters.retry.toNat = n
  sent : transmissions t.out = transmissions s.out ++ List.replicate n s.timeoutImage

/-- The next timeout has no retries left, or keeps the silence (R175, R177). -/
theorem Silent.timeout {n : Nat} (h : Silent s t n) (hlimit : n + 1 < s.cfg.maxRetries.toNat) :
    ∃ u, handle .rxTimeout t = .next u ∧ Silent s u (n + 1) := by
  have hretry : (t.counters.retry + 1).toNat = n + 1 := by
    have := s.cfg.maxRetries.isLt
    rw [BitVec.toNat_add, h.retry]
    exact Nat.mod_eq_of_lt (by change n + 1 < 256; omega)
  have hleft : (t.counters.retry + 1).toNat < t.cfg.maxRetries.toNat := by rwa [hretry, h.cfg]
  obtain ⟨f, x, st, hblocked, he⟩ := afterFlush_of_blocked (s := countTimeout t) h.blocked
  refine ⟨_, (rxTimeout_of_empty h.blocked.pend_ne hleft h.rxbuf).trans (congrArg _ he), ?_⟩
  have himage : ((countTimeout t).resent f x st).timeoutImage = t.timeoutImage := rfl
  exact
    { blocked := hblocked, rxbuf := h.rxbuf, pend := h.pend, pstate := h.pstate, cfg := h.cfg
      failCause := h.failCause, image := himage.trans h.image, retry := hretry
      sent := by
        have hout : ((countTimeout t).resent f x st).out = t.out ++ [.tx t.timeoutImage] := rfl
        rw [hout, transmissions_append, h.sent, h.image, List.replicate_succ', List.append_assoc]
        rfl }

theorem Silent.timeouts {n : Nat} (h : Silent s s 0) (hn : n < s.cfg.maxRetries.toNat) :
    ∃ t, Machine.timeouts n s = .next t ∧ Silent s t n := by
  induction n with
  | zero => exact ⟨s, rfl, h⟩
  | succ n ih =>
    obtain ⟨t, ht, hsilent⟩ := ih (by omega)
    obtain ⟨u, hu, hsilent'⟩ := hsilent.timeout hn
    exact ⟨u, by rw [timeouts_succ, ht]; exact hu, hsilent'⟩

/-- Settles O47: every timeout keeps the silence until the last one fails the connection. -/
theorem silenceFailsAfterMaxRetries : Obligations.SilenceFailsAfterMaxRetries := by
  intro s hbuf hretry hmax hblocked
  have hstart : Silent s s 0 := ⟨hblocked, hbuf, rfl, rfl, rfl, rfl, rfl, by rw [hretry]; rfl, (List.append_nil _).symm⟩
  refine ⟨fun n hn => ?_, ?_⟩
  · obtain ⟨t, ht, h⟩ := hstart.timeouts hn
    exact ⟨t, ht, h.pend, h.pstate, h.retry, h.sent⟩
  · obtain ⟨k, hk⟩ : ∃ k, s.cfg.maxRetries.toNat = k + 1 :=
      Nat.exists_eq_succ_of_ne_zero fun h0 => hmax (BitVec.eq_of_toNat_eq h0)
    obtain ⟨t, ht, h⟩ := hstart.timeouts (n := k) (by omega)
    have hlast : t.cfg.maxRetries.toNat ≤ (t.counters.retry + 1).toNat := by
      have := s.cfg.maxRetries.isLt
      rw [BitVec.toNat_add, h.retry, h.cfg, hk]
      exact (Nat.mod_eq_of_lt (by change k + 1 < 256; omega)).ge
    have hrun : Machine.timeouts (k + 1) s = .next (raiseFatal .retryExhausted (countTimeout t)) := by
      rw [timeouts_succ, ht]
      exact rxTimeout_of_exhausted h.blocked.pend_ne hlast
    have hout : (raiseFatal .retryExhausted (countTimeout t)).out =
        t.out ++ [.evt (.failed .retryExhausted), .rsp (rspWord s.pend.op .failed 0 0 0)] := by
      rw [raiseFatal_eq, ← h.pend]
      simp [h.blocked.pend_ne]
    rw [hk]
    refine ⟨_, hrun, raiseFatal_pstate _ _, raiseFatal_pend _ _, fun hnone => ?_, ?_, t.out, hout⟩
    · rw [raiseFatal_failCause, countTimeout_failCause, h.failCause, if_pos hnone]
    · rw [hout, transmissions_append, h.sent]
      exact List.append_nil _

end

end Sys2Proof.Machine

/-! ## Proofs of the family 42_host_ops: the host commands where the state allows them -/

namespace Sys2Proof.Machine

open Sys2Proof

section

variable {s : State}

/-! ### The checks passed -/

/-- A command that finds none pending and that the state allows is run (R115, R202). -/
theorem command_of_allowed (hp : s.pend = .none) {allowed : PState → Bool} (ha : allowed s.pstate = true)
    (op : BitVec 4) (run : State → State) : command op allowed run s = run s := by
  unfold command
  rw [if_neg (not_not.mpr hp), if_pos ha]

/-- The step of a command that is run, with the next state it has. -/
theorem next_command_of_allowed {t : State} (hp : s.pend = .none) {allowed : PState → Bool}
    (ha : allowed s.pstate = true) {op : BitVec 4} {run : State → State} (hrun : run s = t) :
    (.next (command op allowed run s) : Result) = .next t := by
  rw [command_of_allowed hp ha, hrun]

/-! ### START, GET_BUF, WAIT, FILE -/

/-- START as the whole next state: the caller's SYNC carries the sizes that START has just taken from `CFG0` (R203,
R262), the callee transmits nothing. -/
theorem startOp_eq (role : Bool) (s : State) :
    startOp role s =
      { s with
        flags := { s.flags with role := role, sentSync := s.flags.sentSync || role }
        sizes := { s.sizes with lwin := s.cfg.winReq, lpktK := s.cfg.kReq, acceptK := s.cfg.kReq }
        pstate := .negotiating
        counters := { s.counters with retry := 0 }
        pend := .start
        stats := { s.stats with tx := if role then satInc s.stats.tx else s.stats.tx }
        out :=
          s.out ++
            if role then
              [.tx (encodePacket .sync { seq := 0, lch := 0, ack := 0, rch := 0, f := false }
                [s.cfg.winReq.setWidth 8, s.cfg.kReq.setWidth 8])]
            else [] } := by
  cases role with
  | true => rw [Bool.or_true]; rfl
  | false => rw [Bool.or_false]; simp [startOp]

/-- Settles O18: `UNSTARTED` admits START, whose whole effect is `startOp_eq`. -/
theorem startBeginsNegotiation : Obligations.StartBeginsNegotiation := by
  intro role s hp hu
  exact next_command_of_allowed hp (decide_eq_true hu) (startOp_eq role s)

/-- Settles O19: `READY` admits GET_BUF, and `getBufOp` is the next state written out. -/
theorem getBufLendsTheNextSlot : Obligations.GetBufLendsTheNextSlot := by
  intro s hp hr
  exact next_command_of_allowed hp (decide_eq_true hr) (run := getBufOp) rfl

/-- Settles O23: `READY` admits WAIT, and `waitOp` is the next state written out. -/
theorem waitBecomesPending : Obligations.WaitBecomesPending := by
  intro s hp hr
  exact next_command_of_allowed hp (decide_eq_true hr) (run := waitOp) rfl

/-- Settles O25: `READY` admits FILE, which is its answer and nothing else. -/
theorem fileAnswersOk : Obligations.FileAnswersOk := by
  intro flag lch rch s hp hr
  exact next_command_of_allowed hp (decide_eq_true hr) (run := respond 6 .ok) rfl

/-! ### SEND_DATA -/

/-- In `READY` SEND_DATA gets as far as its argument check (R115, R202). -/
theorem exec_sendData_of_ready (hp : s.pend = .none) (hr : s.pstate = .ready) (eom : Bool) (lch rch : Channel)
    (len : BitVec 12) : exec (.sendData eom lch rch len) s = .next (sendDataOp eom lch rch len s) :=
  next_command_of_allowed hp (decide_eq_true hr) rfl

/-- Without a borrow, or with a payload longer than the packet size, SEND_DATA is refused (R205). -/
theorem sendDataOp_of_badArg {len : BitVec 12} (h : s.flags.bufOwned = false ∨ classSize s.sizes.negPktK < len.toNat)
    (eom : Bool) (lch rch : Channel) :
    sendDataOp eom lch rch len s = s.emitted (.rsp (rspWord 3 .badArg 0 0 0)) := if_pos h

/-- An accepted SEND_DATA fills its slot and leaves the rest to the completion check (R205, R210). -/
theorem sendDataOp_of_accepted {len : BitVec 12} (hb : s.flags.bufOwned = true)
    (hlen : len.toNat ≤ classSize s.sizes.negPktK) (eom : Bool) (lch rch : Channel) :
    sendDataOp eom lch rch len s = completionCheck (fillSlot eom lch rch len s) :=
  if_neg (not_or.mpr ⟨by simp [hb], not_lt.mpr hlen⟩)

/-- Whether a new packet may go out does not depend on what the slot holds (R172). -/
@[simp] theorem fillSlot_sendReady (eom : Bool) (lch rch : Channel) (len : BitVec 12) (s : State) :
    (fillSlot eom lch rch len s).sendReady = s.sendReady := rfl

@[simp] theorem fillSlot_slot_nextSeq (eom : Bool) (lch rch : Channel) (len : BitVec 12) (s : State) :
    (fillSlot eom lch rch len s).slot s.win.nextSeq =
      { inuse := true, lch := lch, rch := rch, eom := eom, len := len.setWidth 11 } :=
  entryAt_setEntry_same _ _ _

/-- A length that a packet may have fits the eleven bits of the record's `LEN` (R40, R205). -/
theorem toNat_setWidth_of_le_classSize {k : SizeClass} {len : BitVec 12} (hk : k ≤ 10)
    (hlen : len.toNat ≤ classSize k) : (len.setWidth 11).toNat = len.toNat := by
  have hsize : classSize k ≤ 1024 := Nat.pow_le_pow_right (by decide) (show k.toNat ≤ 10 from hk)
  rw [BitVec.toNat_setWidth]
  exact Nat.mod_eq_of_lt (by omega)

/-- The packet of the slot just filled: the command's arguments, and as many of the slot's bytes as `LEN` says. -/
theorem dataImage_fillSlot {len : BitVec 12} (hk : s.sizes.negPktK ≤ 10)
    (hlen : len.toNat ≤ classSize s.sizes.negPktK) (eom : Bool) (lch rch : Channel) :
    (fillSlot eom lch rch len s).dataImage s.win.nextSeq =
      encodePacket .data { seq := s.win.nextSeq, lch := lch, ack := s.win.lastRecv, rch := rch, f := eom }
        ((List.range len.toNat).map fun i => s.slotByte (recordAddr s.win.nextSeq i)) := by
  rw [State.dataImage, State.slotPayload, fillSlot_slot_nextSeq, toNat_setWidth_of_le_classSize hk hlen]
  rfl

/-- Settles O20: the completion check transmits from the slot just filled and takes the command off `PEND` again. -/
theorem sendDataTransmitsWhenReady : Obligations.SendDataTransmitsWhenReady := by
  intro eom lch rch len s hp hr hb hk hlen hsend
  have hcheck := completionCheck_sendData_eq (s := fillSlot eom lch rch len s) rfl hr hsend
  rw [fillSlot_win, dataImage_fillSlot hk hlen] at hcheck
  rw [exec_sendData_of_ready hp hr, sendDataOp_of_accepted hb hlen, hcheck, ← hp]
  rfl

/-- Settles O21: the slot is filled, and the completion check finds that the packet may not go out yet. -/
theorem sendDataPendsWhenNotReady : Obligations.SendDataPendsWhenNotReady := by
  intro eom lch rch len s hp hr hb hlen hsend
  have hcheck : completionCheck (fillSlot eom lch rch len s) = fillSlot eom lch rch len s :=
    completionCheck_of_not_due (by simp) (by simp) (by simp [hsend])
  rw [exec_sendData_of_ready hp hr, sendDataOp_of_accepted hb hlen, hcheck]
  rfl

/-- Settles O22: the argument check fails, and its answer is all there is. -/
theorem sendDataNeedsBorrowAndLength : Obligations.SendDataNeedsBorrowAndLength := by
  intro eom lch rch len s hp hr hbad
  rw [exec_sendData_of_ready hp hr, sendDataOp_of_badArg hbad]

/-! ### SHUTDOWN -/

/-- SHUTDOWN as the whole next state (R207, R261): the second CLOSE carries what the first did, for a transmission
leaves `LAST_RECV` alone. -/
theorem shutdownOp_eq (s : State) :
    shutdownOp s =
      { s with
        pstate := .closed
        slots := s.slots.map fun e => { e with inuse := false }
        reord := s.reord.map fun e => { e with valid := false }
        rxbuf := []
        flags := { s.flags with closingF := true, bufOwned := false, ackPending := false }
        win := { s.win with lastAckSent := s.win.lastRecv }
        stats := { s.stats with tx := satInc (satInc s.stats.tx) }
        out :=
          s.out ++
            [.tx (controlImage .close 0 s.win.lastRecv), .tx (controlImage .close 0 s.win.lastRecv),
             .rsp (rspWord 5 .ok 0 0 0)] } := by
  have hout : (shutdownOp s).out =
      s.out ++
        [.tx (controlImage .close 0 s.win.lastRecv), .tx (controlImage .close 0 s.win.lastRecv),
         .rsp (rspWord 5 .ok 0 0 0)] := by simp [shutdownOp]
  rw [← hout]
  rfl

/-- Settles O24: `READY` and `CLOSING` admit SHUTDOWN, and each clause is read off `shutdownOp_eq`. -/
theorem shutdownSendsCloseTwice : Obligations.ShutdownSendsCloseTwice := by
  intro s hp hstate
  refine ⟨_, next_command_of_allowed hp (decide_eq_true hstate) (shutdownOp_eq s), ?_⟩
  have hslot (q : SeqNum) := entryAt_map (fun e : SlotRec => { e with inuse := false }) s.slots q
  have hreord (q : SeqNum) := entryAt_map (fun e : ReordRec => { e with valid := false }) s.reord q
  exact ⟨rfl, hp, rfl, rfl, hslot, hreord, rfl, rfl, rfl, rfl, rfl, rfl, ⟨fun _ => rfl, fun _ => rfl⟩,
    ⟨rfl, rfl, rfl, rfl, rfl⟩⟩

end

end Sys2Proof.Machine

/-! ## Proofs of the family 43_packet_rx: what an accepted packet does and what it leaves -/

namespace Sys2Proof.Machine

open Sys2Proof

section

variable {s t : State}

/-! ### The parts of the state that packets share out among them -/

/-- What no packet writes (R230), as far as `exec_packet_rxbuf`, `exec_packet_errors` and `streamFrame_exec` do not say
it. -/
structure HostPart where
  cfg : ConfigRegs
  cfgErr : Bool
  bufViol : Bool
  inputs : List InEvent
  bufSlot : SeqNum
  lwin : BitVec 5
  acceptK : SizeClass
  role : Bool
  timeout : BitVec 32

/-- What of all packets only a SYNC writes (R237). -/
structure SessionPart where
  sizes : SizeRegs
  failCause : FailCause
  bufOwned : Bool
  sentSync : Bool
  gotSync : Bool

/-- What of all packets only DATA writes (R232, R234). -/
structure ReceivePart where
  reord : Vector ReordRec 32
  reordMem : Memory
  lastRecv : SeqNum
  eomSeen : Bool

structure Parts where
  host : HostPart
  session : SessionPart
  receive : ReceivePart

def State.parts (s : State) : Parts where
  host :=
    { cfg := s.cfg, cfgErr := s.flags.cfgErr, bufViol := s.flags.bufViol, inputs := s.inputs
      bufSlot := s.win.bufSlot, lwin := s.sizes.lwin, acceptK := s.sizes.acceptK, role := s.flags.role
      timeout := s.stats.timeout }
  session :=
    { sizes := s.sizes, failCause := s.failCause, bufOwned := s.flags.bufOwned, sentSync := s.flags.sentSync
      gotSync := s.flags.gotSync }
  receive :=
    { reord := s.reord, reordMem := s.reordMem, lastRecv := s.win.lastRecv, eomSeen := s.flags.eomSeen }

/-- What a packet other than SYNC leaves. -/
def Parts.lessReceive (p : Parts) : HostPart × SessionPart := (p.host, p.session)

/-- What a packet other than DATA leaves. -/
def Parts.lessSession (p : Parts) : HostPart × ReceivePart := (p.host, p.receive)

/-! ### ACK, NAK, CLOSE and the service step leave all of them -/

@[simp] theorem goodPacket_parts (s : State) : (goodPacket s).parts = s.parts := by rw [goodPacket_eq_counted]; rfl

@[simp] theorem onAck_parts (a : SeqNum) (s : State) : (onAck a s).2.parts = s.parts := by rw [onAck_eq]; rfl

theorem markReject_parts (m : SeqNum) (s : State) : (markReject m s).parts = s.parts := rfl

@[simp] theorem onReject_parts (rs : SeqNum) (s : State) : (onReject rs s).parts = s.parts := by
  rcases onReject_cases rs s with he | he | ⟨-, he⟩ | ⟨-, he⟩ <;> simp [he, markReject_parts]

@[simp] theorem ackPacket_parts (ack : SeqNum) (advanced : Bool) (s : State) :
    (ackPacket ack advanced s).parts = s.parts := by
  unfold ackPacket
  split
  · exact onReject_parts _ s
  · rfl

@[simp] theorem peerClose_parts (s : State) : (peerClose s).parts = s.parts := by rw [peerClose_eq]; rfl

@[simp] theorem service_parts (s : State) : (service s).parts = s.parts := by rw [service_eq rfl rfl]; rfl

@[simp] theorem serviceIfReady_parts (s : State) : (serviceIfReady s).parts = s.parts := by
  unfold serviceIfReady
  split
  · exact service_parts s
  · rfl

/-- Of the parts a numbered packet leaves what its own handling leaves (R230, R231). -/
theorem acceptNumbered_parts {α : Type} (f : Parts → α) {own : Bool → State → State}
    (hown : ∀ b t, f (own b t).parts = f t.parts) (ack : SeqNum) (s : State) :
    f (acceptNumbered ack own s).parts = f s.parts := by
  rcases acceptNumbered_cases ack own s with ⟨-, he⟩ | ⟨-, he⟩ | ⟨-, he⟩ <;> simp [he, hown]

/-! ### DATA -/

theorem drain_lessReceive (n : Nat) (s : State) : (drain n s).parts.lessReceive = s.parts.lessReceive :=
  drain_keeps (P := fun t => t.parts.lessReceive = s.parts.lessReceive) (fun _ _ ht => ht) n s rfl

theorem onData_lessReceive (q : SeqNum) (lch rch : Channel) (eom : Bool) (p : List Byte) (s : State) :
    (onData q lch rch eom p s).parts.lessReceive = s.parts.lessReceive := by
  obtain ⟨t, he, hcase⟩ := onData_cases q lch rch eom p s
  have ht : t.parts.lessReceive = s.parts.lessReceive := by
    rcases hcase with ⟨-, rfl⟩ | ⟨-, -, rfl⟩ | rfl
    · exact drain_lessReceive 32 _
    all_goals rfl
  rcases he with he | he <;> rw [he] <;> exact ht

theorem State.reordByte_congr (hmem : t.reordMem = s.reordMem) (hepoch : t.resetEpoch = s.resetEpoch) (a : Nat) :
    t.reordByte a = s.reordByte a := by
  rw [State.reordByte, hmem, hepoch]; rfl

/-- Only a packet ahead of the expected one is stored (R232). -/
theorem onData_reordByte {q : SeqNum} {p : List Byte} {a : Nat}
    (ha : 2 ≤ dist q s.win.lastRecv → dist q s.win.lastRecv ≤ s.sizes.lwin →
      ¬(recordAddr q 0 ≤ a ∧ a < recordAddr q 0 + p.length)) (lch rch : Channel) (eom : Bool) :
    (onData q lch rch eom p s).reordByte a = s.reordByte a := by
  obtain ⟨t, he, hcase⟩ := onData_cases q lch rch eom p s
  have ht : t.reordByte a = s.reordByte a := by
    rcases hcase with ⟨-, rfl⟩ | ⟨h2, hwin, rfl⟩ | rfl
    · have hstore := onDataExpected_store q lch rch eom p s
      exact State.reordByte_congr (congrArg Store.reordMem hstore) (congrArg Store.resetEpoch hstore) a
    · exact reordByte_onDataAhead_outside (ha h2 hwin) lch rch eom s
    · rfl
  rcases he with he | he <;> rw [he] <;> exact ht

/-- The bytes a DATA packet may change (R232). -/
theorem exec_data_reordByte {h : Hdr} {p : List Byte} {a : Nat} (he : exec (.data h p) s = .next t)
    (ha : s.pstate = .ready → 2 ≤ dist h.seq s.win.lastRecv → dist h.seq s.win.lastRecv ≤ s.sizes.lwin →
      ¬(recordAddr h.seq 0 ≤ a ∧ a < recordAddr h.seq 0 + p.length)) : t.reordByte a = s.reordByte a := by
  rcases acceptNumbered_cases h.ack (fun _ t => onData h.seq h.lch h.rch h.f p t) s with
    ⟨-, hs⟩ | ⟨hr, -⟩ | ⟨-, hs⟩
  · cases he; rw [hs]; rfl
  · rw [exec_data_of_ready hr] at he
    cases he
    have hservice := service_store (onData h.seq h.lch h.rch h.f p (s.counted (onAck h.ack s).2))
    have hdata := onData_reordByte (s := s.counted (onAck h.ack s).2) (q := h.seq) (p := p) (a := a)
      (by simpa [State.counted] using ha hr) h.lch h.rch h.f
    rw [State.reordByte_congr (congrArg Store.reordMem hservice) (congrArg Store.resetEpoch hservice), hdata]
    exact onAck_reordByte h.ack s a
  · cases he; rw [hs]

/-! ### SYNC -/

theorem finishHandshake_lessSession (s : State) : (finishHandshake s).parts.lessSession = s.parts.lessSession := by
  rcases finishHandshake_cases s with ⟨-, -, -, he⟩ | ⟨-, he⟩
  · rw [he]; rfl
  · rw [he]

theorem raiseFatal_lessSession (c : FailCause) (s : State) :
    (raiseFatal c s).parts.lessSession = s.parts.lessSession := by
  rw [raiseFatal_eq]; rfl

theorem fallbackOrFail_lessSession (s : State) : (fallbackOrFail s).parts.lessSession = s.parts.lessSession := by
  rcases fallbackOrFail_cases s with ⟨-, he⟩ | ⟨-, he⟩ <;> rw [he]
  · exact finishHandshake_lessSession _
  · exact raiseFatal_lessSession _ s

theorem tallyError_parts (kind : ErrKind) (s : State) : (tallyError kind s).parts = s.parts := by cases kind <;> rfl

theorem countError_lessSession (kind : ErrKind) (s : State) :
    (countError kind s).parts.lessSession = s.parts.lessSession := by
  have htally := congrArg Parts.lessSession (tallyError_parts kind s)
  rcases countError_cases kind s with he | ⟨-, he⟩ | ⟨-, he⟩ <;> rw [he]
  · exact htally
  · exact (fallbackOrFail_lessSession _).trans htally
  · exact (raiseFatal_lessSession _ _).trans htally

theorem handleSync_lessSession (f : Bool) (win k : Byte) (s : State) :
    (handleSync f win k s).parts.lessSession = s.parts.lessSession := by
  rcases handleSync_cases f win k s with ⟨-, he⟩ | ⟨-, -, he⟩ | ⟨-, -, he⟩ <;> rw [he]
  · exact countError_lessSession _ s
  · exact finishHandshake_lessSession _
  · exact finishHandshake_lessSession _

theorem acceptSync_lessSession (f : Bool) (win k : Byte) (s : State) :
    (acceptSync f win k s).parts.lessSession = s.parts.lessSession := by
  rcases acceptSync_cases f win k s with ⟨-, he⟩ | ⟨-, he⟩ | ⟨-, he⟩ <;> simp [he, handleSync_lessSession]

/-! ### Every packet -/

theorem exec_lessSession {i : Instr} (hi : isPacket i = true) (hdata : ∀ h p, i ≠ .data h p)
    (he : exec i s = .next t) : t.parts.lessSession = s.parts.lessSession := by
  cases i with
  | data h p => exact absurd rfl (hdata h p)
  | sync h win k => cases he; exact acceptSync_lessSession _ _ _ s
  | ack h => cases he; exact acceptNumbered_parts _ (fun _ _ => congrArg _ (ackPacket_parts _ _ _)) _ s
  | nak h => cases he; exact acceptNumbered_parts _ (fun _ _ => congrArg _ (onReject_parts _ _)) _ s
  | close h => cases he; exact acceptNumbered_parts _ (fun _ _ => congrArg _ (peerClose_parts _)) _ s
  | _ => cases hi

theorem exec_lessReceive {i : Instr} (hi : isPacket i = true) (hsync : ∀ h win k, i ≠ .sync h win k)
    (he : exec i s = .next t) : t.parts.lessReceive = s.parts.lessReceive := by
  cases i with
  | data h p => cases he; exact acceptNumbered_parts _ (fun _ _ => onData_lessReceive _ _ _ _ _ _) _ s
  | sync h win k => exact absurd rfl (hsync h win k)
  | ack h => cases he; exact acceptNumbered_parts _ (fun _ _ => congrArg _ (ackPacket_parts _ _ _)) _ s
  | nak h => cases he; exact acceptNumbered_parts _ (fun _ _ => congrArg _ (onReject_parts _ _)) _ s
  | close h => cases he; exact acceptNumbered_parts _ (fun _ _ => congrArg _ (peerClose_parts _)) _ s
  | _ => cases hi

/-- No packet is both DATA and SYNC, so each leaves the host's part. -/
theorem exec_packet_host {i : Instr} (hi : isPacket i = true) (he : exec i s = .next t) :
    t.parts.host = s.parts.host := by
  by_cases hdata : ∃ h p, i = .data h p
  · obtain ⟨h, p, rfl⟩ := hdata
    exact congrArg Prod.fst (exec_lessReceive hi (fun _ _ _ => nofun) he)
  · exact congrArg Prod.fst (exec_lessSession hi (fun h p hip => hdata ⟨h, p, hip⟩) he)

theorem exec_packet_reordByte {i : Instr} (hi : isPacket i = true) (he : exec i s = .next t) {a : Nat}
    (ha : ∀ h p, i = .data h p → s.pstate = .ready → 2 ≤ dist h.seq s.win.lastRecv →
      dist h.seq s.win.lastRecv ≤ s.sizes.lwin → ¬(recordAddr h.seq 0 ≤ a ∧ a < recordAddr h.seq 0 + p.length)) :
    t.reordByte a = s.reordByte a := by
  by_cases hdata : ∃ h p, i = .data h p
  · obtain ⟨h, p, rfl⟩ := hdata
    exact exec_data_reordByte he (ha h p rfl)
  · have hkept := exec_lessSession hi (fun h p hip => hdata ⟨h, p, hip⟩) he
    exact State.reordByte_congr (congrArg (·.2.reordMem) hkept) (streamFrame_exec hi he).resetEpoch a

theorem exec_packet_errorCounts {i : Instr} (hi : isPacket i = true) (he : exec i s = .next t) :
    t.counters.garbage = s.counters.garbage ∧ t.stats.crcerr = s.stats.crcerr := by
  rcases exec_packet_errors hi he with hsame | ⟨-, hone⟩
  · exact ⟨congrArg ErrorCounts.garbage hsame, congrArg ErrorCounts.crcerr hsame⟩
  · exact ⟨congrArg ErrorCounts.garbage hone, congrArg ErrorCounts.crcerr hone⟩

/-- Settles O28: the parts that all packets, all but DATA and all but SYNC leave. -/
theorem packetsKeepTheRest : Obligations.PacketsKeepTheRest := by
  intro i s t hi he
  have hframe := streamFrame_exec hi he
  have hhost := exec_packet_host hi he
  obtain ⟨hgarbage, hcrc⟩ := exec_packet_errorCounts hi he
  refine ⟨⟨congrArg (·.cfg) hhost, congrArg (·.cfgErr) hhost, congrArg (·.bufViol) hhost, hframe.resetEpoch,
    congrArg (·.inputs) hhost⟩, exec_packet_rxbuf hi he, fun a => ?slotByte, hframe.nextSeq, congrArg (·.bufSlot) hhost,
    congrArg (·.lwin) hhost, congrArg (·.acceptK) hhost, congrArg (·.role) hhost, hgarbage, hcrc,
    congrArg (·.timeout) hhost, fun a => exec_packet_reordByte hi he, fun hdata => ?receive, fun hsync => ?session⟩
  case slotByte => rw [State.slotByte, hframe.slotMem, hframe.resetEpoch]; rfl
  case receive =>
    have hkept := exec_lessSession hi hdata he
    exact ⟨congrArg (·.2.reord) hkept, congrArg (·.2.lastRecv) hkept, congrArg (·.2.eomSeen) hkept⟩
  case session =>
    have hkept := exec_lessReceive hi hsync he
    exact ⟨congrArg (·.2.sizes) hkept, congrArg (·.2.failCause) hkept, congrArg (·.2.bufOwned) hkept,
      congrArg (·.2.sentSync) hkept, congrArg (·.2.gotSync) hkept⟩

end

end Sys2Proof.Machine

namespace Sys2Proof.Machine

open Sys2Proof

section

variable {s : State}

/-! ### NEGOTIATING: only a SYNC is looked at -/

theorem acceptNumbered_of_negotiating (hn : s.pstate = .negotiating) (ack : SeqNum) (own : Bool → State → State) :
    acceptNumbered ack own s = goodPacket s := by
  unfold acceptNumbered
  rw [hn]

/-- Settles O26: the four packets that are no SYNC are numbered ones. -/
theorem negotiatingDiscardsNonSync : Obligations.NegotiatingDiscardsNonSync := by
  intro i s hn hi hsync
  cases i with
  | data h p => exact congrArg _ (acceptNumbered_of_negotiating hn _ _)
  | sync h win k => exact absurd rfl (hsync h win k)
  | ack h => exact congrArg _ (acceptNumbered_of_negotiating hn _ _)
  | nak h => exact congrArg _ (acceptNumbered_of_negotiating hn _ _)
  | close h => exact congrArg _ (acceptNumbered_of_negotiating hn _ _)
  | _ => cases hi

/-! ### SYNC accepted -/

/-- The state after the sizes of an accepted SYNC are settled and a request is answered (R237), before the handshake is
looked at. -/
def State.synced (s : State) (f : Bool) (win k : Byte) : State :=
  { s with
    sizes :=
      { s.sizes with
        rwin := BitVec.ofNat 5 (min win.toNat 16)
        rpktK := BitVec.ofNat 4 (min k.toNat 10)
        negPktK := BitVec.ofNat 4 (min s.sizes.lpktK.toNat (min k.toNat 10)) }
    flags := { s.flags with gotSync := true, sentSync := s.flags.sentSync || !f }
    stats := { s.stats with tx := if f then s.stats.tx else satInc s.stats.tx }
    out := s.out ++ if f then [] else [.tx (s.syncImage true)] }

/-- The sizes are clamped to 16 and 10, and the packet size is the smaller of the two (R237). -/
theorem settleSizes_eq (win k : Byte) (s : State) : settleSizes win k s = s.synced true win k := by
  have hk : (BitVec.ofNat 4 (min k.toNat 10)).toNat = min k.toNat 10 := by
    rw [BitVec.toNat_ofNat]
    omega
  unfold settleSizes State.synced
  dsimp only [Config.kMax, Config.winMax]
  rw [classMin_eq_ofNat, hk]
  simp

theorem handleSync_of_accepted {win k : Byte} (hwin : win ≠ 0) (hk : 5 ≤ k.toNat) (f : Bool) :
    handleSync f win k s = finishHandshake (s.synced f win k) := by
  have hok : ¬(win = 0 ∨ k.toNat < Config.kMin) := fun h => h.elim hwin (not_lt.mpr hk)
  unfold handleSync
  rw [if_neg hok, settleSizes_eq]
  cases f
  · simp [State.synced, transmitSync, transmit, emit, State.syncImage]
  · rfl

/-- In `NEGOTIATING` the handshake is complete if a SYNC has been sent by then (R29, R238). -/
theorem finishHandshake_synced (hn : s.pstate = .negotiating) (f : Bool) (win k : Byte) :
    finishHandshake (s.synced f win k) =
      { s.synced f win k with
        pstate := if s.flags.sentSync || !f then .ready else .negotiating
        counters := { s.counters with retry := if s.flags.sentSync || !f then 0 else s.counters.retry } } := by
  unfold finishHandshake
  cases hsent : s.flags.sentSync || !f <;> simp [State.synced, hn, hsent]

theorem finishHandshake_of_ready (hr : s.pstate = .ready) : finishHandshake s = s :=
  if_neg fun h => by rw [hr] at h; cases h.1

theorem exec_sync_of_negotiating (hn : s.pstate = .negotiating) (h : Hdr) (win k : Byte) :
    exec (.sync h win k) s = .next (handleSync h.f win k (s.counted s)) := by
  rw [← goodPacket_eq_counted]
  change Host.Outcome.next (acceptSync h.f win k s) = _
  unfold acceptSync
  rw [hn]

theorem exec_sync_of_ready (hr : s.pstate = .ready) (h : Hdr) (win k : Byte) :
    exec (.sync h win k) s = .next (serviceIfReady (handleSync h.f win k (s.counted s))) := by
  rw [← goodPacket_eq_counted]
  change Host.Outcome.next (acceptSync h.f win k s) = _
  unfold acceptSync
  rw [hr]

/-! ### SYNC refused -/

theorem handleSync_of_refused {win k : Byte} (h : win = 0 ∨ k.toNat < 5) (f : Bool) :
    handleSync f win k s = countError .hdrerr s := if_pos h

/-- Below a limit the error counter is not saturated. -/
theorem tallyError_hdrerr_eq (hlimit : s.counters.errcnt.toNat + 1 < 2 ^ 16) :
    tallyError .hdrerr s =
      { s with
        stats := { s.stats with hdrerr := satInc s.stats.hdrerr }
        counters := { s.counters with errcnt := s.counters.errcnt + 1 } } := by
  have hinc : satInc s.counters.errcnt = s.counters.errcnt + 1 := by
    refine if_neg fun htop => ?_
    rw [htop, BitVec.toNat_allOnes] at hlimit
    omega
  unfold tallyError
  rw [hinc]

/-- The error of a refused SYNC, which has been counted as a good packet (R237, log 19). -/
theorem tallyError_goodPacket (hlimit : (goodPacket s).counters.errcnt.toNat + 1 < 2 ^ 16) :
    tallyError .hdrerr (goodPacket s) =
      { s with
        counters := { (goodPacket s).counters with errcnt := (goodPacket s).counters.errcnt + 1 }
        stats := { s.stats with rx := satInc s.stats.rx, hdrerr := satInc s.stats.hdrerr } } := by
  rw [tallyError_hdrerr_eq hlimit, goodPacket_eq_counted]
  rfl

/-- In `READY` an error below the limit is only counted, and one at it ends the connection (R311). -/
theorem countError_of_ready (kind : ErrKind) (hr : s.pstate = .ready) :
    countError kind s =
      if s.cfg.errLimit ≤ (tallyError kind s).counters.errcnt then raiseFatal .errLimit (tallyError kind s)
      else tallyError kind s := by
  have htally : (tallyError kind s).pstate = .ready := hr
  unfold countError
  simp only [htally]
  rfl

/-- `service` finds nothing to send after an error in a quiet state, and does not run after the last one (R230). -/
theorem serviceIfReady_countError (hquiet : s.quiet) (hr : s.pstate = .ready) (kind : ErrKind) :
    serviceIfReady (countError kind s) = countError kind s := by
  rw [countError_of_ready kind hr]
  split
  · exact if_neg fun h => by rw [raiseFatal_pstate] at h; cases h
  · exact (if_pos hr).trans (service_of_quiet (s := tallyError kind s) hquiet)

/-- Settles O38: the sizes and the reply, then the handshake; a refused SYNC is an error. -/
theorem syncFinishesTheHandshake : Obligations.SyncFinishesTheHandshake := by
  refine ⟨fun h win k s hn hwin hk => ?_, fun h win k s hn hrefused => ?_⟩
  · have hcounted : (s.counted s).pstate = .negotiating := hn
    rw [exec_sync_of_negotiating hn, handleSync_of_accepted hwin hk, finishHandshake_synced hcounted]
    rfl
  · have hexec : exec (.sync h win k) s = .next (countError .hdrerr (goodPacket s)) := by
      rw [exec_sync_of_negotiating hn, handleSync_of_refused hrefused, goodPacket_eq_counted]
    refine ⟨hexec, fun hlimit => hexec.trans ?_⟩
    have hbelow : (tallyError .hdrerr (goodPacket s)).counters.errcnt.toNat < s.cfg.negErrLimit.toNat :=
      (tallyError_errcnt_lt_iff .hdrerr (goodPacket s)).mpr hlimit
    have hcount : countError .hdrerr (goodPacket s) = tallyError .hdrerr (goodPacket s) :=
      (countError_negotiating .hdrerr (s := goodPacket s) hn).elim And.right fun h =>
        absurd hbelow (not_lt.mpr h.1)
    rw [hcount, tallyError_goodPacket]
    have := s.cfg.negErrLimit.isLt
    omega

/-- Settles O39: as in `NEGOTIATING`, with the handshake behind and `service` without anything to send. -/
theorem syncInReadyResetsNothing : Obligations.SyncInReadyResetsNothing := by
  refine ⟨fun h win k s hr hquiet hwin hk => ?_, fun h win k s hr hquiet hrefused => ?_⟩
  · have hcounted : ((s.counted s).synced h.f win k).pstate = .ready := hr
    have hstill : ((s.counted s).synced h.f win k).quiet := hquiet
    rw [exec_sync_of_ready hr, handleSync_of_accepted hwin hk, finishHandshake_of_ready hcounted,
      serviceIfReady_of_ready hcounted, service_of_quiet hstill, goodPacket_eq_counted]
    rfl
  · have hexec : exec (.sync h win k) s = .next (countError .hdrerr (goodPacket s)) := by
      rw [exec_sync_of_ready hr, handleSync_of_refused hrefused, goodPacket_eq_counted,
        serviceIfReady_countError (State.quiet_counted hquiet) hr]
    refine ⟨hexec, fun hlimit => hexec.trans ?_⟩
    have hbound : (goodPacket s).counters.errcnt.toNat + 1 < 2 ^ 16 := hlimit.trans s.cfg.errLimit.isLt
    have htally := tallyError_goodPacket hbound
    have hbelow : ¬s.cfg.errLimit ≤ (tallyError .hdrerr (goodPacket s)).counters.errcnt := by
      rw [htally]
      bv_omega
    rw [countError_of_ready .hdrerr (s := goodPacket s) hr, ← htally]
    exact congrArg _ (if_neg hbelow)

/-! ### CLOSE -/

/-- A CLOSE in `READY`: its ack is applied, then the connection closes, and `service` does not run (R230, R241). -/
theorem exec_close_of_ready (hr : s.pstate = .ready) (h : Hdr) :
    exec (.close h) s = .next (peerClose (s.counted (onAck h.ack s).2)) := by
  have hclosed : serviceIfReady (peerClose (s.counted (onAck h.ack s).2)) = peerClose (s.counted (onAck h.ack s).2) :=
    if_neg fun hp => by rw [peerClose_pstate] at hp; cases hp
  rw [← hclosed, ← acceptNumbered_of_ready hr h.ack fun _ t => peerClose t]
  rfl

/-- Settles O40: the ack as `onAck` applies it, then `peerClose`. -/
theorem peerCloseEndsThePendingCommand : Obligations.PeerCloseEndsThePendingCommand := by
  intro h s hr
  obtain ⟨happlied, hignored⟩ := ackApplied_onAck h.ack s
  have hkept := onAck_eq h.ack s
  have hclosed := peerClose_eq (s.counted (onAck h.ack s).2)
  have hpend : (onAck h.ack s).2.pend = s.pend := congrArg (·.pend) hkept
  refine ⟨_, exec_close_of_ready hr h, peerClose_pstate _, congrArg (·.pend) hclosed, fun q => ?slot,
    fun ho => ?acked, fun ho => ?ignored, ?out, ?stats, ?rest⟩
  case slot =>
    rw [hclosed]
    exact onAck_slot h.ack s q
  case acked =>
    rw [hclosed, (happlied ho).2]
    exact ⟨rfl, rfl, rfl⟩
  case ignored =>
    rw [hclosed, hignored ho, goodPacket_eq_counted]
    exact ⟨rfl, rfl, rfl⟩
  case out =>
    rw [hclosed]
    simp [State.counted, onAck_out, hpend]
  case stats =>
    rw [hclosed]
    simp [State.counted]
  case rest =>
    rw [hclosed, hkept]
    exact ⟨rfl, rfl, rfl, ⟨fun _ => rfl, fun _ => rfl⟩, rfl, rfl, rfl, rfl, rfl, rfl⟩

end

end Sys2Proof.Machine

namespace Sys2Proof.Machine

open Sys2Proof

section

variable {s t : State}

/-! ### Deliveries -/

@[simp] theorem deliveries_append (l m : List OutEvent) : deliveries (l ++ m) = deliveries l ++ deliveries m := by
  induction l with
  | nil => rfl
  | cons e l ih => cases e <;> simp [deliveries, ih]

/-- An ack delivers nothing (R165, R166). -/
theorem deliveries_onAck (a : SeqNum) (s : State) : deliveries (onAck a s).2.out = deliveries s.out := by
  rw [onAck_out, deliveries_append]
  split <;> exact List.append_nil _

/-- What `service` transmits is no delivery (R263). -/
theorem deliveries_service (s : State) : deliveries (service s).out = deliveries s.out := by
  refine service_keeps (P := fun t => deliveries t.out = deliveries s.out) (fun t ht => ?round) (fun t _ ht => ?nak)
    (fun t _ ht => ?ack) s rfl
  case round => rw [pumpOne_out, deliveries_append]; exact (List.append_nil _).trans ht
  case ack => rw [transmitAck_out, deliveries_append]; exact (List.append_nil _).trans ht
  case nak =>
    rcases gapNak_cases t with he | he <;> rw [he]
    · exact ht
    · change deliveries (transmitNak _ t).out = _
      rw [transmitNak_out, deliveries_append]; exact (List.append_nil _).trans ht

/-- What `deliveries` lists for entry `q` of the reorder buffer. -/
def State.entryDelivery (s : State) (q : SeqNum) : Channel × Channel × Bool × List Byte :=
  ((s.reordAt q).lch, (s.reordAt q).rch, (s.reordAt q).eom, s.reordPayload q)

theorem deliveries_map_delivery (s : State) (l : List SeqNum) :
    deliveries (l.map s.delivery) = l.map s.entryDelivery := by
  induction l with
  | nil => rfl
  | cons q l ih => exact congrArg (List.cons _) ih

/-! ### What a packet's receiver sees of the state -/

/-- The parts of the state with the deliveries so far: what the ack of a packet and the service step leave. -/
structure Receiver where
  parts : Parts
  pstate : PState
  resetEpoch : Nat
  delivered : List (Channel × Channel × Bool × List Byte)

def State.receiver (s : State) : Receiver := ⟨s.parts, s.pstate, s.resetEpoch, deliveries s.out⟩

theorem receiver_service (s : State) : (service s).receiver = s.receiver := by
  have hepoch : (service s).resetEpoch = s.resetEpoch := congrArg Store.resetEpoch (service_store s)
  unfold State.receiver
  rw [service_parts, (service_same s).2, deliveries_service, hepoch]

theorem receiver_acked (a : SeqNum) (s : State) : (s.counted (onAck a s).2).receiver = s.receiver := by
  have hparts : (s.counted (onAck a s).2).parts = s.parts := onAck_parts a s
  have hpstate : (s.counted (onAck a s).2).pstate = s.pstate := onAck_pstate a s
  have hepoch : (s.counted (onAck a s).2).resetEpoch = s.resetEpoch := (streamFrame_onAck a s).resetEpoch
  have hout : deliveries (s.counted (onAck a s).2).out = deliveries s.out := deliveries_onAck a s
  unfold State.receiver
  rw [hparts, hpstate, hepoch, hout]

/-- The ACK a DATA packet may leave owed, as one record (R232, R243 (b)). -/
theorem oweAck_if_due (s : State) :
    (if s.ackDue = true then oweAck s else s) =
      { s with flags := { s.flags with ackPending := s.flags.ackPending || s.ackDue } } := by
  cases hdue : s.ackDue <;> simp [oweAck]

theorem receiver_served (s : State) : (service (if s.ackDue = true then oweAck s else s)).receiver = s.receiver := by
  rw [receiver_service, oweAck_if_due]
  rfl

theorem State.reordPayload_congr {q : SeqNum} (hentry : t.reordAt q = s.reordAt q)
    (hbytes : ∀ i, i < (s.reordAt q).len.toNat → t.reordByte (recordAddr q i) = s.reordByte (recordAddr q i)) :
    t.reordPayload q = s.reordPayload q := by
  unfold State.reordPayload
  rw [hentry]
  exact List.map_congr_left fun i hi => hbytes i (List.mem_range.mp hi)

theorem reordAt_of_receiver (h : t.receiver = s.receiver) (q : SeqNum) : t.reordAt q = s.reordAt q := by
  rw [State.reordAt, show t.reord = s.reord from congrArg (·.parts.receive.reord) h]
  rfl

theorem reordPayload_of_receiver (h : t.receiver = s.receiver) (q : SeqNum) :
    t.reordPayload q = s.reordPayload q :=
  State.reordPayload_congr (reordAt_of_receiver h q) fun _ _ =>
    State.reordByte_congr (congrArg (·.parts.receive.reordMem) h) (congrArg Receiver.resetEpoch h) _

/-! ### A packet ahead of the expected one, whatever else there is to send -/

/-- State `t` is state `s` with packet `h` and its payload `p` stored ahead of the expected one (R232), as far as the
receiver sees it. -/
structure StoredAhead (h : Hdr) (p : List Byte) (s t : State) : Prop where
  pstate : t.pstate = s.pstate
  lastRecv : t.win.lastRecv = s.win.lastRecv
  sizes : t.sizes = s.sizes
  eomSeen : t.flags.eomSeen = s.flags.eomSeen
  delivered : deliveries t.out = deliveries s.out
  entry : t.reordAt h.seq = { valid := true, lch := h.lch, rch := h.rch, eom := h.f, len := BitVec.ofNat 11 p.length }
  payload : t.reordPayload h.seq = p
  otherEntry : ∀ q, q ≠ h.seq → t.reordAt q = s.reordAt q
  otherPayload : ∀ q, q ≠ h.seq → (s.reordAt q).len.toNat ≤ 1024 → t.reordPayload q = s.reordPayload q

/-- The records do not overlap (R60). -/
theorem recordAddr_outside {q r : SeqNum} (hne : r ≠ q) {i n : Nat} (hi : i < 1024) (hn : n ≤ 1024) :
    ¬(recordAddr q 0 ≤ recordAddr r i ∧ recordAddr r i < recordAddr q 0 + n) := by
  have hnat : r.toNat ≠ q.toNat := fun he => hne (BitVec.eq_of_toNat_eq he)
  unfold recordAddr Config.slotBytes
  omega

theorem storedAhead_onDataAhead {p : List Byte} (hlen : p.length ≤ 1024) (h : Hdr) (s : State) :
    StoredAhead h p s (onDataAhead h.seq h.lch h.rch h.f p s) where
  pstate := rfl
  lastRecv := rfl
  sizes := rfl
  eomSeen := rfl
  delivered := rfl
  entry := entryAt_setEntry_same _ _ _
  payload := reordPayload_onDataAhead hlen _ _ _ _ _
  otherEntry _ hq := entryAt_setEntry_other _ _ hq
  otherPayload q hq hshort := State.reordPayload_congr (entryAt_setEntry_other _ _ hq) fun i hi =>
    reordByte_onDataAhead_outside (recordAddr_outside hq (by omega) hlen) _ _ _ _

theorem StoredAhead.congr {h : Hdr} {p : List Byte} {s' t' : State} (hst : StoredAhead h p s t)
    (hs : s.receiver = s'.receiver) (ht : t'.receiver = t.receiver) : StoredAhead h p s' t' where
  pstate := (congrArg Receiver.pstate ht).trans (hst.pstate.trans (congrArg Receiver.pstate hs))
  lastRecv :=
    (congrArg (·.parts.receive.lastRecv) ht).trans (hst.lastRecv.trans (congrArg (·.parts.receive.lastRecv) hs))
  sizes := (congrArg (·.parts.session.sizes) ht).trans (hst.sizes.trans (congrArg (·.parts.session.sizes) hs))
  eomSeen := (congrArg (·.parts.receive.eomSeen) ht).trans (hst.eomSeen.trans (congrArg (·.parts.receive.eomSeen) hs))
  delivered := (congrArg Receiver.delivered ht).trans (hst.delivered.trans (congrArg Receiver.delivered hs))
  entry := (reordAt_of_receiver ht _).trans hst.entry
  payload := (reordPayload_of_receiver ht _).trans hst.payload
  otherEntry q hq := (reordAt_of_receiver ht q).trans ((hst.otherEntry q hq).trans (reordAt_of_receiver hs q))
  otherPayload q hq hshort :=
    (reordPayload_of_receiver ht q).trans
      ((hst.otherPayload q hq (by rwa [reordAt_of_receiver hs])).trans (reordPayload_of_receiver hs q))

theorem StoredAhead.entryDelivery {h : Hdr} {p : List Byte} (hst : StoredAhead h p s t) :
    t.entryDelivery h.seq = (h.lch, h.rch, h.f, p) := by
  rw [State.entryDelivery, hst.entry, hst.payload]

theorem StoredAhead.entryDelivery_other {h : Hdr} {p : List Byte} (hst : StoredAhead h p s t) {q : SeqNum}
    (hq : q ≠ h.seq) (hshort : (s.reordAt q).len.toNat ≤ 1024) : t.entryDelivery q = s.entryDelivery q := by
  rw [State.entryDelivery, hst.otherEntry q hq, hst.otherPayload q hq hshort, State.entryDelivery]

/-- A DATA packet ahead of the expected one is stored, whatever is acknowledged and sent besides (R232). -/
theorem exec_data_storedAhead {h : Hdr} {p : List Byte} (hr : s.pstate = .ready) (hlen : p.length ≤ 1024)
    (h2 : 2 ≤ dist h.seq s.win.lastRecv) (hwin : dist h.seq s.win.lastRecv ≤ s.sizes.lwin) :
    ∃ t, exec (.data h p) s = .next t ∧ StoredAhead h p s t := by
  refine ⟨_, exec_data_of_ready hr h p, ?_⟩
  rw [onData_of_ahead (by simpa [State.counted] using h2) (by simpa [State.counted] using hwin) _ _ _ _ rfl]
  exact (storedAhead_onDataAhead hlen h _).congr (receiver_acked h.ack s) (receiver_served _)

/-- A DATA packet that is not new leaves what the receiver sees (R232). -/
theorem exec_data_of_old {h : Hdr} (hr : s.pstate = .ready) (h1 : dist h.seq s.win.lastRecv ≠ 1)
    (hold : dist h.seq s.win.lastRecv = 0 ∨ s.sizes.lwin < dist h.seq s.win.lastRecv) (p : List Byte) :
    ∃ t, exec (.data h p) s = .next t ∧ t.receiver = s.receiver := by
  refine ⟨_, exec_data_of_ready hr h p, ?_⟩
  rw [onData_of_old (by simpa [State.counted] using h1) (by simpa [State.counted] using hold), receiver_service]
  exact receiver_acked h.ack s

/-! ### The expected packet with all that waited -/

/-- Without a gap `service` asks for no packet (R264), and it never touches the counters. -/
theorem service_of_no_gap (h : ∀ q, (s.reordAt q).valid = false) :
    (service s).flags.nakedValid = s.flags.nakedValid ∧ (service s).counters = s.counters := by
  rw [service_eq rfl (State.asksGap_of_no_gap h)]
  exact ⟨Bool.or_false _, rfl⟩

/-- The state after the expected DATA packet, where exactly the `n` packets behind it were waiting (R232 to R234,
R264). -/
structure DeliveredAll (h : Hdr) (p : List Byte) (n : Nat) (s t : State) : Prop where
  lastRecv : t.win.lastRecv = h.seq + BitVec.ofNat 5 n
  empty : ∀ q, (t.reordAt q).valid = false
  eomSeen : t.flags.eomSeen =
    (s.flags.eomSeen || h.f || (List.range n).any fun i => (s.reordAt (h.seq + 1 + BitVec.ofNat 5 i)).eom)
  nakedValid : t.flags.nakedValid = false
  retry : t.counters.retry = 0
  delivered : deliveries t.out = deliveries s.out ++ (h.lch, h.rch, h.f, p) ::
    (List.range n).map fun i => s.entryDelivery (h.seq + 1 + BitVec.ofNat 5 i)

/-- What `on_data` and the service step make of the expected packet (R232 to R234, R264). -/
theorem deliveredAll_received {h : Hdr} {n : Nat}
    (hnone : ∀ q, ¬(1 ≤ (dist q h.seq).toNat ∧ (dist q h.seq).toNat ≤ n) → (s.reordAt q).valid = false)
    (p : List Byte) (ht : t = s.received h p n) :
    DeliveredAll h p n s (service (if t.ackDue = true then oweAck t else t)) := by
  have hserved := receiver_served t
  have hempty (q : SeqNum) : (t.reordAt q).valid = false := by
    have hentry : t.reordAt q = _ := (congrArg (State.reordAt · q) ht).trans (entryAt_drainedReord h.seq n s.reord q)
    rw [hentry]
    split
    · rfl
    · exact hnone q ‹_›
  obtain ⟨hnaked, hcounters⟩ := service_of_no_gap (s := if t.ackDue = true then oweAck t else t)
    (by rw [oweAck_if_due]; exact hempty)
  rw [oweAck_if_due] at hnaked hcounters
  constructor
  case lastRecv =>
    refine (congrArg (·.parts.receive.lastRecv) hserved).trans ?_
    rw [ht]; rfl
  case empty => exact fun q => (congrArg ReordRec.valid (reordAt_of_receiver hserved q)).trans (hempty q)
  case eomSeen =>
    refine (congrArg (·.parts.receive.eomSeen) hserved).trans ?_
    rw [ht]; rfl
  case nakedValid => rw [oweAck_if_due, hnaked, ht]; rfl
  case retry => rw [oweAck_if_due, hcounters, ht]; rfl
  case delivered =>
    refine (congrArg Receiver.delivered hserved).trans ?_
    have hmap := deliveries_map_delivery s ((List.range n).map fun i => h.seq + 1 + BitVec.ofNat 5 i)
    rw [List.map_map, List.map_map] at hmap
    rw [ht, ← Function.comp_def s.entryDelivery, ← hmap]
    exact deliveries_append _ _

theorem DeliveredAll.of_receiver {h : Hdr} {p : List Byte} {n : Nat} {s' : State} (hst : DeliveredAll h p n s t)
    (hs : s.receiver = s'.receiver) : DeliveredAll h p n s' t where
  lastRecv := hst.lastRecv
  empty := hst.empty
  eomSeen := by
    have heom : s.flags.eomSeen = s'.flags.eomSeen := congrArg (·.parts.receive.eomSeen) hs
    simpa only [reordAt_of_receiver hs, heom] using hst.eomSeen
  nakedValid := hst.nakedValid
  retry := hst.retry
  delivered := by
    have hout : deliveries s.out = deliveries s'.out := congrArg Receiver.delivered hs
    simpa only [State.entryDelivery, reordAt_of_receiver hs, reordPayload_of_receiver hs, hout] using hst.delivered

/-- The expected packet is delivered with all that waited, whatever is acknowledged and sent besides (R232, R234). -/
theorem exec_data_deliveredAll {h : Hdr} {n : Nat} (hr : s.pstate = .ready) (hseq : h.seq = s.win.lastRecv + 1)
    (hn : n < 32) (hvalid : ∀ i, i < n → (s.reordAt (h.seq + 1 + BitVec.ofNat 5 i)).valid = true)
    (hnone : ∀ q, ¬(1 ≤ (dist q h.seq).toNat ∧ (dist q h.seq).toNat ≤ n) → (s.reordAt q).valid = false)
    (p : List Byte) : ∃ t, exec (.data h p) s = .next t ∧ DeliveredAll h p n s t := by
  have hacked := receiver_acked h.ack s
  have hentry := reordAt_of_receiver hacked
  have hstop : (s.reordAt (h.seq + 1 + BitVec.ofNat 5 n)).valid = false :=
    hnone _ (by unfold dist; bv_omega)
  have hreceived : onDataExpected h.seq h.lch h.rch h.f p (s.counted (onAck h.ack s).2) = _ :=
    onDataExpected_eq hn (by simpa only [hentry] using hvalid) (by rwa [hentry]) p
  have hexpected : h.seq = (s.counted (onAck h.ack s).2).win.lastRecv + 1 := by simpa [State.counted] using hseq
  refine ⟨_, exec_data_of_ready hr h p, ?_⟩
  rw [onData_of_expected hexpected _ _ _ _ hreceived]
  exact (deliveredAll_received (by simpa only [hentry] using hnone) p rfl).of_receiver hacked

/-- Settles O32: two packets stored, then the expected one, behind which both wait; or the first of them dropped. -/
theorem outOfOrderArrivalsAreDeliveredInOrder : Obligations.OutOfOrderArrivalsAreDeliveredInOrder := by
  intro h0 h1 h2 p0 p1 p2 s hr hnone hseq0 hseq1 hseq2 _ hlen1 hlen2
  have hdist (c : SeqNum) : dist (s.win.lastRecv + c) s.win.lastRecv = c := add_sub_cancel_left _ _
  have hdist2 : dist h2.seq s.win.lastRecv = 3 := hseq2 ▸ hdist 3
  refine ⟨fun hwin => ?inOrder, fun hwin => ?dropped⟩
  case inOrder =>
    obtain ⟨s2, he2, hst2⟩ := exec_data_storedAhead (h := h2) hr hlen2 (by rw [hdist2]; decide) (by rwa [hdist2])
    have hdist1 : dist h1.seq s2.win.lastRecv = 2 := by rw [hst2.lastRecv, hseq1]; exact hdist 2
    obtain ⟨s1, he1, hst1⟩ := exec_data_storedAhead (h := h1) (hst2.pstate.trans hr) hlen1 (by rw [hdist1]; decide)
      (by rw [hdist1, hst2.sizes]; bv_omega)
    have hne : h2.seq ≠ h1.seq := by bv_omega
    have hentry2 := (hst1.otherEntry _ hne).trans hst2.entry
    have hdelivery2 : s1.entryDelivery h2.seq = (h2.lch, h2.rch, h2.f, p2) := by
      refine (hst1.entryDelivery_other hne ?_).trans hst2.entryDelivery
      rw [hst2.entry]
      exact (Nat.mod_le _ _).trans hlen2
    have hnext1 : h0.seq + 1 + BitVec.ofNat 5 0 = h1.seq := by bv_omega
    have hnext2 : h0.seq + 1 + BitVec.ofNat 5 1 = h2.seq := by bv_omega
    have hwaiting : ∀ i, i < 2 → (s1.reordAt (h0.seq + 1 + BitVec.ofNat 5 i)).valid = true := by
      intro i hi
      interval_cases i
      · rw [hnext1, hst1.entry]
      · rw [hnext2, hentry2]
    have hothers : ∀ q, ¬(1 ≤ (dist q h0.seq).toNat ∧ (dist q h0.seq).toNat ≤ 2) → (s1.reordAt q).valid = false := by
      intro q hq
      have hne1 : q ≠ h1.seq := by rintro rfl; unfold dist at hq; bv_omega
      have hne2 : q ≠ h2.seq := by rintro rfl; unfold dist at hq; bv_omega
      rw [hst1.otherEntry q hne1, hst2.otherEntry q hne2]
      exact hnone q
    obtain ⟨s0, he0, hall⟩ := exec_data_deliveredAll (hst1.pstate.trans (hst2.pstate.trans hr))
      (by rw [hst1.lastRecv, hst2.lastRecv, hseq0]) (by decide) hwaiting hothers p0
    have hrange : List.range 2 = [0, 1] := rfl
    have hdelivered := hst1.delivered.trans hst2.delivered
    refine ⟨s2, s1, s0, he2, hst2.delivered, he1, hdelivered, he0, ?_, ?_, hall.empty, ?_, hall.nakedValid, hall.retry⟩
    · rw [hall.delivered, hdelivered, hrange]
      simp only [List.map_cons, List.map_nil, hnext1, hnext2, hst1.entryDelivery, hdelivery2]
    · rw [hall.lastRecv]; bv_omega
    · rw [hall.eomSeen, hst1.eomSeen, hst2.eomSeen, hrange]
      simp only [List.any_cons, List.any_nil, hnext1, hnext2, hst1.entry, hentry2, Bool.or_assoc, Bool.or_false]
  case dropped =>
    obtain ⟨s2, he2, hsame⟩ := exec_data_of_old (h := h2) hr (by rw [hdist2]; decide) (.inr (by rwa [hdist2])) p2
    exact ⟨s2, he2, congrArg Receiver.delivered hsame, congrArg (·.parts.receive.reord) hsame,
      congrArg (·.parts.receive.lastRecv) hsame⟩

end

end Sys2Proof.Machine

/-! ## Proofs of the family 44_arbiter: the one place where `NEXT_SEQ` moves -/

namespace Sys2Proof.Machine

open Sys2Proof

section

variable {s t : State}

/-! ### No part of an event takes an output back -/

theorem out_prefix_of_append {new : List OutEvent} (h : t.out = s.out ++ new) : s.out <+: t.out := ⟨new, h.symm⟩

theorem out_prefix_of_eq (h : t.out = s.out) : s.out <+: t.out := h ▸ List.prefix_rfl

theorem out_prefix_raiseFatal (c : FailCause) (s : State) : s.out <+: (raiseFatal c s).out := by
  rw [raiseFatal_eq]; exact List.prefix_append _ _

theorem out_prefix_peerClose (s : State) : s.out <+: (peerClose s).out := by
  rw [peerClose_eq]; exact List.prefix_append _ _

theorem out_prefix_requestSync (s : State) : s.out <+: (requestSync s).out := out_prefix_of_append (requestSync_out s)

/-- The fallback tells the host the new size before it asks for it (R312). -/
theorem out_prefix_fallbackOrFail (s : State) : s.out <+: (fallbackOrFail s).out := by
  rcases fallbackOrFail_cases s with ⟨-, he⟩ | ⟨-, he⟩ <;> rw [he]
  · simp only [requestSync_out, emit_out, List.append_assoc]
    exact List.prefix_append _ _
  · exact out_prefix_raiseFatal _ s

theorem out_prefix_countError (kind : ErrKind) (s : State) : s.out <+: (countError kind s).out := by
  rcases countError_cases kind s with he | ⟨-, he⟩ | ⟨-, he⟩ <;> rw [he]
  · exact out_prefix_of_eq (tallyError_out kind s)
  · exact out_prefix_fallbackOrFail (tallyError kind s)
  · exact out_prefix_raiseFatal _ (tallyError kind s)

theorem out_prefix_serviceIfReady (s : State) : s.out <+: (serviceIfReady s).out := by
  unfold serviceIfReady
  split
  · rw [service_eq rfl rfl]
    simp only [List.append_assoc]
    exact List.prefix_append _ _
  · exact List.prefix_rfl

theorem out_prefix_onAck (a : SeqNum) (s : State) : s.out <+: (onAck a s).2.out := out_prefix_of_append (onAck_out a s)

theorem out_prefix_onReject (rs : SeqNum) (s : State) : s.out <+: (onReject rs s).out := by
  rcases onReject_cases rs s with he | he | ⟨-, he⟩ | ⟨-, he⟩ <;> rw [he]
  · exact out_prefix_onAck rs s
  · exact out_prefix_of_eq (markReject_out _ s)
  · exact (out_prefix_onAck rs s).trans (out_prefix_of_eq (markReject_out _ _))

theorem out_prefix_ackPacket (ack : SeqNum) (advanced : Bool) (s : State) :
    s.out <+: (ackPacket ack advanced s).out := by
  unfold ackPacket
  split
  · exact out_prefix_onReject _ s
  · exact List.prefix_rfl

/-- Every round of `drain` delivers one packet more (R234). -/
theorem out_prefix_onDataExpected (q : SeqNum) (lch rch : Channel) (eom : Bool) (p : List Byte) (s : State) :
    s.out <+: (onDataExpected q lch rch eom p s).out :=
  drain_keeps (P := fun u => s.out <+: u.out) (fun u _ hu => hu.trans (out_prefix_of_append (drainOne_out _ u))) 32 _
    (out_prefix_of_append (deliver_out lch rch eom p s))

theorem out_prefix_onData (q : SeqNum) (lch rch : Channel) (eom : Bool) (p : List Byte) (s : State) :
    s.out <+: (onData q lch rch eom p s).out := by
  obtain ⟨u, he, hcase⟩ := onData_cases q lch rch eom p s
  have hu : s.out <+: u.out := by
    rcases hcase with ⟨-, rfl⟩ | ⟨-, -, rfl⟩ | rfl
    · exact out_prefix_onDataExpected q lch rch eom p s
    · exact out_prefix_of_eq (onDataAhead_out q lch rch eom p s)
    · exact out_prefix_of_eq (oweAck_out s)
  rcases he with he | he <;> rw [he]
  · exact hu
  · exact hu.trans (out_prefix_of_eq (oweAck_out u))

theorem out_prefix_handleSync (f : Bool) (win k : Byte) (s : State) : s.out <+: (handleSync f win k s).out := by
  rcases handleSync_cases f win k s with ⟨-, he⟩ | ⟨-, -, he⟩ | ⟨-, -, he⟩ <;> rw [he]
  · exact out_prefix_countError _ s
  · exact out_prefix_of_eq (finishHandshake_out _)
  · exact out_prefix_of_append ((finishHandshake_out _).trans (transmitSync_out true (settleSizes win k s)))

theorem out_prefix_acceptSync (f : Bool) (win k : Byte) (s : State) : s.out <+: (acceptSync f win k s).out := by
  have hsync : s.out <+: (handleSync f win k (goodPacket s)).out := out_prefix_handleSync f win k (goodPacket s)
  rcases acceptSync_cases f win k s with ⟨-, he⟩ | ⟨-, he⟩ | ⟨-, he⟩ <;> rw [he]
  · exact hsync
  · exact hsync.trans (out_prefix_serviceIfReady _)

theorem out_prefix_acceptNumbered {own : Bool → State → State} (hown : ∀ b u, u.out <+: (own b u).out) (ack : SeqNum)
    (s : State) : s.out <+: (acceptNumbered ack own s).out := by
  have hack : s.out <+: (onAck ack (goodPacket s)).2.out := out_prefix_onAck ack (goodPacket s)
  rcases acceptNumbered_cases ack own s with ⟨-, he⟩ | ⟨-, he⟩ | ⟨-, he⟩ <;> rw [he]
  · exact out_prefix_of_eq (goodPacket_out s)
  · exact (hack.trans (hown _ _)).trans (out_prefix_serviceIfReady _)

theorem out_prefix_exec_packet {i : Instr} (hi : isPacket i = true) (he : exec i s = .next t) : s.out <+: t.out := by
  cases i with
  | data hdr p => cases he; exact out_prefix_acceptNumbered (fun _ u => out_prefix_onData _ _ _ _ _ u) _ s
  | sync hdr win k => cases he; exact out_prefix_acceptSync _ _ _ s
  | ack hdr => cases he; exact out_prefix_acceptNumbered (fun _ u => out_prefix_ackPacket _ _ u) _ s
  | nak hdr => cases he; exact out_prefix_acceptNumbered (fun _ u => out_prefix_onReject _ u) _ s
  | close hdr => cases he; exact out_prefix_acceptNumbered (fun _ u => out_prefix_peerClose u) _ s
  | _ => cases hi

theorem out_prefix_decodeLoop (h : decodeLoop s = .next t) : s.out <+: t.out :=
  decodeRounds_keeps (P := fun u => s.out <+: u.out) (fun u _ hu => hu.trans (out_prefix_of_eq (drop1_out u)))
    (fun kind u _ hu => hu.trans (out_prefix_countError kind u))
    (fun _ u rest _ _ hf hu he =>
      hu.trans (out_prefix_exec_packet (s := { u with rxbuf := rest }) (decodeFrame_packet hf).1 he))
    _ s t List.prefix_rfl h

theorem out_prefix_feed {chunk : List Byte} (h : feed chunk s = .next t) : s.out <+: t.out :=
  feed_keeps (P := fun u => s.out <+: u.out)
    (fun b u _ _ hu hv => hu.trans (out_prefix_decodeLoop (s := { u with rxbuf := u.rxbuf ++ [b] }) hv))
    chunk s t List.prefix_rfl h

theorem out_prefix_flush (h : flush s = .next t) : s.out <+: t.out := by
  unfold flush at h
  split at h
  · cases h; exact List.prefix_rfl
  · exact out_prefix_decodeLoop (s := drop1 s) h

theorem out_prefix_timeoutResend (s : State) : s.out <+: (timeoutResend s).out := by
  rcases timeoutResend_cases s with ⟨-, he⟩ | ⟨-, -, he⟩ | ⟨-, -, he⟩ | ⟨-, he⟩ <;> rw [he]
  · exact out_prefix_requestSync s
  · exact out_prefix_of_append (transmitData_out _ _ s)
  · exact out_prefix_of_append (transmitNak_out _ s)

/-! ### `NEXT_SEQ` moves in the completion check alone -/

/-- If `NEXT_SEQ` moved from `s` to `t`, then by one new-data transmission, the last thing done (R266, R210). -/
def MovedByNewData (s t : State) : Prop :=
  t.win.nextSeq ≠ s.win.nextSeq →
    t.win.nextSeq = s.win.nextSeq + 1 ∧ t.win.nextRetx = t.win.nextSeq ∧ t.pend = .none ∧
      ∃ mid, t.out = s.out ++ mid ++ [.tx (t.dataImage s.win.nextSeq), .rsp (rspWord 3 .ok 0 0 0)]

theorem MovedByNewData.of_nextSeq (h : t.win.nextSeq = s.win.nextSeq) : MovedByNewData s t := fun hne => absurd h hne

theorem MovedByNewData.of_store (h : t.store = s.store) : MovedByNewData s t := .of_nextSeq (congrArg Store.nextSeq h)

/-- The completion check closes an event that has sent nothing new so far: its SEND_DATA branch transmits and answers,
the others leave `NEXT_SEQ` (R210). -/
theorem MovedByNewData.of_completionCheck (hnext : t.win.nextSeq = s.win.nextSeq) (hout : s.out <+: t.out) :
    MovedByNewData s (completionCheck t) := by
  rcases completionCheck_cases t with he | ⟨-, -, he⟩ | ⟨-, -, he⟩ | ⟨hp, hr, hs, -⟩
  · rw [he]; exact .of_nextSeq hnext
  · rw [he]; exact .of_nextSeq hnext
  · rw [he]; exact .of_nextSeq hnext
  · obtain ⟨mid, hmid⟩ := hout
    rw [MovedByNewData, completionCheck_sendData_eq hp hr hs, ← hnext, ← hmid]
    exact fun _ => ⟨rfl, rfl, rfl, mid, rfl⟩

/-! ### The byte stream's events -/

theorem movedByNewData_afterFlush (hframe : StreamFrame s t) (hout : s.out <+: t.out) :
    MovedByNewData s (afterFlush t) := by
  have hnext : (timeoutResend (rearmNak t)).win.nextSeq = s.win.nextSeq :=
    (congrArg Store.nextSeq (timeoutResend_store (rearmNak t))).trans hframe.nextSeq
  by_cases hf : (timeoutResend (rearmNak t)).pstate = .failed
  · rw [afterFlush, if_pos hf]
    exact .of_nextSeq hnext
  · rw [afterFlush_of_not_failed hf]
    exact .of_completionCheck hnext (hout.trans (out_prefix_timeoutResend (rearmNak t)))

theorem movedByNewData_stream {e : InEvent} (he : e.fromStream) (h : handle e s = .next t) : MovedByNewData s t := by
  rcases e.fromStream_iff.mp he with ⟨chunk, rfl⟩ | rfl | rfl
  · obtain ⟨-, -, u, hu, rfl⟩ := rxBytes_eq_next h
    exact .of_completionCheck (streamFrame_feed hu).nextSeq (out_prefix_feed hu)
  · obtain ⟨-, ⟨-, rfl⟩ | ⟨-, u, hu, rfl⟩⟩ := rxTimeout_eq_next h
    · exact .of_store (raiseFatal_store _ (countTimeout s))
    · have hcount : StreamFrame s (countTimeout s) := .of_store rfl
      exact movedByNewData_afterFlush (hcount.trans (streamFrame_flush hu)) (out_prefix_flush (s := countTimeout s) hu)
  · by_cases hp : s.pend = .none
    · exact absurd ((rxError_of_none hp).symm.trans h) nofun
    · cases ((byteStreamErrorIsFatal s).1 hp).symm.trans h
      exact .of_store (raiseFatal_store _ s)

/-! ### Commands -/

theorem movedByNewData_command {op : BitVec 4} {allowed : PState → Bool} {run : State → State}
    (hrun : MovedByNewData s (run s)) : MovedByNewData s (command op allowed run s) := by
  rcases command_cases op allowed run s with ⟨-, he⟩ | ⟨-, -, he⟩ | ⟨-, -, he⟩ <;> rw [he]
  · exact .of_store rfl
  · exact .of_store rfl
  · exact hrun

/-- SEND_DATA emits nothing before its own completion check (R205). -/
theorem movedByNewData_sendDataOp (eom : Bool) (lch rch : Channel) (len : BitVec 12) (s : State) :
    MovedByNewData s (sendDataOp eom lch rch len s) := by
  unfold sendDataOp
  split
  · exact .of_store rfl
  · exact .of_completionCheck rfl (out_prefix_of_eq (fillSlot_out eom lch rch len s))

theorem movedByNewData_exec_command {i : Instr} (hi : isPacket i = false) (ht : exec i s = .next t) :
    MovedByNewData s t := by
  cases i with
  | start role => cases ht; exact movedByNewData_command (by cases role <;> exact .of_store rfl)
  | getBuf => cases ht; exact movedByNewData_command (.of_store rfl)
  | sendData eom lch rch len => cases ht; exact movedByNewData_command (movedByNewData_sendDataOp eom lch rch len s)
  | wait => cases ht; exact movedByNewData_command (.of_store rfl)
  | shutdown => cases ht; exact movedByNewData_command (.of_nextSeq rfl)
  | file flag lch rch => cases ht; exact movedByNewData_command (.of_store rfl)
  | _ => cases hi

theorem movedByNewData_runCommand {w : Word} (h : runCommand w s = .next t) : MovedByNewData s t := by
  unfold runCommand at h
  split at h
  · rename_i i hw
    exact movedByNewData_exec_command (decodeCommand_not_packet hw) h
  · cases h; exact .of_store (illegalCommand_store w _ s)

/-! ### The event -/

theorem bufWrite_nextSeq (addr : Nat) (b : Byte) (s : State) : (bufWrite addr b s).win.nextSeq = s.win.nextSeq := by
  unfold bufWrite
  split <;> rfl

/-- Settles O58: every event but a reset leaves `NEXT_SEQ` up to its completion check, which alone may move it. -/
theorem nextSeqChangesOnlyByNewData : Obligations.NextSeqChangesOnlyByNewData := by
  intro e s t he h
  change MovedByNewData s t
  by_cases hstream : e.fromStream
  · exact movedByNewData_stream hstream h
  · cases e with
    | reset => cases he
    | csrWrite addr v => cases h; exact .of_store (csrWrite_store he)
    | csrRead addr => cases h; exact .of_store rfl
    | bufWrite addr b => cases h; exact .of_nextSeq (bufWrite_nextSeq addr b s)
    | cmd w => exact movedByNewData_runCommand h
    | rxBytes chunk => exact absurd trivial hstream
    | rxTimeout => exact absurd trivial hstream
    | rxError => exact absurd trivial hstream

end

end Sys2Proof.Machine

/-! ## Proofs of the family 60_exceptions: entering `FAILED`, counting errors, and the one way out -/

namespace Sys2Proof.Machine

open Sys2Proof

section

variable {s : State}

/-! ### Fatal exceptions and the error limit -/

/-- Settles O41: `raiseFatal_eq` is the whole next state. -/
theorem fatalEntry : Obligations.FatalEntry := raiseFatal_eq

/-- A saturating increment as a number cut to the register (R32, R33). -/
theorem satInc_eq_ofNat {n : Nat} (x : BitVec n) : satInc x = BitVec.ofNat n (min (x.toNat + 1) (2 ^ n - 1)) := by
  rw [← satInc_toNat, BitVec.ofNat_toNat, BitVec.setWidth_eq]

/-- `ERRCNT` after an error, as a number (R310). -/
theorem tallyError_errcnt_toNat (kind : ErrKind) (s : State) :
    (tallyError kind s).counters.errcnt.toNat = min (s.counters.errcnt.toNat + 1) 65535 := satInc_toNat _

/-- Settles O42: the counting lines in numbers, then `countError` in `READY` and where the decoder is off. -/
theorem errorLimitEndsTheConnection : Obligations.ErrorLimitEndsTheConnection := by
  refine ⟨fun s => ?counting, fun kind s hr => ?ready, fun kind s hn hr => ?other⟩
  case counting =>
    have herrcnt : satInc s.counters.errcnt = BitVec.ofNat 16 (min (s.counters.errcnt.toNat + 1) 65535) :=
      satInc_eq_ofNat _
    have hstat : ∀ x : BitVec 32, satInc x = BitVec.ofNat 32 (min (x.toNat + 1) 0xFFFFFFFF) := satInc_eq_ofNat
    rw [← herrcnt, ← hstat, ← hstat]
    exact ⟨rfl, rfl⟩
  case ready =>
    have hlimit : s.cfg.errLimit ≤ (tallyError kind s).counters.errcnt ↔
        s.cfg.errLimit.toNat ≤ min (s.counters.errcnt.toNat + 1) 65535 := by
      rw [BitVec.le_def, tallyError_errcnt_toNat]
    rw [countError_of_ready kind hr]
    exact ⟨fun hreached => if_pos (hlimit.mpr hreached), fun hbelow => if_neg (mt hlimit.mp (not_le.mpr hbelow))⟩
  case other => exact countError_of_off (State.decoderOn_eq_false hn hr)

/-! ### Nothing but a reset leaves `FAILED` -/

/-- No command is performed in `FAILED` (R202, R321). -/
theorem commandAllowed_failed (i : Instr) : commandAllowed i .failed = false := by cases i <;> rfl

/-- In `FAILED` every command word, legal or not, is answered by a status and nothing else (R112, R115, R321). -/
theorem runCommand_of_failed (hf : s.pstate = .failed) (hp : s.pend = .none) (w : Word) :
    ∃ op st, runCommand w s = .next (s.emitted (.rsp (rspWord op st 0 0 0))) := by
  cases hw : decodeCommand w with
  | ok i =>
    have hrefused := (refusedCommandsChangeNothing.1 i s (decodeCommand_not_packet hw)).2 hp
      (hf ▸ commandAllowed_failed i)
    exact ⟨_, _, (runCommand_of_ok hw s).trans hrefused⟩
  | error e =>
    have hanswer := handle_cmd_of_error hw s
    cases e with
    | reservedOp => exact ⟨_, _, hanswer.trans (congrArg _ (illegalCommand_of_reservedOp hp w))⟩
    | mustBeZero => exact ⟨_, _, hanswer.trans (congrArg _ (illegalCommand_of_mustBeZero hp w))⟩

/-- A register write that is no reset writes the configuration and the flags only (R35, R39). -/
theorem csrWrite_eq_cfg_flags {addr : Nat} {v : Word} (h : isReset (.csrWrite addr v) = false) (s : State) :
    ∃ c f, csrWrite addr v s = { s with cfg := c, flags := f } := by
  have hconfig : ∀ legal c, ∃ c' f, writeConfig legal c s = { s with cfg := c', flags := f } := fun legal c => by
    unfold writeConfig
    split
    · exact ⟨c, s.flags, rfl⟩
    · exact ⟨s.cfg, _, rfl⟩
  unfold csrWrite
  split
  · unfold writeCtrl
    have hreset : v.getLsbD 0 = false := h
    rw [if_neg (ne_true_of_eq_false hreset)]
    split
    · exact ⟨s.cfg, _, rfl⟩
    · exact ⟨s.cfg, s.flags, rfl⟩
  case h_5 => exact ⟨s.cfg, s.flags, rfl⟩
  all_goals exact hconfig _ _

/-- `BufWrite` writes the slot memory and the flags only (R66). -/
theorem bufWrite_eq_slotMem_flags (addr : Nat) (b : Byte) (s : State) :
    ∃ m f, bufWrite addr b s = { s with slotMem := m, flags := f } := by
  by_cases hlent : s.lentOffset addr = true
  · exact ⟨_, s.flags, bufWrite_of_lent hlent b⟩
  · exact ⟨s.slotMem, _, bufWrite_of_not_lent hlent b⟩

/-- The connection stands as it did, and nothing was transmitted (R321). -/
structure ConnectionKept (s t : State) : Prop where
  pstate : t.pstate = s.pstate
  pend : t.pend = s.pend
  failCause : t.failCause = s.failCause
  sent : transmissions t.out = transmissions s.out

/-- An answer to the host is no transmission (R72). -/
theorem connectionKept_emitted {e : OutEvent} (he : transmissions [e] = []) : ConnectionKept s (s.emitted e) where
  pstate := rfl
  pend := rfl
  failCause := rfl
  sent := by rw [State.emitted_out, transmissions_append, he, List.append_nil]

/-- In `FAILED` every event of the host but a reset leaves the connection as it is (R321). -/
theorem handle_of_failed (hf : s.pstate = .failed) (hp : s.pend = .none) {e : InEvent} (he : isReset e = false)
    (hstream : ¬e.fromStream) : ∃ t, handle e s = .next t ∧ ConnectionKept s t := by
  cases e with
  | reset => cases he
  | csrWrite addr v =>
    obtain ⟨c, f, hw⟩ := csrWrite_eq_cfg_flags he s
    exact ⟨_, congrArg Host.Outcome.next hw, rfl, rfl, rfl, rfl⟩
  | csrRead addr => exact ⟨_, rfl, connectionKept_emitted rfl⟩
  | bufWrite addr b =>
    obtain ⟨m, f, hw⟩ := bufWrite_eq_slotMem_flags addr b s
    exact ⟨_, congrArg Host.Outcome.next hw, rfl, rfl, rfl, rfl⟩
  | cmd w =>
    obtain ⟨op, st, hw⟩ := runCommand_of_failed hf hp w
    exact ⟨_, hw, connectionKept_emitted rfl⟩
  | rxBytes chunk => exact absurd trivial hstream
  | rxTimeout => exact absurd trivial hstream
  | rxError => exact absurd trivial hstream

/-- Settles O44: a reset by `handle_of_reset`, the byte stream by `handle_of_none`, the host by `handle_of_failed`. -/
theorem onlyResetLeavesFailed : Obligations.OnlyResetLeavesFailed := by
  refine fun e s hf hp => ⟨fun he => ⟨_, handle_of_reset he s, rfl, rfl⟩, fun he => ?_⟩
  by_cases hstream : e.fromStream
  · exact .inr ⟨e.fromStream_iff.mp hstream, handle_of_none hp hstream⟩
  · obtain ⟨t, ht, hkept⟩ := handle_of_failed hf hp he hstream
    exact .inl ⟨t, ht, hkept.pstate.trans hf, hkept.pend.trans hp, hkept.failCause, hkept.sent⟩

end

end Sys2Proof.Machine

/-! ### Reset (R340) -/

namespace Sys2Proof.Machine

open Sys2Proof

/-- Settles O49: by `handle_of_reset` both reset events run `resetBlock`, whose definition is the stated next state. -/
theorem bothResetsDoTheSame : Obligations.BothResetsDoTheSame := by
  intro e s he
  rw [handle_of_reset he s, resetBlock]

end Sys2Proof.Machine
